-- ==== Sys2Proof/Word.lean ====
section
/-! DEFINITION. The words of the part: bytes, the 16-bit and 32-bit fields of records and
sectors, and the bounded numbers that name streams, ports, pages and slots (00_scope.md section 4). -/

namespace Sys2Proof

/-- One byte of a record, of a page, of a slot. -/
abbrev Byte := BitVec 8

/-- A 16-bit field: a recording tag, a take (R2, R3). -/
abbrev Half := BitVec 16

/-- A sequence number: a 32-bit quantity, compared modulo 2^32 (00_scope.md section 5 (4)). -/
abbrev Seq := BitVec 32

/-- Streams are numbered 0 to 15 (R1). -/
abbrev StreamNo := Fin 16

/-- Drive ports are numbered 0 to 3. -/
abbrev PortNo := Fin 4

/-- Pages are numbered 0 to 511 (R21). -/
abbrev PageNo := Fin 512

/-- Slot-map entries are numbered 0 to 63 (R65). -/
abbrev SlotNo := Fin 64

/-- Add to a counter that stops at its largest value. -/
def satAdd (top a n : Nat) : Nat := min top (a + n)

/-- The largest value of a page counter (R4) and of a port counter (R110). -/
def top32 : Nat := 4294967295

/-- The largest value of a byte counter (R4). -/
def top48 : Nat := 281474976710655

end Sys2Proof
end

