-- ==== Sys2Proof/Syntax.lean ====
section
/-! DEFINITION. The commands of the block: one constructor for each row of spec/opcode_table.json.

A request row carries the request's tag and its payload bytes as they stand in the record, so that
the length and range checks of R149 have something to judge. An event row carries what arrives with
the event: the byte, the message of the drive, the bytes of the frame. Levels of input pins that a
command samples (PERMIT, SPD1, SPD0) are operands of that command (log 3). -/

namespace Sys2Proof

/-- The commands. -/
inductive Instr where
  /-- HRX_BYTE (R145): a byte on HRX; `framing`: its stop bit was low; `permit`: the level of
  PERMIT, sampled if the byte completes a TRACK_FORMAT request (R139). -/
  | hrxByte (b : Byte) (framing permit : Bool)
  /-- INTER_BYTE_TIMEOUT (R145). -/
  | interByteTimeout
  /-- UNKNOWN_REQUEST (R149): a complete request whose code is not in Table 10.2. -/
  | unknownRequest (tag code : Byte) (payload : List Byte)
  /-- HELLO (R154). -/
  | hello (tag : Byte) (payload : List Byte)
  /-- PART_RESET (R155). -/
  | partReset (tag : Byte) (payload : List Byte)
  /-- NOTICE_HOLD (R153). -/
  | noticeHold (tag : Byte) (payload : List Byte)
  /-- NOTICE_RELEASE (R153). -/
  | noticeRelease (tag : Byte) (payload : List Byte)
  /-- FRAME_SET (R63). -/
  | frameSet (tag : Byte) (payload : List Byte)
  /-- SLOT_SET (R66). -/
  | slotSet (tag : Byte) (payload : List Byte)
  /-- SLOT_CLEAR (R67). -/
  | slotClear (tag : Byte) (payload : List Byte)
  /-- PORT_ATTACH (R112). -/
  | portAttach (tag : Byte) (payload : List Byte)
  /-- PORT_DETACH (R124). -/
  | portDetach (tag : Byte) (payload : List Byte)
  /-- PORT_QUERY (R125). -/
  | portQuery (tag : Byte) (payload : List Byte)
  /-- TRACK_FORMAT (R139); `permit`: the level of PERMIT when the port takes the request. -/
  | trackFormat (tag : Byte) (payload : List Byte) (permit : Bool)
  /-- SECTOR_READ (R141). -/
  | sectorRead (tag : Byte) (payload : List Byte)
  /-- SECTOR_WRITE (R143). -/
  | sectorWrite (tag : Byte) (payload : List Byte)
  /-- STREAM_BIND (R9). -/
  | streamBind (tag : Byte) (payload : List Byte)
  /-- STREAM_UNBIND (R19). -/
  | streamUnbind (tag : Byte) (payload : List Byte)
  /-- STREAM_START (R12). -/
  | streamStart (tag : Byte) (payload : List Byte)
  /-- STREAM_STOP (R13). -/
  | streamStop (tag : Byte) (payload : List Byte)
  /-- STREAM_ABORT (R15). -/
  | streamAbort (tag : Byte) (payload : List Byte)
  /-- STREAM_QUERY (R20). -/
  | streamQuery (tag : Byte) (payload : List Byte)
  /-- EXTENT_ADD (R51). -/
  | extentAdd (tag : Byte) (payload : List Byte)
  /-- EXTENT_CLEAR (R53). -/
  | extentClear (tag : Byte) (payload : List Byte)
  /-- RECORD_SENT (R151): the last byte of the record being sent has gone; the strap levels are
  read if this ends the reply to PART_RESET (R155, R156). -/
  | recordSent (spd1 spd0 : Bool)
  /-- RESETN_LOW (R156). -/
  | resetnLow
  /-- LEAVE_RESET (R156): RESETN rises and the straps are read. -/
  | leaveReset (spd1 spd0 : Bool)
  /-- FRAME_BOUNDARY (R60): a frame boundary in MASTER or LOCKED; `sync`: FSY is high on the first
  bit after it (judged in LOCKED); `received`: the bytes of the slots of the frame just completed. -/
  | frameBoundary (sync : Bool) (received : Vector Byte 64)
  /-- FRAME_SYNC_SEEKING (R59): in SEEKING, FSY has been low on `low` falling edges of FCK since the
  last command of this row; `fsy`: its level on the edge after them. -/
  | frameSyncSeeking (low : Nat) (fsy : Bool)
  /-- BIT_CLOCK_STOPPED (R60): 250 µs in LOCKED without the next frame boundary. -/
  | bitClockStopped
  /-- IDENT (R109, R112): the drive's answer to IDENTIFY. -/
  | ident (port : PortNo) (cylinders : Half) (heads sectors : Byte) (ready : Bool)
  /-- IDENTIFY_TIMEOUT (R112). -/
  | identifyTimeout (port : PortNo)
  /-- READY (R122). -/
  | ready (port : PortNo)
  /-- NOT_READY (R120). -/
  | notReady (port : PortNo)
  /-- POSITIONED (R117). -/
  | positioned (port : PortNo) (cylinder : Half)
  /-- POSITION_FAULT (R118). -/
  | positionFault (port : PortNo)
  /-- POSITIONING_TIMEOUT (R117). -/
  | positioningTimeout (port : PortNo)
  /-- RESTORE_TIMEOUT (R119). -/
  | restoreTimeout (port : PortNo)
  /-- MARK_TIMEOUT (R120). -/
  | markTimeout (port : PortNo)
  /-- SECTOR_MARK (R116): the marks that arrive at one moment, at most one from each drive, in
  ascending port number (one mark, but for the ties of R131 (3)). -/
  | sectorMark (marks : List (PortNo × Byte))
  /-- HEADER_READ (R132): the seven header bytes have been read for the port that holds the
  engine; `permit`: the level of PERMIT at this moment (R133). -/
  | headerRead (header : Vector Byte 7) (permit : Bool)
  /-- WRITE_DATA (R134): the payload and trailer have been written. -/
  | writeData
  /-- READ_DATA (R135): the payload and trailer have been read. -/
  | readData (payload : Vector Byte 512) (trailer : Vector Byte 12)
  deriving DecidableEq, Repr

end Sys2Proof
end

