-- ==== Sys2Proof/Machine/State.lean ====
section
/-! DEFINITION. The state of the DM-416: every register, queue, buffer, counter, mode and output
pin the spec gives the seven blocks, as plain data, and the state right after reset. -/

namespace Sys2Proof.Machine

/-! ### Names with codes (Tables 10.4 and 10.5) -/

/-- Result codes (Table 10.4). The failure cause of a transfer is the result code it ended with. -/
inductive Result
  | ok | unknownRequest | badLength | badArgument | state | tagInUse | full | noPage | quota
  | listFull | overlap | range | slotTaken | portAbsent | badGeometry | offline | permit | locked
  | addressFault | positionFault | dataCheck | aborted | faulted
  deriving DecidableEq, Repr

/-- Stream directions (R2). -/
inductive Direction | capture | replay
  deriving DecidableEq, Repr

/-- Policies (R2 (5)): HALT and CONTINUE. -/
inductive Policy | halt | goOn
  deriving DecidableEq, Repr

/-- The eight states of a stream (Table 1.3). -/
inductive StreamState | free | bound | priming | running | hold | draining | ended | faulted
  deriving DecidableEq, Repr

/-- Outcomes of a take (Table 1.5). -/
inductive TakeEnd | stopped | endPage | extentEnd | aborted | unterminated
  deriving DecidableEq, Repr

/-- The end-page state of a capture stream (R74 (4)). -/
inductive EndPageState | none | waiting | made | written
  deriving DecidableEq, Repr

/-- Why a replay stream drains (R91 (3)). -/
inductive DrainReason | stop | endPage | abort
  deriving DecidableEq, Repr

/-- The kinds of claim on the wait list (R30). -/
inductive ClaimKind | endPage | read
  deriving DecidableEq, Repr

/-- Frame roles (R57). -/
inductive Role | off | master | slave
  deriving DecidableEq, Repr

/-- The slot counts of a frame (R56). -/
inductive SlotCount | s32 | s64
  deriving DecidableEq, Repr

/-- The port state of the frame port (R57), with the run count of SEEKING and the bits of the counted
frame that have passed (R59; 0 while the run count is 0), and the miss count of LOCKED (R60). -/
inductive FrameState | off | master | seeking (run : Fin 4) (bits : Nat) | locked (missed : Bool)
  deriving DecidableEq, Repr

/-- The directions of a slot (Table 10.4). -/
inductive SlotDirection | receive | transmit
  deriving DecidableEq, Repr

/-- The eight states of a drive port (Table 7.4). -/
inductive PortState
  | absent | attaching | restoring | idle | positioning | waitSector | active | offline
  deriving DecidableEq, Repr

/-- Offline causes (Table 7.3). -/
inductive OfflineCause | notReady | marks | restore | geometry | noIdent
  deriving DecidableEq, Repr

/-- Phases of the sector engine (R130). -/
inductive Phase | free | header | writeData | readData | format
  deriving DecidableEq, Repr

/-- Host line speeds (00_scope.md section 3). -/
inductive LineSpeed | b115200 | b460800 | b1000000 | b3000000
  deriving DecidableEq, Repr

/-- Causes of a line fault (R146, R148). -/
inductive LineFaultCause | length | check | kind | framing | timeout | rejectOverflow
  deriving DecidableEq, Repr

/-- Causes of an overrun (R77). -/
inductive OverrunCause | quotaReached | poolShort
  deriving DecidableEq, Repr

/-- Reasons of STREAM_PLAYING (R98). -/
inductive PrimingReason | primeLevel | extentsUsed
  deriving DecidableEq, Repr

/-- Queue states of UNDERRUN (R100). -/
inductive QueueState | waitingRead | empty
  deriving DecidableEq, Repr

/-- Causes of FRAME_CHANGE (R61). -/
inductive FrameCause | none | sync | clock
  deriving DecidableEq, Repr

/-- Causes carried by PORT_CHANGE (R123). -/
inductive PortCause | offline (cause : OfflineCause) | ready
  deriving DecidableEq, Repr

/-- The blocks that own requests (Table 9.1). -/
inductive Owner | hostLine | framePort | drivePorts | transfers | streams | extents
  deriving DecidableEq, Repr

/-! ### Transfer entries and the sector's trailer (chapter 8) -/

/-- The four trailer fields that name a sector's place in a recording (section 8.2). -/
structure Trailer where
  recTag : Half := 0
  take : Half := 0
  seq : Seq := 0
  fill : Nat := 0
  deriving DecidableEq, Repr

/-- The five kinds of transfer entry with their owner and what only they carry (Table 8.1). -/
inductive EntryKind
  | streamWrite (stream : StreamNo) (page : PageNo) (trailer : Trailer) (override : Bool)
  | streamRead (stream : StreamNo) (page : PageNo)
  | hostWrite (tag : Byte) (page : PageNo) (trailer : Trailer) (override : Bool)
  | hostRead (tag : Byte) (page : PageNo)
  | format (tag : Byte) (lock : Bool)
  deriving DecidableEq, Repr

/-- A transfer entry (R126). `serial` is the model's own placement number (log 17): it tells two
entries apart and gives the order of issue. A FORMAT entry has LBA none and sector 0. -/
structure Entry where
  serial : Nat
  kind : EntryKind
  port : PortNo
  lba : Option Nat
  cyl : Nat
  head : Nat
  sector : Nat
  addrTries : Nat := 0
  dataTries : Nat := 0
  passed : Nat := 0
  /-- status: ACTIVE (QUEUED when false) -/
  active : Bool := false
  deriving DecidableEq, Repr

/-- What a completed entry hands to its owner: the result, and for a read that reached its trailer
the header flags and trailer fields (R135, R142). -/
structure Completion where
  result : Result
  trailer : Trailer := {}
  flags : Byte := 0
  deriving DecidableEq, Repr

/-! ### Streams (chapter 1) -/

/-- The settings fields (R2), given by STREAM_BIND. -/
structure Settings where
  direction : Direction
  recTag : Half
  quota : Nat
  reserve : Nat
  depth : Nat
  policy : Policy
  idleByte : Byte
  lowMark : Nat
  primeLevel : Nat
  deriving DecidableEq, Repr

/-- The seven counters (R4). -/
structure Counters where
  received : Nat := 0
  lost : Nat := 0
  slips : Nat := 0
  idleSent : Nat := 0
  discarded : Nat := 0
  unreadable : Nat := 0
  gaps : Nat := 0
  deriving DecidableEq, Repr

/-- An extent entry (Table 3.1). -/
structure Extent where
  port : PortNo
  start : Nat
  count : Nat
  override : Bool
  deriving DecidableEq, Repr

/-- A skip-list entry (R85, R86). -/
structure Skip where
  port : PortNo
  lba : Nat
  cause : Result
  deriving DecidableEq, Repr

/-- A page of a ready queue with its sequence and fill (R5, R75). -/
structure ReadyPage where
  page : PageNo
  seq : Seq
  fill : Nat
  deriving DecidableEq, Repr

/-- The status of a play-queue entry (R92), with the trailer read or the cause of the failure. -/
inductive PlayStatus
  | pending
  | read (trailer : Trailer)
  | failed (cause : Result)
  | accepted (trailer : Trailer)
  deriving DecidableEq, Repr

/-- A play-queue entry (R92). -/
structure PlayEntry where
  page : PageNo
  port : PortNo
  lba : Nat
  status : PlayStatus
  deriving DecidableEq, Repr

/-- The fill page (capture; used up at position 512) or the drain page (replay; used up at the
fill of its trailer), with its byte position (Table 1.1), and for a drain page the sequence of its
trailer, which a close goes back to (R101, log 35). -/
structure CurrentPage where
  page : PageNo
  pos : Nat
  fill : Nat
  seq : Seq := 0
  deriving DecidableEq, Repr

/-- A stream record (Table 1.1, R74, R91). The defaults are the values of R1 and R74. -/
structure Stream where
  state : StreamState := .free
  settings : Option Settings := none
  take : Option Half := none
  nextSeq : Option Seq := none
  commitMark : Option Nat := none
  cur : Option CurrentPage := none
  ready : List ReadyPage := []
  play : List PlayEntry := []
  outstanding : Nat := 0
  extents : List Extent := []
  offset : Nat := 0
  skips : List Skip := []
  counters : Counters := {}
  overrun : Bool := false
  underrun : Bool := false
  lowGiven : Bool := false
  stopPart : Option Byte := none
  abortPart : Option Byte := none
  outcome : Option TakeEnd := none
  commitPoint : Seq := 0
  emptyReported : Bool := false
  waitedPort : Option PortNo := none
  endPage : EndPageState := .none
  drainReason : Option DrainReason := none
  deriving DecidableEq, Repr

/-! ### Page pool (chapter 2) -/

/-- The buffer memory: cells (address, byte), address = 512 × page + byte position, in the
canonical form of `Memory.Wf`. An unlisted byte reads 0x00 (log 10). -/
abbrev Memory := List Host.Cell

/-- The page pool (R21, R24, R30). -/
structure Pool where
  mem : Memory
  free : List PageNo
  held : Vector Nat 16
  hostCount : Nat
  waitList : List (StreamNo × ClaimKind)
  deriving DecidableEq, Repr

/-! ### Frame port (chapter 4) -/

/-- The frame port: record, slot map and frame buffers (R57, R65, R69, R72). -/
structure FramePort where
  role : Role
  slotCount : SlotCount
  state : FrameState
  rxMap : Vector (Option StreamNo) 64
  txMap : Vector (Option StreamNo) 64
  /-- the receive buffer the frame in progress arrives in -/
  rxRecv : Vector Byte 64
  /-- the hand-over buffer -/
  rxHand : Vector Byte 64
  /-- the transmit buffer being sent -/
  txSend : Vector Byte 64
  /-- the transmit buffer being filled for the next frame -/
  txFill : Vector Byte 64
  deriving DecidableEq, Repr

/-! ### Drive ports (chapter 7) -/

/-- A drive geometry. -/
structure Geometry where
  cylinders : Nat
  heads : Nat
  sectors : Nat
  deriving DecidableEq, Repr

/-- The drive commands that await an answer (R108). -/
inductive DriveCommand | identify | position (cyl : Nat) | restore
  deriving DecidableEq, Repr

/-- A message the part sends on a drive line (Table 7.1): a command, or the head select of a granted
claim. -/
inductive LineOut
  | command (c : DriveCommand)
  | headSelect (head : Nat)
  deriving DecidableEq, Repr

/-- What the part writes through a drive line: the payload and trailer bytes of a sector (R134), or
the sectors of a formatted track, each with its header, payload and trailer bytes (R140,
`trackImage`). -/
inductive Written
  | sector (bytes : List Byte)
  | track (cyl head : Nat) (lock : Bool) (sectors : Nat)
  deriving DecidableEq, Repr

/-- A port record (Table 7.3), with what chapter 7 implies: the geometry kept for an attach
(R112 (1)), or through a detach for the entry in the engine (R124 (4), R140), the target of the
positioning that last failed (R114), the command outstanding (R108) and the last message sent on the
drive line, and the last bytes written through it whole (log 15, log 41). -/
structure Port where
  state : PortState := .absent
  geometry : Option Geometry := none
  attachGeometry : Option Geometry := none
  curCyl : Option Nat := none
  target : Option Nat := none
  lastMark : Option Nat := none
  chosen : Option Nat := none
  recovery : Option Nat := none
  posTries : Nat := 0
  failedTarget : Option Nat := none
  offlineCause : Option OfflineCause := none
  attachPending : Option Byte := none
  detachPending : Option Byte := none
  queue : List Entry := []
  completed : Nat := 0
  missed : Nat := 0
  posFaults : Nat := 0
  restores : Nat := 0
  outstanding : Option DriveCommand := none
  line : Option LineOut := none
  written : Option Written := none
  deriving DecidableEq, Repr

/-- The sector engine (R130), with the header flags of the sector in hand (R142). -/
structure Engine where
  holder : Option PortNo := none
  phase : Phase := .free
  flags : Byte := 0
  deriving DecidableEq, Repr

/-! ### Host line (chapter 9) -/

/-- The receive states (R145), with the bytes of the record taken so far. -/
inductive Rx
  | hunt
  | length (taken : List Byte)
  | body (len : Nat) (lengthBytes taken : List Byte)
  | check (lengthBytes bodyBytes taken : List Byte)
  deriving DecidableEq, Repr

/-- A busy request slot (R147). -/
structure Slot where
  tag : Byte
  code : Byte
  owner : Owner
  deriving DecidableEq, Repr

/-- A queued reply (R149, R159 (2)). -/
structure Reply where
  tag : Byte
  code : Byte
  result : Result
  payload : List Byte
  deriving DecidableEq, Repr

/-- A queued rejection (R148): TAG_IN_USE when `inUse`, FULL otherwise. -/
structure Rejection where
  tag : Byte
  code : Byte
  inUse : Bool
  deriving DecidableEq, Repr

/-- The final figures of a take (R18). -/
structure FinalFigures where
  stream : StreamNo
  direction : Option Direction
  recTag : Half
  take : Half
  outcome : TakeEnd
  nextSeq : Seq
  commitMark : Nat
  counters : Counters
  skipCount : Nat
  deriving DecidableEq, Repr

/-- The fault figures of a take (R89, R106). -/
structure FaultFigures where
  stream : StreamNo
  take : Half
  cause : Result
  port : PortNo
  lba : Nat
  seq : Seq
  skipCount : Nat
  nextSeq : Seq
  commitMark : Nat
  deriving DecidableEq, Repr

/-- The eleven notices with what they carry (Tables 9.2, 10.5, 10.7). -/
inductive Notice
  | extentLow (stream : StreamNo) (remaining lowMark entries : Nat)
  | extentEmpty (stream : StreamNo) (take : Half) (state : StreamState) (nextSeq : Seq)
      (ready held outstanding : Nat)
  | overrun (stream : StreamNo) (take : Half) (lost held quota : Nat) (cause : OverrunCause)
  | slip (stream : StreamNo) (take : Half) (seq : Seq) (port : PortNo) (lba : Nat) (cause : Result)
      (skipCount : Nat) (place : Option (PortNo × Nat))
  | underrun (stream : StreamNo) (take : Half) (expected : Seq) (play outstanding held : Nat)
      (queue : QueueState)
  | streamPlaying (stream : StreamNo) (take : Half) (reason : PrimingReason) (accepted : Nat)
      (expected : Seq) (discarded unreadable gaps : Nat)
  | streamFault (figures : FaultFigures)
  | streamEnded (figures : FinalFigures)
  | portChange (port : PortNo) (state : PortState) (cause : PortCause) (geometry : Option Geometry)
      (ident : Option Geometry) (completed : Nat)
  | frameChange (locked : Bool) (slotCount : SlotCount) (cause : FrameCause)
  | lineFault (figure total : Nat) (cause : LineFaultCause)
  deriving DecidableEq, Repr

/-- A notice in the queue with its number (R152). -/
structure QueuedNotice where
  number : Nat
  notice : Notice
  deriving DecidableEq, Repr

/-- The transmitter (R151): idle, or sending the head of one of the three queues; a notice being
sent carries the missed count taken when its sending began (R152). -/
inductive Tx | idle | reply | rejection | notice (missed : Nat)
  deriving DecidableEq, Repr

/-- The host line (Table 9.3). -/
structure HostLine where
  rx : Rx := .hunt
  lineSpeed : LineSpeed := .b115200
  slots : List Slot := []
  replies : List Reply := []
  rejections : List Rejection := []
  notices : List QueuedNotice := []
  tx : Tx := .idle
  noticeHold : Bool := false
  noticeNumber : Nat := 0
  missed : Nat := 0
  lineFaults : Nat := 0
  resetPending : Bool := false
  deriving DecidableEq, Repr

/-! ### The part -/

/-- The state of the part and the queue of commands that wait for it. -/
structure State where
  /-- the commands that wait, first in, first out (log 1) -/
  pending : List Instr
  /-- RESETN is low: the part is held in reset (R156) -/
  resetLow : Bool
  host : HostLine
  streams : Vector Stream 16
  pool : Pool
  frame : FramePort
  ports : Vector Port 4
  engine : Engine
  /-- the model's own: how many free choices have been made (log 4) -/
  pickCount : Nat
  /-- the model's own: how many transfer entries have been placed (log 17) -/
  serial : Nat
  deriving DecidableEq, Repr

/-- Why the machine stops with a fault. The block has no such case: every command has an effect or
none (log 12), and the spec's own faults are effects on the state. Nobody raises one; safe. -/
inductive Fault
  deriving DecidableEq, Repr

/-- Why a command is refused. -/
inductive Refusal
  /-- Raised by `exec` for a command that has no meaning yet, and by nothing else; safe. -/
  | notModelled (mnemonic : String)
  deriving DecidableEq, Repr

/-- The page pool after reset (R37). -/
def Pool.reset : Pool where
  mem := []
  free := List.finRange 512
  held := Vector.replicate 16 0
  hostCount := 0
  waitList := []

/-- The frame port after reset (R57, R65, R72). The contents of the receive buffers are the
model's choice (log 9). -/
def FramePort.reset : FramePort where
  role := .off
  slotCount := .s32
  state := .off
  rxMap := Vector.replicate 64 none
  txMap := Vector.replicate 64 none
  rxRecv := Vector.replicate 64 0
  rxHand := Vector.replicate 64 0
  txSend := Vector.replicate 64 0xFF
  txFill := Vector.replicate 64 0xFF

/-- The part right after reset (R1, R37, R57, R65, R110, R130, Table 9.3), with both straps low
(log 9) and no command waiting. -/
def State.reset : State where
  pending := []
  resetLow := false
  host := {}
  streams := Vector.replicate 16 {}
  pool := Pool.reset
  frame := FramePort.reset
  ports := Vector.replicate 4 {}
  engine := {}
  pickCount := 0
  serial := 0

end Sys2Proof.Machine
end

