-- ==== Sys2Proof/Config.lean ====
section
/-! DEFINITION. The free values: what the spec leaves to the part. A constant here has no body,
so nothing proved of the model rests on a value of it. -/

namespace Sys2Proof.Config

/-- FREE VALUE (log 4). Decides, by a count of the choices made before, which of several things
that the spec says are "taken in any order" inside one step is taken next (R34, R69, R79, R30, R152). -/
opaque pick : Nat → Nat

/-- FREE VALUE (log 14). The bytes that had arrived when a read was cut (R137), by the count of the
choices made before. -/
opaque cutByte : Nat → Byte

end Sys2Proof.Config
end

