-- ==== Sys2Proof/Machine/Layout.lean ====
section
/-! DEFINITION. Bytes of records and sectors: byte order, the check value, code values, notices,
figures, frames of records and the sector on the media (chapter 10). -/

namespace Sys2Proof.Machine

/-! ### Byte order (R157) -/

/-- The number a list of bytes spells, most significant byte first (R157). -/
def beNat (bytes : List Byte) : Nat := bytes.foldl (fun n b => 256 * n + b.toNat) 0

/-- A number as `k` bytes, most significant byte first (R157). -/
def beBytes : Nat → Nat → List Byte
  | 0, _ => []
  | k + 1, n => BitVec.ofNat 8 (n / 256 ^ k) :: beBytes k n

/-! ### The check value (R158) -/

/-- One shift of the check register (R158 (3)). -/
def crcShift (r : Half) : Half := if r.msb then (r <<< 1) ^^^ 0x1021 else r <<< 1

/-- One byte into the check register (R158 (2), (3)). -/
def crcByte (r : Half) (b : Byte) : Half :=
  (List.range 8).foldl (fun r _ => crcShift r) (r ^^^ (b.zeroExtend 16 <<< 8))

/-- The check value of a list of bytes (R158). -/
def crc (bytes : List Byte) : Half := bytes.foldl crcByte 0xFFFF

/-- The two check bytes (R158 (4)). -/
def crcBytes (bytes : List Byte) : List Byte := beBytes 2 (crc bytes).toNat

/-! ### Code values (Tables 10.4 and 10.5) -/

/-- A yes/no field (R157 (2)). -/
def boolByte (b : Bool) : Byte := if b then 1 else 0

/-- Result codes (Table 10.4). -/
def Result.code : Result → Byte
  | .ok => 0 | .unknownRequest => 1 | .badLength => 2 | .badArgument => 3 | .state => 4
  | .tagInUse => 5 | .full => 6 | .noPage => 7 | .quota => 8 | .listFull => 9 | .overlap => 10
  | .range => 11 | .slotTaken => 12 | .portAbsent => 13 | .badGeometry => 14 | .offline => 15
  | .permit => 16 | .locked => 17 | .addressFault => 18 | .positionFault => 19 | .dataCheck => 20
  | .aborted => 21 | .faulted => 22

/-- Stream direction codes. -/
def Direction.code : Direction → Byte
  | .capture => 0 | .replay => 1

/-- Policy codes. -/
def Policy.code : Policy → Byte
  | .halt => 0 | .goOn => 1

/-- Stream state codes. -/
def StreamState.code : StreamState → Byte
  | .free => 0 | .bound => 1 | .priming => 2 | .running => 3 | .hold => 4 | .draining => 5
  | .ended => 6 | .faulted => 7

/-- Outcome codes. -/
def TakeEnd.code : TakeEnd → Byte
  | .stopped => 1 | .endPage => 2 | .extentEnd => 3 | .aborted => 4 | .unterminated => 5

/-- An outcome that may be absent (code 0). -/
def outcomeCode (o : Option TakeEnd) : Byte := (o.map TakeEnd.code).getD 0

/-- Role codes. -/
def Role.code : Role → Byte
  | .off => 0 | .master => 1 | .slave => 2

/-- The number of slots of a frame (R56). -/
def SlotCount.toNat : SlotCount → Nat
  | .s32 => 32 | .s64 => 64

/-- Frame port state codes. -/
def FrameState.code : FrameState → Byte
  | .off => 0 | .master => 1 | .seeking .. => 2 | .locked _ => 3

/-- Slot direction codes. -/
def SlotDirection.code : SlotDirection → Byte
  | .receive => 0 | .transmit => 1

/-- Port state codes. -/
def PortState.code : PortState → Byte
  | .absent => 0 | .attaching => 1 | .restoring => 2 | .idle => 3 | .positioning => 4
  | .waitSector => 5 | .active => 6 | .offline => 7

/-- Port cause codes of an offline port. -/
def OfflineCause.code : OfflineCause → Byte
  | .notReady => 1 | .marks => 2 | .restore => 3 | .geometry => 4 | .noIdent => 5

/-- Port cause codes. -/
def PortCause.code : PortCause → Byte
  | .offline c => c.code | .ready => 6

/-- Line speed codes. -/
def LineSpeed.code : LineSpeed → Byte
  | .b115200 => 0 | .b460800 => 1 | .b1000000 => 2 | .b3000000 => 3

/-- The speed the straps select (00_scope.md section 3). -/
def strapSpeed (spd1 spd0 : Bool) : LineSpeed :=
  match spd1, spd0 with
  | false, false => .b115200
  | false, true => .b460800
  | true, false => .b1000000
  | true, true => .b3000000

/-- Line fault cause codes (Table 10.5). -/
def LineFaultCause.code : LineFaultCause → Byte
  | .length => 1 | .check => 2 | .kind => 3 | .framing => 4 | .timeout => 5 | .rejectOverflow => 6

/-- Overrun cause codes. -/
def OverrunCause.code : OverrunCause → Byte
  | .quotaReached => 1 | .poolShort => 2

/-- Priming reason codes. -/
def PrimingReason.code : PrimingReason → Byte
  | .primeLevel => 1 | .extentsUsed => 2

/-- Underrun queue state codes. -/
def QueueState.code : QueueState → Byte
  | .waitingRead => 1 | .empty => 2

/-- Frame change cause codes. -/
def FrameCause.code : FrameCause → Byte
  | .none => 0 | .sync => 1 | .clock => 2

/-! ### Fields -/

/-- A stream number as a byte. -/
def streamByte (i : StreamNo) : Byte := BitVec.ofNat 8 i.val

/-- A port number as a byte. -/
def portByte (p : PortNo) : Byte := BitVec.ofNat 8 p.val

/-- A stream that may be none (0xFF, R157 (4)). -/
def streamByteOr (i : Option StreamNo) : Byte := (i.map streamByte).getD 0xFF

/-- Cylinders (2 bytes), heads, sectors per track; an absent geometry is sent as 0 (R157 (4)). -/
def geometryBytes (g : Option Geometry) : List Byte :=
  let g := g.getD ⟨0, 0, 0⟩
  beBytes 2 g.cylinders ++ beBytes 1 g.heads ++ beBytes 1 g.sectors

/-- The 10 trailer bytes the data check covers (Table 10.8). -/
def Trailer.bytes (t : Trailer) : List Byte :=
  beBytes 2 t.recTag.toNat ++ beBytes 2 t.take.toNat ++ beBytes 4 t.seq.toNat ++ beBytes 2 t.fill

/-- The seven counters in the order of the final figures (34 bytes). -/
def Counters.bytes (c : Counters) : List Byte :=
  beBytes 6 c.received ++ beBytes 6 c.lost ++ beBytes 4 c.slips ++ beBytes 6 c.idleSent ++
    beBytes 4 c.discarded ++ beBytes 4 c.unreadable ++ beBytes 4 c.gaps

/-- The final figures, 50 bytes (section 10.3). -/
def FinalFigures.bytes (f : FinalFigures) : List Byte :=
  [streamByte f.stream, (f.direction.map Direction.code).getD 0] ++ beBytes 2 f.recTag.toNat ++
    beBytes 2 f.take.toNat ++ [f.outcome.code] ++ beBytes 4 f.nextSeq.toNat ++
    beBytes 4 f.commitMark ++ f.counters.bytes ++ beBytes 1 f.skipCount

/-- The fault figures, 22 bytes (section 10.3). -/
def FaultFigures.bytes (f : FaultFigures) : List Byte :=
  [streamByte f.stream] ++ beBytes 2 f.take.toNat ++ [f.cause.code, portByte f.port] ++
    beBytes 4 f.lba ++ beBytes 4 f.seq.toNat ++ beBytes 1 f.skipCount ++
    beBytes 4 f.nextSeq.toNat ++ beBytes 4 f.commitMark

/-! ### Notices (Tables 10.5 and 10.7) -/

/-- Notice kinds (Table 10.5). -/
def Notice.code : Notice → Byte
  | .extentLow .. => 0x01 | .extentEmpty .. => 0x02 | .overrun .. => 0x03 | .slip .. => 0x04
  | .underrun .. => 0x05 | .streamPlaying .. => 0x06 | .streamFault .. => 0x07
  | .streamEnded .. => 0x08 | .portChange .. => 0x09 | .frameChange .. => 0x0A
  | .lineFault .. => 0x0B

/-- Notice payloads after the missed-count byte (Table 10.7). -/
def Notice.bytes : Notice → List Byte
  | .extentLow i remaining lowMark entries =>
    [streamByte i] ++ beBytes 4 remaining ++ beBytes 2 lowMark ++ beBytes 1 entries
  | .extentEmpty i take st seq ready held out =>
    [streamByte i] ++ beBytes 2 take.toNat ++ [st.code] ++ beBytes 4 seq.toNat ++
      beBytes 1 ready ++ beBytes 1 held ++ beBytes 1 out
  | .overrun i take lost held quota cause =>
    [streamByte i] ++ beBytes 2 take.toNat ++ beBytes 1 lost ++ beBytes 1 held ++
      beBytes 1 quota ++ [cause.code]
  | .slip i take seq port lba cause skips place =>
    [streamByte i] ++ beBytes 2 take.toNat ++ beBytes 4 seq.toNat ++ [portByte port] ++
      beBytes 4 lba ++ [cause.code] ++ beBytes 1 skips ++
      (match place with
        | some (p, l) => [portByte p] ++ beBytes 4 l
        | none => [0xFF] ++ beBytes 4 0)
  | .underrun i take expected play out held q =>
    [streamByte i] ++ beBytes 2 take.toNat ++ beBytes 4 expected.toNat ++ beBytes 1 play ++
      beBytes 1 out ++ beBytes 1 held ++ [q.code]
  | .streamPlaying i take reason accepted expected discarded unreadable gaps =>
    [streamByte i] ++ beBytes 2 take.toNat ++ [reason.code] ++ beBytes 1 accepted ++
      beBytes 4 expected.toNat ++ beBytes 4 discarded ++ beBytes 4 unreadable ++ beBytes 4 gaps
  | .streamFault f => f.bytes
  | .streamEnded f => f.bytes
  | .portChange p st cause g ident done =>
    [portByte p, st.code, cause.code] ++ geometryBytes g ++ geometryBytes ident ++ beBytes 1 done
  | .frameChange locked n cause =>
    [if locked then 3 else 2, BitVec.ofNat 8 n.toNat, cause.code]
  | .lineFault figure total cause => beBytes 2 figure ++ beBytes 2 total ++ [cause.code]

/-! ### Records on the host line (R159) -/

/-- The frame of a record (Table 10.1): sync, length, body, check. -/
def frameRecord (body : List Byte) : List Byte :=
  let covered := beBytes 2 body.length ++ body
  0xA5 :: covered ++ crcBytes covered

/-- The body of a reply (R159 (2)). -/
def Reply.body (r : Reply) : List Byte := [2, r.tag, r.code, r.result.code] ++ r.payload

/-- The result of a rejection (R148). -/
def Rejection.result (r : Rejection) : Result := if r.inUse then .tagInUse else .full

/-- The body of a rejection (R148, R159 (2)). -/
def Rejection.body (r : Rejection) : List Byte := [2, r.tag, r.code, r.result.code]

/-- The body of a notice sent with a missed count (R159 (3)). -/
def QueuedNotice.body (n : QueuedNotice) (missed : Nat) : List Byte :=
  [3, BitVec.ofNat 8 n.number, n.notice.code] ++ beBytes 1 missed ++ n.notice.bytes

/-- The bytes of the record being sent on HTX, none while the line is idle (R151). -/
def HostLine.recordOnLine (h : HostLine) : Option (List Byte) :=
  match h.tx with
  | .idle => none
  | .reply => h.replies.head?.map fun r => frameRecord r.body
  | .rejection => h.rejections.head?.map fun r => frameRecord r.body
  | .notice missed => h.notices.head?.map fun n => frameRecord (n.body missed)

/-! ### The sector on the media (R160) -/

/-- The five header bytes the header check covers (Table 10.8). -/
def headerCovered (cyl head sector : Nat) (flags : Byte) : List Byte :=
  beBytes 2 cyl ++ beBytes 1 head ++ beBytes 1 sector ++ [flags]

/-- The formatted mark of a flags byte (Table 10.6). -/
def formattedMark (flags : Byte) : Bool := flags.getLsbD 7

/-- The lock mark of a flags byte (Table 10.6). -/
def lockMark (flags : Byte) : Bool := flags.getLsbD 6

/-- The flags byte a format writes (R160 (1)). -/
def formatFlags (lock : Bool) : Byte := if lock then 0xC0 else 0x80

/-- The payload and trailer the engine sends for a write (R134). -/
def sectorBytes (payload : List Byte) (t : Trailer) : List Byte :=
  payload ++ t.bytes ++ crcBytes (payload ++ t.bytes)

/-- One sector of a formatted track (R140): header, zero payload, blank trailer. -/
def formattedSector (cyl head : Nat) (lock : Bool) (sector : Nat) : List Byte :=
  let h := headerCovered cyl head sector (formatFlags lock)
  h ++ crcBytes h ++ sectorBytes (List.replicate 512 0) {}

/-- The sectors a format writes, in order (R140). -/
def trackImage (cyl head : Nat) (lock : Bool) (sectors : Nat) : List (List Byte) :=
  (List.range sectors).map (formattedSector cyl head lock)

/-- The four trailer fields of the 12 trailer bytes read (Table 10.8). -/
def trailerOf (bytes : List Byte) : Trailer where
  recTag := BitVec.ofNat 16 (beNat (bytes.take 2))
  take := BitVec.ofNat 16 (beNat ((bytes.drop 2).take 2))
  seq := BitVec.ofNat 32 (beNat ((bytes.drop 4).take 4))
  fill := beNat ((bytes.drop 8).take 2)

/-- The data check agrees (R135): the last two trailer bytes are the check of the payload and the
ten trailer bytes before them. -/
def dataCheckAgrees (payload trailer : List Byte) : Bool :=
  trailer.drop 10 == crcBytes (payload ++ trailer.take 10)

/-- The header matches an entry (R132): formatted mark set, header check good, address equal. -/
def headerMatches (header : List Byte) (e : Entry) : Bool :=
  let covered := header.take 5
  formattedMark (header.getD 4 0) &&
    header.drop 5 == crcBytes covered &&
    beNat (header.take 2) == e.cyl && (header.getD 2 0).toNat == e.head &&
    (header.getD 3 0).toNat == e.sector

end Sys2Proof.Machine
end

