-- ==== Sys2Proof/Machine/Ops.lean ====
section
/-! DEFINITION. The shared operations of a step: the work in hand (the state and the messages
between blocks that no one has taken yet), record updates, the buffer memory, the order of things
that come together, and the host line's queues (replies, rejections, notices, line faults). -/

namespace Sys2Proof.Machine

/-! ### The buffer memory (R21, R28) -/

/-- Address of a byte position in a page. -/
def pageAddr (p : PageNo) (k : Nat) : Nat := 512 * p.val + k

/-- The byte at an address; an unlisted address reads 0x00 (log 10). -/
def Memory.read : Memory → Nat → Byte
  | [], _ => 0
  | (k, b) :: m, a => if k = a then b else Memory.read m a

/-- Write one byte, keeping the canonical form. -/
def Memory.write : Memory → Nat → Byte → Memory
  | [], a, b => if b = 0 then [] else [(a, b)]
  | (k, v) :: m, a, b =>
    if a < k then (if b = 0 then (k, v) :: m else (a, b) :: (k, v) :: m)
    else if a = k then (if b = 0 then m else (a, b) :: m)
    else (k, v) :: Memory.write m a b

/-- The canonical form: addresses strictly rising and inside the buffer memory, no cell equal to
what an unlisted address reads as. -/
abbrev Memory.Wf (m : Memory) : Prop :=
  m.Pairwise (fun c d => c.1 < d.1) ∧ ∀ c ∈ m, c.1 < 262144 ∧ c.2 ≠ 0

/-- Set all 512 bytes of a page to 0x00 (R28 (2)). -/
def Memory.clearPage (m : Memory) (p : PageNo) : Memory :=
  m.filter fun c => !(decide (pageAddr p 0 ≤ c.1) && decide (c.1 < pageAddr p 512))

/-- The 512 bytes of a page. -/
def Memory.page (m : Memory) (p : PageNo) : List Byte :=
  (List.range 512).map fun k => m.read (pageAddr p k)

/-- Write a run of bytes into a page from byte position `k` on, none beyond position 511. -/
def Memory.writeFrom (m : Memory) (p : PageNo) : Nat → List Byte → Memory
  | _, [] => m
  | k, b :: bs => Memory.writeFrom (if k < 512 then m.write (pageAddr p k) b else m) p (k + 1) bs

/-- Place a page's bytes. -/
def Memory.writePage (m : Memory) (p : PageNo) (bytes : List Byte) : Memory :=
  (m.clearPage p).writeFrom p 0 bytes

/-! ### The work in hand -/

/-- The blocks that raise notices (Table 9.2, the block table of 00_scope.md). -/
inductive Block
  | hostLine | streamTable | extentUnit | framePort | drivePort (p : PortNo)
  deriving DecidableEq, Repr

/-- The block that raises a notice (Table 9.2): the capture and replay streams are the stream table's. -/
def Notice.block : Notice → Block
  | .extentLow .. => .extentUnit
  | .extentEmpty .. | .overrun .. | .slip .. | .underrun .. | .streamPlaying .. | .streamFault _
  | .streamEnded _ => .streamTable
  | .portChange p .. => .drivePort p
  | .frameChange .. => .framePort
  | .lineFault .. => .hostLine

/-- Messages between the blocks of the part that wait to be taken inside one step (log 5). -/
inductive Event
  /-- a completed entry on its way to its owner (R136) -/
  | result (e : Entry) (done : Completion)
  /-- a port's report to a stream that waits for room in its queue (R79, R93) -/
  | room (p : PortNo) (i : StreamNo)
  /-- the pool's signal to a stream on the wait list, which renews its claim (R30) -/
  | renew (c : StreamNo × ClaimKind)
  /-- a stream has further claims or placements to present (R34, R127; log 36) -/
  | test (i : StreamNo)
  /-- the frame port's arrival or supply request at a stream (R69, R71) -/
  | exchange (i : StreamNo)
  /-- a notice that a block offers to the notice queue (R152; log 6) -/
  | offer (n : Notice)
  /-- a port with a detach pending has nothing in the engine any more (R124) -/
  | detached (p : PortNo)
  deriving DecidableEq, Repr

/-- A message is taken after another that was sent before it: the results of one port come in the order
the port gives them (R120), a detach ends after the last of them (R124), and the notices of one block
come in the order it offers them (R152). Of any other two either may be taken first (R34, R69, R79,
R127, R152; log 4). -/
def Event.follows : Event → Event → Bool
  | .result a _, .result b _ => a.port == b.port
  | .detached p, .result b _ => b.port == p
  | .offer m, .offer n => m.block == n.block
  | _, _ => false

/-- The messages that may be taken next, each with the messages left; `before` are those passed over. -/
def nextEvents (before : List Event) : List Event → List (Event × List Event)
  | [] => []
  | e :: rest =>
    let later := nextEvents (before ++ [e]) rest
    if before.any e.follows then later else (e, before ++ rest) :: later

/-- A step's work in hand: the state, and the agenda of messages not yet taken. -/
structure Work extends State where
  agenda : List Event

/-- A stream record. -/
def Work.stream (w : Work) (i : StreamNo) : Stream := w.streams[i]

/-- A port record. -/
def Work.port (w : Work) (p : PortNo) : Port := w.ports[p]

/-- Change a stream record. -/
def Work.updStream (w : Work) (i : StreamNo) (f : Stream → Stream) : Work :=
  { w with streams := w.streams.set i (f w.streams[i]) }

/-- Change a port record. -/
def Work.updPort (w : Work) (p : PortNo) (f : Port → Port) : Work :=
  { w with ports := w.ports.set p (f w.ports[p]) }

/-- Change the pool. -/
def Work.updPool (w : Work) (f : Pool → Pool) : Work := { w with pool := f w.pool }

/-- Change the host line. -/
def Work.updHost (w : Work) (f : HostLine → HostLine) : Work := { w with host := f w.host }

/-- Change the frame port. -/
def Work.updFrame (w : Work) (f : FramePort → FramePort) : Work := { w with frame := f w.frame }

/-- Change the buffer memory. -/
def Work.updMem (w : Work) (f : Memory → Memory) : Work :=
  w.updPool fun p => { p with mem := f p.mem }

/-- Send a message between blocks. -/
def Work.post (w : Work) (e : Event) : Work := { w with agenda := w.agenda ++ [e] }

/-- Send a message unless the same one is still waiting to be taken. -/
def Work.postOnce (w : Work) (e : Event) : Work := if e ∈ w.agenda then w else w.post e

/-- Send several messages, each unless the same one is still waiting to be taken (log 22). -/
def Work.postAll (w : Work) (l : List Event) : Work := l.foldl Work.postOnce w

/-! ### Things that come together (log 4) -/

/-- A free number below `n + 1`; 0 when `n` is 0. -/
def Work.anyBelow (w : Work) (n : Nat) : Nat × Work :=
  if n = 0 then (0, w) else (Config.pick w.pickCount % (n + 1), { w with pickCount := w.pickCount + 1 })

/-- A message that may be taken next, in a free choice, with it gone from the agenda; none when there
is none. -/
def Work.nextEvent (w : Work) : Option (Event × Work) :=
  match nextEvents [] w.agenda with
  | [] => none
  | m :: ms =>
    let (k, w) := w.anyBelow ms.length
    let m := (m :: ms).getD k m
    some (m.1, { w with agenda := m.2 })

/-! ### The transmitter and the notice queue (R151, R152) -/

/-- The transmitter's choice when the line is idle: the oldest reply, else the oldest rejection,
else, while notice hold is off, the oldest notice, which takes the missed count with it. -/
def HostLine.choose (h : HostLine) : HostLine :=
  match h.tx with
  | .idle =>
    if h.replies ≠ [] then { h with tx := .reply }
    else if h.rejections ≠ [] then { h with tx := .rejection }
    else if h.notices ≠ [] ∧ h.noticeHold = false then
      { h with tx := .notice h.missed, missed := 0 }
    else h
  | _ => h

/-- Raise a notice (R152): placed with the current notice number, or dropped and counted as
missed where the queue holds 32. -/
def HostLine.raise (h : HostLine) (n : Notice) : HostLine :=
  if h.notices.length < 32 then
    HostLine.choose { h with
      notices := h.notices ++ [⟨h.noticeNumber, n⟩]
      noticeNumber := (h.noticeNumber + 1) % 256 }
  else { h with missed := satAdd 255 h.missed 1 }

/-- Bring the first LINE_FAULT notice of a list up to date (R146 (1)); none if it has none. -/
def updateLineFault (total : Nat) (cause : LineFaultCause) :
    List QueuedNotice → Option (List QueuedNotice)
  | [] => none
  | q :: l =>
    match q.notice with
    | .lineFault figure _ _ =>
      some ({ q with notice := .lineFault (satAdd 65535 figure 1) total cause } :: l)
    | _ => (updateLineFault total cause l).map (q :: ·)

/-- The notice queue with its waiting LINE_FAULT notice brought up to date (R146 (1)): a notice
being sent is at the head of the queue and is passed over. -/
def HostLine.updatedNotices (h : HostLine) (total : Nat) (cause : LineFaultCause) :
    Option (List QueuedNotice) :=
  match h.tx, h.notices with
  | .notice _, q :: l => (updateLineFault total cause l).map (q :: ·)
  | _, l => updateLineFault total cause l

/-- A line fault (R146). -/
def HostLine.fault (h : HostLine) (cause : LineFaultCause) : HostLine :=
  let total := satAdd 65535 h.lineFaults 1
  let h := { h with lineFaults := total }
  match h.updatedNotices total cause with
  | some l => { h with notices := l }
  | none => h.raise (.lineFault 1 total cause)

/-- Raise a notice. -/
def Work.raise (w : Work) (n : Notice) : Work := w.updHost (·.raise n)

/-- A block offers a notice in a step in which other blocks may offer theirs: the queue takes it at once
or later in the step, in a free choice, but after what the same block has offered before (R152; log 6). -/
def Work.offer (w : Work) (n : Notice) : Work :=
  if w.agenda.any (Event.follows (.offer n)) then w.post (.offer n)
  else
    let (k, w) := w.anyBelow 1
    if k = 0 then w.raise n else w.post (.offer n)

/-! ### Request slots, replies, rejections (R147 to R150) -/

/-- The load (R147). -/
def HostLine.load (h : HostLine) : Nat := h.slots.length + h.replies.length

/-- The tag belongs to a request in progress (R147 (1)). -/
def HostLine.inProgress (h : HostLine) (tag : Byte) : Bool := h.slots.any (·.tag == tag)

/-- Queue the reply of a request in progress: its slot becomes free (R147, R149). -/
def HostLine.answer (h : HostLine) (tag : Byte) (result : Result) (payload : List Byte) : HostLine :=
  match h.slots.find? (·.tag == tag) with
  | none => h
  | some slot =>
    HostLine.choose { h with
      slots := h.slots.eraseP (·.tag == tag)
      replies := h.replies ++ [⟨tag, slot.code, result, payload⟩] }

/-- Reject a request (R148): the rejection queue holds 4, beyond which the request is discarded as
a line fault. -/
def HostLine.reject (h : HostLine) (tag code : Byte) (inUse : Bool) : HostLine :=
  if h.rejections.length < 4 then
    HostLine.choose { h with rejections := h.rejections ++ [⟨tag, code, inUse⟩] }
  else h.fault .rejectOverflow

/-- Queue the reply of a request in progress. -/
def Work.answer (w : Work) (tag : Byte) (result : Result) (payload : List Byte) : Work :=
  w.updHost (·.answer tag result payload)

/-- Queue the reply of a request in progress whose tag may be absent. -/
def Work.answerOpt (w : Work) (tag : Option Byte) (result : Result) (payload : List Byte) : Work :=
  match tag with
  | some t => w.answer t result payload
  | none => w

/-- The block that owns a request (Table 9.1). -/
def ownerOf (code : Byte) : Owner :=
  match code.toNat with
  | 0x10 | 0x11 | 0x12 => .framePort
  | 0x20 | 0x21 | 0x22 => .drivePorts
  | 0x28 | 0x29 | 0x2A => .transfers
  | 0x30 | 0x31 | 0x32 | 0x33 | 0x34 | 0x35 => .streams
  | 0x40 | 0x41 => .extents
  | _ => .hostLine

/-- The taking of a complete request (R147): rejected with TAG_IN_USE or FULL, or taken into a
free slot and served. While the part is held in reset (R156) or a reset is pending (R155) no record
is taken. -/
def Work.takeRequest (w : Work) (tag code : Byte) (serve : Work → Work) : Work :=
  if w.resetLow || w.host.resetPending then w
  else if w.host.inProgress tag then w.updHost (·.reject tag code true)
  else if 8 ≤ w.host.load then w.updHost (·.reject tag code false)
  else serve (w.updHost fun h => { h with slots := h.slots ++ [⟨tag, code, ownerOf code⟩] })

/-- The length and range checks of a request in its slot (R149 (2), (3)), and its owner's work. -/
def Work.checked {α : Type} (w : Work) (tag : Byte) (payload : List Byte) (len : Nat)
    (parse : List Byte → Option α) (owner : α → Work → Work) : Work :=
  if payload.length ≠ len then w.answer tag .badLength []
  else
    match parse payload with
    | none => w.answer tag .badArgument []
    | some a => owner a w

end Sys2Proof.Machine
end

