-- ==== Sys2Proof/Machine/Pool.lean ====
section
/-! DEFINITION. The page pool: reserve accounting, claims, releases and the wait list
(chapter 2). -/

namespace Sys2Proof.Machine

/-- The settings of a stream that has none (a FREE stream): every figure 0. -/
def Settings.absent : Settings := ⟨.capture, 0, 0, 0, 0, .halt, 0, 0, 0⟩

/-- The settings in force. -/
def Stream.cfg (st : Stream) : Settings := st.settings.getD Settings.absent

/-- All stream numbers. -/
def streamNos : List StreamNo := List.finRange 16

/-- All port numbers. -/
def portNos : List PortNo := List.finRange 4

/-- The held count of a stream (R24). -/
def Work.held (w : Work) (i : StreamNo) : Nat := w.pool.held[i]

/-- The sum of reserves of the streams that are not FREE (R25 (1)). -/
def Work.reserveSum (w : Work) : Nat :=
  (streamNos.map fun i => if (w.stream i).state = .free then 0 else (w.stream i).cfg.reserve).sum

/-- The outstanding reserve need (R25 (2)). -/
def Work.reserveNeed (w : Work) : Nat :=
  (streamNos.map fun i =>
    if (w.stream i).state = .free then 0 else (w.stream i).cfg.reserve - w.held i).sum

/-- The free count (R21). -/
def Work.freeCount (w : Work) : Nat := w.pool.free.length

/-- A page is taken from the head of the free list and zero-filled (R28 (1), (2)). -/
def Pool.takePage (pool : Pool) (p : PageNo) (rest : List PageNo) : Pool :=
  { pool with free := rest, mem := pool.mem.clearPage p }

/-- The pool grants a stream's claim (R26). -/
def Work.grants (w : Work) (i : StreamNo) : Bool :=
  decide (w.held i < (w.stream i).cfg.reserve) ||
    (decide (w.held i < (w.stream i).cfg.quota) && decide (w.reserveNeed < w.freeCount))

/-- A stream's claim (R26, R28, R29): the page and the pool after the grant, or none. -/
def Work.claim (w : Work) (i : StreamNo) : Option (PageNo × Work) :=
  match w.pool.free with
  | [] => none
  | p :: rest =>
    if w.grants i then
      some (p, w.updPool fun pool =>
        { pool.takePage p rest with held := pool.held.set i (pool.held[i] + 1) })
    else none

/-- A host request's claim (R31). -/
def Work.claimHost (w : Work) : Option (PageNo × Work) :=
  match w.pool.free with
  | [] => none
  | p :: rest =>
    if w.reserveNeed < w.freeCount then
      some (p, w.updPool fun pool => { pool.takePage p rest with hostCount := pool.hostCount + 1 })
    else none

/-- The wait list is signalled (R30). Each stream on it gets a signal of its own, which it takes in any
order with the other messages of the step (R34); one still on its way covers the later release. -/
def Work.signal (w : Work) : Work := w.postAll (w.pool.waitList.map .renew)

/-- A stream gives up pages as one release (R33, R35), in the order given. -/
def Work.release (w : Work) (i : StreamNo) (pages : List PageNo) : Work :=
  if pages = [] then w
  else
    (w.updPool fun pool =>
      { pool with
        free := pool.free ++ pages
        held := pool.held.set i (pool.held[i] - pages.length) }).signal

/-- A host request gives up its page (R32, R33). -/
def Work.releaseHost (w : Work) (p : PageNo) : Work :=
  (w.updPool fun pool =>
    { pool with free := pool.free ++ [p], hostCount := pool.hostCount - 1 }).signal

/-- A stream is on the wait list. -/
def Work.waits (w : Work) (i : StreamNo) : Bool := w.pool.waitList.any (·.1 == i)

/-- A stream enters the wait list with a kind of claim (R30). -/
def Work.enterWait (w : Work) (i : StreamNo) (kind : ClaimKind) : Work :=
  if w.waits i then w
  else w.updPool fun pool => { pool with waitList := pool.waitList ++ [(i, kind)] }

/-- A stream leaves the wait list (R30). -/
def Work.leaveWait (w : Work) (i : StreamNo) : Work :=
  w.updPool fun pool => { pool with waitList := pool.waitList.filter (·.1 != i) }

end Sys2Proof.Machine
end

