-- ==== Sys2Proof/Machine/Extents.lean ====
section
/-! DEFINITION. The extent unit: the cursor, the taking of sectors, the low mark and the coverage
of sectors (chapter 3). -/

namespace Sys2Proof.Machine

/-- The stream is PRIMING, RUNNING, HOLD or DRAINING: the states in which a stream is active. -/
def Stream.isActive (st : Stream) : Bool :=
  match st.state with
  | .priming | .running | .hold | .draining => true
  | _ => false

/-- The stream is BOUND or ENDED, or FAULTED with nothing in flight (R11, R19, R53). -/
def Stream.isIdle (st : Stream) : Bool :=
  match st.state with
  | .bound | .ended => true
  | .faulted => st.outstanding == 0
  | _ => false

/-- The sectors the cursor can still hand out (R40). -/
def Stream.remaining (st : Stream) : Nat := (st.extents.map (·.count)).sum - st.offset

/-- The cursor is exhausted (R42). -/
def Stream.exhausted (st : Stream) : Bool := st.extents.isEmpty

/-- The next sector (R39): port, LBA and the override attribute of the head; none when the cursor
is exhausted. -/
def Stream.nextSector (st : Stream) : Option (PortNo × Nat × Bool) :=
  match st.extents with
  | [] => none
  | e :: _ => some (e.port, e.start + st.offset, e.override)

/-- The cursor moves on by one sector; a head used up is retired (R41 (2), (3)). -/
def Stream.advanceCursor (st : Stream) : Stream :=
  match st.extents with
  | [] => st
  | e :: rest =>
    if e.count ≤ st.offset + 1 then { st with extents := rest, offset := 0 }
    else { st with offset := st.offset + 1 }

/-- A sector is taken (R41) and the low-mark test made (R44): the flag is set and EXTENT_LOW offered
when the remaining count comes from above the low mark to it or below it and the flag is clear. -/
def Work.takeSector (w : Work) (i : StreamNo) : Work :=
  let before := w.stream i
  let after := before.advanceCursor
  let low := before.cfg.lowMark
  if before.isActive && !before.lowGiven && decide (low < before.remaining) &&
      decide (after.remaining ≤ low) then
    (w.updStream i fun _ => { after with lowGiven := true }).offer
      (.extentLow i after.remaining low after.extents.length)
  else w.updStream i fun _ => after

/-- The last sector of an extent. -/
def Extent.last (e : Extent) : Nat := e.start + e.count - 1

/-- The extent covers a sector (R38). -/
def Extent.covers (e : Extent) (p : PortNo) (lba : Nat) : Bool :=
  e.port == p && decide (e.start ≤ lba) && decide (lba ≤ e.last)

/-- Two extents overlap (R50). -/
def Extent.overlaps (a b : Extent) : Bool :=
  a.port == b.port && decide (a.start ≤ b.last) && decide (b.start ≤ a.last)

/-- Every extent of every list. -/
def Work.allExtents (w : Work) : List Extent := streamNos.flatMap fun i => (w.stream i).extents

/-- A sector is covered by an entry of some list (R54 (1)). -/
def Work.covered (w : Work) (p : PortNo) (lba : Nat) : Bool :=
  w.allExtents.any (·.covers p lba)

/-- An entry of some list lies on the port (R54 (3)). -/
def Work.extentsOn (w : Work) (p : PortNo) : Bool := w.allExtents.any (·.port == p)

/-- Sectors of a drive (R49). -/
def Geometry.capacity (g : Geometry) : Nat := g.cylinders * g.heads * g.sectors

/-- The first LBA of a track (R54 (2)). -/
def Geometry.trackStart (g : Geometry) (cyl head : Nat) : Nat := (cyl * g.heads + head) * g.sectors

/-- Some sector of a track is covered (R54 (2)). -/
def Work.trackCovered (w : Work) (p : PortNo) (g : Geometry) (cyl head : Nat) : Bool :=
  w.allExtents.any (·.overlaps ⟨p, g.trackStart cyl head, g.sectors, false⟩)

end Sys2Proof.Machine
end

