-- ==== Sys2Proof/Machine/Ports.lean ====
section
/-! DEFINITION. Drive ports and the sector engine as shared operations: the choice of the next
entry, positioning and restore, the placing, completion and withdrawal of entries, engine claims,
going offline (chapters 7 and 8). -/

namespace Sys2Proof.Machine

/-! ### Entries -/

/-- The page an entry reads into or writes from; a FORMAT has none (Table 8.1). -/
def EntryKind.page : EntryKind → Option PageNo
  | .streamWrite _ p _ _ | .streamRead _ p | .hostWrite _ p _ _ | .hostRead _ p => some p
  | .format _ _ => none

/-- The stream that owns an entry, if a stream does. -/
def EntryKind.stream : EntryKind → Option StreamNo
  | .streamWrite i _ _ _ | .streamRead i _ => some i
  | _ => none

/-- The entry is a write (R133). -/
def EntryKind.isWrite : EntryKind → Bool
  | .streamWrite .. | .hostWrite .. => true
  | _ => false

/-- The entry is a format. -/
def EntryKind.isFormat : EntryKind → Bool
  | .format .. => true
  | _ => false

/-- The override of a write entry (Table 8.1). -/
def EntryKind.override : EntryKind → Bool
  | .streamWrite _ _ _ o | .hostWrite _ _ _ o => o
  | _ => false

/-- The trailer to be written (Table 8.1). -/
def EntryKind.trailer : EntryKind → Trailer
  | .streamWrite _ _ t _ | .hostWrite _ _ t _ => t
  | _ => {}

/-- The QUEUED entries in arrival order. -/
def Port.queued (pt : Port) : List Entry := pt.queue.filter fun e => !e.active

/-- The ACTIVE entry. -/
def Port.activeEntry (pt : Port) : Option Entry := pt.queue.find? (·.active)

/-- The entry with a placement number. -/
def Port.entry (pt : Port) (serial : Nat) : Option Entry := pt.queue.find? (·.serial == serial)

/-- The chosen entry. -/
def Port.chosenEntry (pt : Port) : Option Entry := pt.chosen.bind pt.entry

/-- The recovery entry. -/
def Port.recoveryEntry (pt : Port) : Option Entry := pt.recovery.bind pt.entry

/-- The queue has room (R127 (1)). -/
def Port.hasRoom (pt : Port) : Bool := decide (pt.queue.length < 12)

/-- Sectors per track of the recorded geometry, or of the figures kept for an attach (log 20). -/
def Port.sectorsPerTrack (pt : Port) : Nat :=
  match pt.geometry, pt.attachGeometry with
  | some g, _ => g.sectors
  | none, some g => g.sectors
  | none, none => 0

/-- The port is attached and watches its drive: the five states of R120. -/
def Port.watches (pt : Port) : Bool :=
  match pt.state with
  | .idle | .positioning | .waitSector | .active => true
  | .restoring => pt.attachPending.isNone
  | _ => false

/-! ### The choice (R114, R115) -/

/-- The rotational distance of a sector from the last mark (R115). -/
def Port.distance (pt : Port) (sector : Nat) : Nat :=
  let s := pt.sectorsPerTrack
  (sector + s - (pt.lastMark.getD (s - 1) + 1)) % s

/-- The entry of a list that comes soonest; the earlier one where distances are equal (R115). -/
def Port.soonest (pt : Port) : List Entry → Option Entry
  | [] => none
  | e :: l =>
    match pt.soonest l with
    | none => some e
    | some f => if pt.distance f.sector < pt.distance e.sector then some f else some e

/-- What the choice decides (Table 7.6). -/
inductive Choice
  | idle
  | position (cyl : Nat)
  | serve (e : Entry)
  deriving DecidableEq, Repr

/-- The choice without a recovery entry to visit (Table 7.6, rules 2 to 4). -/
def Port.chooseByAge (pt : Port) : Choice :=
  match pt.queued with
  | [] => .idle
  | oldest :: rest =>
    if pt.curCyl ≠ some oldest.cyl ∧ 8 ≤ oldest.passed then .position oldest.cyl
    else
      match pt.soonest ((oldest :: rest).filter fun e => pt.curCyl == some e.cyl) with
      | some e => .serve e
      | none => .position oldest.cyl

/-- The choice (Table 7.6). -/
def Port.choice (pt : Port) : Choice :=
  match pt.queued, pt.recoveryEntry with
  | [], _ => .idle
  | _ :: _, some r => if pt.curCyl ≠ some r.cyl then .position r.cyl else pt.chooseByAge
  | _ :: _, none => pt.chooseByAge

/-- Send a drive command (R108). -/
def Port.send (pt : Port) (c : DriveCommand) : Port :=
  { pt with outstanding := some c, line := some (.command c) }

/-- "Position to" a cylinder (R114): the tries start anew for a target other than the one whose
positioning last failed. -/
def Port.positionTo (pt : Port) (cyl : Nat) : Port :=
  Port.send { pt with
    state := .positioning
    curCyl := none
    target := some cyl
    chosen := none
    posTries := if pt.failedTarget = some cyl then pt.posTries else 0 } (.position cyl)

/-- The port makes the choice, or enters IDLE when nothing is QUEUED (R114). -/
def Port.choose (pt : Port) : Port :=
  match pt.choice with
  | .idle => { pt with state := .idle, chosen := none }
  | .position cyl => pt.positionTo cyl
  | .serve e => { pt with state := .waitSector, chosen := some e.serial }

/-- Send RESTORE, count it and enter RESTORING (R118 (2), R119). -/
def Port.restore (pt : Port) : Port :=
  Port.send { pt with
    state := .restoring
    curCyl := none
    chosen := none
    restores := satAdd top32 pt.restores 1 } .restore

/-- The heads have reached a cylinder: a recovery entry there has been visited (R117 (1)), and the
port chooses. -/
def Port.arrive (pt : Port) (cyl : Nat) : Port :=
  let pt := { pt with
    curCyl := some cyl
    target := none
    posTries := 0
    failedTarget := none
    outstanding := none
    recovery := if pt.recoveryEntry.map Entry.cyl = some cyl then none else pt.recovery }
  pt.choose

/-! ### Reports and completions -/

/-- The streams that wait for room in a port's queue (R79). -/
def Work.waiters (w : Work) (p : PortNo) : List StreamNo :=
  streamNos.filter fun i => (w.stream i).waitedPort == some p

/-- The port reports to each waiting stream that entries have left its queue (R79, R116). -/
def Work.report (w : Work) (p : PortNo) : Work := w.postAll ((w.waiters p).map (.room p))

/-- Send the results of entries that left the queue in one step, in order, and the reports of their
departure, which may reach the waiting streams at any point among them (log 7). -/
def Work.deliver (w : Work) (p : PortNo) (results : List Event) : Work :=
  results.foldl Work.post (w.report p)

/-- A message on which another stream, or a host request, may claim or give back a page or a place in a
queue before this stream's next one. -/
def Event.rivals (i : StreamNo) : Event → Bool
  | .result e _ => e.kind.stream != some i
  | .room _ j | .test j | .exchange j => j != i
  | .renew c => c.1 != i
  | .offer _ | .detached _ => false

/-- Before a stream's next claim or placement, what other holders present in the same step may be taken
first (R34, R127): where there is such, the stream goes on at once or at a message of its own, in a
free choice (log 36). The answer says whether it stops here. -/
def Work.pauses (w : Work) (i : StreamNo) : Bool × Work :=
  if w.agenda.any (Event.rivals i) then
    let (k, w) := w.anyBelow 1
    if k = 0 then (false, w) else (true, w.postOnce (.test i))
  else (false, w)

/-! ### Placing (R127, R121) -/

/-- An entry that arrives in WAIT_SECTOR on the current cylinder takes the chosen entry's place if
it comes sooner (R115). -/
def Port.compare (pt : Port) (e : Entry) : Port :=
  match pt.chosenEntry with
  | none => pt.choose
  | some c =>
    if pt.curCyl = some e.cyl ∧ pt.distance e.sector < pt.distance c.sector then
      { pt with chosen := some e.serial }
    else pt

/-- The port takes an arrival in its state (R127 (4)). -/
def Port.arrival (pt : Port) (e : Entry) : Port :=
  let pt := { pt with queue := pt.queue ++ [e] }
  match pt.state with
  | .idle => pt.choose
  | .waitSector => pt.compare e
  | _ => pt

/-- A new entry for a sector (R127 (2), (3)): cylinder, head and sector by the recorded
geometry. -/
def Port.newEntry (pt : Port) (serial : Nat) (kind : EntryKind) (p : PortNo) (lba : Nat) : Entry :=
  let g := pt.geometry.getD ⟨1, 1, 1⟩
  { serial := serial, kind := kind, port := p, lba := some lba
    cyl := lba / (g.heads * g.sectors)
    head := lba / g.sectors % g.heads
    sector := lba % g.sectors }

/-- Waiting reads whose port has filled up go from the wait list to waiting for that port
(R30 (5), R93; log 23). -/
def Work.portFilled (w : Work) (p : PortNo) : Work :=
  (streamNos.filter fun i =>
      w.pool.waitList.contains (i, .read) && ((w.stream i).nextSector.map (·.1) == some p)).foldl
    (fun w i => (w.leaveWait i).updStream i fun st => { st with waitedPort := some p }) w

/-- An entry is placed on a queue that has room (R127). An OFFLINE port completes it at once
(R121). -/
def Work.placeEntry (w : Work) (p : PortNo) (e : Entry) : Work :=
  let w := { w with serial := w.serial + 1 }
  if (w.port p).state = .offline then w.deliver p [.result e { result := .offline }]
  else
    let w := w.updPort p (·.arrival e)
    if (w.port p).hasRoom then w else w.portFilled p

/-- A sector's entry is placed. -/
def Work.place (w : Work) (p : PortNo) (kind : EntryKind) (lba : Nat) : Work :=
  w.placeEntry p ((w.port p).newEntry w.serial kind p lba)

/-! ### Withdrawal (R128) -/

/-- The entry belongs to the stream and is QUEUED. -/
def Entry.withdrawable (i : StreamNo) (e : Entry) : Bool := !e.active && e.kind.stream == some i

/-- A stream's QUEUED entries leave a port's queue (R116, R128). R116 and R128 do not say whether the port
chooses again after each entry or once after all of them: they all leave, and the port then chooses (and
reports) once, DESIGN CHOICE (log 43). -/
def Port.withdraw (pt : Port) (i : StreamNo) : Port :=
  let gone := pt.queue.filter (Entry.withdrawable i)
  let isGone (s : Option Nat) : Bool := gone.any fun e => s == some e.serial
  let after := { pt with
    queue := pt.queue.filter fun e => !Entry.withdrawable i e
    recovery := if isGone pt.recovery then none else pt.recovery
    chosen := if isGone pt.chosen then none else pt.chosen }
  if isGone pt.chosen && pt.state == .waitSector then after.choose else after

/-- A stream's QUEUED entries on every port, in the order of issue. -/
def Work.withdrawable (w : Work) (i : StreamNo) : List Entry :=
  (portNos.flatMap fun p => (w.port p).queue.filter (Entry.withdrawable i)).foldr
    (fun e l => l.takeWhile (fun f => decide (f.serial < e.serial)) ++ e ::
      l.dropWhile (fun f => decide (f.serial < e.serial))) []

/-- A stream withdraws its QUEUED entries (R128); its outstanding falls by 1 for each. -/
def Work.withdraw (w : Work) (i : StreamNo) : Work :=
  let n := (w.withdrawable i).length
  let w := portNos.foldl (fun w p =>
    if ((w.port p).queue.any (Entry.withdrawable i)) then
      (w.updPort p (·.withdraw i)).report p
    else w) w
  w.updStream i fun st => { st with outstanding := st.outstanding - n }

/-! ### The engine (R129 to R131) -/

/-- The engine is released (R130). -/
def Work.releaseEngine (w : Work) : Work := { w with engine := {} }

/-- The port whose entry holds the engine, with the entry, in a given phase. -/
def Work.inPhase (w : Work) (ph : Phase) : Option (PortNo × Entry) :=
  match w.engine.holder with
  | some p => if w.engine.phase = ph then (w.port p).activeEntry.map (p, ·) else none
  | none => none

/-- After the end of a try: no chosen entry, and the choice again (R116). A port with a detach
pending is ABSENT and chooses nothing. -/
def Port.chooseAgain (pt : Port) : Port :=
  if pt.state = .absent then { pt with chosen := none } else Port.choose { pt with chosen := none }

/-- The passed counts and the completed transfers counter rise and the entry leaves the queue
(R129, R116). -/
def Port.afterTransfer (pt : Port) (e : Entry) : Port :=
  { pt with
    queue := (pt.queue.filter fun f => f.serial != e.serial).map fun f =>
      { f with passed := satAdd 65535 f.passed 1 }
    completed := satAdd top32 pt.completed 1
    recovery := if pt.recovery = some e.serial then none else pt.recovery }

/-- The engine ends its work on an entry with a completion (R116, R129, R136): it is released, the
port counts, reports and chooses again, and the owner gets the result. -/
def Work.engineComplete (w : Work) (p : PortNo) (e : Entry) (done : Completion) : Work :=
  let w := w.releaseEngine.updPort p fun pt => (pt.afterTransfer e).chooseAgain
  let w := w.deliver p [.result e done]
  if (w.port p).detachPending.isSome then w.post (.detached p) else w

/-- Change the entry with a placement number. -/
def Port.updEntry (pt : Port) (serial : Nat) (f : Entry → Entry) : Port :=
  { pt with queue := pt.queue.map fun e => if e.serial = serial then f e else e }

/-- A port claims the engine for its chosen entry (R116, R131). -/
def Work.claimEngine (w : Work) (p : PortNo) (e : Entry) : Work :=
  if w.engine.holder = none then
    { (w.updPort p fun pt =>
        { pt.updEntry e.serial (fun f => { f with active := true }) with
          state := .active
          line := some (.headSelect e.head) }) with
      engine := { holder := some p, phase := if e.kind.isFormat then .format else .header } }
  else
    w.updPort p fun pt =>
      Port.choose { pt with missed := satAdd top32 pt.missed 1, chosen := none }

/-! ### Cuts (R137) -/

/-- An entry of the port is cut: a read in READ_DATA leaves the bytes that had arrived at the start of
its page (R137). How many and which are free values (log 14). -/
def Work.cutRead (w : Work) (p : PortNo) (e : Entry) : Work :=
  match e.kind.page with
  | none => w
  | some page =>
    if w.engine.holder = some p ∧ w.engine.phase = .readData then
      let (n, w) := w.anyBelow 512
      let bytes := (List.range n).map fun k => Config.cutByte (w.pickCount + k)
      { w.updMem (·.writeFrom page 0 bytes) with pickCount := w.pickCount + n }
    else w

/-! ### Going offline (R120) -/

/-- An OFFLINE result. -/
def offlineResult (e : Entry) : Event := .result e { result := .offline }

/-- The PORT_CHANGE notice (R123). -/
def Work.portNotice (w : Work) (p : PortNo) (st : PortState) (cause : PortCause)
    (ident : Option Geometry) (completed : Nat) : Notice :=
  .portChange p st cause (w.port p).geometry ident completed

/-- PORT_CHANGE is raised (R123). -/
def Work.portChange (w : Work) (p : PortNo) (st : PortState) (cause : PortCause)
    (ident : Option Geometry) (completed : Nat) : Work :=
  w.raise (w.portNotice p st cause ident completed)

/-- The port record in OFFLINE (R120 (1)). -/
def Port.offlineRecord (pt : Port) (cause : OfflineCause) : Port :=
  { pt with
    state := .offline, offlineCause := some cause
    curCyl := none, target := none, lastMark := none, chosen := none, recovery := none
    posTries := 0, failedTarget := none, outstanding := none, queue := [] }

/-- An attached port goes OFFLINE (R120): the ACTIVE entry is cut, every entry completes OFFLINE, and
PORT_CHANGE is offered, before, between or after the notices of the owners that take the results
(R152; log 6). How much of a write or a format cut in WRITE_DATA or FORMAT had gone out on the drive line
the spec leaves open: the model shows none of it, `written` stays, DESIGN CHOICE (log 41). -/
def Work.goOffline (w : Work) (p : PortNo) (cause : OfflineCause) : Work :=
  let gone := (w.port p).activeEntry.toList ++ (w.port p).queued
  let w := (w.port p).activeEntry.toList.foldl (·.cutRead p) w
  let w := if w.engine.holder = some p then w.releaseEngine else w
  let w := w.updPort p (·.offlineRecord cause)
  let w := w.post (.offer (w.portNotice p .offline (.offline cause) none gone.length))
  if gone = [] then w else w.deliver p (gone.map offlineResult)

/-- The ACTIVE entry of a port with a detach pending is cut (R124, R137); of a write or a format none shows
in `written`, DESIGN CHOICE (log 41). -/
def Work.cutDetached (w : Work) (p : PortNo) : Work :=
  match (w.port p).activeEntry with
  | none => w
  | some e =>
    let w := w.cutRead p e
    let w := if w.engine.holder = some p then w.releaseEngine else w
    let w := w.updPort p fun pt => { pt with queue := pt.queue.filter fun f => !f.active }
    (w.deliver p [offlineResult e]).post (.detached p)

/-! ### Attach (R112, R113) and failed positionings (R118) -/

/-- An attach ends without a drive: the port is ABSENT again and the request is answered
(R112, R113). -/
def Work.failAttach (w : Work) (p : PortNo) (result : Result) (payload : List Byte) : Work :=
  let tag := (w.port p).attachPending
  (w.updPort p fun pt =>
    { pt with
      state := .absent, attachPending := none, attachGeometry := none, lastMark := none
      outstanding := none }).answerOpt tag result payload

/-- A positioning has failed (R118): on the third failure the QUEUED entries of the target cylinder
complete POSITION_FAULT; the heads are restored. -/
def Work.failPositioning (w : Work) (p : PortNo) : Work :=
  let pt := w.port p
  let counted := { pt with
    posFaults := satAdd top32 pt.posFaults 1
    posTries := pt.posTries + 1
    failedTarget := pt.target }
  if 3 ≤ pt.posTries + 1 then
    let onTarget (e : Entry) : Bool := !e.active && (pt.target == some e.cyl)
    let gone := pt.queue.filter onTarget
    let w := w.updPort p fun _ => Port.restore { counted with
      queue := pt.queue.filter fun e => !onTarget e
      target := none
      posTries := 0
      recovery := if gone.any (fun e => pt.recovery == some e.serial) then none else pt.recovery }
    if gone = [] then w
    else w.deliver p (gone.map fun e => .result e { result := .positionFault })
  else w.updPort p fun _ => counted.restore

end Sys2Proof.Machine
end

