-- ==== Sys2Proof/Machine/Streams.lean ====
section
/-! DEFINITION. What both directions of stream share: widths, figures, the entry into ENDED
(chapter 1). -/

namespace Sys2Proof.Machine

/-- The slot map of a direction. -/
def FramePort.map (f : FramePort) : Direction → Vector (Option StreamNo) 64
  | .capture => f.rxMap
  | .replay => f.txMap

/-- The slots of a map that name a stream, in ascending slot number. -/
def slotsOf (m : Vector (Option StreamNo) 64) (i : StreamNo) : List SlotNo :=
  (List.finRange 64).filter fun n => m[n] == some i

/-- The slots of a stream in its own direction, ascending; a FREE stream has none. -/
def Work.slots (w : Work) (i : StreamNo) : List SlotNo :=
  match (w.stream i).settings with
  | some s => slotsOf (w.frame.map s.direction) i
  | none => []

/-- The width of a stream (R6). -/
def Work.width (w : Work) (i : StreamNo) : Nat := (w.slots i).length

/-- Next sequence, 0 while absent. -/
def Stream.seqNow (st : Stream) : Seq := st.nextSeq.getD 0

/-- Take, 0 while absent. -/
def Stream.takeNow (st : Stream) : Half := st.take.getD 0

/-- Commit mark, 0 while absent. -/
def Stream.markNow (st : Stream) : Nat := st.commitMark.getD 0

/-- The final figures of a stream for an outcome (R18). -/
def Stream.finalFigures (st : Stream) (i : StreamNo) (o : TakeEnd) : FinalFigures where
  stream := i
  direction := st.settings.map (·.direction)
  recTag := st.cfg.recTag
  take := st.takeNow
  outcome := o
  nextSeq := st.seqNow
  commitMark := st.markNow
  counters := st.counters
  skipCount := st.skips.length

/-- The record of a stream that enters ENDED (R17): the outcome is recorded and the pending end
request becomes absent. -/
def Stream.endRecord (st : Stream) (o : TakeEnd) : Stream :=
  { st with
    state := .ended, outcome := some o, stopPart := none, abortPart := none
    waitedPort := none, drainReason := none }

/-- A stream enters ENDED (R17, R16): for an abort the reply to a STOP is ABORTED and comes first,
then the ABORT is answered OK; for a stop the STOP is answered OK; STREAM_ENDED is raised. -/
def Work.endStream (w : Work) (i : StreamNo) (o : TakeEnd) : Work :=
  let st := w.stream i
  let figures := st.finalFigures i o
  let stopResult := if st.abortPart.isSome then Result.aborted else Result.ok
  let w := (w.updStream i (·.endRecord o)).leaveWait i
  let w := w.answerOpt st.stopPart stopResult figures.bytes
  let w := w.answerOpt st.abortPart .ok figures.bytes
  w.raise (.streamEnded figures)

/-- The fault figures of a stream (R89 (5), R106 (5)). -/
def Stream.faultFigures (st : Stream) (i : StreamNo) (cause : Result) (port : PortNo) (lba : Nat)
    (seq : Seq) : FaultFigures where
  stream := i
  take := st.takeNow
  cause := cause
  port := port
  lba := lba
  seq := seq
  skipCount := st.skips.length
  nextSeq := st.seqNow
  commitMark := st.markNow

end Sys2Proof.Machine
end

