-- ==== Sys2Proof/Machine/Capture.lean ====
section
/-! DEFINITION. The capture path: bytes into pages, issue, completion, slip, stop and fault
(chapter 5). -/

namespace Sys2Proof.Machine

/-- The distance of a sequence from another, modulo 2^32 (R74, R91). -/
def seqDistance (origin s : Seq) : Nat := (s - origin).toNat

/-- Change the counters. -/
def Stream.count (st : Stream) (f : Counters → Counters) : Stream :=
  { st with counters := f st.counters }

/-! ### Issuing (R78, R79, R81) -/

/-- Conditions (1) to (4) of R78. -/
def Stream.wantsSector (st : Stream) : Bool :=
  (st.state == .running || st.state == .draining) && st.abortPart.isNone && !st.ready.isEmpty &&
    decide (st.outstanding < st.cfg.depth)

/-- The stream wants a sector and its cursor is exhausted (R81). -/
def Work.wantSector (w : Work) (i : StreamNo) : Work :=
  let st := w.stream i
  let now : StreamState := if st.state = .running then .hold else st.state
  if st.state = .running ∨ st.state = .draining then
    let w := w.updStream i fun st =>
      { st with
        state := now
        emptyReported := true
        waitedPort := if now = .hold then none else st.waitedPort }
    if st.emptyReported then w
    else
      w.raise (.extentEmpty i st.takeNow now st.seqNow st.ready.length (w.held i) st.outstanding)
  else w

/-- The trailer a stream's page is written with (R78, R160 (3)). -/
def Stream.trailerFor (st : Stream) (seq : Seq) (fill : Nat) : Trailer :=
  ⟨st.cfg.recTag, st.takeNow, seq, fill⟩

/-- The cursor's next sector is taken and a write entry placed there (R41, R78, R85). -/
def Work.placeWrite (w : Work) (i : StreamNo) (sec : PortNo × Nat × Bool) (page : PageNo)
    (trailer : Trailer) : Work :=
  (w.takeSector i).place sec.1 (.streamWrite i page trailer sec.2.2) sec.2.1

/-- The head of the ready queue is issued on the cursor's next sector (R78). -/
def Work.issueHead (w : Work) (i : StreamNo) (sec : PortNo × Nat × Bool) : Work :=
  match (w.stream i).ready with
  | [] => w
  | pg :: rest =>
    let w := w.updStream i fun st =>
      { st with ready := rest, outstanding := st.outstanding + 1, waitedPort := none }
    w.placeWrite i sec pg.page ((w.stream i).trailerFor pg.seq pg.fill)

/-- The test of R78, again after each issue; `n` bounds the issues by the ready queue. -/
def Work.captureIssue (i : StreamNo) : Nat → Work → Work
  | 0, w => w
  | n + 1, w =>
    if (w.stream i).wantsSector then
      match (w.stream i).nextSector with
      | none => w.wantSector i
      | some sec =>
        if (w.port sec.1).hasRoom then
          let (stops, w) := (w.issueHead i sec).pauses i
          if stops then w else Work.captureIssue i n w
        else w.updStream i fun st => { st with waitedPort := some sec.1 }
    else w

/-- The test of R88: every page of a stopped take is written. -/
def Work.captureEndTest (w : Work) (i : StreamNo) : Work :=
  let st := w.stream i
  if st.state = .draining ∧ st.abortPart = none ∧ (st.endPage = .made ∨ st.endPage = .written) ∧
      st.ready = [] ∧ st.outstanding = 0 then
    w.endStream i .stopped
  else w

/-- The tests a capture stream makes after an event: R78, then R88. -/
def Work.captureTest (w : Work) (i : StreamNo) : Work :=
  (Work.captureIssue i (w.stream i).ready.length w).captureEndTest i

/-! ### Bytes into pages (R75 to R77) -/

/-- A refused fill claim (R76, R77): the bytes left are lost; an episode begins with a notice. -/
def Work.loseBytes (w : Work) (i : StreamNo) (n : Nat) : Work :=
  let st := w.stream i
  let w := w.updStream i fun st =>
    { st.count (fun c => { c with lost := satAdd top48 c.lost n }) with overrun := true }
  if st.overrun then w
  else
    let cause := if w.held i = st.cfg.quota then OverrunCause.quotaReached else .poolShort
    w.raise (.overrun i st.takeNow n (w.held i) st.cfg.quota cause)

/-- A byte goes into the fill page; a full page joins the ready queue with the next sequence and
the stream tests for issue (R75 (3), (4)). -/
def Work.placeByte (w : Work) (i : StreamNo) (c : CurrentPage) (b : Byte) : Work :=
  let w := w.updMem fun m => m.writeFrom c.page c.pos [b]
  if c.pos + 1 < 512 then w.updStream i fun st => { st with cur := some { c with pos := c.pos + 1 } }
  else
    (w.updStream i fun st =>
      { st with
        cur := none
        ready := st.ready ++ [⟨c.page, st.seqNow, 512⟩]
        nextSeq := some (st.seqNow + 1) }).captureTest i

/-- The bytes of an arrival are placed one at a time (R75). -/
def Work.placeBytes (i : StreamNo) : List Byte → Work → Work
  | [], w => w
  | b :: bs, w =>
    match (w.stream i).cur with
    | some c => Work.placeBytes i bs (w.placeByte i c b)
    | none =>
      match w.claim i with
      | none => w.loseBytes i (bs.length + 1)
      | some (p, w) =>
        let w := w.updStream i fun st => { st with overrun := false }
        Work.placeBytes i bs (w.placeByte i { page := p, pos := 0, fill := 512 } b)

/-- The stream takes frame-end arrivals (R70): RUNNING, or HOLD with no STOP part. -/
def Stream.takesBytes (st : Stream) : Bool :=
  st.state == .running || (st.state == .hold && st.stopPart.isNone)

/-- A frame-end arrival at a capture stream (R70, R75): every byte counts as received. -/
def Work.arrive (w : Work) (i : StreamNo) (bytes : List Byte) : Work :=
  if (w.stream i).takesBytes then
    Work.placeBytes i bytes (w.updStream i fun st =>
      st.count fun c => { c with received := satAdd top48 c.received bytes.length })
  else w

/-! ### Commit mark (R83) -/

/-- The sequences of a stream's write entries: on the ports' queues, and completed with the result
still on its way. -/
def Work.writesInFlight (w : Work) (i : StreamNo) : List Seq :=
  let seqOf (e : Entry) : Option Seq :=
    match e.kind with
    | .streamWrite j _ t _ => if j = i then some t.seq else none
    | _ => none
  (portNos.flatMap fun p => (w.port p).queue.filterMap seqOf) ++
    w.agenda.filterMap fun ev =>
      match ev with
      | .result e _ => seqOf e
      | _ => none

/-- The earliest of a list of sequences by distance from an origin. -/
def earliest (origin : Seq) : List Seq → Seq → Seq
  | [], s => s
  | t :: l, s =>
    let r := earliest origin l s
    if seqDistance origin r < seqDistance origin t then r else t

/-- The commit mark advances to the earliest sequence still unwritten (R83 (3)). Once it has stopped at
2^32 - 1 (R3) the commit point still becomes that sequence, and is no longer the start sequence plus the
commit mark as R74 (1) has it: DESIGN CHOICE (log 44). -/
def Work.advanceCommit (w : Work) (i : StreamNo) : Work :=
  let st := w.stream i
  let e := earliest st.commitPoint (st.ready.map (·.seq) ++ w.writesInFlight i) st.seqNow
  w.updStream i fun st =>
    { st with
      commitMark := some (satAdd top32 st.markNow (seqDistance st.commitPoint e))
      commitPoint := e }

/-! ### Giving up, faults and slips -/

/-- The pages a capture stream holds outside its entries, in the order of R35. -/
def Stream.capturePages (st : Stream) : List PageNo :=
  (st.cur.map (·.page)).toList ++ st.ready.map (·.page)

/-- A capture stream gives up its bytes, queued entries and pages (R15, R89): `more` are pages
released after those of the withdrawn entries. -/
def Work.captureGiveUp (w : Work) (i : StreamNo) (more : List PageNo) : Work :=
  let pages := (w.stream i).capturePages ++
    (w.withdrawable i).filterMap (fun e => e.kind.page) ++ more
  let w := w.updStream i fun st =>
    { st with
      cur := none, ready := [], waitedPort := none
      endPage := if st.endPage = .waiting then .none else st.endPage }
  ((w.withdraw i).leaveWait i).release i pages

/-- A capture stream faults on a failed write (R89). -/
def Work.captureFault (w : Work) (i : StreamNo) (page : PageNo) (seq : Seq) (port : PortNo)
    (lba : Nat) (cause : Result) : Work :=
  let kept := (w.stream i).endPage
  let w := w.updStream i fun st =>
    { st with state := .faulted, outstanding := st.outstanding - 1 }
  let w := (w.captureGiveUp i [page]).updStream i fun st => { st with endPage := kept }
  let st := w.stream i
  let figures := st.faultFigures i cause port lba seq
  let w := w.raise (.streamFault figures)
  let w := w.updStream i fun st => { st with stopPart := none }
  w.answerOpt st.stopPart .faulted figures.bytes

/-- A page goes back into the ready queue at the place of its sequence (R85). -/
def insertBySeq (origin : Seq) (pg : ReadyPage) : List ReadyPage → List ReadyPage
  | [] => [pg]
  | q :: l =>
    if seqDistance origin pg.seq < seqDistance origin q.seq then pg :: q :: l
    else q :: insertBySeq origin pg l

/-- A page whose write failed returns to the ready queue and outstanding falls by 1 (R85 (3)). -/
def Work.returnPage (w : Work) (i : StreamNo) (pg : ReadyPage) (waited : Option PortNo) : Work :=
  w.updStream i fun st =>
    { st with
      ready := insertBySeq st.commitPoint pg st.ready
      outstanding := st.outstanding - 1
      waitedPort := waited }

/-- A slip (R85). -/
def Work.slip (w : Work) (i : StreamNo) (page : PageNo) (t : Trailer) (port : PortNo) (lba : Nat)
    (cause : Result) : Work :=
  let w := w.updStream i fun st =>
    { st.count (fun c => { c with slips := satAdd top32 c.slips 1 }) with
      skips := st.skips ++ [⟨port, lba, cause⟩] }
  let st := w.stream i
  let notice (place : Option (PortNo × Nat)) : Notice :=
    .slip i st.takeNow t.seq port lba cause st.skips.length place
  match st.nextSector with
  | none => ((w.returnPage i ⟨page, t.seq, t.fill⟩ none).wantSector i).raise (notice none)
  | some sec =>
    if (w.port sec.1).hasRoom then
      (w.placeWrite i sec page t).raise (notice (some (sec.1, sec.2.1)))
    else (w.returnPage i ⟨page, t.seq, t.fill⟩ (some sec.1)).raise (notice none)

/-! ### Completions (R83, R84, R15, R90) -/

/-- The page of a completed entry is released and outstanding falls by 1. -/
def Work.finishWrite (w : Work) (i : StreamNo) (page : PageNo) : Work :=
  (w.release i [page]).updStream i fun st => { st with outstanding := st.outstanding - 1 }

/-- An aborted stream ends once nothing is in flight (R16). -/
def Work.abortEndTest (w : Work) (i : StreamNo) : Work :=
  let st := w.stream i
  if st.abortPart.isSome ∧ st.outstanding = 0 then
    w.endStream i (if st.endPage = .made then .unterminated else .aborted)
  else w

/-- A capture stream takes the result of its write entry (R136 (1)). -/
def Work.captureResult (w : Work) (i : StreamNo) (page : PageNo) (t : Trailer) (port : PortNo)
    (lba : Nat) (result : Result) : Work :=
  let st := w.stream i
  let written (st : Stream) : Stream :=
    { st with endPage := if result = .ok ∧ t.fill < 512 then .written else st.endPage }
  if st.state = .faulted then w.finishWrite i page
  else if st.abortPart.isSome then ((w.finishWrite i page).updStream i written).abortEndTest i
  else if result = .ok then
    (((w.finishWrite i page).advanceCommit i).updStream i written).captureTest i
  else if st.cfg.policy = .halt ∨ 8 ≤ st.skips.length then
    w.captureFault i page t.seq port lba result
  else w.slip i page t port lba result

/-! ### Stop (R87) -/

/-- The end page is made (R87 (3)). -/
def Work.makeEndPage (w : Work) (i : StreamNo) (page : PageNo) (fill : Nat) : Work :=
  w.updStream i fun st =>
    { st with
      cur := none
      ready := st.ready ++ [⟨page, st.seqNow, fill⟩]
      nextSeq := some (st.seqNow + 1)
      endPage := .made }

/-- The claim of the end page (R87 (2), R30): granted, it makes the end page of fill 0 and clears
the overrun flag; refused, the stream waits. -/
def Work.claimEndPage (w : Work) (i : StreamNo) : Work :=
  match w.claim i with
  | some (p, w) =>
    ((w.leaveWait i).updStream i fun st => { st with overrun := false }).makeEndPage i p 0
  | none => (w.updStream i fun st => { st with endPage := .waiting }).enterWait i .endPage

/-- The stop of a capture stream (R87). -/
def Work.captureStop (w : Work) (i : StreamNo) : Work :=
  let w :=
    match (w.stream i).cur with
    | some c => w.makeEndPage i c.page c.pos
    | none => w.claimEndPage i
  (w.updStream i fun st =>
    { st with state := if st.state = .running then .draining else st.state }).captureTest i

/-- A signalled stream renews the claim of its end page (R30, R87). -/
def Work.renewEndPage (w : Work) (i : StreamNo) : Work := (w.claimEndPage i).captureTest i

/-- What an accepted EXTENT_ADD does to a capture stream (R82). -/
def Work.captureExtent (w : Work) (i : StreamNo) : Work :=
  (w.updStream i fun st =>
    { st with
      emptyReported := false
      state :=
        if st.state = .hold then (if st.stopPart.isNone then .running else .draining)
        else st.state }).captureTest i

end Sys2Proof.Machine
end

