-- ==== Sys2Proof/Machine/Replay.lean ====
section
/-! DEFINITION. The replay path: issue, completion, judgement, priming, supply, close, extent end,
stop and fault (chapter 6). -/

namespace Sys2Proof.Machine

/-! ### The play queue (R92) -/

/-- The entry is PENDING. -/
def PlayEntry.isPending (e : PlayEntry) : Bool := e.status == .pending

/-- The entry is ACCEPTED. -/
def PlayEntry.isAccepted (e : PlayEntry) : Bool :=
  match e.status with
  | .accepted _ => true
  | _ => false

/-- The accepted count (R92): ACCEPTED entries form a run at the front. -/
def Stream.acceptedCount (st : Stream) : Nat := (st.play.takeWhile (·.isAccepted)).length

/-- The stream is PRIMING or RUNNING. -/
def Stream.isPlaying (st : Stream) : Bool := st.state == .priming || st.state == .running

/-! ### Giving up (R15, R101, R104, R106) -/

/-- The play-queue pages a replay stream gives up: all but those of reads still in flight once the
QUEUED reads (whose pages are `withdrawn`) are gone. -/
def givenUp (withdrawn : List PageNo) (e : PlayEntry) : Bool :=
  !e.isPending || withdrawn.contains e.page

/-- A replay stream withdraws its QUEUED reads, gives up its drain page and its play queue as one
release, and leaves the wait list. The play-queue entry of a read that is ACTIVE stays until that read
completes (R5, R92, R95 (2)), where R15 (3) has an aborted stream's play queue empty at once: DESIGN
CHOICE (log 38). -/
def Work.replayGiveUp (w : Work) (i : StreamNo) : Work :=
  let st := w.stream i
  let withdrawn := (w.withdrawable i).filterMap fun e => e.kind.page
  let pages := (st.cur.map (·.page)).toList ++
    (st.play.filter (givenUp withdrawn)).map (·.page)
  let w := w.updStream i fun st =>
    { st with
      cur := none, waitedPort := none
      play := st.play.filter fun e => !givenUp withdrawn e }
  ((w.withdraw i).leaveWait i).release i pages

/-- A replay stream drains for a reason, or ends at once when nothing is in flight (R101, R105). -/
def Work.drainOrEnd (w : Work) (i : StreamNo) (reason : DrainReason) (o : TakeEnd) : Work :=
  if (w.stream i).outstanding = 0 then w.endStream i o
  else w.updStream i fun st => { st with state := .draining, drainReason := some reason }

/-! ### Priming and extent end (R98, R102) -/

/-- The extent-end test (R102). -/
def Stream.atExtentEnd (st : Stream) : Bool :=
  st.state == .running && st.exhausted && st.cur.isNone && st.play.isEmpty && st.outstanding == 0

/-- The stream ends EXTENT_END if the test succeeds (R102). -/
def Work.extentEndTest (w : Work) (i : StreamNo) : Work :=
  if (w.stream i).atExtentEnd then w.endStream i .extentEnd else w

/-- The priming test (R98): the reason if it succeeds. In case (2) "the judgements of R96 have left
only ACCEPTED entries", so an entry that still waits for its judgement holds it back. R98 gives the two
cases no order: where both hold the reason is PRIME_LEVEL, DESIGN CHOICE (log 40). -/
def Stream.primed (st : Stream) : Option PrimingReason :=
  if st.state = .priming then
    if st.cfg.primeLevel ≤ st.acceptedCount then some .primeLevel
    else if st.exhausted && st.play.all (·.isAccepted) then some .extentsUsed
    else none
  else none

/-- The priming test and the entry into RUNNING (R98), with the extent-end test it makes. -/
def Work.primingTest (w : Work) (i : StreamNo) : Work :=
  match (w.stream i).primed with
  | none => w
  | some reason =>
    let w := w.updStream i fun st => { st with state := .running }
    let st := w.stream i
    (w.raise (.streamPlaying i st.takeNow reason st.acceptedCount st.seqNow st.counters.discarded
      st.counters.unreadable st.counters.gaps)).extentEndTest i

/-! ### Issuing (R93, R94) -/

/-- Conditions (1) to (3) and (5) of R93. -/
def Stream.mayRead (st : Stream) : Bool :=
  st.isPlaying && st.stopPart.isNone && st.abortPart.isNone &&
    decide (st.outstanding < st.cfg.depth) && !st.exhausted

/-- A read is issued into a claimed page (R94 (1) to (4)). -/
def Work.issueRead (w : Work) (i : StreamNo) (sec : PortNo × Nat × Bool) (page : PageNo) : Work :=
  let w := w.updStream i fun st =>
    { st with
      play := st.play ++ [⟨page, sec.1, sec.2.1, .pending⟩]
      outstanding := st.outstanding + 1
      waitedPort := none }
  ((w.leaveWait i).takeSector i).place sec.1 (.streamRead i page) sec.2.1

/-- The test of R93, again after each issue; `n` bounds the issues by the depth. -/
def Work.replayIssue (i : StreamNo) : Nat → Work → Work
  | 0, w => w
  | n + 1, w =>
    if (w.stream i).mayRead then
      match (w.stream i).nextSector with
      | none => w
      | some sec =>
        if w.held i < (w.stream i).cfg.quota then
          if (w.port sec.1).hasRoom then
            match w.claim i with
            | none => w.enterWait i .read
            | some (page, w) =>
              let (stops, w) := (w.issueRead i sec page).pauses i
              if stops then w else Work.replayIssue i n w
          else (w.leaveWait i).updStream i fun st => { st with waitedPort := some sec.1 }
        else w
    else w.leaveWait i

/-- The issue test of a replay stream (R93), and the priming test of an attempt that finds the
cursor exhausted (R98). -/
def Work.replayTest (w : Work) (i : StreamNo) : Work :=
  let w := Work.replayIssue i ((w.stream i).cfg.depth + 1) w
  if (w.stream i).exhausted then w.primingTest i else w

/-- The issue test of a replay stream that has just given pages back: the claims it makes and those of
the streams signalled come in either order (R34). -/
def Work.replayNext (w : Work) (i : StreamNo) : Work :=
  let (stops, w) := w.pauses i
  if stops then w else w.replayTest i

/-! ### Judgement (R96, R97, R106) -/

/-- Verdicts at the judgement head (Table 6.1). -/
inductive Verdict
  | fault (cause : Result)
  | unreadable
  | foreign
  | accepted (gap : Bool) (trailer : Trailer)
  | stale
  deriving DecidableEq, Repr

/-- The verdict on an entry that is READ or FAILED (Table 6.1); none for any other. -/
def Stream.verdict (st : Stream) (e : PlayEntry) : Option Verdict :=
  match e.status with
  | .failed cause => some (if st.cfg.policy = .halt then .fault cause else .unreadable)
  | .read t =>
    some
      (if t.recTag ≠ st.cfg.recTag ∨ t.take ≠ st.takeNow ∨ 512 < t.fill then .foreign
      else if seqDistance st.seqNow t.seq = 0 then .accepted false t
      else if seqDistance st.seqNow t.seq < 2147483648 then .accepted true t
      else .stale)
  | _ => none

/-- A replay stream faults at its judgement head (R106). -/
def Work.replayFault (w : Work) (i : StreamNo) (e : PlayEntry) (cause : Result) : Work :=
  let w := (w.updStream i fun st => { st with state := .faulted }).replayGiveUp i
  let st := w.stream i
  w.raise (.streamFault
    { st.faultFigures i cause e.port e.lba st.seqNow with skipCount := 0 })

/-- The entry at the judgement head leaves the play queue and its page is released (R97 (3), (4)). -/
def Work.discard (w : Work) (i : StreamNo) (front rest : List PlayEntry) (e : PlayEntry)
    (f : Counters → Counters) : Work :=
  (w.updStream i fun st => { st.count f with play := front ++ rest }).release i [e.page]

/-- One judgement (R96, R97): the entry is at the judgement head, between the accepted run and
the rest. -/
def Work.judgeEntry (w : Work) (i : StreamNo) (front rest : List PlayEntry) (e : PlayEntry) :
    Verdict → Work
  | .fault cause => w.replayFault i e cause
  | .unreadable =>
    w.discard i front rest e fun c => { c with unreadable := satAdd top32 c.unreadable 1 }
  | .foreign | .stale =>
    w.discard i front rest e fun c => { c with discarded := satAdd top32 c.discarded 1 }
  | .accepted gap t =>
    w.updStream i fun st =>
      { st.count (fun c => { c with gaps := satAdd top32 c.gaps (if gap then 1 else 0) }) with
        play := front ++ { e with status := .accepted t } :: rest
        nextSeq := some (t.seq + 1) }

/-- Judgement at the head as long as it finds a verdict (R96), with the priming test after each
(R98); `n` bounds the judgements by the play queue. -/
def Work.judge (i : StreamNo) : Nat → Work → Work
  | 0, w => w
  | n + 1, w =>
    if (w.stream i).isPlaying then
      let q := (w.stream i).play
      match q.dropWhile (·.isAccepted) with
      | [] => w
      | e :: rest =>
        match (w.stream i).verdict e with
        | none => w
        | some v => Work.judge i n ((w.judgeEntry i (q.takeWhile (·.isAccepted)) rest e v).primingTest i)
    else w

/-! ### Completions (R95, R105, R107) -/

/-- The play-queue entry of a completed read is marked (R95 (1)). -/
def PlayEntry.mark (e : PlayEntry) (done : Completion) : PlayEntry :=
  { e with status := if done.result = .ok then .read done.trailer else .failed done.result }

/-- The completion of a read in PRIMING or RUNNING (R95 (1)): mark, judge, and the tests. -/
def Work.readDone (w : Work) (i : StreamNo) (page : PageNo) (done : Completion) : Work :=
  let w := w.updStream i fun st =>
    { st with
      outstanding := st.outstanding - 1
      play := st.play.map fun e => if e.page = page then e.mark done else e }
  let w := Work.judge i (w.stream i).play.length w
  ((w.primingTest i).extentEndTest i).replayNext i

/-- The end of a drain (R105, R16): an abort ends ABORTED, a stop STOPPED, a close END_PAGE. An abort of
a drain that a close began ends ABORTED with the end page in the commit mark (R99 (3), R105, R107, where
R162 (3) counts full pages only): DESIGN CHOICE (log 42). -/
def Work.drainEndTest (w : Work) (i : StreamNo) : Work :=
  let st := w.stream i
  if st.state = .draining ∧ st.outstanding = 0 then
    if st.abortPart.isSome then w.endStream i .aborted
    else if st.drainReason = some .endPage then w.endStream i .endPage
    else w.endStream i .stopped
  else w

/-- The completion of a read in DRAINING or FAULTED (R95 (2)). -/
def Work.readDropped (w : Work) (i : StreamNo) (page : PageNo) : Work :=
  let w := w.updStream i fun st => { st with play := st.play.filter fun e => e.page != page }
  (w.finishWrite i page).drainEndTest i

/-- A replay stream takes the result of its read entry (R136 (2)). -/
def Work.replayResult (w : Work) (i : StreamNo) (page : PageNo) (done : Completion) : Work :=
  if (w.stream i).isPlaying then w.readDone i page done else w.readDropped i page

/-! ### Supply (R99 to R102) -/

/-- The close of a replay stream on its end page `c` (R101 (2) to (5)): the expected sequence is the
end page's plus 1, also where pages behind it had been accepted (R101, R162, log 35). -/
def Work.closeReplay (w : Work) (i : StreamNo) (c : CurrentPage) : Work :=
  let w := w.updStream i fun st => { st with nextSeq := some (c.seq + 1) }
  (w.replayGiveUp i).drainOrEnd i .endPage .endPage

/-- The idle bytes that fill an answer after a close or an extent end in it: counted in the same
step, before the take ends, and not underrun bytes (R101 (1), R102). -/
def Work.idleRest (w : Work) (i : StreamNo) (left : Nat) : Work :=
  w.updStream i fun st =>
    st.count fun c => { c with idleSent := satAdd top48 c.idleSent left }

/-- A used-up drain page (R99 (3)) with `left` bytes of the answer still to give: released, counted in
the commit mark, end page included (log 42); a fill below 512 closes the stream, otherwise the tests of
R102 and R93 are made. -/
def Work.usedUp (w : Work) (i : StreamNo) (c : CurrentPage) (left : Nat) : Work :=
  let w := w.updStream i fun st =>
    { st with cur := none, commitMark := some (satAdd top32 st.markNow 1) }
  let w := w.release i [c.page]
  if c.fill < 512 then (w.idleRest i left).closeReplay i c
  else if (w.stream i).atExtentEnd then (w.idleRest i left).endStream i .extentEnd
  else w.replayNext i

/-- An underrun byte (R99 (4), R100). -/
def Work.underrunByte (w : Work) (i : StreamNo) : Work :=
  let st := w.stream i
  let w := w.updStream i fun st =>
    { st.count (fun c => { c with idleSent := satAdd top48 c.idleSent 1 }) with underrun := true }
  if st.underrun then w
  else
    w.raise (.underrun i st.takeNow st.seqNow st.play.length st.outstanding (w.held i)
      (if st.play.any (fun e => !e.isAccepted) then .waitingRead else .empty))

/-- The front entry of the play queue becomes the drain page if it is ACCEPTED and there is none
(R99 (1)). -/
def Stream.nextDrainPage (st : Stream) : Stream :=
  match st.cur, st.play with
  | none, e :: rest =>
    match e.status with
    | .accepted t => { st with cur := some ⟨e.page, 0, t.fill, t.seq⟩, play := rest }
    | _ => st
  | _, _ => st

/-- One byte of a supply answer (R99), with `left` bytes to follow it. A stream that has closed or
ended within the answer gives idle bytes, which were counted then. -/
def Work.supplyByte (w : Work) (i : StreamNo) (left : Nat) : Byte × Work :=
  let idle := (w.stream i).cfg.idleByte
  if (w.stream i).state = .running then
    let w := w.updStream i Stream.nextDrainPage
    match (w.stream i).cur with
    | none => (idle, w.underrunByte i)
    | some c =>
      if c.pos < c.fill then
        let b := w.pool.mem.read (pageAddr c.page c.pos)
        let w := w.updStream i fun st =>
          { st with cur := some { c with pos := c.pos + 1 }, underrun := false }
        (b, if c.pos + 1 = c.fill then w.usedUp i c left else w)
      else (idle, w.usedUp i c (left + 1))
  else (idle, w)

/-- The bytes of a supply answer (R99), `n` of them. -/
def Work.supplyBytes (i : StreamNo) : Nat → Work → List Byte × Work
  | 0, w => ([], w)
  | n + 1, w =>
    let (b, w) := w.supplyByte i n
    let (bs, w) := Work.supplyBytes i n w
    (b :: bs, w)

/-- A supply request at a replay stream (R71): no bytes unless it is RUNNING. -/
def Work.supply (w : Work) (i : StreamNo) (n : Nat) : List Byte × Work :=
  if (w.stream i).state = .running then Work.supplyBytes i n w else ([], w)

/-! ### Stop (R104) and EXTENT_ADD (R103) -/

/-- The stop of a replay stream (R104). -/
def Work.replayStop (w : Work) (i : StreamNo) : Work :=
  (w.replayGiveUp i).drainOrEnd i .stop .stopped

/-- What an accepted EXTENT_ADD does to a replay stream (R103). -/
def Work.replayExtent (w : Work) (i : StreamNo) : Work :=
  if (w.stream i).isPlaying then w.replayTest i else w

end Sys2Proof.Machine
end

