-- ==== Sys2Proof/Machine/Settle.lean ====
section
/-! DEFINITION. The end of a step: the messages between blocks are taken
until none is left (log 4, log 5, log 8). -/

namespace Sys2Proof.Machine

/-- A host request is answered with the result of its entry and its page is released
(R136 (3), R142, R143, R140). -/
def Work.hostResult (w : Work) (e : Entry) (done : Completion) : Work :=
  let place : List Byte := [portByte e.port] ++ beBytes 4 (e.lba.getD 0)
  match e.kind with
  | .hostRead tag page =>
    let data := done.result == .ok || done.result == .dataCheck
    let payload :=
      if data then
        place ++ [done.flags] ++ done.trailer.bytes ++ w.pool.mem.page page
      else place
    (w.answer tag done.result payload).releaseHost page
  | .hostWrite tag page _ _ => (w.answer tag done.result place).releaseHost page
  | .format tag lock =>
    let payload :=
      if done.result = .ok then
        [portByte e.port] ++ beBytes 2 e.cyl ++ beBytes 1 e.head ++ [boolByte lock]
      else []
    w.answer tag done.result payload
  | _ => w

/-- The owner of a completed entry takes its result (R136). -/
def Work.takeResult (w : Work) (e : Entry) (done : Completion) : Work :=
  match e.kind with
  | .streamWrite i page t _ => w.captureResult i page t e.port (e.lba.getD 0) done.result
  | .streamRead i page => w.replayResult i page done
  | _ => w.hostResult e done

/-- A stream tests for issue in its direction. -/
def Work.issueTest (w : Work) (i : StreamNo) : Work :=
  match (w.stream i).cfg.direction with
  | .capture => w.captureTest i
  | .replay => w.replayTest i

/-- A signalled stream presents its claim again, if it still waits (R30). -/
def Work.renew (w : Work) (c : StreamNo × ClaimKind) : Work :=
  if w.pool.waitList.contains c then
    match c.2 with
    | .endPage => w.renewEndPage c.1
    | .read => w.replayTest c.1
  else w

/-- A detach that waited for the engine is answered (R124). -/
def Work.finishDetach (w : Work) (p : PortNo) : Work :=
  let tag := (w.port p).detachPending
  (w.updPort p fun pt => { pt with detachPending := none, attachGeometry := none }).answerOpt tag
    .ok []

/-- Put a stream's bytes into its slots of a transmit buffer, in ascending slot number (R71). -/
def fillSlots : List SlotNo → List Byte → Vector Byte 64 → Vector Byte 64
  | n :: ns, b :: bs, v => fillSlots ns bs (v.set n b)
  | _, _, v => v

/-- One stream's part of a frame end: an arrival at a capture stream (R69), a supply request at a
replay stream (R71), whose answer is sent in the frame that now begins. -/
def Work.exchange (w : Work) (i : StreamNo) : Work :=
  let ns := w.slots i
  match (w.stream i).cfg.direction with
  | .capture => w.arrive i (ns.map fun n => w.frame.rxHand[n])
  | .replay =>
    let (bytes, w) := w.supply i ns.length
    w.updFrame fun f => { f with txSend := fillSlots ns bytes f.txSend }

/-- A stream takes a port's report, if it still waits for room there (R79, R93). -/
def Work.takeRoom (w : Work) (p : PortNo) (i : StreamNo) : Work :=
  if (w.stream i).waitedPort = some p then w.issueTest i else w

/-- One message is taken. -/
def Work.handle (w : Work) : Event → Work
  | .result e done => w.takeResult e done
  | .room p i => w.takeRoom p i
  | .renew c => w.renew c
  | .test i => w.issueTest i
  | .exchange i => w.exchange i
  | .offer n => w.raise n
  | .detached p => w.finishDetach p

/-- The messages are taken one after another, in a free order (R34, log 4); `n` bounds their number. -/
def Work.drain : Nat → Work → Work
  | 0, w => w
  | n + 1, w =>
    match w.nextEvent with
    | none => w
    | some (e, w) => Work.drain n (w.handle e)

/-- The takes of sectors a stream's extent list can still give: its remaining count, except that
each entry gives at least one. -/
def Stream.takesLeft (st : Stream) : Nat :=
  match st.extents with
  | [] => 0
  | e :: rest => max 1 (e.count - st.offset) + (rest.map fun f => max 1 f.count).sum

/-- A bound on the messages still to be taken (log 8): a message causes at most one signal and four
reports to each of the sixteen streams besides the issues it leads to, and each issue takes a
sector. -/
def Work.bound (w : Work) : Nat :=
  128 * ((streamNos.map fun i => (w.stream i).takesLeft).sum + w.agenda.length)

/-- Every message is taken. -/
def Work.settle (w : Work) : Work := Work.drain w.bound w

/-- A command's step: its own work on the state, then every message it sent is taken. -/
def act (f : Work → Work) (s : State) : Host.Outcome State Fault Refusal :=
  .next (f { s with agenda := [] }).settle.toState

/-- A command that reaches the part only while it is not held in reset (R156). -/
def actUnlessReset (f : Work → Work) (s : State) : Host.Outcome State Fault Refusal :=
  act (fun w => if w.resetLow then w else f w) s

end Sys2Proof.Machine
end

