-- ==== Sys2Proof/Machine/DriveEvents.lean ====
section
/-! DEFINITION. The messages of the drives and the timeouts of the drive ports (chapter 7). A
message or timeout for which no rule of the chapter gives an effect in the port's state is ignored
(R109). -/

namespace Sys2Proof.Machine

/-- A geometry the part accepts (R112 (1)). -/
def Geometry.inRange (g : Geometry) : Bool :=
  decide (1 ≤ g.cylinders) && decide (g.cylinders ≤ 4096) && decide (1 ≤ g.heads) &&
    decide (g.heads ≤ 16) && decide (8 ≤ g.sectors) && decide (g.sectors ≤ 64)

/-- IDENT at an attaching port (R112). -/
def Work.identAttach (w : Work) (p : PortNo) (g : Geometry) (ready : Bool) : Work :=
  if !g.inRange then w.failAttach p .badGeometry (geometryBytes (some g))
  else if !ready then w.failAttach p .offline []
  else w.updPort p fun pt => Port.restore { pt with attachGeometry := some g }

/-- IDENT at an OFFLINE port whose drive may have returned (R122). -/
def Work.identReturn (w : Work) (p : PortNo) (g : Geometry) (ready : Bool) : Work :=
  if !ready then
    w.updPort p fun pt => { pt with offlineCause := some .noIdent, outstanding := none }
  else if (w.port p).geometry = some g then w.updPort p Port.restore
  else
    (w.updPort p fun pt =>
      { pt with offlineCause := some .geometry, outstanding := none }).portChange p .offline
      (.offline .geometry) (some g) 0

/-- IDENT (R112, R122). -/
def execIdent (p : PortNo) (cylinders : Half) (heads sectors : Byte) (ready : Bool) (s : State) :
    Host.Outcome State Fault Refusal :=
  actUnlessReset (fun w =>
    let g : Geometry := ⟨cylinders.toNat, heads.toNat, sectors.toNat⟩
    if (w.port p).outstanding = some .identify then
      match (w.port p).state with
      | .attaching => w.identAttach p g ready
      | .offline => w.identReturn p g ready
      | _ => w
    else w) s

/-- IDENTIFY_TIMEOUT (R112 (5), R122 (3)). -/
def execIdentifyTimeout (p : PortNo) (s : State) : Host.Outcome State Fault Refusal :=
  actUnlessReset (fun w =>
    if (w.port p).outstanding = some .identify then
      match (w.port p).state with
      | .attaching => w.failAttach p .portAbsent []
      | .offline =>
        w.updPort p fun pt => { pt with offlineCause := some .noIdent, outstanding := none }
      | _ => w
    else w) s

/-- READY (R122): an OFFLINE port, but for cause GEOMETRY, sends IDENTIFY unless one is
outstanding. -/
def execReady (p : PortNo) (s : State) : Host.Outcome State Fault Refusal :=
  actUnlessReset (fun w =>
    let pt := w.port p
    if pt.state = .offline ∧ pt.offlineCause ≠ some .geometry ∧ pt.outstanding = none then
      w.updPort p (·.send .identify)
    else w) s

/-- NOT_READY (R112 (4), R113 (3), R120, R122 (3), R124). -/
def execNotReady (p : PortNo) (s : State) : Host.Outcome State Fault Refusal :=
  actUnlessReset (fun w =>
    let pt := w.port p
    if pt.watches then w.goOffline p .notReady
    else
      match pt.state with
      | .attaching | .restoring => w.failAttach p .offline []
      | .offline =>
        if pt.outstanding = some .identify then
          w.updPort p fun pt => { pt with offlineCause := some .noIdent, outstanding := none }
        else w
      | .absent => if pt.detachPending.isSome then w.cutDetached p else w
      | _ => w) s

/-- The end of a restore on cylinder 0 (R113 (1), R119 (1), R122 (1)). -/
def Work.restored (w : Work) (p : PortNo) : Work :=
  let pt := w.port p
  match pt.attachPending with
  | some tag =>
    let g := pt.attachGeometry.getD ⟨0, 0, 0⟩
    (w.updPort p fun pt =>
      { pt with
        state := .idle, geometry := some g, attachGeometry := none, attachPending := none
        curCyl := some 0, outstanding := none }).answer tag .ok
      (geometryBytes (some g) ++ beBytes 4 g.capacity)
  | none =>
    if pt.offlineCause.isSome then
      let w := w.updPort p fun pt =>
        { pt with state := .idle, curCyl := some 0, offlineCause := none, outstanding := none }
      (w.portChange p .idle .ready none 0).updPort p Port.choose
    else
      match pt.target with
      | some c =>
        if c = 0 then w.updPort p (·.arrive 0)
        else w.updPort p fun pt => Port.send { pt with state := .positioning } (.position c)
      | none => w.updPort p (·.arrive 0)

/-- POSITIONED (R113 (1), R117 (1), R119 (1), R122 (1)): ignored unless it names the cylinder the
port awaits (R109). -/
def execPositioned (p : PortNo) (cylinder : Half) (s : State) :
    Host.Outcome State Fault Refusal :=
  actUnlessReset (fun w =>
    let pt := w.port p
    let c := cylinder.toNat
    match pt.state with
    | .positioning => if pt.target = some c then w.updPort p (·.arrive c) else w
    | .restoring => if c = 0 then w.restored p else w
    | _ => w) s

/-- A restore has failed (R113 (2), R119 (2)). -/
def Work.restoreFailed (w : Work) (p : PortNo) : Work :=
  if (w.port p).attachPending.isSome then w.failAttach p .positionFault []
  else w.goOffline p .restore

/-- POSITION_FAULT (R113 (2), R118, R119 (2)). -/
def execPositionFault (p : PortNo) (s : State) : Host.Outcome State Fault Refusal :=
  actUnlessReset (fun w =>
    match (w.port p).state with
    | .positioning => w.failPositioning p
    | .restoring => w.restoreFailed p
    | _ => w) s

/-- POSITIONING_TIMEOUT (R117 (2), R118). -/
def execPositioningTimeout (p : PortNo) (s : State) : Host.Outcome State Fault Refusal :=
  actUnlessReset (fun w =>
    if (w.port p).state = .positioning then w.failPositioning p else w) s

/-- RESTORE_TIMEOUT (R113 (2), R119 (2)). -/
def execRestoreTimeout (p : PortNo) (s : State) : Host.Outcome State Fault Refusal :=
  actUnlessReset (fun w =>
    if (w.port p).state = .restoring then w.restoreFailed p else w) s

/-- MARK_TIMEOUT (R120, R124 (4)). -/
def execMarkTimeout (p : PortNo) (s : State) : Host.Outcome State Fault Refusal :=
  actUnlessReset (fun w =>
    let pt := w.port p
    if pt.watches then w.goOffline p .marks
    else if pt.state = .absent ∧ pt.detachPending.isSome then w.cutDetached p
    else w) s

/-- A format ends at the next index mark (R140). -/
def Work.formatEnds (w : Work) (p : PortNo) (e : Entry) (sectors : Nat) : Work :=
  let lock := match e.kind with | .format _ lock => lock | _ => false
  (w.updPort p fun pt => { pt with written := some (.track e.cyl e.head lock sectors) }).engineComplete
    p e { result := .ok }

/-- One SECTOR_MARK (R109, R113, R116, R120, R140). A port with a detach pending has only the end of
its format to take from a mark (R124 (4)). -/
def Work.takeMark (w : Work) (p : PortNo) (mark : Nat) : Work :=
  let pt := w.port p
  let live := pt.watches || (pt.state == .restoring)
  if live && decide (mark < pt.sectorsPerTrack) then
    let w := w.updPort p fun pt => { pt with lastMark := some mark }
    match pt.state, pt.chosenEntry with
    | .waitSector, some e => if e.sector = mark then w.claimEngine p e else w
    | .active, _ =>
      match w.inPhase .format with
      | some (q, e) => if q = p ∧ mark = 0 then w.formatEnds p e pt.sectorsPerTrack else w
      | none => w
    | _, _ => w
  else if pt.state = .absent ∧ pt.detachPending.isSome ∧ mark = 0 then
    match w.inPhase .format with
    | some (q, e) => if q = p then w.formatEnds p e pt.sectorsPerTrack else w
    | none => w
  else w

/-- SECTOR_MARK (R116): the marks of one moment, taken in ascending port number (R131 (3)). -/
def execSectorMark (marks : List (PortNo × Byte)) (s : State) : Host.Outcome State Fault Refusal :=
  actUnlessReset (fun w =>
    portNos.foldl (fun w p =>
      match marks.find? (·.1 == p) with
      | some m => w.takeMark p m.2.toNat
      | none => w) w) s

end Sys2Proof.Machine
end

