-- ==== Sys2Proof/Machine/EngineEvents.lean ====
section
/-! DEFINITION. The sector engine's own events: the end of a header phase, of a write and of a read
(sections 8.4 to 8.6). An event of a phase the engine is not in cannot happen and does nothing
(log 12). -/

namespace Sys2Proof.Machine

/-- A header mismatch (R132): retried after a restore, or completed ADDRESS_FAULT on the third or
with a detach pending. -/
def Work.headerMismatch (w : Work) (p : PortNo) (e : Entry) : Work :=
  if e.addrTries + 1 < 3 ∧ (w.port p).detachPending = none then
    w.releaseEngine.updPort p fun pt =>
      Port.restore
        { pt.updEntry e.serial
            (fun f => { f with addrTries := f.addrTries + 1, active := false }) with
          recovery := some e.serial }
  else w.engineComplete p { e with addrTries := e.addrTries + 1 } { result := .addressFault }

/-- HEADER_READ (R132, R133): mismatch, LOCKED, or the data phase. -/
def execHeaderRead (header : Vector Byte 7) (permit : Bool) (s : State) :
    Host.Outcome State Fault Refusal :=
  actUnlessReset (fun w =>
    match w.inPhase .header with
    | none => w
    | some (p, e) =>
      let flags := header[4]
      if !headerMatches header.toList e then w.headerMismatch p e
      else if e.kind.isWrite then
        if lockMark flags && !(permit && e.kind.override) then
          w.engineComplete p e { result := .locked }
        else { w with engine := { w.engine with phase := .writeData, flags := flags } }
      else { w with engine := { w.engine with phase := .readData, flags := flags } }) s

/-- WRITE_DATA (R134): payload and trailer have been sent whole; the write completes OK. -/
def execWriteData (s : State) : Host.Outcome State Fault Refusal :=
  actUnlessReset (fun w =>
    match w.inPhase .writeData with
    | none => w
    | some (p, e) =>
      let payload := (e.kind.page.map w.pool.mem.page).getD []
      (w.updPort p fun pt =>
        { pt with written := some (.sector (sectorBytes payload e.kind.trailer)) }).engineComplete p e
        { result := .ok }) s

/-- A read whose data check did not agree (R135 (2)): kept for another revolution, or completed
DATA_CHECK on the third try or with a detach pending. -/
def Work.dataMismatch (w : Work) (p : PortNo) (e : Entry) (t : Trailer) : Work :=
  if e.dataTries + 1 < 3 ∧ (w.port p).detachPending = none then
    w.releaseEngine.updPort p fun pt =>
      (pt.updEntry e.serial
        fun f => { f with dataTries := f.dataTries + 1, active := false }).chooseAgain
  else
    w.engineComplete p { e with dataTries := e.dataTries + 1 }
      { result := .dataCheck, trailer := t, flags := w.engine.flags }

/-- READ_DATA (R135): the payload is in the entry's page; the data check decides. -/
def execReadData (payload : Vector Byte 512) (trailer : Vector Byte 12) (s : State) :
    Host.Outcome State Fault Refusal :=
  actUnlessReset (fun w =>
    match w.inPhase .readData with
    | none => w
    | some (p, e) =>
      let w := match e.kind.page with
        | some page => w.updMem (·.writePage page payload.toList)
        | none => w
      let t := trailerOf trailer.toList
      if dataCheckAgrees payload.toList trailer.toList then
        w.engineComplete p e { result := .ok, trailer := t, flags := w.engine.flags }
      else w.dataMismatch p e t) s

end Sys2Proof.Machine
end

