-- ==== Sys2Proof/Machine/Operands.lean ====
section
/-! DEFINITION. The operands of requests: the payload length each request code requires
(Table 10.2) and the arguments a payload of that length carries, none where an argument lies outside
the range its owning chapter gives it (R149 (2), (3), R157). -/

namespace Sys2Proof.Machine

/-- The payload length a request code requires; none for a code the part does not know
(Table 10.2). -/
def requestLength (code : Byte) : Option Nat :=
  match code.toNat with
  | 0x01 => some 0 | 0x02 => some 0 | 0x03 => some 0 | 0x04 => some 0
  | 0x10 => some 2 | 0x11 => some 3 | 0x12 => some 2
  | 0x20 => some 1 | 0x21 => some 1 | 0x22 => some 1
  | 0x28 => some 5 | 0x29 => some 5 | 0x2A => some 528
  | 0x30 => some 12 | 0x31 => some 1 | 0x32 => some 7 | 0x33 => some 1 | 0x34 => some 1
  | 0x35 => some 1
  | 0x40 => some 9 | 0x41 => some 1
  | _ => none

/-- A stream number 0 to 15. -/
def parseStream (b : Byte) : Option StreamNo :=
  if h : b.toNat < 16 then some ⟨b.toNat, h⟩ else none

/-- A port number 0 to 3. -/
def parsePort (b : Byte) : Option PortNo :=
  if h : b.toNat < 4 then some ⟨b.toNat, h⟩ else none

/-- A slot number 0 to 63. -/
def parseSlot (b : Byte) : Option SlotNo :=
  if h : b.toNat < 64 then some ⟨b.toNat, h⟩ else none

/-- A yes/no field: 0 or 1 (R157 (2)). -/
def parseBool (b : Byte) : Option Bool :=
  if b = 0 then some false else if b = 1 then some true else none

/-- A stream direction. -/
def parseDirection (b : Byte) : Option Direction :=
  if b = 0 then some .capture else if b = 1 then some .replay else none

/-- A policy. -/
def parsePolicy (b : Byte) : Option Policy :=
  if b = 0 then some .halt else if b = 1 then some .goOn else none

/-- A role. -/
def parseRole (b : Byte) : Option Role :=
  if b = 0 then some .off else if b = 1 then some .master else if b = 2 then some .slave else none

/-- A slot count, sent as the number itself (R157 (1)). -/
def parseSlotCount (b : Byte) : Option SlotCount :=
  if b = 32 then some .s32 else if b = 64 then some .s64 else none

/-- A slot direction. -/
def parseSlotDirection (b : Byte) : Option SlotDirection :=
  if b = 0 then some .receive else if b = 1 then some .transmit else none

/-- No arguments. -/
def parseNone (_ : List Byte) : Option Unit := some ()

/-- One stream number. -/
def parseStreamArg (l : List Byte) : Option StreamNo := parseStream (l.getD 0 0)

/-- One port number. -/
def parsePortArg (l : List Byte) : Option PortNo := parsePort (l.getD 0 0)

/-- FRAME_SET: role, slot count (R62). -/
def parseFrameSet (l : List Byte) : Option (Role × SlotCount) := do
  let role ← parseRole (l.getD 0 0)
  let n ← parseSlotCount (l.getD 1 0)
  some (role, n)

/-- SLOT_SET: slot, direction, stream (R66). -/
def parseSlotSet (l : List Byte) : Option (SlotNo × SlotDirection × StreamNo) := do
  let n ← parseSlot (l.getD 0 0)
  let d ← parseSlotDirection (l.getD 1 0)
  let i ← parseStream (l.getD 2 0)
  some (n, d, i)

/-- SLOT_CLEAR: slot, direction (R67). -/
def parseSlotClear (l : List Byte) : Option (SlotNo × SlotDirection) := do
  let n ← parseSlot (l.getD 0 0)
  let d ← parseSlotDirection (l.getD 1 0)
  some (n, d)

/-- The arguments of TRACK_FORMAT (R139). -/
structure FormatArgs where
  port : PortNo
  cyl : Nat
  head : Nat
  lock : Bool
  deriving DecidableEq, Repr

/-- TRACK_FORMAT: port, cylinder 0 to 4095, head 0 to 15, lock (R139). -/
def parseFormat (l : List Byte) : Option FormatArgs := do
  let p ← parsePort (l.getD 0 0)
  let lock ← parseBool (l.getD 4 0)
  let cyl := beNat ((l.drop 1).take 2)
  let head := (l.getD 3 0).toNat
  if cyl ≤ 4095 ∧ head ≤ 15 then some ⟨p, cyl, head, lock⟩ else none

/-- SECTOR_READ: port, LBA 0 to 2^32 - 1 (R141). -/
def parseSectorRead (l : List Byte) : Option (PortNo × Nat) := do
  let p ← parsePort (l.getD 0 0)
  some (p, beNat ((l.drop 1).take 4))

/-- The arguments of SECTOR_WRITE (R143). -/
structure WriteArgs where
  port : PortNo
  lba : Nat
  trailer : Trailer
  override : Bool
  payload : List Byte
  deriving DecidableEq, Repr

/-- SECTOR_WRITE: a recording tag of 0 or a fill above 512 is refused (R143). -/
def parseSectorWrite (l : List Byte) : Option WriteArgs := do
  let p ← parsePort (l.getD 0 0)
  let o ← parseBool (l.getD 15 0)
  let recTag := beNat ((l.drop 5).take 2)
  let fill := beNat ((l.drop 13).take 2)
  if 1 ≤ recTag ∧ fill ≤ 512 then
    some {
      port := p
      lba := beNat ((l.drop 1).take 4)
      trailer := {
        recTag := BitVec.ofNat 16 recTag
        take := BitVec.ofNat 16 (beNat ((l.drop 7).take 2))
        seq := BitVec.ofNat 32 (beNat ((l.drop 9).take 4))
        fill := fill }
      override := o
      payload := l.drop 16 }
  else none

/-- STREAM_BIND: the ranges of R9. -/
def parseBind (l : List Byte) : Option (StreamNo × Settings) := do
  let i ← parseStream (l.getD 0 0)
  let d ← parseDirection (l.getD 1 0)
  let policy ← parsePolicy (l.getD 7 0)
  let recTag := beNat ((l.drop 2).take 2)
  let quota := (l.getD 4 0).toNat
  let reserve := (l.getD 5 0).toNat
  let depth := (l.getD 6 0).toNat
  let prime := (l.getD 11 0).toNat
  if 1 ≤ recTag ∧ 2 ≤ quota ∧ quota ≤ 64 ∧ 1 ≤ reserve ∧ reserve ≤ quota ∧ 1 ≤ depth ∧ depth ≤ 4 ∧
      1 ≤ prime ∧ prime ≤ quota then
    some (i, {
      direction := d
      recTag := BitVec.ofNat 16 recTag
      quota := quota
      reserve := reserve
      depth := depth
      policy := policy
      idleByte := l.getD 8 0
      lowMark := beNat ((l.drop 9).take 2)
      primeLevel := prime })
  else none

/-- STREAM_START: stream, take, start sequence (R11). -/
def parseStart (l : List Byte) : Option (StreamNo × Half × Seq) := do
  let i ← parseStream (l.getD 0 0)
  some (i, BitVec.ofNat 16 (beNat ((l.drop 1).take 2)), BitVec.ofNat 32 (beNat ((l.drop 3).take 4)))

/-- EXTENT_ADD: stream, port, start LBA 0 to 2^32 - 1, count 1 to 65535, override (R47). -/
def parseExtentAdd (l : List Byte) : Option (StreamNo × Extent) := do
  let i ← parseStream (l.getD 0 0)
  let p ← parsePort (l.getD 1 0)
  let o ← parseBool (l.getD 8 0)
  let count := beNat ((l.drop 6).take 2)
  if 1 ≤ count then
    some (i, { port := p, start := beNat ((l.drop 2).take 4), count := count, override := o })
  else none

end Sys2Proof.Machine
end

