-- ==== Sys2Proof/Machine/ExtentRequests.lean ====
section
/-! DEFINITION. The extent requests: add and clear (chapter 3). -/

namespace Sys2Proof.Machine

/-- The extent unit's checks on EXTENT_ADD (Table 3.2): the result of the first that fails. -/
def Work.extentRefusal (w : Work) (i : StreamNo) (e : Extent) : Option Result :=
  let st := w.stream i
  let pt := w.port e.port
  if st.state = .free then some .state
  else if 8 ≤ st.extents.length then some .listFull
  else if pt.state = .absent ∨ pt.attachPending.isSome then some .portAbsent
  else if pt.state = .offline then some .offline
  else if (pt.geometry.map Geometry.capacity).getD 0 ≤ e.last then some .range
  else if w.allExtents.any (·.overlaps e) then some .overlap
  else none

/-- The reply of EXTENT_ADD and EXTENT_CLEAR (Table 10.3). -/
def Stream.extentReply (st : Stream) (i : StreamNo) : List Byte :=
  [streamByte i] ++ beBytes 1 st.extents.length ++ beBytes 4 st.remaining

/-- The record of a stream that gains an extent (R51 (1) to (4), R45): a cursor that was exhausted
has offset 0 and its waited port is absent (R79); in an active state the low-mark-given flag is
cleared when the remaining count is above the low mark. -/
def Stream.addExtent (st : Stream) (e : Extent) : Stream :=
  let grown := { st with
    extents := st.extents ++ [e]
    offset := if st.extents.isEmpty then 0 else st.offset
    waitedPort := if st.extents.isEmpty then none else st.waitedPort }
  if st.isActive && decide (st.cfg.lowMark < grown.remaining) then { grown with lowGiven := false }
  else grown

/-- What follows from an accepted addition in the stream's direction (R52, R82, R103). -/
def Work.extentGiven (w : Work) (i : StreamNo) : Work :=
  match (w.stream i).cfg.direction with
  | .capture => w.captureExtent i
  | .replay => w.replayExtent i

/-- EXTENT_ADD in its slot (R47 to R52). -/
def serveExtentAdd (tag : Byte) (payload : List Byte) (w : Work) : Work :=
  w.checked tag payload 9 parseExtentAdd fun a w =>
    match w.extentRefusal a.1 a.2 with
    | some r => w.answer tag r []
    | none =>
      let w := w.updStream a.1 (·.addExtent a.2)
      (w.answer tag .ok ((w.stream a.1).extentReply a.1)).extentGiven a.1

/-- EXTENT_ADD (R51). -/
def execExtentAdd (tag : Byte) (payload : List Byte) (s : State) :
    Host.Outcome State Fault Refusal :=
  act (·.takeRequest tag 0x40 (serveExtentAdd tag payload)) s

/-- EXTENT_CLEAR in its slot (R53). -/
def serveExtentClear (tag : Byte) (payload : List Byte) (w : Work) : Work :=
  w.checked tag payload 1 parseStreamArg fun i w =>
    if (w.stream i).isIdle then
      let w := w.updStream i fun st => { st with extents := [], offset := 0 }
      w.answer tag .ok ((w.stream i).extentReply i)
    else w.answer tag .state []

/-- EXTENT_CLEAR (R53). -/
def execExtentClear (tag : Byte) (payload : List Byte) (s : State) :
    Host.Outcome State Fault Refusal :=
  act (·.takeRequest tag 0x41 (serveExtentClear tag payload)) s

end Sys2Proof.Machine
end

