-- ==== Sys2Proof/Machine/Frame.lean ====
section
/-! DEFINITION. The frame port: role and slot map requests, sync and the exchange at frame end
(chapter 4). -/

namespace Sys2Proof.Machine

/-- Some stream is PRIMING, RUNNING, HOLD or DRAINING (R62 (1)). -/
def Work.anyActive (w : Work) : Bool := streamNos.any fun i => (w.stream i).isActive

/-- An entry of a slot map at or above a slot count names a stream (R62 (2)). -/
def FramePort.mappedBeyond (f : FramePort) (n : Nat) : Bool :=
  (List.finRange 64).any fun k => decide (n ≤ k.val) && (f.rxMap[k].isSome || f.txMap[k].isSome)

/-- Empty frame buffers: every transmit slot carries 0xFF (R63, R72). That an empty receive buffer holds
0x00, and is emptied at each lock too, is the model's choice: DESIGN CHOICE (log 37). -/
def FramePort.emptyBuffers (f : FramePort) : FramePort :=
  { f with
    rxRecv := Vector.replicate 64 0, rxHand := Vector.replicate 64 0
    txSend := Vector.replicate 64 0xFF, txFill := Vector.replicate 64 0xFF }

/-- The port state in which a role starts (R63 (3)). -/
def Role.start : Role → FrameState
  | .off => .off
  | .master => .master
  | .slave => .seeking 0 0

/-- FRAME_SET in its slot (R62, R63). -/
def serveFrameSet (tag : Byte) (payload : List Byte) (w : Work) : Work :=
  w.checked tag payload 2 parseFrameSet fun a w =>
    if w.anyActive || w.frame.mappedBeyond a.2.toNat then w.answer tag .state []
    else
      (w.updFrame fun f =>
        { f.emptyBuffers with role := a.1, slotCount := a.2, state := a.1.start }).answer tag .ok
        [a.1.code, BitVec.ofNat 8 a.2.toNat, a.1.start.code]

/-- FRAME_SET (R63). -/
def execFrameSet (tag : Byte) (payload : List Byte) (s : State) :
    Host.Outcome State Fault Refusal :=
  act (·.takeRequest tag 0x10 (serveFrameSet tag payload)) s

/-- An entry of the slot map. -/
def FramePort.slot (f : FramePort) (d : SlotDirection) (n : SlotNo) : Option StreamNo :=
  match d with
  | .receive => f.rxMap[n]
  | .transmit => f.txMap[n]

/-- Write an entry of the slot map. -/
def FramePort.setSlot (f : FramePort) (d : SlotDirection) (n : SlotNo) (v : Option StreamNo) :
    FramePort :=
  match d with
  | .receive => { f with rxMap := f.rxMap.set n v }
  | .transmit => { f with txMap := f.txMap.set n v }

/-- The stream direction a slot direction serves (R65). -/
def SlotDirection.serves : SlotDirection → Direction
  | .receive => .capture
  | .transmit => .replay

/-- The checks of Table 4.1: the result of the first that fails. -/
def Work.slotSetRefusal (w : Work) (n : SlotNo) (d : SlotDirection) (i : StreamNo) :
    Option Result :=
  let st := w.stream i
  if w.frame.slotCount.toNat ≤ n.val then some .range
  else if st.state = .free then some .state
  else if st.settings.map (·.direction) ≠ some d.serves then some .badArgument
  else if st.isActive then some .state
  else
    match w.frame.slot d n with
    | some j => if j = i then none else some .slotTaken
    | none => if 8 ≤ w.width i then some .listFull else none

/-- The reply of SLOT_SET and SLOT_CLEAR (Table 10.3). -/
def Work.slotReply (w : Work) (n : SlotNo) (d : SlotDirection) (i : Option StreamNo) : List Byte :=
  [BitVec.ofNat 8 n.val, d.code, streamByteOr i,
    BitVec.ofNat 8 (match i with | some j => w.width j | none => 0)]

/-- SLOT_SET in its slot (R66). -/
def serveSlotSet (tag : Byte) (payload : List Byte) (w : Work) : Work :=
  w.checked tag payload 3 parseSlotSet fun a w =>
    match w.slotSetRefusal a.1 a.2.1 a.2.2 with
    | some r => w.answer tag r []
    | none =>
      let w := w.updFrame (·.setSlot a.2.1 a.1 (some a.2.2))
      w.answer tag .ok (w.slotReply a.1 a.2.1 (some a.2.2))

/-- SLOT_SET (R66). -/
def execSlotSet (tag : Byte) (payload : List Byte) (s : State) :
    Host.Outcome State Fault Refusal :=
  act (·.takeRequest tag 0x11 (serveSlotSet tag payload)) s

/-- SLOT_CLEAR in its slot (R67). -/
def serveSlotClear (tag : Byte) (payload : List Byte) (w : Work) : Work :=
  w.checked tag payload 2 parseSlotClear fun a w =>
    let named := w.frame.slot a.2 a.1
    if w.frame.slotCount.toNat ≤ a.1.val then w.answer tag .range []
    else if named.any fun i => (w.stream i).isActive then w.answer tag .state []
    else
      let w := w.updFrame (·.setSlot a.2 a.1 none)
      w.answer tag .ok (w.slotReply a.1 a.2 named)

/-- SLOT_CLEAR (R67). -/
def execSlotClear (tag : Byte) (payload : List Byte) (s : State) :
    Host.Outcome State Fault Refusal :=
  act (·.takeRequest tag 0x12 (serveSlotClear tag payload)) s

/-! ### Frame end (R69 to R72) -/

/-- What FTD carries in a slot (R72, R57): the transmit buffer in MASTER and LOCKED, held high in
OFF and SEEKING. -/
def FramePort.ftd (f : FramePort) (n : SlotNo) : Byte :=
  match f.state with
  | .master | .locked _ => f.txSend[n]
  | _ => 0xFF

/-- FSY and FCK are driven by the part exactly in role MASTER (R58). -/
def FramePort.drivesClock (f : FramePort) : Bool := f.role == .master

/-- The receive buffers change places at a frame end (R69): the completed frame's slots are in the
hand-over buffer. -/
def FramePort.handOver (f : FramePort) (received : Vector Byte 64) : FramePort :=
  { f with
    rxHand := Vector.ofFn fun n => if n.val < f.slotCount.toNat then received[n] else f.rxRecv[n]
    rxRecv := f.rxHand }

/-- The transmit buffers change places at a frame end (R72): the buffer filled for the next frame, to
which the supply answers of this frame end still come, is sent from now on, and the new filling buffer
is 0xFF. -/
def FramePort.sendNext (f : FramePort) : FramePort :=
  { f with txSend := f.txFill, txFill := Vector.replicate 64 0xFF }

/-- A frame end (R69, R71, R72): the buffers change places, and every stream with slots takes its part,
in any order (log 4). -/
def Work.frameEnd (w : Work) (received : Vector Byte 64) : Work :=
  let w := w.updFrame fun f => (f.handOver received).sendNext
  w.postAll ((streamNos.filter fun i => w.width i ≠ 0).map .exchange)

/-- A change of port state to SEEKING or LOCKED with its notice (R60, R61). A locked period starts
with empty buffers (R72 (3)). -/
def Work.frameChange (w : Work) (st : FrameState) (cause : FrameCause) : Work :=
  let locked := match st with | .locked _ => true | _ => false
  (w.updFrame fun f =>
    let f := if locked then f.emptyBuffers else f
    { f with state := st }).raise (.frameChange locked w.frame.slotCount cause)

/-- FRAME_BOUNDARY (R58, R60): in MASTER every boundary is a frame end; in LOCKED the sync is
judged first. In OFF and SEEKING no frame boundary of this kind passes. -/
def execFrameBoundary (sync : Bool) (received : Vector Byte 64) (s : State) :
    Host.Outcome State Fault Refusal :=
  actUnlessReset (fun w =>
    match w.frame.state with
    | .master => w.frameEnd received
    | .locked missed =>
      if sync then (w.updFrame fun f => { f with state := .locked false }).frameEnd received
      else if missed then w.frameChange (.seeking 0 0) .sync
      else (w.updFrame fun f => { f with state := .locked true }).frameEnd received
    | _ => w) s

/-- The bits of a frame (R56). -/
def SlotCount.bits (n : SlotCount) : Nat := 8 * n.toNat

/-- SEEKING after a run of bits with FSY low (R59 (3)): they are counted toward the expected boundary,
and a low on the first bit after it ends the run. -/
def FrameState.skipLow (n : SlotCount) (low : Nat) : FrameState → FrameState
  | .seeking run bits =>
    if run = 0 then .seeking 0 0
    else if bits + low ≤ n.bits then .seeking run (bits + low)
    else .seeking 0 0
  | st => st

/-- SEEKING after a bit with FSY high (R59 (1), (2), (4)): on the first bit after the expected boundary
the run goes on, and the fourth sync locks; on any other bit a new frame begins. -/
def FrameState.takeHigh (n : SlotCount) : FrameState → FrameState
  | .seeking run bits =>
    if run ≠ 0 ∧ bits = n.bits then (if run = 3 then .locked false else .seeking (run + 1) 1)
    else .seeking 1 1
  | st => st

/-- SEEKING after `low` bits with FSY low and one more bit with FSY at the level `fsy` (R59). -/
def FrameState.sample (n : SlotCount) (low : Nat) (fsy : Bool) (st : FrameState) : FrameState :=
  if fsy then (st.skipLow n low).takeHigh n else st.skipLow n (low + 1)

/-- FRAME_SYNC_SEEKING (R59): FSY has been low on `low` falling edges of FCK, and `fsy` is its level on
the one after them. -/
def execFrameSyncSeeking (low : Nat) (fsy : Bool) (s : State) : Host.Outcome State Fault Refusal :=
  actUnlessReset (fun w =>
    match w.frame.state with
    | .seeking .. =>
      let next := w.frame.state.sample w.frame.slotCount low fsy
      if next = .locked false then w.frameChange next .none
      else w.updFrame fun f => { f with state := next }
    | _ => w) s

/-- BIT_CLOCK_STOPPED (R60): in LOCKED the port enters SEEKING with cause CLOCK. -/
def execBitClockStopped (s : State) : Host.Outcome State Fault Refusal :=
  actUnlessReset (fun w =>
    match w.frame.state with
    | .locked _ => w.frameChange (.seeking 0 0) .clock
    | _ => w) s

end Sys2Proof.Machine
end

