-- ==== Sys2Proof/Machine/HostLine.lean ====
section
/-! DEFINITION. The part-level requests, the transmitter's event and reset (R151 to R156). -/

namespace Sys2Proof.Machine

/-- The HELLO reply (Table 10.3). -/
def HostLine.helloBytes (h : HostLine) : List Byte :=
  beBytes 2 0x0416 ++ [1, 16] ++ beBytes 2 512 ++ [4, 64, 8] ++
    [h.lineSpeed.code, boolByte h.noticeHold] ++ beBytes 2 h.lineFaults

/-- HELLO in its slot (R154). -/
def serveHello (tag : Byte) (payload : List Byte) (w : Work) : Work :=
  w.checked tag payload 0 parseNone fun _ w => w.answer tag .ok w.host.helloBytes

/-- PART_RESET in its slot (R155): answered OK, then the receiver takes no further record and the
reset is pending. -/
def servePartReset (tag : Byte) (payload : List Byte) (w : Work) : Work :=
  w.checked tag payload 0 parseNone fun _ w =>
    (w.answer tag .ok []).updHost fun h => { h with resetPending := true, rx := .hunt }

/-- Notices in the queue and missed count (R153). -/
def HostLine.noticeFigures (h : HostLine) : List Byte :=
  beBytes 1 h.notices.length ++ beBytes 1 h.missed

/-- NOTICE_HOLD in its slot (R153). -/
def serveNoticeHold (tag : Byte) (payload : List Byte) (w : Work) : Work :=
  w.checked tag payload 0 parseNone fun _ w =>
    (w.updHost fun h => { h with noticeHold := true }).answer tag .ok w.host.noticeFigures

/-- NOTICE_RELEASE in its slot (R153). -/
def serveNoticeRelease (tag : Byte) (payload : List Byte) (w : Work) : Work :=
  w.checked tag payload 0 parseNone fun _ w =>
    (w.updHost fun h => { h with noticeHold := false }).answer tag .ok w.host.noticeFigures

/-- HELLO (R154). -/
def execHello (tag : Byte) (payload : List Byte) (s : State) :
    Host.Outcome State Fault Refusal :=
  act (·.takeRequest tag 0x01 (serveHello tag payload)) s

/-- PART_RESET (R155). -/
def execPartReset (tag : Byte) (payload : List Byte) (s : State) :
    Host.Outcome State Fault Refusal :=
  act (·.takeRequest tag 0x02 (servePartReset tag payload)) s

/-- NOTICE_HOLD (R153). -/
def execNoticeHold (tag : Byte) (payload : List Byte) (s : State) :
    Host.Outcome State Fault Refusal :=
  act (·.takeRequest tag 0x03 (serveNoticeHold tag payload)) s

/-- NOTICE_RELEASE (R153). -/
def execNoticeRelease (tag : Byte) (payload : List Byte) (s : State) :
    Host.Outcome State Fault Refusal :=
  act (·.takeRequest tag 0x04 (serveNoticeRelease tag payload)) s

/-- The part leaves reset (R156): every block takes its reset values and the line speed is read
from the straps. The command queue and the count of free choices are the model's own and stay. -/
def Work.resetPart (w : Work) (spd1 spd0 : Bool) : Work :=
  { State.reset with
    pending := w.pending
    pickCount := w.pickCount
    host := { State.reset.host with lineSpeed := strapSpeed spd1 spd0 }
    agenda := [] }

/-- The reply being sent is the OK reply to PART_RESET (R155). -/
def HostLine.resetReplySent (h : HostLine) : Bool :=
  h.resetPending && (h.replies.head?.any fun r => r.code == 0x02 && r.result == .ok)

/-- The record being sent leaves its queue and the transmitter chooses again (R151). -/
def HostLine.sent (h : HostLine) : HostLine :=
  match h.tx with
  | .idle => h
  | .reply => HostLine.choose { h with replies := h.replies.tail, tx := .idle }
  | .rejection => HostLine.choose { h with rejections := h.rejections.tail, tx := .idle }
  | .notice _ => HostLine.choose { h with notices := h.notices.tail, tx := .idle }

/-- RECORD_SENT (R151, R155): with the last byte of the PART_RESET reply the part resets. -/
def execRecordSent (spd1 spd0 : Bool) (s : State) : Host.Outcome State Fault Refusal :=
  actUnlessReset (fun w =>
    if w.host.tx = .reply ∧ w.host.resetReplySent then w.resetPart spd1 spd0
    else w.updHost (·.sent)) s

/-- RESETN_LOW (R156, R64, R138): the part is held in reset; the record being sent, the transfer in
the engine and the frame are cut off where they stand. -/
def execResetnLow (s : State) : Host.Outcome State Fault Refusal :=
  act (fun w =>
    { w with
      resetLow := true
      host := { w.host with tx := .idle }
      engine := {}
      frame := { w.frame with role := .off, state := .off } }) s

/-- LEAVE_RESET (R156). -/
def execLeaveReset (spd1 spd0 : Bool) (s : State) : Host.Outcome State Fault Refusal :=
  act (·.resetPart spd1 spd0) s

/-- A line fault of the receiver: it returns to HUNT (R145, R146). -/
def Work.receiverFault (w : Work) (cause : LineFaultCause) : Work :=
  w.updHost fun h => HostLine.fault { h with rx := .hunt } cause

/-- INTER_BYTE_TIMEOUT (R145): in LENGTH, BODY and CHECK a line fault with cause TIMEOUT; in HUNT
the receiver times nothing. -/
def execInterByteTimeout (s : State) : Host.Outcome State Fault Refusal :=
  actUnlessReset (fun w =>
    match w.host.rx with
    | .hunt => w
    | _ => w.receiverFault .timeout) s

end Sys2Proof.Machine
end

