-- ==== Sys2Proof/Machine/Flags.lean ====
section
/-! DEFINITION. Flag bytes of the replies (R157 (3), Table 10.6): bit 0 is the least significant
bit, and a bit the table does not name is 0. -/

namespace Sys2Proof.Machine

/-- A byte from its bits, bit 0 first. -/
def flagByte (bits : List Bool) : Byte :=
  BitVec.ofNat 8 (bits.foldr (fun b n => (if b then 1 else 0) + 2 * n) 0)

/-- STREAM_QUERY presence. -/
def Stream.presenceByte (st : Stream) : Byte :=
  flagByte [st.take.isSome, st.nextSeq.isSome && st.commitMark.isSome, st.outcome.isSome,
    st.stopPart.isSome, st.abortPart.isSome]

/-- STREAM_QUERY episode flags. -/
def Stream.episodeByte (st : Stream) : Byte := flagByte [st.overrun, st.underrun, st.lowGiven]

/-- PORT_QUERY presence. -/
def Port.presenceByte (pt : Port) : Byte :=
  flagByte [pt.geometry.isSome, pt.curCyl.isSome, pt.target.isSome, pt.lastMark.isSome,
    pt.queue.any (·.active), pt.recovery.isSome, pt.attachPending.isSome, pt.detachPending.isSome]

end Sys2Proof.Machine
end

