-- ==== Sys2Proof/Machine/PortRequests.lean ====
section
/-! DEFINITION. The drive port requests: attach, detach, query (chapter 7). -/

namespace Sys2Proof.Machine

/-- The record of a port whose attach is accepted (R112). -/
def Port.attachRecord (tag : Byte) (pt : Port) : Port :=
  Port.send { pt with
    state := .attaching, attachPending := some tag, attachGeometry := none
    completed := 0, missed := 0, posFaults := 0, restores := 0 } .identify

/-- PORT_ATTACH in its slot (R112). -/
def servePortAttach (tag : Byte) (payload : List Byte) (w : Work) : Work :=
  w.checked tag payload 1 parsePortArg fun p w =>
    if (w.port p).state = .absent ∧ (w.port p).detachPending = none then
      w.updPort p (·.attachRecord tag)
    else w.answer tag .state []

/-- PORT_ATTACH (R112). -/
def execPortAttach (tag : Byte) (payload : List Byte) (s : State) :
    Host.Outcome State Fault Refusal :=
  act (·.takeRequest tag 0x20 (servePortAttach tag payload)) s

/-- PORT_DETACH is refused (R124): the port has no drive or a request of its own under way, an
extent lies on it, or a stream's entry is in its queue. -/
def Work.detachRefused (w : Work) (p : PortNo) : Bool :=
  let pt := w.port p
  pt.state == .absent || pt.attachPending.isSome || pt.detachPending.isSome || w.extentsOn p ||
    pt.queue.any (·.kind.stream.isSome)

/-- The record of a port that is detached (R124 (2), (4)): ABSENT, the entry that holds the engine
kept in its queue until it completes (R136), where Tables 7.3 and 7.4 have the queue of an ABSENT port
empty: DESIGN CHOICE (log 45); with the figures of the drive that a format under way still writes by.
The counters stay until the next attach. What becomes of the position tries is not stated: 0, with the
last failed target forgotten, is DESIGN CHOICE (log 39). -/
def Port.detachRecord (tag : Byte) (pt : Port) : Port :=
  { pt with
    state := .absent, geometry := none
    attachGeometry := if pt.activeEntry.isSome then pt.geometry else none
    curCyl := none, target := none, lastMark := none, chosen := none, recovery := none
    posTries := 0, failedTarget := none, offlineCause := none, outstanding := none
    detachPending := some tag
    queue := pt.queue.filter (·.active) }

/-- An accepted PORT_DETACH (R124): the QUEUED entries complete ABORTED, the port is ABSENT, and the
reply follows at once unless an entry is ACTIVE. -/
def Work.detachPort (w : Work) (p : PortNo) (tag : Byte) : Work :=
  let gone := (w.port p).queued
  let waits := (w.port p).activeEntry.isSome
  let w := w.updPort p (·.detachRecord tag)
  let w := if gone = [] then w
    else w.deliver p (gone.map fun e => .result e { result := .aborted })
  if waits then w else w.post (.detached p)

/-- PORT_DETACH in its slot (R124). -/
def servePortDetach (tag : Byte) (payload : List Byte) (w : Work) : Work :=
  w.checked tag payload 1 parsePortArg fun p w =>
    if w.detachRefused p then w.answer tag .state [] else w.detachPort p tag

/-- PORT_DETACH (R124). -/
def execPortDetach (tag : Byte) (payload : List Byte) (s : State) :
    Host.Outcome State Fault Refusal :=
  act (·.takeRequest tag 0x21 (servePortDetach tag payload)) s

/-- The PORT_QUERY reply (R125, Table 10.3). -/
def Port.queryBytes (pt : Port) : List Byte :=
  [pt.state.code, pt.presenceByte] ++ geometryBytes pt.geometry ++
    beBytes 4 ((pt.geometry.map Geometry.capacity).getD 0) ++
    beBytes 2 (pt.curCyl.getD 0) ++ beBytes 2 (pt.target.getD 0) ++
    beBytes 1 (pt.lastMark.getD 0) ++ beBytes 1 pt.queue.length ++ beBytes 1 pt.posTries ++
    [(pt.offlineCause.map OfflineCause.code).getD 0] ++
    beBytes 4 pt.completed ++ beBytes 4 pt.missed ++ beBytes 4 pt.posFaults ++
    beBytes 4 pt.restores

/-- PORT_QUERY in its slot (R125). -/
def servePortQuery (tag : Byte) (payload : List Byte) (w : Work) : Work :=
  w.checked tag payload 1 parsePortArg fun p w => w.answer tag .ok (w.port p).queryBytes

/-- PORT_QUERY (R125). -/
def execPortQuery (tag : Byte) (payload : List Byte) (s : State) :
    Host.Outcome State Fault Refusal :=
  act (·.takeRequest tag 0x22 (servePortQuery tag payload)) s

end Sys2Proof.Machine
end

