-- ==== Sys2Proof/Machine/StreamRequests.lean ====
section
/-! DEFINITION. The stream requests: bind, start, stop, abort, unbind, query (chapter 1). -/

namespace Sys2Proof.Machine

/-- A stream newly bound (R10). -/
def Stream.boundWith (settings : Settings) : Stream :=
  { state := .bound, settings := some settings }

/-- The stream table's checks on STREAM_BIND (R9): the result of the first that fails. -/
def Work.bindRefusal (w : Work) (i : StreamNo) (settings : Settings) : Option Result :=
  if (w.stream i).state ≠ .free then some .state
  else if 480 < w.reserveSum + settings.reserve then some .quota
  else if w.freeCount < w.reserveNeed + settings.reserve then some .quota
  else none

/-- STREAM_BIND in its slot (R9, R10). -/
def serveStreamBind (tag : Byte) (payload : List Byte) (w : Work) : Work :=
  w.checked tag payload 12 parseBind fun a w =>
    match w.bindRefusal a.1 a.2 with
    | some r => w.answer tag r []
    | none => (w.updStream a.1 fun _ => Stream.boundWith a.2).answer tag .ok [streamByte a.1]

/-- STREAM_BIND (R9). -/
def execStreamBind (tag : Byte) (payload : List Byte) (s : State) :
    Host.Outcome State Fault Refusal :=
  act (·.takeRequest tag 0x30 (serveStreamBind tag payload)) s

/-- Clear every entry of a slot map that names a stream (R19 (1)). -/
def clearStream (m : Vector (Option StreamNo) 64) (i : StreamNo) : Vector (Option StreamNo) 64 :=
  m.map fun e => if e = some i then none else e

/-- STREAM_UNBIND in its slot (R19, R36 (2)). -/
def serveStreamUnbind (tag : Byte) (payload : List Byte) (w : Work) : Work :=
  w.checked tag payload 1 parseStreamArg fun i w =>
    if (w.stream i).isIdle then
      (((w.updFrame fun f =>
          { f with rxMap := clearStream f.rxMap i, txMap := clearStream f.txMap i }).updStream i
        fun _ => {}).signal).answer tag .ok [streamByte i]
    else w.answer tag .state []

/-- STREAM_UNBIND (R19). -/
def execStreamUnbind (tag : Byte) (payload : List Byte) (s : State) :
    Host.Outcome State Fault Refusal :=
  act (·.takeRequest tag 0x31 (serveStreamUnbind tag payload)) s

/-- The stream accepts a STREAM_START (R11). -/
def Work.startable (w : Work) (i : StreamNo) : Bool :=
  let st := w.stream i
  st.isIdle && decide (1 ≤ w.width i) &&
    (st.cfg.direction == .capture || !st.extents.isEmpty)

/-- The record of a stream whose take begins (R12, R74, R91): the low-mark-given flag by the
comparison with the low mark, and the new state of its direction. -/
def Stream.startRecord (st : Stream) (take : Half) (seq : Seq) : Stream :=
  { st with
    take := some take, nextSeq := some seq, commitMark := some 0
    counters := {}, overrun := false, underrun := false, skips := []
    outcome := none, stopPart := none, abortPart := none
    lowGiven := decide (st.remaining ≤ st.cfg.lowMark)
    commitPoint := seq, waitedPort := none, endPage := .none, drainReason := none
    emptyReported := st.cfg.direction == .capture && st.extents.isEmpty
    state :=
      match st.cfg.direction with
      | .replay => .priming
      | .capture => if st.extents.isEmpty then .hold else .running }

/-- An accepted STREAM_START (R12): the record, EXTENT_LOW by the low-mark comparison, EXTENT_EMPTY
for a start into HOLD, the reply, and the first reads of a replay stream. -/
def Work.startStream (w : Work) (i : StreamNo) (take : Half) (seq : Seq) (tag : Byte) : Work :=
  let w := w.updStream i fun st => st.startRecord take seq
  let st := w.stream i
  let w := if st.lowGiven then
      w.offer (.extentLow i st.remaining st.cfg.lowMark st.extents.length)
    else w
  let w := if st.state = .hold then
      w.raise (.extentEmpty i take .hold seq st.ready.length (w.held i) st.outstanding)
    else w
  let w := w.answer tag .ok [streamByte i]
  if st.state = .priming then w.replayTest i else w

/-- STREAM_START in its slot (R11, R12). -/
def serveStreamStart (tag : Byte) (payload : List Byte) (w : Work) : Work :=
  w.checked tag payload 7 parseStart fun a w =>
    if w.startable a.1 then w.startStream a.1 a.2.1 a.2.2 tag else w.answer tag .state []

/-- STREAM_START (R12). -/
def execStreamStart (tag : Byte) (payload : List Byte) (s : State) :
    Host.Outcome State Fault Refusal :=
  act (·.takeRequest tag 0x32 (serveStreamStart tag payload)) s

/-- The stream takes a STREAM_STOP (R13). -/
def Stream.stoppable (st : Stream) : Bool :=
  st.stopPart.isNone && st.abortPart.isNone &&
    match st.cfg.direction with
    | .capture => st.state == .running || st.state == .hold
    | .replay => st.state == .priming || st.state == .running

/-- The stop of a stream in its direction (R87, R104). -/
def Work.stopStream (w : Work) (i : StreamNo) : Work :=
  match (w.stream i).cfg.direction with
  | .capture => w.captureStop i
  | .replay => w.replayStop i

/-- STREAM_STOP in its slot (R13). -/
def serveStreamStop (tag : Byte) (payload : List Byte) (w : Work) : Work :=
  w.checked tag payload 1 parseStreamArg fun i w =>
    if (w.stream i).stoppable then
      (w.updStream i fun st => { st with stopPart := some tag }).stopStream i
    else w.answer tag .state []

/-- STREAM_STOP (R13). -/
def execStreamStop (tag : Byte) (payload : List Byte) (s : State) :
    Host.Outcome State Fault Refusal :=
  act (·.takeRequest tag 0x33 (serveStreamStop tag payload)) s

/-- An abort taken (R15): the stream gives up its bytes, queued entries and pages, and ends at once
or drains until its last entry has finished. An abort of a drain that a close began: DESIGN CHOICE
(log 42). -/
def Work.abortStream (w : Work) (i : StreamNo) : Work :=
  let w :=
    match (w.stream i).cfg.direction with
    | .capture => w.captureGiveUp i []
    | .replay => w.replayGiveUp i
  let reason := match (w.stream i).cfg.direction with
    | .capture => none
    | .replay => some DrainReason.abort
  if (w.stream i).outstanding = 0 then w.abortEndTest i
  else w.updStream i fun st => { st with state := .draining, drainReason := reason }

/-- STREAM_ABORT in its slot (R14, R15). -/
def serveStreamAbort (tag : Byte) (payload : List Byte) (w : Work) : Work :=
  w.checked tag payload 1 parseStreamArg fun i w =>
    if (w.stream i).isActive && (w.stream i).abortPart.isNone then
      (w.updStream i fun st => { st with abortPart := some tag }).abortStream i
    else w.answer tag .state []

/-- STREAM_ABORT (R15). -/
def execStreamAbort (tag : Byte) (payload : List Byte) (s : State) :
    Host.Outcome State Fault Refusal :=
  act (·.takeRequest tag 0x34 (serveStreamAbort tag payload)) s

/-- A skip-list entry in a STREAM_QUERY reply. -/
def Skip.bytes (k : Skip) : List Byte := [portByte k.port] ++ beBytes 4 k.lba ++ [k.cause.code]

/-- Queue length and accepted count (R20 (5)): the ready queue of a capture stream, the play queue
of a replay stream. -/
def Stream.queueFigures (st : Stream) : Nat × Nat :=
  match st.cfg.direction with
  | .capture => (st.ready.length, 0)
  | .replay => (st.play.length, st.acceptedCount)

/-- The STREAM_QUERY reply (R20, section 10.3). -/
def Work.queryBytes (w : Work) (i : StreamNo) : List Byte :=
  let st := w.stream i
  if st.state = .free then [streamByte i, st.state.code]
  else
    let c := st.cfg
    let queueLength := st.queueFigures.1
    let accepted := st.queueFigures.2
    [streamByte i, st.state.code, c.direction.code] ++ beBytes 2 c.recTag.toNat ++
      beBytes 1 c.quota ++ beBytes 1 c.reserve ++ beBytes 1 c.depth ++
      [c.policy.code, c.idleByte] ++ beBytes 2 c.lowMark ++ beBytes 1 c.primeLevel ++
      beBytes 1 (w.width i) ++ [st.presenceByte] ++
      beBytes 2 st.takeNow.toNat ++ beBytes 4 st.seqNow.toNat ++ beBytes 4 st.markNow ++
      [outcomeCode st.outcome] ++
      beBytes 1 (w.held i) ++ beBytes 1 st.outstanding ++ beBytes 1 queueLength ++
      beBytes 1 accepted ++
      beBytes 1 st.extents.length ++ beBytes 4 st.remaining ++ [st.episodeByte] ++
      st.counters.bytes ++ beBytes 1 st.skips.length ++ st.skips.flatMap Skip.bytes

/-- STREAM_QUERY in its slot (R20). -/
def serveStreamQuery (tag : Byte) (payload : List Byte) (w : Work) : Work :=
  w.checked tag payload 1 parseStreamArg fun i w => w.answer tag .ok (w.queryBytes i)

/-- STREAM_QUERY (R20). -/
def execStreamQuery (tag : Byte) (payload : List Byte) (s : State) :
    Host.Outcome State Fault Refusal :=
  act (·.takeRequest tag 0x35 (serveStreamQuery tag payload)) s

end Sys2Proof.Machine
end

