-- ==== Sys2Proof/Machine/TransferRequests.lean ====
section
/-! DEFINITION. The transfer requests: format a track, read a sector, write a sector
(sections 8.8 and 8.9). -/

namespace Sys2Proof.Machine

/-- The port has no drive the request may name (R139, R141, R143): ABSENT (which a detach pending
implies), or attaching. -/
def Port.unattached (pt : Port) : Bool :=
  pt.state == .absent || pt.attachPending.isSome || pt.detachPending.isSome

/-- The recorded geometry, 0 in every figure while there is none. -/
def Port.geo (pt : Port) : Geometry := pt.geometry.getD ⟨0, 0, 0⟩

/-- The checks of Table 8.3: the result of the first that fails. -/
def Work.formatRefusal (w : Work) (a : FormatArgs) (permit : Bool) : Option Result :=
  let pt := w.port a.port
  if pt.unattached then some .portAbsent
  else if pt.state = .offline then some .offline
  else if pt.geo.cylinders ≤ a.cyl ∨ pt.geo.heads ≤ a.head then some .range
  else if permit = false then some .permit
  else if w.trackCovered a.port pt.geo a.cyl a.head then some .overlap
  else if !pt.hasRoom then some .full
  else none

/-- TRACK_FORMAT in its slot (R139). -/
def serveTrackFormat (tag : Byte) (payload : List Byte) (permit : Bool) (w : Work) : Work :=
  w.checked tag payload 5 parseFormat fun a w =>
    match w.formatRefusal a permit with
    | some r => w.answer tag r []
    | none =>
      w.placeEntry a.port
        { serial := w.serial, kind := .format tag a.lock, port := a.port, lba := none
          cyl := a.cyl, head := a.head, sector := 0 }

/-- TRACK_FORMAT (R139). -/
def execTrackFormat (tag : Byte) (payload : List Byte) (permit : Bool) (s : State) :
    Host.Outcome State Fault Refusal :=
  act (·.takeRequest tag 0x28 (serveTrackFormat tag payload permit)) s

/-- The checks (1) and (2) shared by SECTOR_READ and SECTOR_WRITE (R141, R143). -/
def Work.sectorRefusal (w : Work) (p : PortNo) (lba : Nat) : Option Result :=
  let pt := w.port p
  if pt.unattached then some .portAbsent
  else if pt.state = .offline then some .offline
  else if pt.geo.capacity ≤ lba then some .range
  else none

/-- A host sector request claims its page and is placed (R141 (3), (4), R143 (4), (5)); `fill`
places the payload of a write in the page (R32 (1)). -/
def Work.hostEntry (w : Work) (tag : Byte) (p : PortNo) (lba : Nat) (kind : PageNo → EntryKind)
    (fill : PageNo → Work → Work) : Work :=
  match w.claimHost with
  | none => w.answer tag .noPage []
  | some (page, w) =>
    let w := fill page w
    if (w.port p).hasRoom then w.place p (kind page) lba
    else (w.answer tag .full []).releaseHost page

/-- SECTOR_READ in its slot (R141). -/
def serveSectorRead (tag : Byte) (payload : List Byte) (w : Work) : Work :=
  w.checked tag payload 5 parseSectorRead fun a w =>
    match w.sectorRefusal a.1 a.2 with
    | some r => w.answer tag r []
    | none => w.hostEntry tag a.1 a.2 (.hostRead tag) fun _ w => w

/-- SECTOR_READ (R141). -/
def execSectorRead (tag : Byte) (payload : List Byte) (s : State) :
    Host.Outcome State Fault Refusal :=
  act (·.takeRequest tag 0x29 (serveSectorRead tag payload)) s

/-- SECTOR_WRITE in its slot (R143). -/
def serveSectorWrite (tag : Byte) (payload : List Byte) (w : Work) : Work :=
  w.checked tag payload 528 parseSectorWrite fun a w =>
    match w.sectorRefusal a.port a.lba with
    | some r => w.answer tag r []
    | none =>
      if w.covered a.port a.lba then w.answer tag .overlap []
      else
        w.hostEntry tag a.port a.lba (fun page => .hostWrite tag page a.trailer a.override)
          fun page w => w.updMem (·.writePage page a.payload)

/-- SECTOR_WRITE (R143). -/
def execSectorWrite (tag : Byte) (payload : List Byte) (s : State) :
    Host.Outcome State Fault Refusal :=
  act (·.takeRequest tag 0x2A (serveSectorWrite tag payload)) s

end Sys2Proof.Machine
end

