-- ==== Sys2Proof/Machine/Receiver.lean ====
section
/-! DEFINITION. The receiver (R145, R146): bytes into records, and the taking of a complete request
whatever its code (R147, R149). -/

namespace Sys2Proof.Machine

/-- A request in its slot, served by its code (R149, Table 10.2); a code the part does not know is
answered UNKNOWN_REQUEST. `permit` is the level of PERMIT at this moment (R139). -/
def serveCode (code tag : Byte) (payload : List Byte) (permit : Bool) (w : Work) : Work :=
  match code.toNat with
  | 0x01 => serveHello tag payload w
  | 0x02 => servePartReset tag payload w
  | 0x03 => serveNoticeHold tag payload w
  | 0x04 => serveNoticeRelease tag payload w
  | 0x10 => serveFrameSet tag payload w
  | 0x11 => serveSlotSet tag payload w
  | 0x12 => serveSlotClear tag payload w
  | 0x20 => servePortAttach tag payload w
  | 0x21 => servePortDetach tag payload w
  | 0x22 => servePortQuery tag payload w
  | 0x28 => serveTrackFormat tag payload permit w
  | 0x29 => serveSectorRead tag payload w
  | 0x2A => serveSectorWrite tag payload w
  | 0x30 => serveStreamBind tag payload w
  | 0x31 => serveStreamUnbind tag payload w
  | 0x32 => serveStreamStart tag payload w
  | 0x33 => serveStreamStop tag payload w
  | 0x34 => serveStreamAbort tag payload w
  | 0x35 => serveStreamQuery tag payload w
  | 0x40 => serveExtentAdd tag payload w
  | 0x41 => serveExtentClear tag payload w
  | _ => w.answer tag .unknownRequest []

/-- UNKNOWN_REQUEST (R149 (1)): a complete request whose code is in no row of Table 10.2. A code
that is in the table is that request, and is served as such (log 30). -/
def execUnknownRequest (tag code : Byte) (payload : List Byte) (s : State) :
    Host.Outcome State Fault Refusal :=
  act (·.takeRequest tag code (serveCode code tag payload false)) s

/-- A record whose last check byte has arrived (R145 (4)). -/
def Work.recordEnds (w : Work) (lengthBytes bodyBytes check : List Byte) (permit : Bool) : Work :=
  if check ≠ crcBytes (lengthBytes ++ bodyBytes) then w.receiverFault .check
  else
    match bodyBytes with
    | kind :: tag :: code :: payload =>
      if kind = 1 then
        (w.updHost fun h => { h with rx := .hunt }).takeRequest tag code
          (serveCode code tag payload permit)
      else w.receiverFault .kind
    | _ => w.receiverFault .kind

/-- The receiver takes one byte received without a framing error (R145). -/
def Work.receiveByte (w : Work) (b : Byte) (permit : Bool) : Work :=
  let goTo (rx : Rx) : Work := w.updHost fun h => { h with rx := rx }
  match w.host.rx with
  | .hunt => if b = 0xA5 then goTo (.length []) else w
  | .length [] => goTo (.length [b])
  | .length (high :: _) =>
    let n := beNat [high, b]
    if 3 ≤ n ∧ n ≤ 560 then goTo (.body n [high, b] []) else w.receiverFault .length
  | .body n lengthBytes taken =>
    if taken.length + 1 < n then goTo (.body n lengthBytes (taken ++ [b]))
    else goTo (.check lengthBytes (taken ++ [b]) [])
  | .check lengthBytes bodyBytes [] => goTo (.check lengthBytes bodyBytes [b])
  | .check lengthBytes bodyBytes (high :: _) =>
    w.recordEnds lengthBytes bodyBytes [high, b] permit

/-- HRX_BYTE (R145): while a reset is pending the byte is discarded (R155); in HUNT a byte with a
framing error is discarded, elsewhere it is a line fault with cause FRAMING. -/
def execHrxByte (b : Byte) (framing permit : Bool) (s : State) :
    Host.Outcome State Fault Refusal :=
  actUnlessReset (fun w =>
    if w.host.resetPending then w
    else if framing then
      match w.host.rx with
      | .hunt => w
      | _ => w.receiverFault .framing
    else w.receiveByte b permit) s

end Sys2Proof.Machine
end

