-- ==== Sys2Proof/Machine/Dispatch.lean ====
section
/-! DEFINITION. One arm per command: its meaning, on everything but the queue of commands. -/

namespace Sys2Proof.Machine

def exec (i : Instr) (s : State) : Host.Outcome State Fault Refusal :=
  match i with
  | .hrxByte b framing permit => Sys2Proof.Machine.execHrxByte b framing permit s
  | .interByteTimeout => Sys2Proof.Machine.execInterByteTimeout s
  | .unknownRequest tag code payload => Sys2Proof.Machine.execUnknownRequest tag code payload s
  | .hello tag payload => Sys2Proof.Machine.execHello tag payload s
  | .partReset tag payload => Sys2Proof.Machine.execPartReset tag payload s
  | .noticeHold tag payload => Sys2Proof.Machine.execNoticeHold tag payload s
  | .noticeRelease tag payload => Sys2Proof.Machine.execNoticeRelease tag payload s
  | .frameSet tag payload => Sys2Proof.Machine.execFrameSet tag payload s
  | .slotSet tag payload => Sys2Proof.Machine.execSlotSet tag payload s
  | .slotClear tag payload => Sys2Proof.Machine.execSlotClear tag payload s
  | .portAttach tag payload => Sys2Proof.Machine.execPortAttach tag payload s
  | .portDetach tag payload => Sys2Proof.Machine.execPortDetach tag payload s
  | .portQuery tag payload => Sys2Proof.Machine.execPortQuery tag payload s
  | .trackFormat tag payload permit => Sys2Proof.Machine.execTrackFormat tag payload permit s
  | .sectorRead tag payload => Sys2Proof.Machine.execSectorRead tag payload s
  | .sectorWrite tag payload => Sys2Proof.Machine.execSectorWrite tag payload s
  | .streamBind tag payload => Sys2Proof.Machine.execStreamBind tag payload s
  | .streamUnbind tag payload => Sys2Proof.Machine.execStreamUnbind tag payload s
  | .streamStart tag payload => Sys2Proof.Machine.execStreamStart tag payload s
  | .streamStop tag payload => Sys2Proof.Machine.execStreamStop tag payload s
  | .streamAbort tag payload => Sys2Proof.Machine.execStreamAbort tag payload s
  | .streamQuery tag payload => Sys2Proof.Machine.execStreamQuery tag payload s
  | .extentAdd tag payload => Sys2Proof.Machine.execExtentAdd tag payload s
  | .extentClear tag payload => Sys2Proof.Machine.execExtentClear tag payload s
  | .recordSent spd1 spd0 => Sys2Proof.Machine.execRecordSent spd1 spd0 s
  | .resetnLow => Sys2Proof.Machine.execResetnLow s
  | .leaveReset spd1 spd0 => Sys2Proof.Machine.execLeaveReset spd1 spd0 s
  | .frameBoundary sync received => Sys2Proof.Machine.execFrameBoundary sync received s
  | .frameSyncSeeking low fsy => Sys2Proof.Machine.execFrameSyncSeeking low fsy s
  | .bitClockStopped => Sys2Proof.Machine.execBitClockStopped s
  | .ident port cylinders heads sectors ready => Sys2Proof.Machine.execIdent port cylinders heads sectors ready s
  | .identifyTimeout port => Sys2Proof.Machine.execIdentifyTimeout port s
  | .ready port => Sys2Proof.Machine.execReady port s
  | .notReady port => Sys2Proof.Machine.execNotReady port s
  | .positioned port cylinder => Sys2Proof.Machine.execPositioned port cylinder s
  | .positionFault port => Sys2Proof.Machine.execPositionFault port s
  | .positioningTimeout port => Sys2Proof.Machine.execPositioningTimeout port s
  | .restoreTimeout port => Sys2Proof.Machine.execRestoreTimeout port s
  | .markTimeout port => Sys2Proof.Machine.execMarkTimeout port s
  | .sectorMark marks => Sys2Proof.Machine.execSectorMark marks s
  | .headerRead header permit => Sys2Proof.Machine.execHeaderRead header permit s
  | .writeData => Sys2Proof.Machine.execWriteData s
  | .readData payload trailer => Sys2Proof.Machine.execReadData payload trailer s

end Sys2Proof.Machine
end

