-- ==== Sys2Proof/Safety.lean ====
section
/-! DEFINITION. What the claims call a sound state: the ranges the spec gives the queues, lists and
counters of the part, the canonical form of the buffer memory, and a transmitter that never idles
with a record to send. -/

namespace Sys2Proof.Machine

/-- The seven counters within their widths (R4): 48 bits for bytes, 32 bits for the others. -/
def Counters.Bounded (c : Counters) : Prop :=
  (c.received ≤ top48 ∧ c.lost ≤ top48 ∧ c.idleSent ≤ top48) ∧
    c.slips ≤ top32 ∧ c.discarded ≤ top32 ∧ c.unreadable ≤ top32 ∧ c.gaps ≤ top32

/-- A stream record within these ranges of Table 1.1: up to 8 extents, up to 8 skip-list entries,
outstanding at most the depth, and the counters and the commit mark within their widths. -/
def Stream.Bounded (st : Stream) : Prop :=
  st.extents.length ≤ 8 ∧ st.skips.length ≤ 8 ∧ st.outstanding ≤ st.cfg.depth ∧
    st.counters.Bounded ∧ st.markNow ≤ top32

/-- A port whose transfer queue holds at most 12 entries (R127), with at most 2 position tries and its
four counters within 32 bits (R110). -/
def Port.Bounded (pt : Port) : Prop :=
  pt.queue.length ≤ 12 ∧ pt.posTries ≤ 2 ∧ pt.completed ≤ top32 ∧ pt.missed ≤ top32 ∧
    pt.posFaults ≤ top32 ∧ pt.restores ≤ top32

/-- The bits counted in SEEKING lie within a frame, and none are counted while the run count is 0
(R59). -/
def FramePort.Bounded (f : FramePort) : Prop :=
  ∀ run bits, f.state = .seeking run bits → bits ≤ f.slotCount.bits ∧ (run = 0 → bits = 0)

/-- The host line within its capacities: a load of at most 8 and no two requests in progress with
one tag (R147), at most 4 rejections (R148), at most 32 notices and the figures of R146 and R152
in range. -/
def HostLine.Bounded (h : HostLine) : Prop :=
  h.load ≤ 8 ∧ (h.slots.map (·.tag)).Nodup ∧ h.rejections.length ≤ 4 ∧ h.notices.length ≤ 32 ∧
    h.noticeNumber < 256 ∧ h.missed ≤ 255 ∧ h.lineFaults ≤ 65535

/-- The transmitter has chosen: it is not idle while a record may be sent (R151). -/
def HostLine.Served (h : HostLine) : Prop := h.choose = h

/-- The state with no message on the way: what a step begins with. -/
def State.work (s : State) : Work := { s with agenda := [] }

/-- The sound states. -/
structure State.Sound (s : State) : Prop where
  streams : ∀ i : StreamNo, s.streams[i].Bounded
  ports : ∀ p : PortNo, s.ports[p].Bounded
  host : s.host.Bounded
  frame : s.frame.Bounded
  memory : s.pool.mem.Wf

/-- Settings within the ranges of R9. -/
def Settings.InRange (c : Settings) : Prop :=
  c.recTag ≠ 0 ∧ 2 ≤ c.quota ∧ c.quota ≤ 64 ∧ 1 ≤ c.reserve ∧ c.reserve ≤ c.quota ∧
    1 ≤ c.depth ∧ c.depth ≤ 4 ∧ c.lowMark ≤ 65535 ∧ 1 ≤ c.primeLevel ∧ c.primeLevel ≤ c.quota

/-- The reserve accounting of R25: settings lie within their ranges, a FREE stream has none, the sum
of reserves is at most 480, and the free count is at least the outstanding reserve need. -/
structure State.Reserved (s : State) : Prop where
  ranges : ∀ (i : StreamNo) (c : Settings), s.streams[i].settings = some c → c.InRange
  free : ∀ i : StreamNo, s.streams[i].state = .free → s.streams[i].settings = none
  sum : s.work.reserveSum ≤ 480
  margin : s.work.reserveNeed ≤ s.work.freeCount

/-- The line is never idle with a record to send, unless the part is held in reset (R151). -/
def State.LineServed (s : State) : Prop := s.resetLow = false → s.host.Served

/-- The slot maps of R65: an entry that names a stream lies below the slot count and names a stream
bound in the direction of its map, and no stream has more than 8 slots. -/
structure State.Mapped (s : State) : Prop where
  free : ∀ i : StreamNo, s.streams[i].state = .free → s.streams[i].settings = none
  receive : ∀ (n : SlotNo) (i : StreamNo), s.frame.rxMap[n] = some i →
    n.val < s.frame.slotCount.toNat ∧ ∃ c, s.streams[i].settings = some c ∧ c.direction = .capture
  transmit : ∀ (n : SlotNo) (i : StreamNo), s.frame.txMap[n] = some i →
    n.val < s.frame.slotCount.toNat ∧ ∃ c, s.streams[i].settings = some c ∧ c.direction = .replay
  width : ∀ i : StreamNo, s.work.width i ≤ 8

/-! ### The words of the claims about requests -/

/-- A request with this tag is taken into a slot (R147 (3)): the part is not held in reset and no
reset is pending, the tag is not in progress, and the load is below 8. -/
structure State.Takes (s : State) (tag : Byte) : Prop where
  high : s.resetLow = false
  noReset : s.host.resetPending = false
  fresh : s.host.inProgress tag = false
  room : s.host.load < 8

/-- The host line with a reply added to its queue; an idle line begins to send it (R151). -/
def HostLine.withReply (h : HostLine) (r : Reply) : HostLine :=
  { h with replies := h.replies ++ [r], tx := if h.tx = .idle then .reply else h.tx }

/-- The state with a reply queued. -/
def State.replied (s : State) (tag code : Byte) (result : Result) (payload : List Byte) : State :=
  { s with host := s.host.withReply ⟨tag, code, result, payload⟩ }

/-- The state with a request in its slot, to be answered later (R150). -/
def State.inService (s : State) (tag code : Byte) : State :=
  { s with host := { s.host with slots := s.host.slots ++ [⟨tag, code, ownerOf code⟩] } }

/-- The state with a notice raised (R152). -/
def State.notified (s : State) (n : Notice) : State := { s with host := s.host.raise n }

/-- The state with another stream record. -/
def State.withStream (s : State) (i : StreamNo) (st : Stream) : State :=
  { s with streams := s.streams.set i st }

/-- The state with another port record. -/
def State.withPort (s : State) (p : PortNo) (pt : Port) : State :=
  { s with ports := s.ports.set p pt }

/-- The result of the first check that fails, in a list of checks tried in order. -/
def firstFailing : List (Bool × Result) → Option Result
  | [] => none
  | (fails, r) :: l => if fails then some r else firstFailing l

/-- A request: its tag, its code and its payload. -/
structure Request where
  tag : Byte
  code : Byte
  payload : List Byte
  deriving DecidableEq, Repr

end Sys2Proof.Machine

namespace Sys2Proof

open Machine (Request)

/-- The request a request row stands for (Table 10.2); none for an event. -/
def Instr.request : Instr → Option Request
  | .unknownRequest tag code l => some ⟨tag, code, l⟩
  | .hello tag l => some ⟨tag, 0x01, l⟩
  | .partReset tag l => some ⟨tag, 0x02, l⟩
  | .noticeHold tag l => some ⟨tag, 0x03, l⟩
  | .noticeRelease tag l => some ⟨tag, 0x04, l⟩
  | .frameSet tag l => some ⟨tag, 0x10, l⟩
  | .slotSet tag l => some ⟨tag, 0x11, l⟩
  | .slotClear tag l => some ⟨tag, 0x12, l⟩
  | .portAttach tag l => some ⟨tag, 0x20, l⟩
  | .portDetach tag l => some ⟨tag, 0x21, l⟩
  | .portQuery tag l => some ⟨tag, 0x22, l⟩
  | .trackFormat tag l _ => some ⟨tag, 0x28, l⟩
  | .sectorRead tag l => some ⟨tag, 0x29, l⟩
  | .sectorWrite tag l => some ⟨tag, 0x2A, l⟩
  | .streamBind tag l => some ⟨tag, 0x30, l⟩
  | .streamUnbind tag l => some ⟨tag, 0x31, l⟩
  | .streamStart tag l => some ⟨tag, 0x32, l⟩
  | .streamStop tag l => some ⟨tag, 0x33, l⟩
  | .streamAbort tag l => some ⟨tag, 0x34, l⟩
  | .streamQuery tag l => some ⟨tag, 0x35, l⟩
  | .extentAdd tag l => some ⟨tag, 0x40, l⟩
  | .extentClear tag l => some ⟨tag, 0x41, l⟩
  | .hrxByte .. | .interByteTimeout | .recordSent .. | .resetnLow | .leaveReset ..
  | .frameBoundary .. | .frameSyncSeeking .. | .bitClockStopped | .ident ..
  | .identifyTimeout _ | .ready _ | .notReady _ | .positioned .. | .positionFault _
  | .positioningTimeout _ | .restoreTimeout _ | .markTimeout _ | .sectorMark _ | .headerRead ..
  | .writeData | .readData .. => none

/-- The row of a request (Table 10.2); `permit` matters to TRACK_FORMAT alone. -/
def Instr.ofRequest (r : Request) (permit : Bool) : Instr :=
  match r.code.toNat with
  | 0x01 => .hello r.tag r.payload
  | 0x02 => .partReset r.tag r.payload
  | 0x03 => .noticeHold r.tag r.payload
  | 0x04 => .noticeRelease r.tag r.payload
  | 0x10 => .frameSet r.tag r.payload
  | 0x11 => .slotSet r.tag r.payload
  | 0x12 => .slotClear r.tag r.payload
  | 0x20 => .portAttach r.tag r.payload
  | 0x21 => .portDetach r.tag r.payload
  | 0x22 => .portQuery r.tag r.payload
  | 0x28 => .trackFormat r.tag r.payload permit
  | 0x29 => .sectorRead r.tag r.payload
  | 0x2A => .sectorWrite r.tag r.payload
  | 0x30 => .streamBind r.tag r.payload
  | 0x31 => .streamUnbind r.tag r.payload
  | 0x32 => .streamStart r.tag r.payload
  | 0x33 => .streamStop r.tag r.payload
  | 0x34 => .streamAbort r.tag r.payload
  | 0x35 => .streamQuery r.tag r.payload
  | 0x40 => .extentAdd r.tag r.payload
  | 0x41 => .extentClear r.tag r.payload
  | _ => .unknownRequest r.tag r.code r.payload

end Sys2Proof

namespace Sys2Proof.Machine

/-- The ranges of a request's arguments (R149 (3)): R9, R11, R13, R14, R19, R20, R47, R53, R62, R66,
R67, R112, R124, R125, R139, R141, R143, said of the bytes of a payload of the right length. -/
def Request.InRange (r : Request) : Prop :=
  let b (k : Nat) : Nat := (r.payload.getD k 0).toNat
  let half (k : Nat) : Nat := 256 * b k + b (k + 1)
  match r.code.toNat with
  | 0x10 => b 0 ≤ 2 ∧ (b 1 = 32 ∨ b 1 = 64)
  | 0x11 => b 0 ≤ 63 ∧ b 1 ≤ 1 ∧ b 2 ≤ 15
  | 0x12 => b 0 ≤ 63 ∧ b 1 ≤ 1
  | 0x20 | 0x21 | 0x22 | 0x29 => b 0 ≤ 3
  | 0x28 => b 0 ≤ 3 ∧ half 1 ≤ 4095 ∧ b 3 ≤ 15 ∧ b 4 ≤ 1
  | 0x2A => b 0 ≤ 3 ∧ 1 ≤ half 5 ∧ half 13 ≤ 512 ∧ b 15 ≤ 1
  | 0x30 => b 0 ≤ 15 ∧ b 1 ≤ 1 ∧ 1 ≤ half 2 ∧ 2 ≤ b 4 ∧ b 4 ≤ 64 ∧ 1 ≤ b 5 ∧ b 5 ≤ b 4 ∧
      1 ≤ b 6 ∧ b 6 ≤ 4 ∧ b 7 ≤ 1 ∧ 1 ≤ b 11 ∧ b 11 ≤ b 4
  | 0x31 | 0x32 | 0x33 | 0x34 | 0x35 | 0x41 => b 0 ≤ 15
  | 0x40 => b 0 ≤ 15 ∧ b 1 ≤ 3 ∧ 1 ≤ half 6 ∧ b 8 ≤ 1
  | _ => True

/-! ### Request payloads (section 10.3) -/

/-- The payload of STREAM_BIND. -/
def Settings.bytes (c : Settings) (i : StreamNo) : List Byte :=
  [streamByte i, c.direction.code] ++ beBytes 2 c.recTag.toNat ++ beBytes 1 c.quota ++
    beBytes 1 c.reserve ++ beBytes 1 c.depth ++ [c.policy.code, c.idleByte] ++
    beBytes 2 c.lowMark ++ beBytes 1 c.primeLevel

/-- The payload of STREAM_START. -/
def startBytes (i : StreamNo) (take : Half) (seq : Seq) : List Byte :=
  [streamByte i] ++ beBytes 2 take.toNat ++ beBytes 4 seq.toNat

/-- The payload of EXTENT_ADD. -/
def Extent.bytes (e : Extent) (i : StreamNo) : List Byte :=
  [streamByte i, portByte e.port] ++ beBytes 4 e.start ++ beBytes 2 e.count ++
    [boolByte e.override]

/-- An extent within the ranges of R47. -/
def Extent.InRange (e : Extent) : Prop := e.start < 2 ^ 32 ∧ 1 ≤ e.count ∧ e.count ≤ 65535

/-- The payload of TRACK_FORMAT. -/
def FormatArgs.bytes (a : FormatArgs) : List Byte :=
  [portByte a.port] ++ beBytes 2 a.cyl ++ beBytes 1 a.head ++ [boolByte a.lock]

/-- A sector's place as requests and replies carry it: port and LBA. -/
def placeBytes (p : PortNo) (lba : Nat) : List Byte := [portByte p] ++ beBytes 4 lba

/-- The payload of SECTOR_WRITE. -/
def WriteArgs.bytes (a : WriteArgs) : List Byte :=
  placeBytes a.port a.lba ++ a.trailer.bytes ++ [boolByte a.override] ++ a.payload

/-- Arguments of SECTOR_WRITE within the ranges of R143. -/
def WriteArgs.InRange (a : WriteArgs) : Prop :=
  a.lba < 2 ^ 32 ∧ a.trailer.recTag ≠ 0 ∧ a.trailer.fill ≤ 512 ∧ a.payload.length = 512

/-! ### The words of the claims about frames and host entries -/

/-- The port state after a frame boundary that is a frame end (R58, R60); none where it is none. -/
def FrameState.atFrameEnd (sync : Bool) : FrameState → Option FrameState
  | .master => some .master
  | .locked missed => if missed && !sync then none else some (.locked (!sync))
  | _ => none

/-- The frame port after a frame end, with the hand-over buffer and the buffer sent from now on given
(R69, R72). -/
def FramePort.ended (f : FramePort) (next : FrameState) (rxHand txSend : Vector Byte 64) : FramePort :=
  { f with
    state := next, rxHand := rxHand, rxRecv := f.rxHand, txSend := txSend
    txFill := Vector.replicate 64 0xFF }

/-- The entry belongs to a host request. -/
def Entry.ofHost (e : Entry) : Bool := e.kind.stream.isNone

/-- The host line after the requests of host entries that carry no data back are answered with one
result, in order (R136 (3)). -/
def HostLine.answerEntries (h : HostLine) (r : Result) : List Entry → HostLine
  | [] => h
  | e :: l =>
    match e.kind with
    | .hostRead tag _ | .hostWrite tag _ _ _ =>
      (h.answer tag r (placeBytes e.port (e.lba.getD 0))).answerEntries r l
    | .format tag _ => (h.answer tag r []).answerEntries r l
    | _ => h.answerEntries r l

/-- The pool after host requests have given their pages back, in order (R32, R33). -/
def Pool.takeBack (pool : Pool) (pages : List PageNo) : Pool :=
  { pool with free := pool.free ++ pages, hostCount := pool.hostCount - pages.length }

/-- The record of a port whose entry the engine has completed (R116, R129). -/
def Port.withCompleted (pt : Port) (e : Entry) : Port :=
  { pt with
    chosen := none
    queue := (pt.queue.filter fun f => f.serial != e.serial).map fun f =>
      { f with passed := min 65535 (f.passed + 1) }
    completed := min (2 ^ 32 - 1) (pt.completed + 1)
    recovery := if pt.recovery = some e.serial then none else pt.recovery }

end Sys2Proof.Machine
end

