-- ==== Sys2Proof/Certificates/Slice0/Obligations.lean ====
section
/-! DEFINITION. The statements about the part: what a step is, what reset leaves, what every step
keeps, and what each command does. -/

open Sys2Proof Sys2Proof.Machine

/-! ### Steps -/

/-- A step takes the command at the front of the queue and is that command's effect on the state with
the queue's rest; with no command waiting the part idles (the model's choice, log 1). -/
def Obligations.StepTakesTheFront : Prop :=
  (∀ (c : Instr) (rest : List Instr) (s : State),
    step { s with pending := c :: rest } = exec c { s with pending := rest }) ∧
  ∀ s : State, s.pending = [] → step s = .next s

/-- Every command, in every state, answers a next state; the commands that wait behind it stay as they
are. No fault and no refusal: that an event which is impossible in the state it meets does nothing is
the model's choice (log 12), as the queue is (log 1). -/
def Obligations.EveryCommandGoesOn : Prop :=
  ∀ (c : Instr) (s : State), ∃ t, exec c s = .next t ∧ t.pending = s.pending

/-- While RESETN is low (R156) no command but the two of the reset input changes anything, and
RESETN_LOW itself cuts the record being sent, the transfer in the engine and the frame, and nothing
else until LEAVE_RESET (the model's choice, log 11). -/
def Obligations.HeldInReset : Prop :=
  (∀ (c : Instr) (s : State), s.resetLow = true → c ≠ .resetnLow →
    (∀ spd1 spd0, c ≠ .leaveReset spd1 spd0) → exec c s = .next s) ∧
  ∀ s : State, exec .resetnLow s = .next { s with
    resetLow := true
    host := { s.host with tx := .idle }
    engine := {}
    frame := { s.frame with role := .off, state := .off } }

/-! ### Reset -/

/-- R37, for both ways out of reset: LEAVE_RESET, and the last byte of the OK reply to PART_RESET. What
the buffer memory held is of no consequence: a page granted after it, whatever the stream's record has
become by then, is all 0x00. -/
def Obligations.PoolAfterReset : Prop :=
  ∀ (s : State) (spd1 spd0 : Bool) (c : Instr),
    (c = .leaveReset spd1 spd0 ∨
      (c = .recordSent spd1 spd0 ∧ s.resetLow = false ∧ s.host.tx = .reply ∧
        s.host.resetPending = true ∧
        ∃ r rest, s.host.replies = r :: rest ∧ r.code = 0x02 ∧ r.result = .ok)) →
    ∃ t, exec c s = .next t ∧
      (∀ p : PageNo, p ∈ t.pool.free) ∧ t.pool.free = List.finRange 512 ∧ t.work.freeCount = 512 ∧
      (∀ i : StreamNo, t.work.held i = 0) ∧ t.pool.hostCount = 0 ∧
      t.work.reserveSum = 0 ∧ t.work.reserveNeed = 0 ∧ t.pool.waitList = [] ∧
      (∀ (i : StreamNo) (st : Stream) (p : PageNo) (w : Work),
        (t.withStream i st).work.claim i = some (p, w) →
        ∀ k < 512, w.pool.mem.read (pageAddr p k) = 0) ∧
      ∀ (p : PageNo) (w : Work), t.work.claimHost = some (p, w) →
        ∀ k < 512, w.pool.mem.read (pageAddr p k) = 0

/-- What the part holds after LEAVE_RESET (R1, R37, R57, R65, R72, R110, R130, Table 9.3), the speed
by the straps. The receive buffers and the header flags in hand are the model's choice (log 9), as is the
buffer memory's list of cells, empty for a memory of 0x00 (log 10; by R37 what it holds is of no
consequence), and that the queue of commands and the count of free choices stay (log 11). -/
def Obligations.LeaveResetValues : Prop :=
  ∀ (s : State) (spd1 spd0 : Bool), exec (.leaveReset spd1 spd0) s = .next {
    pending := s.pending
    resetLow := false
    host := {
      rx := .hunt
      lineSpeed := if spd1 then (if spd0 then .b3000000 else .b1000000)
        else (if spd0 then .b460800 else .b115200)
      slots := [], replies := [], rejections := [], notices := [], tx := .idle
      noticeHold := false, noticeNumber := 0, missed := 0, lineFaults := 0, resetPending := false }
    streams := Vector.replicate 16 { state := .free }
    pool := {
      mem := [], free := List.finRange 512, held := Vector.replicate 16 0, hostCount := 0
      waitList := [] }
    frame := {
      role := .off, slotCount := .s32, state := .off
      rxMap := Vector.replicate 64 none, txMap := Vector.replicate 64 none
      rxRecv := Vector.replicate 64 0, rxHand := Vector.replicate 64 0
      txSend := Vector.replicate 64 0xFF, txFill := Vector.replicate 64 0xFF }
    ports := Vector.replicate 4 { state := .absent }
    engine := { holder := none, phase := .free, flags := 0 }
    pickCount := s.pickCount
    serial := 0 }

/-- The state after reset meets every invariant stated below. -/
def Obligations.ResetIsSound : Prop :=
  State.reset.Sound ∧ State.reset.Reserved ∧ State.reset.LineServed ∧ State.reset.Mapped

/-! ### What every step keeps -/

/-- Kept by every step: at most 8 extents and 8 skip-list entries, outstanding at most the depth, the
seven counters and the commit mark within their widths (Table 1.1, R4); at most 12 entries in a
transfer queue, at most 2 position tries, the four port counters within 32 bits (R110, R127); the host
line's load, tags, rejections, notices and figures in range (R146 to R148, R152); the bits counted in
SEEKING within a frame (R59); the canonical form of the buffer memory. Of the lengths of the ready and
play queues, the byte position of a page and the one holding place of each page (R22, R24) it says
nothing. -/
def Obligations.StepKeepsSound : Prop :=
  ∀ s t : State, s.Sound → step s = .next t → t.Sound

/-- The reserve accounting of R25 and the ranges of R9 are kept by every step. -/
def Obligations.StepKeepsReserved : Prop :=
  ∀ s t : State, s.Reserved → step s = .next t → t.Reserved

/-- The transmitter never idles with a record to send (R151), and every step keeps it so. -/
def Obligations.StepKeepsLineServed : Prop :=
  ∀ s t : State, s.LineServed → step s = .next t → t.LineServed

/-- The slot maps of R65 are kept by every step. -/
def Obligations.StepKeepsMapped : Prop :=
  ∀ s t : State, s.Mapped → step s = .next t → t.Mapped

/-! ### The host line -/

/-- A request that comes with a tag in progress, or finds the load at 8, is rejected (R147, R148):
queued as a rejection with TAG_IN_USE or FULL, and begun at once on an idle line; where 4 rejections
wait it is discarded as a line fault with cause REJECT_OVERFLOW. Nothing else changes. -/
def Obligations.RejectsRequests : Prop :=
  ∀ (c : Instr) (r : Request) (s : State), c.request = some r → s.resetLow = false →
    s.host.resetPending = false → s.host.Served →
    (s.host.inProgress r.tag = true ∨ 8 ≤ s.host.load) →
    let inUse := s.host.inProgress r.tag
    (s.host.rejections.length < 4 → exec c s = .next { s with host := { s.host with
      rejections := s.host.rejections ++ [⟨r.tag, r.code, inUse⟩]
      tx := if s.host.tx = .idle then .rejection else s.host.tx } }) ∧
    (4 ≤ s.host.rejections.length →
      exec c s = .next { s with host := s.host.fault .rejectOverflow })

/-- A line fault (R146): the count rises by 1, up to 65535; the waiting LINE_FAULT notice, if there is
one that is not being sent, is brought up to date, and otherwise a LINE_FAULT notice is raised. -/
def Obligations.LineFaultCounts : Prop :=
  ∀ (h : HostLine) (cause : LineFaultCause),
    let total := min 65535 (h.lineFaults + 1)
    let isFault (q : QueuedNotice) : Bool :=
      match q.notice with | .lineFault .. => true | _ => false
    let sending : Nat := match h.tx with | .notice _ => 1 | _ => 0
    ((h.notices.drop sending).any isFault = false →
      h.fault cause = HostLine.raise { h with lineFaults := total } (.lineFault 1 total cause)) ∧
    ∀ front q rest, h.notices.drop sending = front ++ q :: rest → front.any isFault = false →
      (∀ figure old oldCause, q.notice = .lineFault figure old oldCause →
        h.fault cause = { h with
          lineFaults := total
          notices := h.notices.take sending ++ front ++
            { q with notice := .lineFault (min 65535 (figure + 1)) total cause } :: rest })

/-- A notice raised (R152): placed with the current notice number while the queue holds fewer than
32, and begun at once on an idle line with nothing before it and notice hold off, with the missed
count; dropped and counted as missed otherwise. The answer to a request in progress (R149, R150): its
slot becomes free and its reply is queued, with its tag and code; an idle line begins it. -/
def Obligations.NoticesAndAnswersAreQueued : Prop :=
  (∀ (h : HostLine) (n : Notice), h.Served →
     (h.notices.length < 32 → h.raise n = { h with
       notices := h.notices ++ [⟨h.noticeNumber, n⟩]
       noticeNumber := (h.noticeNumber + 1) % 256
       tx := if h.tx = .idle ∧ h.noticeHold = false then .notice h.missed else h.tx
       missed := if h.tx = .idle ∧ h.noticeHold = false then 0 else h.missed }) ∧
     (32 ≤ h.notices.length → h.raise n = { h with missed := min 255 (h.missed + 1) })) ∧
  ∀ (h : HostLine) (tag : Byte) (r : Result) (payload : List Byte) (code : Byte) (owner : Owner)
    (before after : List Slot), h.slots = before ++ ⟨tag, code, owner⟩ :: after →
    before.any (·.tag == tag) = false →
    h.answer tag r payload =
      HostLine.withReply { h with slots := before ++ after } ⟨tag, code, r, payload⟩

/-- The checks of R149, for every row of Table 10.2: a code in no row is answered UNKNOWN_REQUEST,
whatever its payload; a payload of another length than the row's BAD_LENGTH; one of that length with an
argument out of its range BAD_ARGUMENT; each at once and with nothing else changed. -/
def Obligations.RequestsAreChecked : Prop :=
  (∀ (c : Instr) (r : Request) (s : State) (n : Nat), c.request = some r → s.Takes r.tag →
     requestLength r.code = some n →
     (r.payload.length ≠ n → exec c s = .next (s.replied r.tag r.code .badLength [])) ∧
     (r.payload.length = n → ¬ r.InRange →
       exec c s = .next (s.replied r.tag r.code .badArgument []))) ∧
  ∀ (s : State) (tag code : Byte) (payload : List Byte), s.Takes tag → requestLength code = none →
    exec (.unknownRequest tag code payload) s = .next (s.replied tag code .unknownRequest [])

/-- The receiver (R145) on a byte that does not complete a record: the states HUNT, LENGTH, BODY and
CHECK, the length 3 to 560, and the framing errors. While a reset is pending every byte is discarded
(R155). 5 ms without a byte are a line fault with cause TIMEOUT in LENGTH, BODY and CHECK, and
nothing in HUNT. -/
def Obligations.ReceivesBytes : Prop :=
  (∀ (s : State) (b : Byte) (permit : Bool), s.resetLow = false →
     let goes (framing : Bool) (rx : Rx) : Prop :=
       exec (.hrxByte b framing permit) s = .next { s with host := { s.host with rx := rx } }
     let faults (framing : Bool) (cause : LineFaultCause) : Prop :=
       exec (.hrxByte b framing permit) s =
         .next { s with host := HostLine.fault { s.host with rx := .hunt } cause }
     (s.host.resetPending = true → ∀ framing, exec (.hrxByte b framing permit) s = .next s) ∧
     (s.host.resetPending = false →
       (s.host.rx = .hunt → goes true .hunt ∧ (b = 0xA5 → goes false (.length [])) ∧
         (b ≠ 0xA5 → goes false .hunt)) ∧
       (s.host.rx ≠ .hunt → faults true .framing) ∧
       (s.host.rx = .length [] → goes false (.length [b])) ∧
       (∀ high, s.host.rx = .length [high] →
         let n := 256 * high.toNat + b.toNat
         (3 ≤ n → n ≤ 560 → goes false (.body n [high, b] [])) ∧
         (n < 3 ∨ 560 < n → faults false .length)) ∧
       (∀ n lengthBytes taken, s.host.rx = .body n lengthBytes taken →
         (taken.length + 1 < n → goes false (.body n lengthBytes (taken ++ [b]))) ∧
         (n ≤ taken.length + 1 → goes false (.check lengthBytes (taken ++ [b]) []))) ∧
       ∀ lengthBytes body, s.host.rx = .check lengthBytes body [] →
         goes false (.check lengthBytes body [b]))) ∧
  ∀ s : State, s.resetLow = false →
    (s.host.rx = .hunt → exec .interByteTimeout s = .next s) ∧
    (s.host.rx ≠ .hunt → exec .interByteTimeout s =
      .next { s with host := HostLine.fault { s.host with rx := .hunt } .timeout })

/-- The last check byte of a record (R145 (4), R159): a check that differs is a line fault with cause
CHECK, a kind other than request one with cause KIND; a request is the command of its row, with the
receiver back in HUNT. That its effect begins in the same step is the model's choice (log 2). -/
def Obligations.CompleteRecordIsItsRequest : Prop :=
  ∀ (s : State) (lengthBytes body : List Byte) (high low : Byte) (permit : Bool),
    s.resetLow = false → s.host.resetPending = false →
    s.host.rx = .check lengthBytes body [high] →
    let fresh := { s with host := { s.host with rx := .hunt } }
    let faults (cause : LineFaultCause) : Prop :=
      exec (.hrxByte low false permit) s =
        .next { s with host := HostLine.fault { s.host with rx := .hunt } cause }
    ([high, low] ≠ crcBytes (lengthBytes ++ body) → faults .check) ∧
    ([high, low] = crcBytes (lengthBytes ++ body) →
      (∀ kind rest, body = kind :: rest → kind ≠ 1 → faults .kind) ∧
      ∀ r : Request, body = 1 :: r.tag :: r.code :: r.payload →
        exec (.hrxByte low false permit) s = exec (Instr.ofRequest r permit) fresh)

/-- The last byte of the record being sent (R151, R155): the record leaves its queue, and the
transmitter takes the oldest reply, else the oldest rejection, else, while notice hold is off, the
oldest notice with the missed count. The reply to PART_RESET resets the part. That the event does
nothing on an idle line, where it cannot come, is the model's choice (log 12). -/
def Obligations.RecordSent : Prop :=
  ∀ (s : State) (spd1 spd0 : Bool), s.resetLow = false →
    let h := s.host
    let resets : Prop := h.tx = .reply ∧ h.resetPending = true ∧
      ∃ r rest, h.replies = r :: rest ∧ r.code = 0x02 ∧ r.result = .ok
    (resets → exec (.recordSent spd1 spd0) s = exec (.leaveReset spd1 spd0) s) ∧
    (¬ resets → h.tx ≠ .idle →
      let replies := if h.tx = .reply then h.replies.tail else h.replies
      let rejections := if h.tx = .rejection then h.rejections.tail else h.rejections
      let notices := if h.tx = .reply ∨ h.tx = .rejection then h.notices else h.notices.tail
      let tx : Tx :=
        if replies ≠ [] then .reply
        else if rejections ≠ [] then .rejection
        else if notices ≠ [] ∧ h.noticeHold = false then .notice h.missed
        else .idle
      exec (.recordSent spd1 spd0) s = .next { s with host := { h with
        replies := replies
        rejections := rejections
        notices := notices
        tx := tx
        missed := if tx = .notice h.missed then 0 else h.missed } }) ∧
    (h.tx = .idle → exec (.recordSent spd1 spd0) s = .next s)

/-- HELLO (R154): answered OK at once with the part code and revision, the capacities, the line speed
as LEAVE_RESET read it from the straps, the notice hold and the line-fault count, and nothing else is
changed. -/
def Obligations.HelloReports : Prop :=
  (∀ (s : State) (tag : Byte), s.Takes tag →
    exec (.hello tag []) s = .next (s.replied tag 0x01 .ok
      ([0x04, 0x16, 1, 16, 0x02, 0x00, 4, 64, 8, s.host.lineSpeed.code,
        if s.host.noticeHold then 1 else 0] ++ beBytes 2 s.host.lineFaults))) ∧
  ∀ (s : State) (spd1 spd0 : Bool), ∃ t, exec (.leaveReset spd1 spd0) s = .next t ∧
    t.host.lineSpeed.code = (if spd1 then 2 else 0) + (if spd0 then 1 else 0)

/-- PART_RESET (R155): answered OK; from then on a reset is pending and the receiver takes no further
record, and nothing else changes until the reply has been sent. NOTICE_HOLD and NOTICE_RELEASE (R153):
notice hold is set on and off, and the reply carries the notices in the queue and the missed count as
they were when the request was taken. -/
def Obligations.PartResetAndNoticeHold : Prop :=
  (∀ (s : State) (tag : Byte), s.Takes tag →
     exec (.partReset tag []) s = .next { s.replied tag 0x02 .ok [] with
       host := { (s.replied tag 0x02 .ok []).host with resetPending := true, rx := .hunt } }) ∧
  ∀ (s : State) (tag : Byte), s.Takes tag →
    let figures := beBytes 1 s.host.notices.length ++ beBytes 1 s.host.missed
    let held (on : Bool) : State := { s with host := { s.host with noticeHold := on } }
    exec (.noticeHold tag []) s = .next ((held true).replied tag 0x03 .ok figures) ∧
    exec (.noticeRelease tag []) s = .next ((held false).replied tag 0x04 .ok figures)

/-! ### The frame port -/

/-- FRAME_SET (R62, R63): refused STATE while some stream is active or the slot map names a stream at
or above the new slot count; otherwise the role and slot count are taken, the port state starts, and
both transmit buffers carry 0xFF. The slot map and all else stay; of what the receive buffers hold the
statement says nothing (log 37). -/
def Obligations.FrameSetStartsTheRole : Prop :=
  ∀ (s : State) (tag : Byte) (role : Role) (n : SlotCount), s.Takes tag →
    let payload := [role.code, BitVec.ofNat 8 n.toNat]
    let busy : Prop := (∃ i : StreamNo, s.streams[i].isActive = true) ∨
      ∃ k : SlotNo, n.toNat ≤ k.val ∧ (s.frame.rxMap[k] ≠ none ∨ s.frame.txMap[k] ≠ none)
    let start : FrameState :=
      match role with | .off => .off | .master => .master | .slave => .seeking 0 0
    (busy → exec (.frameSet tag payload) s = .next (s.replied tag 0x10 .state [])) ∧
    (¬ busy → ∃ t, exec (.frameSet tag payload) s = .next t ∧
      t = { s.replied tag 0x10 .ok [role.code, BitVec.ofNat 8 n.toNat, start.code] with
        frame := { s.frame with
          role := role, slotCount := n, state := start
          rxRecv := t.frame.rxRecv, rxHand := t.frame.rxHand
          txSend := Vector.replicate 64 0xFF, txFill := Vector.replicate 64 0xFF } })

/-- SLOT_SET (R65, R66): the checks of Table 4.1 in their order; otherwise the entry names the
stream, and the reply carries the stream's width, one higher unless the entry named it already.
SLOT_CLEAR (R67): refused RANGE at or above the slot count and STATE while the stream named is
active; otherwise the entry names no stream, and the reply names the stream that was unmapped, 0xFF
for none, with the width it keeps. -/
def Obligations.SlotRequestsMap : Prop :=
  (∀ (s : State) (tag : Byte) (n : SlotNo) (d : SlotDirection) (i : StreamNo), s.Takes tag →
     let payload := [BitVec.ofNat 8 n.val, d.code, streamByte i]
     let st := s.streams[i]
     let entry := s.frame.slot d n
     let serves : Direction := match d with | .receive => .capture | .transmit => .replay
     let checks : List (Bool × Result) := [
       (decide (s.frame.slotCount.toNat ≤ n.val), .range),
       (st.state == .free, .state),
       (st.settings.map (·.direction) != some serves, .badArgument),
       (st.isActive, .state),
       (entry.isSome && entry != some i, .slotTaken),
       (entry.isNone && decide (8 ≤ s.work.width i), .listFull)]
     (∀ r, firstFailing checks = some r →
       exec (.slotSet tag payload) s = .next (s.replied tag 0x11 r [])) ∧
     (firstFailing checks = none →
       let width := if entry = some i then s.work.width i else s.work.width i + 1
       exec (.slotSet tag payload) s =
         .next { s.replied tag 0x11 .ok (payload ++ [BitVec.ofNat 8 width]) with
           frame := match d with
             | .receive => { s.frame with rxMap := s.frame.rxMap.set n (some i) }
             | .transmit => { s.frame with txMap := s.frame.txMap.set n (some i) } })) ∧
  ∀ (s : State) (tag : Byte) (n : SlotNo) (d : SlotDirection), s.Takes tag →
    let payload := [BitVec.ofNat 8 n.val, d.code]
    let named := s.frame.slot d n
    let checks : List (Bool × Result) := [
      (decide (s.frame.slotCount.toNat ≤ n.val), .range),
      (named.any fun i => s.streams[i].isActive, .state)]
    (∀ r, firstFailing checks = some r →
      exec (.slotClear tag payload) s = .next (s.replied tag 0x12 r [])) ∧
    (firstFailing checks = none →
      let t : State := { s with
        frame := match d with
          | .receive => { s.frame with rxMap := s.frame.rxMap.set n none }
          | .transmit => { s.frame with txMap := s.frame.txMap.set n none } }
      let last : List Byte := match named with
        | some i => [streamByte i, BitVec.ofNat 8 (t.work.width i)]
        | none => [0xFF, 0]
      exec (.slotClear tag payload) s = .next (t.replied tag 0x12 .ok (payload ++ last)))

/-- The sync of the frame port (R59 to R61). In SEEKING FSY has been low on `low` falling edges of FCK
and is sampled once more. With run count 0 a high begins the first frame of the run. Later a high on
the first bit after the expected boundary, a frame's bits after the last sync, goes on with the run,
and the fourth sync locks with FRAME_CHANGE and empty transmit buffers (of the receive buffers nothing
is said, log 37); a low there ends the run, and a high on any other bit begins anew. In LOCKED one
missed sync is borne, with its frame end; the second in a row, or a bit clock that stops, returns the
port to SEEKING with FRAME_CHANGE. In the port states these events do not belong to they change nothing
(the model's choice, log 12). -/
def Obligations.FramePortFollowsSync : Prop :=
  ∀ s : State, s.resetLow = false →
    let frameBits := 8 * s.frame.slotCount.toNat
    let seeks (run : Fin 4) (bits : Nat) : State :=
      { s with frame := { s.frame with state := .seeking run bits } }
    let loses (cause : FrameCause) : State :=
      (seeks 0 0).notified (.frameChange false s.frame.slotCount cause)
    (∀ run bits low, s.frame.state = .seeking run bits →
      (run = 0 ∨ frameBits < bits + low →
        exec (.frameSyncSeeking low true) s = .next (seeks 1 1) ∧
        exec (.frameSyncSeeking low false) s = .next (seeks 0 0)) ∧
      (run ≠ 0 → bits + low < frameBits →
        exec (.frameSyncSeeking low true) s = .next (seeks 1 1) ∧
        exec (.frameSyncSeeking low false) s = .next (seeks run (bits + low + 1))) ∧
      (run ≠ 0 → bits + low = frameBits →
        exec (.frameSyncSeeking low false) s = .next (seeks 0 0) ∧
        (run ≠ 3 → exec (.frameSyncSeeking low true) s = .next (seeks (run + 1) 1)) ∧
        (run = 3 → ∃ t, exec (.frameSyncSeeking low true) s = .next t ∧
          t = State.notified { s with
            frame := { s.frame with
              state := .locked false
              rxRecv := t.frame.rxRecv, rxHand := t.frame.rxHand
              txSend := Vector.replicate 64 0xFF, txFill := Vector.replicate 64 0xFF } }
            (.frameChange true s.frame.slotCount .none)))) ∧
    (∀ missed sync received, s.frame.state = .locked missed → (missed && !sync) = false →
      ∃ t, exec (.frameBoundary sync received) s = .next t ∧ t.frame.state = .locked (!sync) ∧
        t.frame = { s.frame with
          state := .locked (!sync), rxHand := t.frame.rxHand, rxRecv := s.frame.rxHand
          txSend := t.frame.txSend, txFill := Vector.replicate 64 0xFF } ∧
        ∀ n : SlotNo, n.val < s.frame.slotCount.toNat → t.frame.rxHand[n] = received[n]) ∧
    (∀ received, s.frame.state = .locked true →
      exec (.frameBoundary false received) s = .next (loses .sync)) ∧
    (∀ missed, s.frame.state = .locked missed → exec .bitClockStopped s = .next (loses .clock)) ∧
    ((∀ run bits, s.frame.state ≠ .seeking run bits) →
      ∀ low fsy, exec (.frameSyncSeeking low fsy) s = .next s) ∧
    ((∀ missed, s.frame.state ≠ .locked missed) →
      exec .bitClockStopped s = .next s ∧
      (s.frame.state ≠ .master → ∀ sync received, exec (.frameBoundary sync received) s = .next s))

/-- A frame end at which no stream has a slot (R69, R72): the completed frame goes to the hand-over
buffer, the filled transmit buffer is sent next and the new one is 0xFF. In LOCKED a sync clears the
miss and a first missed sync is kept in mind (R60). Nothing else changes. -/
def Obligations.FrameEndWithoutSlots : Prop :=
  ∀ (s : State) (sync : Bool) (received : Vector Byte 64), s.resetLow = false →
    (∀ i : StreamNo, s.work.width i = 0) →
    ∀ state, (s.frame.state = .master ∧ state = .master ∨
      ∃ missed, s.frame.state = .locked missed ∧ (missed && !sync) = false ∧
        state = .locked (!sync)) →
    ∃ t, exec (.frameBoundary sync received) s = .next t ∧
      t = { s with frame := { s.frame with
        state := state
        rxHand := t.frame.rxHand
        rxRecv := s.frame.rxHand
        txSend := s.frame.txFill
        txFill := Vector.replicate 64 0xFF } } ∧
      ∀ n : SlotNo, n.val < s.frame.slotCount.toNat → t.frame.rxHand[n] = received[n]

/-- A frame end (R58, R60) for capture streams (R69, R70, R75 to R78). With any number of streams mapped,
each with room in its own page (and each replay stream with more bytes than slots, R71, R72, R99),
every one takes its part, in whatever order: a capture stream in RUNNING, or in HOLD with no STOP part,
puts its slots' bytes, in ascending slot order, into its fill page and counts them as received.
For one capture stream: a page that becomes full joins the ready queue with the next sequence and is
issued on the cursor's sector (said for an empty ready queue, a depth that allows it, and a remaining
count well above the low mark), or waits where the stream issues nothing; with no fill page one is
claimed, all 0x00 beyond the bytes, and the overrun flag is cleared; where the claim is refused every
byte is lost, and the first loss of an episode raises OVERRUN with its cause. Nothing else changes. -/
def Obligations.CaptureTakesItsSlots : Prop :=
  ∀ (s : State) (sync : Bool) (received : Vector Byte 64) (next : FrameState),
    s.resetLow = false → s.frame.state.atFrameEnd sync = some next → s.pool.mem.Wf → s.Mapped →
    let width (i : StreamNo) : Nat := s.work.width i
    let takes (st : Stream) : Prop := st.state = .running ∨ st.state = .hold ∧ st.stopPart = none
    let counted (st : Stream) (n : Nat) : Counters := { st.counters with
      received := min (2 ^ 48 - 1) (st.counters.received + n) }
    ((∀ i : StreamNo, 0 < width i → ∃ c, s.streams[i].cur = some c ∧
        match s.streams[i].cfg.direction with
        | .capture => takes s.streams[i] ∧ c.pos + width i < 512
        | .replay => s.streams[i].state = .running ∧ c.pos + width i < c.fill ∧ c.fill ≤ 512) →
      (∀ (i j : StreamNo) (c d : CurrentPage), i ≠ j → 0 < width i → 0 < width j →
        s.streams[i].cur = some c → s.streams[j].cur = some d → c.page ≠ d.page) →
      ∃ t, exec (.frameBoundary sync received) s = .next t ∧
        t = { s with
          streams := t.streams
          pool := { s.pool with mem := t.pool.mem }
          frame := s.frame.ended next t.frame.rxHand t.frame.txSend
          pickCount := t.pickCount } ∧
        (∀ i : StreamNo, width i = 0 → t.streams[i] = s.streams[i]) ∧
        (∀ (i : StreamNo) (c : CurrentPage), 0 < width i → s.streams[i].cur = some c →
          t.streams[i] = { s.streams[i] with
            cur := some { c with pos := c.pos + width i }
            counters := if s.streams[i].cfg.direction = .capture then counted s.streams[i] (width i)
              else s.streams[i].counters
            underrun := if s.streams[i].cfg.direction = .capture then s.streams[i].underrun
              else false } ∧
          ∀ (k : Nat) (n : SlotNo), (s.work.slots i)[k]? = some n →
            match s.streams[i].cfg.direction with
            | .capture => t.pool.mem.read (pageAddr c.page (c.pos + k)) = received[n]
            | .replay => t.frame.txSend[n] = s.pool.mem.read (pageAddr c.page (c.pos + k))) ∧
        (∀ a, (∀ (i : StreamNo) (c : CurrentPage), s.streams[i].cfg.direction = .capture →
            s.streams[i].cur = some c → ∀ k < width i, a ≠ pageAddr c.page (c.pos + k)) →
          t.pool.mem.read a = s.pool.mem.read a) ∧
        ∀ n : SlotNo, (∀ i : StreamNo, s.streams[i].cfg.direction = .replay → n ∉ s.work.slots i) →
          t.frame.txSend[n] = s.frame.txFill[n]) ∧
    ∀ (i : StreamNo) (cfg : Settings), s.streams[i].settings = some cfg → cfg.direction = .capture →
      takes s.streams[i] → 0 < width i → (∀ j : StreamNo, j ≠ i → width j = 0) →
      let st := s.streams[i]
      let seq := st.nextSeq.getD 0
      let framed (t u : State) : State := { u with
        pool := { u.pool with mem := t.pool.mem }
        frame := s.frame.ended next t.frame.rxHand s.frame.txFill }
      let placed (t : State) (page : PageNo) (start : Nat) : Prop :=
        (∀ (k : Nat) (n : SlotNo), (s.work.slots i)[k]? = some n →
          t.pool.mem.read (pageAddr page (start + k)) = received[n]) ∧
        ∀ a, (∀ k < 512, a ≠ pageAddr page k) ∨
            (∃ c, st.cur = some c ∧ ∀ k < width i, a ≠ pageAddr page (start + k)) →
          t.pool.mem.read a = s.pool.mem.read a
      (∀ c e others, st.cur = some c → c.pos + width i = 512 → st.state = .running →
        st.abortPart = none → st.ready = [] → st.outstanding < cfg.depth →
        st.extents = e :: others → st.offset + 1 < e.count → cfg.lowMark + 1 < st.remaining →
        s.ports[e.port].state ≠ .offline → s.ports[e.port].queue.length < 12 →
        s.pool.waitList = [] →
        let entry := s.ports[e.port].newEntry s.serial
          (.streamWrite i c.page ⟨cfg.recTag, st.take.getD 0, seq, 512⟩ e.override) e.port
          (e.start + st.offset)
        ∃ t, exec (.frameBoundary sync received) s = .next t ∧ placed t c.page c.pos ∧
          t = framed t { (s.withStream i { st with
              cur := none, nextSeq := some (seq + 1), outstanding := st.outstanding + 1
              offset := st.offset + 1, waitedPort := none
              counters := counted st (width i) }).withPort e.port
              (s.ports[e.port].arrival entry) with serial := s.serial + 1 }) ∧
      (∀ c, st.cur = some c → c.pos + width i = 512 →
        (st.state = .hold ∨ cfg.depth ≤ st.outstanding) →
        ∃ t, exec (.frameBoundary sync received) s = .next t ∧ placed t c.page c.pos ∧
          t = framed t (s.withStream i { st with
            cur := none, nextSeq := some (seq + 1), ready := st.ready ++ [⟨c.page, seq, 512⟩]
            counters := counted st (width i) })) ∧
      (∀ page free, st.cur = none → s.pool.free = page :: free → s.work.grants i = true →
        ∃ t, exec (.frameBoundary sync received) s = .next t ∧ placed t page 0 ∧
          (∀ k < 512, width i ≤ k → t.pool.mem.read (pageAddr page k) = 0) ∧
          t = framed t { s.withStream i { st with
              cur := some { page := page, pos := width i, fill := 512 }
              overrun := false, counters := counted st (width i) } with
            pool := { s.pool with
              free := free, held := s.pool.held.set i (s.pool.held[i] + 1) } }) ∧
      (st.cur = none → (s.pool.free = [] ∨ s.work.grants i = false) →
        ∃ t, exec (.frameBoundary sync received) s = .next t ∧
          t.pool.mem = s.pool.mem ∧
          t = framed t ((if st.overrun then s else s.notified (.overrun i (st.take.getD 0)
              (width i) s.pool.held[i] cfg.quota
              (if s.pool.held[i] = cfg.quota then .quotaReached else .poolShort))).withStream i
            { st with
              overrun := true
              counters := { counted st (width i) with
                lost := min (2 ^ 48 - 1) (st.counters.lost + width i) } }))

/-- A frame end (R58, R60) for one replay stream in RUNNING (R71, R72, R99): while its drain page has
more bytes than slots, its slots of the next frame carry the page's bytes from its position on, and the
underrun flag is cleared; the buffer memory, and all else, stays. With no drain page the ACCEPTED entry
at the front of the play queue gives the drain page. A page used up with the answer's last byte is
released and counted in the commit mark; a full one lets the stream go on (said here with as many reads
in flight as its depth). Where an end page is used up in the answer (R101, log 35; said with no other
page held and nothing in flight), or a full page with no sector, page or read left (R102), the rest of
the answer is idle bytes, counted before the stream enters ENDED with outcome END_PAGE or EXTENT_END
and its figures, and the page is released. -/
def Obligations.ReplaySuppliesAndCloses : Prop :=
  ∀ (s : State) (sync : Bool) (received : Vector Byte 64) (next : FrameState) (i : StreamNo)
    (cfg : Settings), s.resetLow = false → s.frame.state.atFrameEnd sync = some next → s.Mapped →
    s.streams[i].settings = some cfg → cfg.direction = .replay →
    s.streams[i].state = .running → 0 < s.work.width i →
    (∀ j : StreamNo, j ≠ i → s.work.width j = 0) →
    let st := s.streams[i]
    let width := s.work.width i
    let framed (t u : State) : State :=
      { u with frame := s.frame.ended next t.frame.rxHand t.frame.txSend }
    let sent (t : State) (page : PageNo) (start given : Nat) : Prop :=
      (∀ n : SlotNo, n.val < s.frame.slotCount.toNat → t.frame.rxHand[n] = received[n]) ∧
      (∀ (k : Nat) (n : SlotNo), (s.work.slots i)[k]? = some n →
        t.frame.txSend[n] =
          if k < given then s.pool.mem.read (pageAddr page (start + k)) else cfg.idleByte) ∧
      ∀ n : SlotNo, n ∉ s.work.slots i → t.frame.txSend[n] = s.frame.txFill[n]
    let mark := min (2 ^ 32 - 1) (st.commitMark.getD 0 + 1)
    let released (page : PageNo) : Pool := { s.pool with
      free := s.pool.free ++ [page], held := s.pool.held.set i (s.pool.held[i] - 1) }
    let ends (c : CurrentPage) (o : TakeEnd) (seq : Option Seq) : Prop :=
      let counters : Counters := { st.counters with
        idleSent := min (2 ^ 48 - 1) (st.counters.idleSent + (width - (c.fill - c.pos))) }
      let figures : FinalFigures := {
        stream := i, direction := some .replay, recTag := cfg.recTag, take := st.take.getD 0
        outcome := o, nextSeq := seq.getD 0, commitMark := mark
        counters := counters, skipCount := st.skips.length }
      ∃ t, exec (.frameBoundary sync received) s = .next t ∧
        sent t c.page c.pos (c.fill - c.pos) ∧
        t = framed t { (s.withStream i { st with
            state := .ended, outcome := some o, cur := none, underrun := false
            nextSeq := seq, commitMark := some mark, counters := counters
            waitedPort := none, drainReason := none }).notified (.streamEnded figures) with
          pool := released c.page }
    (∀ c, st.cur = some c → c.pos + width < c.fill →
      ∃ t, exec (.frameBoundary sync received) s = .next t ∧ sent t c.page c.pos width ∧
        t = framed t (s.withStream i { st with
          cur := some { c with pos := c.pos + width }, underrun := false })) ∧
    (∀ e rest trailer, st.cur = none → st.play = e :: rest → e.status = .accepted trailer →
      width < trailer.fill →
      ∃ t, exec (.frameBoundary sync received) s = .next t ∧ sent t e.page 0 width ∧
        t = framed t (s.withStream i { st with
          cur := some { page := e.page, pos := width, fill := trailer.fill, seq := trailer.seq }
          play := rest, underrun := false })) ∧
    (∀ c, st.cur = some c → c.fill = 512 → c.pos + width = 512 → cfg.depth ≤ st.outstanding →
      st.outstanding ≠ 0 → s.pool.waitList = [] →
      ∃ t, exec (.frameBoundary sync received) s = .next t ∧ sent t c.page c.pos width ∧
        t = framed t { s.withStream i { st with
            cur := none, underrun := false, commitMark := some mark } with
          pool := released c.page }) ∧
    (∀ c, st.cur = some c → c.pos < c.fill → c.fill ≤ c.pos + width → st.play = [] →
      st.outstanding = 0 → st.stopPart = none → st.abortPart = none → s.pool.waitList = [] →
      (c.fill < 512 →
        (∀ (p : PortNo) (e : Entry), e ∈ s.ports[p].queue → e.kind.stream ≠ some i) →
        ends c .endPage (some (c.seq + 1))) ∧
      (512 ≤ c.fill → st.extents = [] → ends c .extentEnd st.nextSeq))

/-- An underrun (R99 (4), R100): at a frame end a replay stream in RUNNING with no drain page and no
ACCEPTED page at the front of its play queue sends its idle byte in every slot and counts it; the first
such byte of an episode raises UNDERRUN. A mapped replay stream in another state answers with no bytes
and its slots carry what the buffer was filled with, 0xFF (R71, R72). -/
def Obligations.ReplayUnderruns : Prop :=
  ∀ (s : State) (sync : Bool) (received : Vector Byte 64) (next : FrameState) (i : StreamNo)
    (cfg : Settings), s.resetLow = false → s.frame.state.atFrameEnd sync = some next → s.Mapped →
    s.streams[i].settings = some cfg → cfg.direction = .replay → 0 < s.work.width i →
    (∀ j : StreamNo, j ≠ i → s.work.width j = 0) →
    let st := s.streams[i]
    (st.state = .running → st.cur = none → st.acceptedCount = 0 →
      ∃ t, exec (.frameBoundary sync received) s = .next t ∧
        t = { (if st.underrun then s else s.notified (.underrun i (st.take.getD 0)
              (st.nextSeq.getD 0) st.play.length st.outstanding s.pool.held[i]
              (if st.play = [] then .empty else .waitingRead))).withStream i { st with
            underrun := true
            counters := { st.counters with
              idleSent := min (2 ^ 48 - 1) (st.counters.idleSent + s.work.width i) } } with
          frame := s.frame.ended next t.frame.rxHand t.frame.txSend } ∧
        (∀ n ∈ s.work.slots i, t.frame.txSend[n] = cfg.idleByte) ∧
        ∀ n : SlotNo, n ∉ s.work.slots i → t.frame.txSend[n] = s.frame.txFill[n]) ∧
    (st.state ≠ .running → ∃ t, exec (.frameBoundary sync received) s = .next t ∧
      t = { s with frame := s.frame.ended next t.frame.rxHand s.frame.txFill })

/-! ### Streams -/

/-- STREAM_BIND (R9, R10): the stream table's checks in their order; otherwise the stream is BOUND
with the settings given and everything else in its record at the values of R1. -/
def Obligations.StreamBindBinds : Prop :=
  ∀ (s : State) (tag : Byte) (i : StreamNo) (c : Settings), s.Takes tag → c.InRange →
    let checks : List (Bool × Result) := [
      (s.streams[i].state != .free, .state),
      (decide (480 < s.work.reserveSum + c.reserve), .quota),
      (decide (s.work.freeCount < s.work.reserveNeed + c.reserve), .quota)]
    (∀ r, firstFailing checks = some r →
      exec (.streamBind tag (c.bytes i)) s = .next (s.replied tag 0x30 r [])) ∧
    (firstFailing checks = none →
      exec (.streamBind tag (c.bytes i)) s =
        .next ((s.withStream i {
          state := .bound, settings := some c, take := none, nextSeq := none, commitMark := none
          cur := none, ready := [], play := [], outstanding := 0, extents := [], offset := 0
          skips := [], counters := {}, overrun := false, underrun := false, lowGiven := false
          stopPart := none, abortPart := none, outcome := none }).replied tag 0x30 .ok
          [streamByte i]))

/-- STREAM_UNBIND (R19): refused STATE unless the stream is BOUND, ENDED, or FAULTED with nothing in
flight; otherwise its record is FREE with the values of R1 and no slot names it. While a stream waits
for a page, the pool then also signals it (R36); this statement is for an empty wait list. -/
def Obligations.StreamUnbindFrees : Prop :=
  ∀ (s : State) (tag : Byte) (i : StreamNo), s.Takes tag →
    let st := s.streams[i]
    let idle : Prop := st.state = .bound ∨ st.state = .ended ∨
      st.state = .faulted ∧ st.outstanding = 0
    (¬ idle → exec (.streamUnbind tag [streamByte i]) s = .next (s.replied tag 0x31 .state [])) ∧
    (idle → s.pool.waitList = [] → ∃ t, exec (.streamUnbind tag [streamByte i]) s = .next t ∧
      t = { (s.withStream i {}).replied tag 0x31 .ok [streamByte i] with
        frame := { s.frame with rxMap := t.frame.rxMap, txMap := t.frame.txMap } } ∧
      (∀ n : SlotNo,
        t.frame.rxMap[n] = (if s.frame.rxMap[n] = some i then none else s.frame.rxMap[n])) ∧
      ∀ n : SlotNo,
        t.frame.txMap[n] = (if s.frame.txMap[n] = some i then none else s.frame.txMap[n]))

/-- When a stream request is answered STATE, with nothing changed: STREAM_START (R11) of a stream that
is not idle or has no slot, or a replay stream with no extent; STREAM_STOP (R13) with an end request
pending, or outside the states of its direction; STREAM_ABORT (R14) of a stream that is not active or
is being aborted. -/
def Obligations.StreamRequestsRefused : Prop :=
  ∀ (s : State) (tag : Byte) (i : StreamNo) (take : Half) (seq : Seq), s.Takes tag →
    let st := s.streams[i]
    ((st.state ≠ .bound ∧ st.state ≠ .ended ∧ ¬ (st.state = .faulted ∧ st.outstanding = 0) ∨
        s.work.width i = 0 ∨ st.cfg.direction = .replay ∧ st.extents = []) →
      exec (.streamStart tag (startBytes i take seq)) s =
        .next (s.replied tag 0x32 .state [])) ∧
    ((st.stopPart ≠ none ∨ st.abortPart ≠ none ∨
        (st.cfg.direction = .capture ∧ st.state ≠ .running ∧ st.state ≠ .hold) ∨
        (st.cfg.direction = .replay ∧ st.state ≠ .priming ∧ st.state ≠ .running)) →
      exec (.streamStop tag [streamByte i]) s = .next (s.replied tag 0x33 .state [])) ∧
    ((st.isActive = false ∨ st.abortPart ≠ none) →
      exec (.streamAbort tag [streamByte i]) s = .next (s.replied tag 0x34 .state []))

/-- STREAM_START of a capture stream (R12, R74): the take begins with its counters 0, its skip list
empty and its commit mark 0, in RUNNING, or in HOLD with EXTENT_EMPTY while the extent list is empty;
with the remaining count at or below the low mark the flag is set and EXTENT_LOW raised, at once or
after the stream's own work, since the extent unit offers it (R152; log 6). That EXTENT_EMPTY comes
before the reply is the model's choice (log 33). -/
def Obligations.StreamStartCaptures : Prop :=
  ∀ (s : State) (tag : Byte) (i : StreamNo) (take : Half) (seq : Seq) (c : Settings), s.Takes tag →
    s.streams[i].settings = some c → c.direction = .capture → 1 ≤ s.work.width i →
    (s.streams[i].state = .bound ∨ s.streams[i].state = .ended ∨
      s.streams[i].state = .faulted ∧ s.streams[i].outstanding = 0) →
    let st := s.streams[i]
    let low : Bool := decide (st.remaining ≤ c.lowMark)
    let empty := st.extents.isEmpty
    let started (picks : Nat) : State := { s.withStream i { st with
      state := if empty then .hold else .running
      take := some take, nextSeq := some seq, commitMark := some 0, commitPoint := seq
      counters := {}, skips := [], outcome := none, stopPart := none, abortPart := none
      overrun := false, underrun := false, lowGiven := low, emptyReported := empty
      waitedPort := none, endPage := .none, drainReason := none } with
        pickCount := s.pickCount + picks }
    let warned (u : State) : State :=
      u.notified (.extentLow i st.remaining c.lowMark st.extents.length)
    let accepted (u : State) : State := State.replied (if empty then
        u.notified (.extentEmpty i take .hold seq st.ready.length s.pool.held[i] st.outstanding)
      else u) tag 0x32 .ok [streamByte i]
    let result := exec (.streamStart tag (startBytes i take seq)) s
    (low = false → result = .next (accepted (started 0))) ∧
    (low = true → result = .next (accepted (warned (started 1))) ∨
      result = .next (warned (accepted (started 1))))

/-- STREAM_START of a replay stream of depth 1 (R12, R93, R94): the take begins in PRIMING, and its
first read is placed on the port of the next sector, into the page its claim is granted; the cursor
moves on. The remaining count is well above the low mark, and the port's queue keeps room. -/
def Obligations.StreamStartReplays : Prop :=
  ∀ (s : State) (tag : Byte) (i : StreamNo) (take : Half) (seq : Seq) (c : Settings) (e : Extent)
    (others : List Extent) (page : PageNo) (free : List PageNo), s.Takes tag →
    s.streams[i].settings = some c → c.direction = .replay → 1 ≤ s.work.width i → c.depth = 1 →
    1 ≤ c.primeLevel → (s.streams[i].state = .bound ∨ s.streams[i].state = .ended) →
    s.streams[i].outstanding = 0 → s.streams[i].play = [] → s.streams[i].cur = none →
    s.streams[i].extents = e :: others → s.streams[i].offset + 1 < e.count →
    c.lowMark + 1 < s.streams[i].remaining → s.ports[e.port].state ≠ .offline →
    s.ports[e.port].queue.length < 11 → s.pool.waitList = [] → s.pool.free = page :: free →
    s.pool.held[i] < c.reserve → c.reserve ≤ c.quota →
    let st := s.streams[i]
    let lba := e.start + st.offset
    let entry := s.ports[e.port].newEntry s.serial (.streamRead i page) e.port lba
    exec (.streamStart tag (startBytes i take seq)) s =
      .next { ((s.withStream i { st with
          state := .priming
          take := some take, nextSeq := some seq, commitMark := some 0, commitPoint := seq
          counters := {}, skips := [], outcome := none, stopPart := none, abortPart := none
          overrun := false, underrun := false, lowGiven := false, emptyReported := false
          waitedPort := none, endPage := .none, drainReason := none
          play := [⟨page, e.port, lba, .pending⟩], outstanding := 1
          offset := st.offset + 1 }).withPort e.port (s.ports[e.port].arrival entry)).replied
          tag 0x32 .ok [streamByte i] with
        pool := { s.pool with
          free := free
          mem := s.pool.mem.clearPage page
          held := s.pool.held.set i (s.pool.held[i] + 1) }
        serial := s.serial + 1 }

/-- STREAM_STOP of a capture stream that issues nothing (R87): in HOLD, or in RUNNING with as many
writes in flight as its depth. The fill page becomes the end page at its fill; with none, a page is
claimed for an end page of fill 0, and a refused claim waits. RUNNING becomes DRAINING, and HOLD
stays. The request stays in its slot. -/
def Obligations.StreamStopCaptures : Prop :=
  ∀ (s : State) (tag : Byte) (i : StreamNo) (c : Settings), s.Takes tag →
    s.streams[i].settings = some c → c.direction = .capture →
    s.streams[i].stopPart = none → s.streams[i].abortPart = none →
    (s.streams[i].state = .hold ∨
      s.streams[i].state = .running ∧ c.depth ≤ s.streams[i].outstanding) →
    s.work.waits i = false →
    let st := s.streams[i]
    let seq := st.nextSeq.getD 0
    let stopped : Stream := { st with
      stopPart := some tag
      state := if st.state = .running then .draining else st.state }
    let made (page : PageNo) (fill : Nat) (overrun : Bool) : Stream := { stopped with
      cur := none, ready := st.ready ++ [⟨page, seq, fill⟩], nextSeq := some (seq + 1)
      endPage := .made, overrun := overrun }
    let busy := s.inService tag 0x33
    (∀ p, st.cur = some p →
      exec (.streamStop tag [streamByte i]) s =
        .next (busy.withStream i (made p.page p.pos st.overrun))) ∧
    (∀ page free, st.cur = none → s.pool.free = page :: free → s.work.grants i = true →
      exec (.streamStop tag [streamByte i]) s =
        .next { busy.withStream i (made page 0 false) with
          pool := { s.pool with
            free := free
            mem := s.pool.mem.clearPage page
            held := s.pool.held.set i (s.pool.held[i] + 1) } }) ∧
    (st.cur = none → s.work.grants i = false →
      exec (.streamStop tag [streamByte i]) s =
        .next { busy.withStream i { stopped with endPage := .waiting } with
          pool := { s.pool with waitList := s.pool.waitList ++ [(i, .endPage)] } })

/-- STREAM_STOP of a replay stream with nothing in flight (R104, R17, R18): it gives its pages up in
the order of R35, enters ENDED with outcome STOPPED, and the STOP is answered OK with the final
figures before STREAM_ENDED is raised. -/
def Obligations.StreamStopReplays : Prop :=
  ∀ (s : State) (tag : Byte) (i : StreamNo) (c : Settings), s.Takes tag →
    s.streams[i].settings = some c → c.direction = .replay →
    s.streams[i].stopPart = none → s.streams[i].abortPart = none →
    (s.streams[i].state = .priming ∨ s.streams[i].state = .running) →
    s.streams[i].outstanding = 0 → (∀ e ∈ s.streams[i].play, e.status ≠ .pending) →
    (∀ (p : PortNo) (e : Entry), e ∈ s.ports[p].queue → e.kind.stream ≠ some i) →
    s.pool.waitList = [] →
    let st := s.streams[i]
    let pages := (st.cur.map (·.page)).toList ++ st.play.map (·.page)
    let figures : FinalFigures := {
      stream := i, direction := some .replay, recTag := c.recTag, take := st.take.getD 0
      outcome := .stopped, nextSeq := st.nextSeq.getD 0, commitMark := st.commitMark.getD 0
      counters := st.counters, skipCount := st.skips.length }
    exec (.streamStop tag [streamByte i]) s =
      .next { ((s.withStream i { st with
          state := .ended, outcome := some .stopped, cur := none, play := []
          waitedPort := none, drainReason := none }).replied tag 0x33 .ok figures.bytes).notified
          (.streamEnded figures) with
        pool := { s.pool with
          free := s.pool.free ++ pages
          held := s.pool.held.set i (s.pool.held[i] - pages.length) } }

/-- STREAM_ABORT (R15 to R18) of a stream with at most one QUEUED entry, `own`: that entry is withdrawn
from its port, which chooses again where it was the chosen entry, and the stream gives up its fill or
drain page, its queued pages and the withdrawn page, in the order of R35; it leaves the wait list, and a
claim of its end page is dropped. With nothing in flight it enters ENDED at once: a STOP that waits is
answered ABORTED, the ABORT is answered OK, and STREAM_ENDED is raised; the outcome is UNTERMINATED
when a capture stream's end page was made and not written, ABORTED otherwise. With an entry still in
the engine it drains, and the request stays in its slot. That the end-page state WAITING becomes NONE
(log 19), the waited port absent (log 22), and that a read still in the engine keeps its play-queue
entry (log 38), is the model's reading. -/
def Obligations.StreamAbortGivesUp : Prop :=
  ∀ (s : State) (tag : Byte) (i : StreamNo) (c : Settings) (own : Option (PortNo × Entry)),
    s.Takes tag → s.streams[i].settings = some c → s.streams[i].isActive = true →
    s.streams[i].abortPart = none →
    (∀ q : PortNo, (s.ports[q].queue.filter fun e => !e.active && e.kind.stream == some i) =
      match own with
      | some (p, e) => if q = p then [e] else []
      | none => []) →
    (∀ (p : PortNo) (e : Entry), own = some (p, e) →
      ∀ j : StreamNo, j ≠ i → s.streams[j].waitedPort ≠ some p) →
    (c.direction = .replay → s.streams[i].endPage = .none) →
    (∀ x ∈ s.pool.waitList, x.1 = i) →
    let st := s.streams[i]
    let withdrawn := own.toList.filterMap fun x => x.2.kind.page
    let queued := match c.direction with
      | .capture => st.ready.map (·.page) ++ withdrawn
      | .replay =>
        (st.play.filter fun e => e.status != .pending || withdrawn.contains e.page).map (·.page)
    let pages := (st.cur.map (·.page)).toList ++ queued
    let pool : Pool := { s.pool with
      free := s.pool.free ++ pages
      held := s.pool.held.set i (s.pool.held[i] - pages.length)
      waitList := [] }
    let outstanding := st.outstanding - own.toList.length
    let left : Stream := { st with
      cur := none, waitedPort := none, outstanding := outstanding
      ready := match c.direction with | .capture => [] | .replay => st.ready
      play := match c.direction with
        | .capture => st.play
        | .replay =>
          st.play.filter fun e => e.status == .pending && !withdrawn.contains e.page
      endPage := if st.endPage = .waiting then .none else st.endPage }
    let outcome : TakeEnd := if st.endPage = .made then .unterminated else .aborted
    let figures : FinalFigures := {
      stream := i, direction := some c.direction, recTag := c.recTag, take := st.take.getD 0
      outcome := outcome, nextSeq := st.nextSeq.getD 0, commitMark := st.commitMark.getD 0
      counters := st.counters, skipCount := st.skips.length }
    let ended : Stream := { left with
      state := .ended, outcome := some outcome, stopPart := none, drainReason := none }
    let withdraws (u : State) : State := match own with
      | none => { u with pool := pool }
      | some (p, e) =>
        let pt := s.ports[p]
        let gone : Port := { pt with
          queue := pt.queue.filter fun f => !(!f.active && f.kind.stream == some i)
          recovery := if pt.recovery = some e.serial then none else pt.recovery
          chosen := if pt.chosen = some e.serial then none else pt.chosen }
        { u.withPort p (if pt.chosen = some e.serial ∧ pt.state = .waitSector then gone.choose
            else gone) with pool := pool }
    (outstanding = 0 → st.stopPart = none →
      exec (.streamAbort tag [streamByte i]) s =
        .next (withdraws (((s.withStream i ended).replied tag 0x34 .ok figures.bytes).notified
          (.streamEnded figures)))) ∧
    (∀ stop code owner before after, outstanding = 0 → st.stopPart = some stop →
      s.host.slots = before ++ ⟨stop, code, owner⟩ :: after →
      before.any (·.tag == stop) = false →
      exec (.streamAbort tag [streamByte i]) s =
        .next (withdraws (((({ s with host := { s.host with slots := before ++ after } } :
            State).withStream i ended).replied stop code .aborted figures.bytes |>.replied tag 0x34
          .ok figures.bytes).notified (.streamEnded figures)))) ∧
    (outstanding ≠ 0 →
      exec (.streamAbort tag [streamByte i]) s =
        .next (withdraws ((s.inService tag 0x34).withStream i { left with
          state := .draining, abortPart := some tag
          drainReason := match c.direction with | .capture => none | .replay => some .abort })))

/-! ### Extents -/

/-- EXTENT_ADD (R47 to R51): the checks of Table 3.2 in their order; otherwise, for a stream that is
not active, the extent joins the end of its list and the reply carries the new entry count and
remaining count, and its low-mark-given flag stays (R45). So it does for an active stream that issues
nothing on it, because as many entries are in flight as its depth; there the flag is cleared where the
remaining count is above the low mark. -/
def Obligations.ExtentAddAppends : Prop :=
  ∀ (s : State) (tag : Byte) (i : StreamNo) (e : Extent), s.Takes tag → e.InRange →
    let st := s.streams[i]
    let pt := s.ports[e.port]
    let capacity := match pt.geometry with
      | some g => g.cylinders * g.heads * g.sectors
      | none => 0
    let overlaps (f : Extent) : Prop := f.port = e.port ∧ f.start ≤ e.start + e.count - 1 ∧
      e.start ≤ f.start + f.count - 1
    let range : Prop := capacity ≤ e.start + e.count - 1
    let clash : Prop := ∃ (j : StreamNo) (f : Extent), f ∈ s.streams[j].extents ∧ overlaps f
    let refused (r : Result) : Prop :=
      exec (.extentAdd tag (e.bytes i)) s = .next (s.replied tag 0x40 r [])
    (st.state = .free → refused .state) ∧
    (st.state ≠ .free → 8 ≤ st.extents.length → refused .listFull) ∧
    (st.state ≠ .free → st.extents.length < 8 →
      ((pt.state = .absent ∨ pt.attachPending ≠ none) → refused .portAbsent) ∧
      (pt.attachPending = none →
        (pt.state = .offline → refused .offline) ∧
        (pt.state ≠ .absent → pt.state ≠ .offline →
          (range → refused .range) ∧
          (¬ range → clash → refused .overlap) ∧
          (¬ range → ¬ clash →
            (st.isActive = false ∨ st.state ≠ .hold ∧ st.outstanding ≠ 0 ∧
              st.cfg.depth ≤ st.outstanding ∧ s.work.waits i = false) →
            let grown : Stream := { st with
              extents := st.extents ++ [e], offset := if st.extents = [] then 0 else st.offset }
            let after : Stream := { grown with
              lowGiven := if st.isActive = true ∧ st.cfg.lowMark < grown.remaining then false
                else st.lowGiven
              waitedPort := if st.extents = [] then none else st.waitedPort
              emptyReported := if st.cfg.direction = .capture then false else st.emptyReported }
            exec (.extentAdd tag (e.bytes i)) s =
              .next ((s.withStream i after).replied tag 0x40 .ok
                ([streamByte i] ++ beBytes 1 (st.extents.length + 1) ++
                  beBytes 4 after.remaining))))))

/-- EXTENT_ADD gives a capture stream in HOLD its sectors back (R82): it goes to RUNNING, or to DRAINING
once a STOP has been taken. With no page ready (and, after a STOP, its end page still waiting for a
page) no more happens. With a page ready and one more entry allowed by its depth, the page at the head
of the ready queue is written to the extent's first sector (R78); said for an extent well above the low
mark. -/
def Obligations.ExtentAddEndsHold : Prop :=
  ∀ (s : State) (tag : Byte) (i : StreamNo) (e : Extent) (c : Settings), s.Takes tag → e.InRange →
    s.work.extentRefusal i e = none → s.streams[i].settings = some c → c.direction = .capture →
    s.streams[i].state = .hold → s.streams[i].extents = [] →
    let st := s.streams[i]
    let given : Stream := { st with
      state := if st.stopPart = none then .running else .draining
      extents := [e], offset := 0, waitedPort := none, emptyReported := false
      lowGiven := if c.lowMark < e.count then false else st.lowGiven }
    let reply := [streamByte i, 1] ++ beBytes 4 e.count
    (st.ready = [] → (st.stopPart = none ∨ st.endPage = .waiting) →
      exec (.extentAdd tag (e.bytes i)) s =
        .next ((s.withStream i given).replied tag 0x40 .ok reply)) ∧
    ∀ pg rest, st.ready = pg :: rest → st.abortPart = none → c.depth = st.outstanding + 1 →
      c.lowMark + 1 < e.count → 1 < e.count → s.ports[e.port].queue.length < 12 →
      s.pool.waitList = [] →
      let entry := s.ports[e.port].newEntry s.serial
        (.streamWrite i pg.page ⟨c.recTag, st.take.getD 0, pg.seq, pg.fill⟩ e.override) e.port e.start
      exec (.extentAdd tag (e.bytes i)) s =
        .next { ((s.withStream i { given with
            ready := rest, outstanding := st.outstanding + 1, offset := 1 }).withPort e.port
            (s.ports[e.port].arrival entry)).replied tag 0x40 .ok reply with
          serial := s.serial + 1 }

/-- EXTENT_CLEAR (R53): refused STATE unless the stream is BOUND, ENDED, or FAULTED with nothing in
flight; otherwise its list is empty and its offset 0, and the reply carries 0 entries and remaining
0. The low-mark-given flag and all else stay. -/
def Obligations.ExtentClearEmpties : Prop :=
  ∀ (s : State) (tag : Byte) (i : StreamNo), s.Takes tag →
    let st := s.streams[i]
    let idle : Prop := st.state = .bound ∨ st.state = .ended ∨
      st.state = .faulted ∧ st.outstanding = 0
    (¬ idle → exec (.extentClear tag [streamByte i]) s = .next (s.replied tag 0x41 .state [])) ∧
    (idle → exec (.extentClear tag [streamByte i]) s =
      .next ((s.withStream i { st with extents := [], offset := 0 }).replied tag 0x41 .ok
        [streamByte i, 0, 0, 0, 0, 0]))

/-! ### Port and transfer requests -/

/-- PORT_ATTACH (R112): taken while the port is ABSENT with no detach pending; the port is ATTACHING,
its counters are 0 and IDENTIFY is sent, and the request stays in its slot. Otherwise STATE. That
IDENTIFY is sent also where an earlier one went unanswered (R112 before R108) is the model's reading
(log 21). -/
def Obligations.PortAttachIdentifies : Prop :=
  ∀ (s : State) (tag : Byte) (p : PortNo), s.Takes tag →
    let pt := s.ports[p]
    let free : Prop := pt.state = .absent ∧ pt.detachPending = none
    (free → exec (.portAttach tag [portByte p]) s =
      .next ((s.inService tag 0x20).withPort p { pt with
        state := .attaching, attachPending := some tag, attachGeometry := none
        completed := 0, missed := 0, posFaults := 0, restores := 0
        outstanding := some .identify, line := some (.command .identify) })) ∧
    (¬ free → exec (.portAttach tag [portByte p]) s = .next (s.replied tag 0x20 .state []))

/-- PORT_DETACH (R124): refused STATE for a port that is ABSENT or has a request of its own pending,
that an extent lies on, or whose queue holds a stream's entry. Otherwise, for a queue with nothing
QUEUED: the port is ABSENT and keeps only its counters; the reply follows at once, or, with an entry
in the engine, when that entry has ended. QUEUED entries, which are then host entries, are answered
ABORTED in their order before it, and their pages are given back (R32). That the position tries are 0
and the last failed target is forgotten (log 39), and that an entry in the engine stays in the queue of
the ABSENT port (log 45), is the model's choice. -/
def Obligations.PortDetachFrees : Prop :=
  ∀ (s : State) (tag : Byte) (p : PortNo), s.Takes tag →
    let pt := s.ports[p]
    let refused : Prop := pt.state = .absent ∨ pt.attachPending ≠ none ∨ pt.detachPending ≠ none ∨
      (∃ (i : StreamNo) (e : Extent), e ∈ s.streams[i].extents ∧ e.port = p) ∨
      ∃ e ∈ pt.queue, e.kind.stream ≠ none
    let gone : Port := { pt with
      state := .absent, geometry := none, curCyl := none, target := none, lastMark := none
      chosen := none, recovery := none, posTries := 0, failedTarget := none, offlineCause := none
      outstanding := none }
    (refused → exec (.portDetach tag [portByte p]) s = .next (s.replied tag 0x21 .state [])) ∧
    (¬ refused → pt.queue = [] → exec (.portDetach tag [portByte p]) s =
      .next ((s.withPort p { gone with attachGeometry := none }).replied tag 0x21 .ok [])) ∧
    (¬ refused → pt.queue ≠ [] → (∀ e ∈ pt.queue, e.active = false ∧ e.port = p) →
      (∀ i : StreamNo, s.streams[i].waitedPort ≠ some p) → s.pool.waitList = [] →
      exec (.portDetach tag [portByte p]) s =
        .next { s.withPort p { gone with attachGeometry := none, queue := [] } with
          host := ((s.inService tag 0x21).host.answerEntries .aborted pt.queue).answer tag .ok []
          pool := s.pool.takeBack (pt.queue.filterMap fun e => e.kind.page) }) ∧
    (∀ e, ¬ refused → pt.queue = [e] → e.active = true →
      exec (.portDetach tag [portByte p]) s =
        .next ((s.inService tag 0x21).withPort p { gone with
          attachGeometry := pt.geometry, detachPending := some tag }))

/-- STREAM_QUERY (R20) and PORT_QUERY (R125), with the layouts of section 10.3: answered OK in every
state with the record as it stands, a FREE stream with its number and state alone; nothing changes. -/
def Obligations.QueriesReport : Prop :=
  (∀ (s : State) (tag : Byte) (i : StreamNo), s.Takes tag →
     let st := s.streams[i]
     let bit (k : Nat) (b : Bool) : Nat := if b then 2 ^ k else 0
     (st.state = .free → exec (.streamQuery tag [streamByte i]) s =
       .next (s.replied tag 0x35 .ok [streamByte i, 0])) ∧
     (∀ c, st.state ≠ .free → st.settings = some c →
       let presence := bit 0 st.take.isSome + bit 1 (st.nextSeq.isSome && st.commitMark.isSome) +
         bit 2 st.outcome.isSome + bit 3 st.stopPart.isSome + bit 4 st.abortPart.isSome
       let episodes := bit 0 st.overrun + bit 1 st.underrun + bit 2 st.lowGiven
       let queue := match c.direction with
         | .capture => (st.ready.length, 0)
         | .replay => (st.play.length, (st.play.takeWhile PlayEntry.isAccepted).length)
       exec (.streamQuery tag [streamByte i]) s = .next (s.replied tag 0x35 .ok (
         [streamByte i, st.state.code, c.direction.code] ++ beBytes 2 c.recTag.toNat ++
         beBytes 1 c.quota ++ beBytes 1 c.reserve ++ beBytes 1 c.depth ++
         [c.policy.code, c.idleByte] ++ beBytes 2 c.lowMark ++ beBytes 1 c.primeLevel ++
         beBytes 1 (s.work.width i) ++ beBytes 1 presence ++
         beBytes 2 (st.take.getD 0).toNat ++ beBytes 4 (st.nextSeq.getD 0).toNat ++
         beBytes 4 (st.commitMark.getD 0) ++ [(st.outcome.map TakeEnd.code).getD 0] ++
         beBytes 1 s.pool.held[i] ++ beBytes 1 st.outstanding ++ beBytes 1 queue.1 ++
         beBytes 1 queue.2 ++ beBytes 1 st.extents.length ++ beBytes 4 st.remaining ++
         beBytes 1 episodes ++
         beBytes 6 st.counters.received ++ beBytes 6 st.counters.lost ++
         beBytes 4 st.counters.slips ++ beBytes 6 st.counters.idleSent ++
         beBytes 4 st.counters.discarded ++ beBytes 4 st.counters.unreadable ++
         beBytes 4 st.counters.gaps ++ beBytes 1 st.skips.length ++
         st.skips.flatMap fun k => [portByte k.port] ++ beBytes 4 k.lba ++ [k.cause.code])))) ∧
  ∀ (s : State) (tag : Byte) (p : PortNo), s.Takes tag →
    let pt := s.ports[p]
    let bit (k : Nat) (b : Bool) : Nat := if b then 2 ^ k else 0
    let presence := bit 0 pt.geometry.isSome + bit 1 pt.curCyl.isSome + bit 2 pt.target.isSome +
      bit 3 pt.lastMark.isSome + bit 4 (pt.queue.any fun e => e.active) + bit 5 pt.recovery.isSome +
      bit 6 pt.attachPending.isSome + bit 7 pt.detachPending.isSome
    let g : Geometry := pt.geometry.getD ⟨0, 0, 0⟩
    exec (.portQuery tag [portByte p]) s = .next (s.replied tag 0x22 .ok (
      [pt.state.code] ++ beBytes 1 presence ++ beBytes 2 g.cylinders ++ beBytes 1 g.heads ++
      beBytes 1 g.sectors ++ beBytes 4 (g.cylinders * g.heads * g.sectors) ++
      beBytes 2 (pt.curCyl.getD 0) ++ beBytes 2 (pt.target.getD 0) ++
      beBytes 1 (pt.lastMark.getD 0) ++ beBytes 1 pt.queue.length ++ beBytes 1 pt.posTries ++
      [(pt.offlineCause.map OfflineCause.code).getD 0] ++ beBytes 4 pt.completed ++
      beBytes 4 pt.missed ++ beBytes 4 pt.posFaults ++ beBytes 4 pt.restores))

/-- TRACK_FORMAT (R139): the checks of Table 8.3 in their order; otherwise a FORMAT entry for the
track joins the port's queue, and the request stays in its slot. -/
def Obligations.TrackFormatIsQueued : Prop :=
  ∀ (s : State) (tag : Byte) (a : FormatArgs) (permit : Bool), s.Takes tag → a.cyl ≤ 4095 →
    a.head ≤ 15 →
    let pt := s.ports[a.port]
    let g : Geometry := pt.geometry.getD ⟨0, 0, 0⟩
    let first := (a.cyl * g.heads + a.head) * g.sectors
    let checks : List (Bool × Result) := [
      (pt.state == .absent || pt.attachPending.isSome || pt.detachPending.isSome, .portAbsent),
      (pt.state == .offline, .offline),
      (decide (g.cylinders ≤ a.cyl) || decide (g.heads ≤ a.head), .range),
      (!permit, .permit),
      (s.work.allExtents.any fun f => f.port == a.port &&
        decide (f.start ≤ first + g.sectors - 1) && decide (first ≤ f.start + f.count - 1), .overlap),
      (decide (12 ≤ pt.queue.length), .full)]
    (∀ r, firstFailing checks = some r →
      exec (.trackFormat tag a.bytes permit) s = .next (s.replied tag 0x28 r [])) ∧
    (firstFailing checks = none → s.pool.waitList = [] →
      exec (.trackFormat tag a.bytes permit) s =
        .next { (s.inService tag 0x28).withPort a.port (pt.arrival {
            serial := s.serial, kind := .format tag a.lock, port := a.port, lba := none
            cyl := a.cyl, head := a.head, sector := 0 }) with
          serial := s.serial + 1 })

/-- SECTOR_READ (R141, R31): refused PORT_ABSENT, OFFLINE, RANGE and, where the pool grants no page,
NO_PAGE; with a page but a full queue FULL, the page given back. Otherwise the page is claimed and a
HOST_READ entry joins the port's queue. -/
def Obligations.SectorReadIsQueued : Prop :=
  ∀ (s : State) (tag : Byte) (p : PortNo) (lba : Nat), s.Takes tag → lba < 2 ^ 32 →
    let pt := s.ports[p]
    let g : Geometry := pt.geometry.getD ⟨0, 0, 0⟩
    let checks : List (Bool × Result) := [
      (pt.state == .absent || pt.attachPending.isSome || pt.detachPending.isSome, .portAbsent),
      (pt.state == .offline, .offline),
      (decide (g.cylinders * g.heads * g.sectors ≤ lba), .range),
      (decide (s.work.freeCount ≤ s.work.reserveNeed), .noPage)]
    (∀ r, firstFailing checks = some r →
      exec (.sectorRead tag (placeBytes p lba)) s = .next (s.replied tag 0x29 r [])) ∧
    (∀ page free, firstFailing checks = none → s.pool.free = page :: free → s.pool.waitList = [] →
      let claimed : Pool := { s.pool with
        free := free, mem := s.pool.mem.clearPage page, hostCount := s.pool.hostCount + 1 }
      (12 ≤ pt.queue.length → exec (.sectorRead tag (placeBytes p lba)) s =
        .next { s.replied tag 0x29 .full [] with
          pool := { claimed with free := free ++ [page], hostCount := s.pool.hostCount } }) ∧
      (pt.queue.length < 12 → exec (.sectorRead tag (placeBytes p lba)) s =
        .next { (s.inService tag 0x29).withPort p (pt.arrival {
            serial := s.serial, kind := .hostRead tag page, port := p, lba := some lba
            cyl := lba / (g.heads * g.sectors), head := lba / g.sectors % g.heads
            sector := lba % g.sectors }) with
          pool := claimed
          serial := s.serial + 1 }))

/-- SECTOR_WRITE (R143, R31, R32): as SECTOR_READ, with OVERLAP for a sector that an extent covers
before the claim, and FULL for a full queue, the page given back. Otherwise a HOST_WRITE entry joins the
port's queue. In both cases the payload stands in the page that was claimed, and every other byte of the
buffer memory stays. -/
def Obligations.SectorWriteIsQueued : Prop :=
  ∀ (s : State) (tag : Byte) (a : WriteArgs), s.Takes tag → a.InRange → s.pool.mem.Wf →
    let pt := s.ports[a.port]
    let g : Geometry := pt.geometry.getD ⟨0, 0, 0⟩
    let checks : List (Bool × Result) := [
      (pt.state == .absent || pt.attachPending.isSome || pt.detachPending.isSome, .portAbsent),
      (pt.state == .offline, .offline),
      (decide (g.cylinders * g.heads * g.sectors ≤ a.lba), .range),
      (s.work.allExtents.any fun f => f.port == a.port && decide (f.start ≤ a.lba) &&
        decide (a.lba ≤ f.start + f.count - 1), .overlap),
      (decide (s.work.freeCount ≤ s.work.reserveNeed), .noPage)]
    (∀ r, firstFailing checks = some r →
      exec (.sectorWrite tag a.bytes) s = .next (s.replied tag 0x2A r [])) ∧
    (∀ page free, firstFailing checks = none → s.pool.free = page :: free → s.pool.waitList = [] →
      ∃ t, exec (.sectorWrite tag a.bytes) s = .next t ∧
        (12 ≤ pt.queue.length → t = { s.replied tag 0x2A .full [] with
          pool := { s.pool with mem := t.pool.mem, free := free ++ [page] } }) ∧
        (pt.queue.length < 12 → t = { (s.inService tag 0x2A).withPort a.port (pt.arrival {
            serial := s.serial, kind := .hostWrite tag page a.trailer a.override, port := a.port
            lba := some a.lba
            cyl := a.lba / (g.heads * g.sectors), head := a.lba / g.sectors % g.heads
            sector := a.lba % g.sectors }) with
          pool := { s.pool with
            free := free, mem := t.pool.mem, hostCount := s.pool.hostCount + 1 }
          serial := s.serial + 1 }) ∧
        (∀ k < 512, t.pool.mem.read (pageAddr page k) = a.payload.getD k 0) ∧
        ∀ address, (∀ k < 512, address ≠ pageAddr page k) →
          t.pool.mem.read address = s.pool.mem.read address)

/-! ### The drive ports -/

/-- An entry that arrives at a port whose queue has room (R127, R115, R121). At an OFFLINE port it
completes at once: its result goes to its owner and the queue stays as it is. Otherwise it becomes the
last of the queue: an IDLE port chooses; in WAIT_SECTOR it becomes the chosen entry only if it lies on
the current cylinder and its sector comes sooner than the chosen entry's; in POSITIONING, RESTORING and
ACTIVE it waits. Said for no stream that waits for this port or for a page. -/
def Obligations.ArrivalsAreQueued : Prop :=
  ∀ (w : Work) (p : PortNo) (e : Entry), (w.port p).queue.length < 12 → w.pool.waitList = [] →
    (∀ i : StreamNo, (w.stream i).waitedPort ≠ some p) →
    let pt := w.port p
    let queued : Port := { pt with queue := pt.queue ++ [e] }
    let placed (after : Port) : Work :=
      { w with ports := w.ports.set p after, serial := w.serial + 1 }
    (pt.state = .offline → w.placeEntry p e = { w with
      agenda := w.agenda ++ [.result e { result := .offline }], serial := w.serial + 1 }) ∧
    (pt.state = .idle → w.placeEntry p e = placed queued.choose) ∧
    (pt.state = .positioning ∨ pt.state = .restoring ∨ pt.state = .active →
      w.placeEntry p e = placed queued) ∧
    (∀ c, pt.state = .waitSector → queued.chosenEntry = some c → w.placeEntry p e = placed (
      if pt.curCyl = some e.cyl ∧ queued.distance e.sector < queued.distance c.sector then
        { queued with chosen := some e.serial }
      else queued))

/-- The choice (Table 7.6, R114, R115): a recovery entry on another cylinder; else the oldest entry, off
the cylinder with 8 completions passed; else the entry on the cylinder that comes soonest after the
last mark, the older of two that come together; else the oldest entry's cylinder; with nothing QUEUED,
IDLE. Positioning sends POSITION and sets the target, with its tries anew unless the last failed
positioning had that target. The rotational distance is (s − m − 1) modulo the sectors per track, with
the last mark m, or s where there is none. -/
def Obligations.ChoiceFollowsItsTable : Prop :=
  (∀ pt : Port,
     let goesTo (cyl : Nat) : Port := { pt with
       state := .positioning, curCyl := none, target := some cyl, chosen := none
       posTries := if pt.failedTarget = some cyl then pt.posTries else 0
       outstanding := some (.position cyl), line := some (.command (.position cyl)) }
     (pt.queued = [] → pt.choose = { pt with state := .idle, chosen := none }) ∧
     ∀ oldest rest, pt.queued = oldest :: rest →
       (∀ r, pt.recoveryEntry = some r → pt.curCyl ≠ some r.cyl → pt.choose = goesTo r.cyl) ∧
       ((∀ r, pt.recoveryEntry = some r → pt.curCyl = some r.cyl) →
         (pt.curCyl ≠ some oldest.cyl → 8 ≤ oldest.passed → pt.choose = goesTo oldest.cyl) ∧
         (pt.curCyl = some oldest.cyl ∨ oldest.passed < 8 →
           ((∀ e ∈ pt.queued, pt.curCyl ≠ some e.cyl) → pt.choose = goesTo oldest.cyl) ∧
           ((∃ e ∈ pt.queued, pt.curCyl = some e.cyl) →
             ∃ before e after, pt.queued = before ++ e :: after ∧ pt.curCyl = some e.cyl ∧
               (∀ f ∈ before, pt.curCyl = some f.cyl → pt.distance e.sector < pt.distance f.sector) ∧
               (∀ f ∈ after, pt.curCyl = some f.cyl → pt.distance e.sector ≤ pt.distance f.sector) ∧
               pt.choose = { pt with state := .waitSector, chosen := some e.serial })))) ∧
  ∀ (pt : Port) (g : Geometry) (sector : Nat), pt.geometry = some g → sector < g.sectors →
    (∀ m, pt.lastMark = some m → m < g.sectors →
      (pt.distance sector : Int) = ((sector : Int) - m - 1) % g.sectors) ∧
    (pt.lastMark = none → pt.distance sector = sector)

/-- IDENT at an attaching port (R112): a geometry out of range fails the attach with BAD_GEOMETRY and
the figures, a drive that is not ready with OFFLINE; otherwise the figures are kept and the heads are
restored. IDENTIFY_TIMEOUT answers PORT_ABSENT and NOT_READY answers OFFLINE, in the same way. A
restore for an attach that fails (R113), by RESTORE_TIMEOUT or POSITION_FAULT, answers POSITION_FAULT,
and NOT_READY during it answers OFFLINE. That it ends well is said in PositionedArrives. -/
def Obligations.AttachTakesItsAnswer : Prop :=
  (∀ (s : State) (p : PortNo) (cylinders : Half) (heads sectors : Byte) (ready : Bool) (tag : Byte),
     s.resetLow = false → s.ports[p].state = .attaching →
     s.ports[p].outstanding = some .identify → s.ports[p].attachPending = some tag →
     let pt := s.ports[p]
     let g : Geometry := ⟨cylinders.toNat, heads.toNat, sectors.toNat⟩
     let good : Prop := 1 ≤ g.cylinders ∧ g.cylinders ≤ 4096 ∧ 1 ≤ g.heads ∧ g.heads ≤ 16 ∧
       8 ≤ g.sectors ∧ g.sectors ≤ 64
     let fails (r : Result) (payload : List Byte) : State :=
       { s.withPort p { pt with
           state := .absent, attachPending := none, attachGeometry := none, lastMark := none
           outstanding := none } with
         host := s.host.answer tag r payload }
     (¬ good → exec (.ident p cylinders heads sectors ready) s = .next (fails .badGeometry
       (beBytes 2 g.cylinders ++ beBytes 1 g.heads ++ beBytes 1 g.sectors))) ∧
     (good → ready = false →
       exec (.ident p cylinders heads sectors ready) s = .next (fails .offline [])) ∧
     (good → ready = true → exec (.ident p cylinders heads sectors ready) s =
       .next (s.withPort p { pt with
         attachGeometry := some g
         state := .restoring, curCyl := none, chosen := none
         restores := min (2 ^ 32 - 1) (pt.restores + 1)
         outstanding := some .restore, line := some (.command .restore) })) ∧
     exec (.identifyTimeout p) s = .next (fails .portAbsent []) ∧
     exec (.notReady p) s = .next (fails .offline [])) ∧
  ∀ (s : State) (p : PortNo) (c : Instr) (r : Result) (tag : Byte), s.resetLow = false →
    ((c = .restoreTimeout p ∨ c = .positionFault p) ∧ r = .positionFault ∨
      c = .notReady p ∧ r = .offline) → s.ports[p].state = .restoring →
    s.ports[p].attachPending = some tag →
    exec c s = .next { s.withPort p { s.ports[p] with
        state := .absent, attachPending := none, attachGeometry := none, lastMark := none
        outstanding := none } with
      host := s.host.answer tag r [] }

/-- READY, and IDENT at an OFFLINE port that waits for it (R122): READY sends IDENTIFY unless the
cause is GEOMETRY or one is out; the same geometry from a ready drive restores it, another leaves the
port OFFLINE with cause GEOMETRY and raises PORT_CHANGE, and no answer, or one not ready, gives cause
NO_IDENT. -/
def Obligations.OfflineDrivesReturn : Prop :=
  ∀ (s : State) (p : PortNo) (cylinders : Half) (heads sectors : Byte) (kept : Geometry),
    s.resetLow = false → s.ports[p].state = .offline → s.ports[p].geometry = some kept →
    let pt := s.ports[p]
    let g : Geometry := ⟨cylinders.toNat, heads.toNat, sectors.toNat⟩
    let silent : State :=
      s.withPort p { pt with offlineCause := some .noIdent, outstanding := none }
    (pt.offlineCause ≠ some .geometry → pt.outstanding = none →
      exec (.ready p) s = .next (s.withPort p { pt with
        outstanding := some .identify, line := some (.command .identify) })) ∧
    (pt.offlineCause = some .geometry ∨ pt.outstanding ≠ none → exec (.ready p) s = .next s) ∧
    (pt.outstanding = some .identify →
      exec (.ident p cylinders heads sectors false) s = .next silent ∧
      exec (.identifyTimeout p) s = .next silent ∧
      exec (.notReady p) s = .next silent ∧
      (g = kept → exec (.ident p cylinders heads sectors true) s = .next (s.withPort p { pt with
        state := .restoring, curCyl := none, chosen := none
        restores := min (2 ^ 32 - 1) (pt.restores + 1)
        outstanding := some .restore, line := some (.command .restore) })) ∧
      (g ≠ kept → exec (.ident p cylinders heads sectors true) s =
        .next (State.notified
          (s.withPort p { pt with offlineCause := some .geometry, outstanding := none })
          (.portChange p .offline (.offline .geometry) (some kept) (some g) 0))))

/-- An attached port goes OFFLINE (R120) on NOT_READY, on MARK_TIMEOUT, and on a restore that fails
(R119): its record keeps geometry and counters, and PORT_CHANGE is raised with the number of entries
completed; an entry in the engine is cut. Said here for a queue that is empty or holds one format,
which is answered OFFLINE before or after the notice: the port's offer and the taking of its results
come in either order (R152; log 6). That nothing of a format cut in the engine shows as gone out on the
drive line (log 41), and that the header flags of a free engine are 0x00 (log 9), is the model's choice. -/
def Obligations.PortsGoOffline : Prop :=
  ∀ (s : State) (p : PortNo) (c : Instr) (cause : OfflineCause), s.resetLow = false →
    s.ports[p].attachPending = none →
    (c = .notReady p ∧ cause = .notReady ∨ c = .markTimeout p ∧ cause = .marks ∨
      c = .restoreTimeout p ∧ cause = .restore ∧ s.ports[p].state = .restoring ∨
      c = .positionFault p ∧ cause = .restore ∧ s.ports[p].state = .restoring) →
    (s.ports[p].state = .restoring ∨ s.ports[p].state = .idle ∨ s.ports[p].state = .positioning ∨
      s.ports[p].state = .waitSector ∨ s.ports[p].state = .active) →
    (∀ i : StreamNo, s.streams[i].waitedPort ≠ some p) →
    let pt := s.ports[p]
    let off := s.withPort p { pt with
      state := .offline, offlineCause := some cause, curCyl := none, target := none
      lastMark := none, chosen := none, recovery := none, posTries := 0, failedTarget := none
      outstanding := none, queue := [] }
    let freed := { off with
      engine := if s.engine.holder = some p then { holder := none, phase := .free, flags := 0 }
        else s.engine }
    let told (u : State) (n : Nat) : State :=
      u.notified (.portChange p .offline (.offline cause) pt.geometry none n)
    (pt.queue = [] → exec c s = .next (told freed 0)) ∧
    (∀ (e : Entry) (tag : Byte) (lock : Bool), pt.queue = [e] → e.kind = .format tag lock →
      let chosen : State := { freed with pickCount := s.pickCount + 1 }
      let answered (u : State) : State := { u with host := u.host.answer tag .offline [] }
      exec c s = .next (answered (told chosen 1)) ∨ exec c s = .next (told (answered chosen) 1))

/-- POSITIONED (R117, R113, R119, R122): at a positioning port the target is reached and the port
chooses; a port that restores for an attach records the geometry and answers OK; for a kept target it
positions again, and with none it chooses from cylinder 0; on the return of its drive it is IDLE at
cylinder 0, raises PORT_CHANGE with cause READY, and then chooses among the entries queued during the
restore, of which there may be none. Another cylinder is ignored (R109). -/
def Obligations.PositionedArrives : Prop :=
  ∀ (s : State) (p : PortNo) (cylinder : Half), s.resetLow = false →
    let pt := s.ports[p]
    let reached (cyl : Nat) : Port := { pt with
      curCyl := some cyl, target := none, posTries := 0, failedTarget := none, outstanding := none
      recovery := if pt.recoveryEntry.map Entry.cyl = some cyl then none else pt.recovery }
    (pt.state = .positioning → pt.target = some cylinder.toNat →
      exec (.positioned p cylinder) s = .next (s.withPort p (reached cylinder.toNat).choose)) ∧
    (pt.state = .positioning → pt.target ≠ some cylinder.toNat →
      exec (.positioned p cylinder) s = .next s) ∧
    (pt.state = .restoring → cylinder ≠ 0 → exec (.positioned p cylinder) s = .next s) ∧
    (∀ tag g, pt.state = .restoring → cylinder = 0 → pt.attachPending = some tag →
      pt.attachGeometry = some g →
      exec (.positioned p cylinder) s = .next { s.withPort p { pt with
          state := .idle, geometry := some g, attachGeometry := none, attachPending := none
          curCyl := some 0, outstanding := none } with
        host := s.host.answer tag .ok (beBytes 2 g.cylinders ++ beBytes 1 g.heads ++
          beBytes 1 g.sectors ++ beBytes 4 (g.cylinders * g.heads * g.sectors)) }) ∧
    (pt.state = .restoring → cylinder = 0 → pt.attachPending = none → pt.offlineCause = none →
      (∀ cyl, pt.target = some cyl → cyl ≠ 0 →
        exec (.positioned p cylinder) s = .next (s.withPort p { pt with
          state := .positioning, outstanding := some (.position cyl)
          line := some (.command (.position cyl)) })) ∧
      (pt.target = none ∨ pt.target = some 0 →
        exec (.positioned p cylinder) s = .next (s.withPort p (reached 0).choose))) ∧
    (∀ cause, pt.state = .restoring → cylinder = 0 → pt.attachPending = none →
      pt.offlineCause = some cause → pt.queued = [] →
      exec (.positioned p cylinder) s = .next (State.notified
        (s.withPort p { pt with
          state := .idle, curCyl := some 0, offlineCause := none, outstanding := none
          chosen := none })
        (.portChange p .idle .ready pt.geometry none 0))) ∧
    (∀ cause, pt.state = .restoring → cylinder = 0 → pt.attachPending = none →
      pt.offlineCause = some cause → pt.queued ≠ [] →
      exec (.positioned p cylinder) s = .next (State.notified
        (s.withPort p (Port.choose { pt with
          state := .idle, curCyl := some 0, offlineCause := none, outstanding := none }))
        (.portChange p .idle .ready pt.geometry none 0)))

/-- A failed positioning (R118), by POSITION_FAULT or POSITIONING_TIMEOUT: counted, and the heads are
restored with the target kept; the third failure gives the target up, with the QUEUED entries for it:
they leave the queue, and host entries among them (said here for no others) are answered POSITION_FAULT
in their order and give their pages back (R32). -/
def Obligations.PositioningFails : Prop :=
  ∀ (s : State) (p : PortNo) (c : Instr), s.resetLow = false →
    (c = .positionFault p ∨ c = .positioningTimeout p) → s.ports[p].state = .positioning →
    let pt := s.ports[p]
    let restored : Port := { pt with
      state := .restoring, curCyl := none, chosen := none, failedTarget := pt.target
      posFaults := min (2 ^ 32 - 1) (pt.posFaults + 1)
      restores := min (2 ^ 32 - 1) (pt.restores + 1)
      outstanding := some .restore, line := some (.command .restore) }
    let onTarget := pt.queue.filter fun e => !e.active && pt.target == some e.cyl
    (pt.posTries < 2 → exec c s = .next (s.withPort p { restored with posTries := pt.posTries + 1 })) ∧
    (2 ≤ pt.posTries → onTarget = [] →
      exec c s = .next (s.withPort p { restored with posTries := 0, target := none })) ∧
    (2 ≤ pt.posTries → onTarget ≠ [] → (∀ e ∈ onTarget, e.ofHost = true ∧ e.port = p) →
      (∀ i : StreamNo, s.streams[i].waitedPort ≠ some p) → s.pool.waitList = [] →
      exec c s = .next { s.withPort p { restored with
          posTries := 0, target := none
          queue := pt.queue.filter fun e => e.active || pt.target != some e.cyl
          recovery := if onTarget.any (fun e => pt.recovery == some e.serial) then none
            else pt.recovery } with
        host := s.host.answerEntries .positionFault onTarget
        pool := s.pool.takeBack (onTarget.filterMap fun e => e.kind.page) })

/-- A SECTOR_MARK (R116, R131, R140): it becomes the last mark; in WAIT_SECTOR the chosen entry's
mark claims the engine: granted while it is FREE, in phase HEADER or FORMAT, and otherwise the
sector is missed and the port chooses again; of two ports whose chosen entries' marks come at one
moment the lower gets the engine (R131 (3)). The next index mark ends a format in the engine, which
is answered OK, also on a port that is being detached, whose detach is then answered (R124; that the
entry stands in the queue of the ABSENT port until then is the model's choice, log 45); said of a
port no stream waits for; that a free engine's header flags are 0x00 is the model's choice (log 9).
A mark of another sector, or in the other states of an attached port, does nothing more, and one
outside the track is ignored. -/
def Obligations.MarksClaimTheEngine : Prop :=
  (∀ (s : State) (p : PortNo) (m : Byte) (g : Geometry), s.resetLow = false →
    s.ports[p].geometry = some g →
    let pt := s.ports[p]
    let marked : Port := { pt with lastMark := some m.toNat }
    (g.sectors ≤ m.toNat → pt.state ≠ .absent → exec (.sectorMark [(p, m)]) s = .next s) ∧
    (m.toNat < g.sectors → pt.state = .idle ∨ pt.state = .positioning ∨ pt.state = .restoring ∨
        pt.state = .active ∧ (s.engine.holder ≠ some p ∨ s.engine.phase ≠ .format ∨ m ≠ 0) →
      exec (.sectorMark [(p, m)]) s = .next (s.withPort p marked)) ∧
    (∀ e, m.toNat < g.sectors → pt.state = .waitSector → pt.chosenEntry = some e →
      (e.sector ≠ m.toNat →
        exec (.sectorMark [(p, m)]) s = .next (s.withPort p marked)) ∧
      (e.sector = m.toNat → s.engine.holder = none →
        exec (.sectorMark [(p, m)]) s = .next { s.withPort p { marked with
            state := .active
            queue := pt.queue.map fun f => if f.serial = e.serial then { f with active := true } else f
            line := some (.headSelect e.head) } with
          engine := {
            holder := some p
            phase := match e.kind with | .format .. => .format | _ => .header } }) ∧
      (e.sector = m.toNat → s.engine.holder ≠ none →
        exec (.sectorMark [(p, m)]) s = .next (s.withPort p (Port.choose { marked with
          missed := min (2 ^ 32 - 1) (pt.missed + 1), chosen := none })))) ∧
    (∀ e tag lock, 0 < g.sectors → pt.state = .active → s.engine.holder = some p →
      s.engine.phase = .format → pt.activeEntry = some e → e.kind = .format tag lock → e.port = p →
      pt.detachPending = none → (∀ i : StreamNo, s.streams[i].waitedPort ≠ some p) →
      exec (.sectorMark [(p, 0)]) s = .next { s.withPort p (Port.choose (Port.withCompleted
          { pt with
            lastMark := some 0, written := some (.track e.cyl e.head lock g.sectors) } e)) with
        engine := { holder := none, phase := .free, flags := 0 }
        host := s.host.answer tag .ok ([portByte p] ++ beBytes 2 e.cyl ++ beBytes 1 e.head ++
          [if lock then 1 else 0]) })) ∧
  (∀ (s : State) (p : PortNo) (m : Byte) (g : Geometry) (e : Entry) (tag detach : Byte)
      (lock : Bool), s.resetLow = false → s.ports[p].state = .absent →
    s.ports[p].detachPending = some detach → s.ports[p].geometry = none →
    s.ports[p].attachGeometry = some g → s.ports[p].activeEntry = some e →
    e.kind = .format tag lock → e.port = p → s.engine.holder = some p → s.engine.phase = .format →
    (∀ i : StreamNo, s.streams[i].waitedPort ≠ some p) →
    let pt := s.ports[p]
    (m ≠ 0 → exec (.sectorMark [(p, m)]) s = .next s) ∧
    (m = 0 → exec (.sectorMark [(p, m)]) s = .next { s.withPort p { Port.withCompleted pt e with
        written := some (.track e.cyl e.head lock g.sectors)
        detachPending := none, attachGeometry := none } with
      engine := { holder := none, phase := .free, flags := 0 }
      host := (s.host.answer tag .ok ([portByte p] ++ beBytes 2 e.cyl ++ beBytes 1 e.head ++
        [if lock then 1 else 0])).answer detach .ok [] })) ∧
  ∀ (s : State) (p q : PortNo) (m n : Byte) (g h : Geometry) (e f : Entry), p < q →
    s.resetLow = false → s.engine.holder = none →
    s.ports[p].geometry = some g → m.toNat < g.sectors → s.ports[p].state = .waitSector →
    s.ports[p].chosenEntry = some e → e.sector = m.toNat →
    s.ports[q].geometry = some h → n.toNat < h.sectors → s.ports[q].state = .waitSector →
    s.ports[q].chosenEntry = some f → f.sector = n.toNat →
    exec (.sectorMark [(p, m), (q, n)]) s = .next { (s.withPort p { s.ports[p] with
        lastMark := some m.toNat, state := .active
        queue := s.ports[p].queue.map fun x =>
          if x.serial = e.serial then { x with active := true } else x
        line := some (.headSelect e.head) }).withPort q (Port.choose { s.ports[q] with
          lastMark := some n.toNat, missed := min (2 ^ 32 - 1) (s.ports[q].missed + 1)
          chosen := none }) with
      engine := {
        holder := some p
        phase := match e.kind with | .format .. => .format | _ => .header } }

/-! ### The sector engine -/

/-- HEADER_READ (R132, R133, R119, R129): a header that does not match the entry is tried again
after a restore, twice, and the third time a host entry is answered ADDRESS_FAULT; a match enters
the data phase with the header flags in hand, but for a write of a locked sector without permit and
override, which is answered LOCKED. An entry that is answered leaves the queue, every other entry
has been passed once more, the port counts and chooses again, and the page is given back. That a
free engine's header flags are 0x00 is the model's choice (log 9). The stream writes are judged in
StreamWriteCompletes. -/
def Obligations.HeadersAreJudged : Prop :=
  ∀ (s : State) (header : Vector Byte 7) (permit : Bool) (p : PortNo) (e : Entry),
    s.resetLow = false → s.engine.holder = some p → s.engine.phase = .header →
    s.ports[p].activeEntry = some e →
    let pt := s.ports[p]
    let flags := header[4]
    let good : Prop := flags.getLsbD 7 = true ∧
      [header[5], header[6]] = crcBytes [header[0], header[1], header[2], header[3], header[4]] ∧
      256 * header[0].toNat + header[1].toNat = e.cyl ∧ header[2].toNat = e.head ∧
      header[3].toNat = e.sector
    let locked : Prop := flags.getLsbD 6 = true ∧ ¬ (permit = true ∧ e.kind.override = true)
    let fails (r : Result) (tag : Byte) (page : PageNo) : State :=
      { s.withPort p (pt.withCompleted e).choose with
        engine := { holder := none, phase := .free, flags := 0 }
        host := s.host.answer tag r (placeBytes p (e.lba.getD 0))
        pool := s.pool.takeBack [page] }
    let alone : Prop := e.port = p ∧ pt.state = .active ∧ pt.detachPending = none ∧
      (∀ i : StreamNo, s.streams[i].waitedPort ≠ some p) ∧ s.pool.waitList = []
    (¬ good → e.addrTries < 2 → pt.detachPending = none →
      exec (.headerRead header permit) s = .next { s.withPort p { pt with
          state := .restoring, curCyl := none, chosen := none
          restores := min (2 ^ 32 - 1) (pt.restores + 1)
          queue := pt.queue.map fun f => if f.serial = e.serial then
            { f with addrTries := f.addrTries + 1, active := false } else f
          recovery := some e.serial
          outstanding := some .restore, line := some (.command .restore) } with
        engine := { holder := none, phase := .free, flags := 0 } }) ∧
    (∀ tag page, ¬ good → 2 ≤ e.addrTries → alone →
      (e.kind = .hostRead tag page ∨ ∃ t o, e.kind = .hostWrite tag page t o) →
      exec (.headerRead header permit) s = .next (fails .addressFault tag page)) ∧
    (∀ tag page t, good → locked → alone → e.kind = .hostWrite tag page t e.kind.override →
      exec (.headerRead header permit) s = .next (fails .locked tag page)) ∧
    (good → e.kind.isWrite = false → exec (.headerRead header permit) s =
      .next { s with engine := { s.engine with phase := .readData, flags := flags } }) ∧
    (good → e.kind.isWrite = true → ¬ locked →
      exec (.headerRead header permit) s =
        .next { s with engine := { s.engine with phase := .writeData, flags := flags } })

/-- WRITE_DATA of a host write (R134, R129, R143): the page's 512 bytes, the trailer and the check
have gone out on the drive line; the entry leaves the queue, every other entry has been passed once
more, the port counts and chooses again, the request is answered OK with its place, and the page is
released. The buffer memory stays. That a free engine's header flags are 0x00 is the model's choice
(log 9). -/
def Obligations.HostWriteCompletes : Prop :=
  ∀ (s : State) (p : PortNo) (e : Entry) (tag : Byte) (page : PageNo) (trailer : Trailer)
    (override : Bool) (lba : Nat), s.resetLow = false → s.engine.holder = some p →
    s.engine.phase = .writeData → s.ports[p].activeEntry = some e →
    e.kind = .hostWrite tag page trailer override → e.lba = some lba → e.port = p →
    s.ports[p].state = .active → s.ports[p].detachPending = none →
    (∀ i : StreamNo, s.streams[i].waitedPort ≠ some p) → s.pool.waitList = [] →
    let pt := s.ports[p]
    let payload := s.pool.mem.page page
    let after : Port := { pt with
      chosen := none
      queue := (pt.queue.filter fun f => f.serial != e.serial).map fun f =>
        { f with passed := min 65535 (f.passed + 1) }
      completed := min (2 ^ 32 - 1) (pt.completed + 1)
      recovery := if pt.recovery = some e.serial then none else pt.recovery
      written := some (.sector (payload ++ trailer.bytes ++ crcBytes (payload ++ trailer.bytes))) }
    exec .writeData s = .next { s.withPort p after.choose with
      engine := { holder := none, phase := .free, flags := 0 }
      host := s.host.answer tag .ok (placeBytes p lba)
      pool := { s.pool with
        free := s.pool.free ++ [page], hostCount := s.pool.hostCount - 1 } }

/-- The end of a capture stream's write, which frees the engine (its header flags then 0x00: log 9).
WRITE_DATA (R83, R129, R134): the page is released and the commit mark moves on to the earliest of
next sequence and the sequences still unwritten, in the ready queue or on a port, so that a write
out of order leaves it (that the commit point moves on also where the mark has stopped at its
largest value is the model's choice, log 44). The last write of a stopped take, its end page made,
ends the stream STOPPED and answers the STOP (R88); in FAULTED the page is released and no more
(R90), and after an abort the last write ends the stream (R15, R16), where that an end page written
OK makes the end-page state WRITTEN is the model's reading (log 19). HEADER_READ of a locked sector
without permit and override fails the write (R84): under CONTINUE with fewer than 8 skip-list
entries it slips (R85): the skip list and the slips counter grow, the page goes to the cursor's next
sector (said for a remaining count well above the low mark), or back into the ready queue where the
queue there is full or the cursor exhausted (R79, R81), and SLIP is raised; under HALT, or with 8
entries, the stream is FAULTED (R89; said for no other entry of the stream): its pages are given up,
STREAM_FAULT is raised and a STOP that waits is answered FAULTED. -/
def Obligations.StreamWriteCompletes : Prop :=
  ∀ (s : State) (p : PortNo) (e : Entry) (i : StreamNo) (page : PageNo) (t : Trailer)
    (override : Bool) (c : Settings), s.resetLow = false → s.engine.holder = some p →
    s.ports[p].activeEntry = some e → e.kind = .streamWrite i page t override → e.port = p →
    s.ports[p].state = .active → s.ports[p].detachPending = none →
    (∀ j : StreamNo, s.streams[j].waitedPort ≠ some p) →
    s.streams[i].settings = some c → c.direction = .capture →
    let pt := s.ports[p]
    let st := s.streams[i]
    let take := st.take.getD 0
    let next := st.nextSeq.getD 0
    let lba := e.lba.getD 0
    let outstanding := st.outstanding - 1
    let gives (pages : List PageNo) : Pool := { s.pool with
      free := s.pool.free ++ pages, held := s.pool.held.set i (s.pool.held[i] - pages.length)
      waitList := [] }
    let done (pt : Port) (st : Stream) : State :=
      { (s.withPort p (pt.withCompleted e).choose).withStream i st with
        engine := { holder := none, phase := .free, flags := 0 } }
    let answered (h : HostLine) (tag : Option Byte) (r : Result) (payload : List Byte) : HostLine :=
      match tag with
      | some tag => h.answer tag r payload
      | none => h
    let ended (st : Stream) (o : TakeEnd) : Stream := { st with
      state := .ended, outcome := some o, stopPart := none, abortPart := none, waitedPort := none
      drainReason := none }
    let figures (o : TakeEnd) (mark : Nat) : FinalFigures := {
      stream := i, direction := some .capture, recTag := c.recTag, take := take, outcome := o
      nextSeq := next, commitMark := mark, counters := st.counters, skipCount := st.skips.length }
    (s.engine.phase = .writeData → s.pool.waitList = [] →
      let payload := s.pool.mem.page page
      let sent : Port := { pt with
        written := some (.sector (payload ++ t.bytes ++ crcBytes (payload ++ t.bytes))) }
      let endPage := if t.fill < 512 then EndPageState.written else st.endPage
      let unwritten (x : Seq) : Prop := x = next ∨ x ∈ st.ready.map ReadyPage.seq ∨
        ∃ (q : PortNo) (f : Entry) (pg : PageNo) (u : Trailer) (o : Bool), f ∈ s.ports[q].queue ∧
          (q = p → f.serial ≠ e.serial) ∧ f.kind = .streamWrite i pg u o ∧ u.seq = x
      (∀ first, st.state ≠ .faulted → st.abortPart = none → unwritten first →
        (∀ y, unwritten y → (first - st.commitPoint).toNat ≤ (y - st.commitPoint).toNat) →
        let mark := min (2 ^ 32 - 1) (st.commitMark.getD 0 + (first - st.commitPoint).toNat)
        let after : Stream := { st with
          outstanding := outstanding, endPage := endPage
          commitMark := some mark, commitPoint := first }
        (st.state = .hold ∨ st.ready = [] ∧
            (st.state = .running ∨ st.state = .draining ∧ 1 < st.outstanding) →
          exec .writeData s = .next { done sent after with pool := gives [page] }) ∧
        (st.state = .draining → st.ready = [] → st.outstanding = 1 →
          (endPage = .made ∨ endPage = .written) →
          exec .writeData s = .next { done sent (ended after .stopped) with
            pool := gives [page]
            host := (answered s.host st.stopPart .ok (figures .stopped mark).bytes).raise
              (.streamEnded (figures .stopped mark)) })) ∧
      (st.state = .faulted → exec .writeData s =
        .next { done sent { st with outstanding := outstanding } with pool := gives [page] }) ∧
      (st.state ≠ .faulted → st.abortPart ≠ none → st.outstanding = 1 →
        let o : TakeEnd := if endPage = .made then .unterminated else .aborted
        let bytes := (figures o (st.commitMark.getD 0)).bytes
        exec .writeData s =
          .next { done sent { ended st o with outstanding := 0, endPage := endPage } with
            pool := gives [page]
            host := (answered (answered s.host st.stopPart .aborted bytes) st.abortPart .ok
              bytes).raise (.streamEnded (figures o (st.commitMark.getD 0))) })) ∧
    ∀ (header : Vector Byte 7) (permit : Bool), s.engine.phase = .header →
      header[4].getLsbD 7 = true → header[4].getLsbD 6 = true →
      ¬ (permit = true ∧ override = true) →
      [header[5], header[6]] = crcBytes [header[0], header[1], header[2], header[3], header[4]] →
      256 * header[0].toNat + header[1].toNat = e.cyl → header[2].toNat = e.head →
      header[3].toNat = e.sector →
      (st.state = .running ∨ st.state = .hold ∨ st.state = .draining) → st.abortPart = none →
      let slipped : Stream := { st with
        skips := st.skips ++ [⟨p, lba, .locked⟩]
        counters := { st.counters with slips := min (2 ^ 32 - 1) (st.counters.slips + 1) } }
      let notice (place : Option (PortNo × Nat)) : Notice :=
        .slip i take t.seq p lba .locked (st.skips.length + 1) place
      let returned : Stream := { slipped with
        ready := ⟨page, t.seq, t.fill⟩ :: st.ready, outstanding := outstanding }
      (c.policy = .goOn → st.skips.length < 8 → s.pool.waitList = [] →
        (∀ x others, st.extents = x :: others → st.offset + 1 < x.count →
          c.lowMark + 1 < st.remaining →
          let before := done pt slipped
          let q := before.ports[x.port]
          let entry := q.newEntry s.serial (.streamWrite i page t x.override) x.port
            (x.start + st.offset)
          (q.queue.length < 12 → q.state ≠ .offline → exec (.headerRead header permit) s =
            .next (State.notified { (before.withStream i { slipped with
                offset := st.offset + 1 }).withPort x.port (q.arrival entry) with
              serial := s.serial + 1 } (notice (some (x.port, x.start + st.offset))))) ∧
          (12 ≤ q.queue.length →
            (∀ pg ∈ st.ready, (t.seq - st.commitPoint).toNat < (pg.seq - st.commitPoint).toNat) →
            exec (.headerRead header permit) s = .next ((done pt { returned with
              waitedPort := some x.port }).notified (notice none)))) ∧
        (st.extents = [] →
          (∀ pg ∈ st.ready, (t.seq - st.commitPoint).toNat < (pg.seq - st.commitPoint).toNat) →
          let now : StreamState := if st.state = .running then .hold else st.state
          let first := done pt { returned with
            state := now, waitedPort := none
            emptyReported := if st.state = .hold then st.emptyReported else true }
          let second := if st.state = .hold ∨ st.emptyReported = true then first else
            first.notified (.extentEmpty i take now next (st.ready.length + 1) s.pool.held[i]
              outstanding)
          exec (.headerRead header permit) s = .next (second.notified (notice none)))) ∧
      ((c.policy = .halt ∨ 8 ≤ st.skips.length) → (∀ x ∈ s.pool.waitList, x.1 = i) →
        (∀ (q : PortNo) (f : Entry), f ∈ s.ports[q].queue → f.kind.stream = some i →
          q = p ∧ f.serial = e.serial) →
        let fault : FaultFigures := {
          stream := i, take := take, cause := .locked, port := p, lba := lba, seq := t.seq
          skipCount := st.skips.length, nextSeq := next, commitMark := st.commitMark.getD 0 }
        exec (.headerRead header permit) s = .next { done pt { st with
            state := .faulted, outstanding := outstanding, cur := none, ready := []
            waitedPort := none, stopPart := none } with
          pool := gives ((st.cur.map CurrentPage.page).toList ++ st.ready.map ReadyPage.page ++
            [page])
          host := answered (s.host.raise (.streamFault fault)) st.stopPart .faulted fault.bytes })

/-- READ_DATA (R135, R129): the payload read stands in the entry's page and no other byte of the
buffer memory changes; where the data check does not agree the entry is kept for two more
revolutions. A host read that agrees, or fails for the third time, is answered OK or DATA_CHECK with
its place, the header flags, the trailer and the payload, and the page is released (R142). A replay
stream's read (said for an exhausted cursor): in PRIMING or RUNNING its play-queue entry is marked
READ or FAILED (R95), and at the judgement head it is judged (R96, R97): accepted, with the gaps
counter one higher where it lies ahead, or discarded, its page released, as foreign, stale or
unreadable; then the priming test is made, with STREAM_PLAYING (R98; where both cases hold the
reason is PRIME_LEVEL, the model's choice, log 40), and the test of extent end (R102). Behind a
PENDING entry it waits for its judgement. Under HALT a failure at the head puts the stream in
FAULTED with STREAM_FAULT, its pages given up (R106; said for no other read in flight). In FAULTED
and in DRAINING the page is released, and the last read of a drain ends the stream (R105, R107).
That a free engine's header flags are 0x00 is the model's choice (log 9). -/
def Obligations.HostReadCompletes : Prop :=
  ∀ (s : State) (payload : Vector Byte 512) (trailer : Vector Byte 12) (p : PortNo) (e : Entry)
    (page : PageNo), s.resetLow = false → s.pool.mem.Wf → s.engine.holder = some p →
    s.engine.phase = .readData → s.ports[p].activeEntry = some e → e.port = p →
    s.ports[p].state = .active → s.ports[p].detachPending = none →
    (∀ i : StreamNo, s.streams[i].waitedPort ≠ some p) → s.pool.waitList = [] →
    let pt := s.ports[p]
    let agrees : Prop := trailer.toList.drop 10 = crcBytes (payload.toList ++ trailer.toList.take 10)
    let free : Engine := { holder := none, phase := .free, flags := 0 }
    let reads (after : State → State) : Prop :=
      ∃ t, exec (.readData payload trailer) s = .next t ∧
        (∀ k : Fin 512, t.pool.mem.read (pageAddr page k.val) = payload[k]) ∧
        (∀ address, (∀ k < 512, address ≠ pageAddr page k) →
          t.pool.mem.read address = s.pool.mem.read address) ∧
        t = after { s with engine := free, pool := { s.pool with mem := t.pool.mem } }
    (e.kind.isWrite = false → e.kind.page = some page → ¬ agrees → e.dataTries < 2 →
      reads fun u => u.withPort p (Port.choose { pt with
        chosen := none
        queue := pt.queue.map fun f => if f.serial = e.serial then
          { f with dataTries := f.dataTries + 1, active := false } else f })) ∧
    (agrees ∨ 2 ≤ e.dataTries →
      (∀ tag lba, e.kind = .hostRead tag page → e.lba = some lba →
        reads fun u => { u.withPort p (pt.withCompleted e).choose with
          host := s.host.answer tag (if agrees then .ok else .dataCheck) (placeBytes p lba ++
            [s.engine.flags] ++ trailer.toList.take 10 ++ payload.toList)
          pool := u.pool.takeBack [page] }) ∧
      ∀ (i : StreamNo) (c : Settings) (before rest : List PlayEntry) (x : PlayEntry) (tr : Trailer),
        e.kind = .streamRead i page → s.streams[i].settings = some c → c.direction = .replay →
        s.streams[i].play = before ++ x :: rest → x.page = page → x.status = .pending →
        (∀ y ∈ before ++ rest, y.page ≠ page) →
        tr.bytes = trailer.toList.take 10 → tr.fill < 65536 →
        let st := s.streams[i]
        let marked : PlayEntry :=
          { x with status := if agrees then .read tr else .failed .dataCheck }
        let outstanding := st.outstanding - 1
        let done (u : State) (st : Stream) (pages : List PageNo) : State :=
          { (u.withPort p (pt.withCompleted e).choose).withStream i st with
            pool := { u.pool with
              free := s.pool.free ++ pages
              held := s.pool.held.set i (s.pool.held[i] - pages.length) } }
        let ended (st : Stream) (o : TakeEnd) : Stream := { st with
          state := .ended, outcome := some o, stopPart := none, abortPart := none
          waitedPort := none, drainReason := none }
        let figures (st : Stream) (o : TakeEnd) : FinalFigures := {
          stream := i, direction := some .replay, recTag := c.recTag, take := st.take.getD 0
          outcome := o, nextSeq := st.nextSeq.getD 0, commitMark := st.commitMark.getD 0
          counters := st.counters, skipCount := st.skips.length }
        let judges (after : Stream) (pages : List PageNo) : Prop :=
          let reason : Option PrimingReason :=
            if st.state = .running then none
            else if c.primeLevel ≤ after.acceptedCount then some .primeLevel
            else if after.play.all PlayEntry.isAccepted then some .extentsUsed
            else none
          let running : Stream :=
            if reason = none then after else { after with state := .running }
          let first : HostLine := match reason with
            | none => s.host
            | some r => s.host.raise (.streamPlaying i (st.take.getD 0) r after.acceptedCount
                (after.nextSeq.getD 0) after.counters.discarded after.counters.unreadable
                after.counters.gaps)
          if running.state = .running ∧ st.cur = none ∧ after.play = [] ∧ outstanding = 0 then
            reads fun u => { done u (ended running .extentEnd) pages with
              host := first.raise (.streamEnded (figures after .extentEnd)) }
          else reads fun u => { done u running pages with host := first }
        ((st.state = .priming ∨ st.state = .running) → st.extents = [] → st.stopPart = none →
          st.abortPart = none →
          ((∀ y ∈ before, y.isAccepted = true) → (∀ y ∈ rest, y.status = .pending) →
            let foreign : Prop := tr.recTag ≠ c.recTag ∨ tr.take ≠ st.take.getD 0 ∨ 512 < tr.fill
            let ahead := (tr.seq - st.nextSeq.getD 0).toNat
            let accepted (gaps : Nat) : Stream := { st with
              outstanding := outstanding
              play := before ++ { x with status := .accepted tr } :: rest
              nextSeq := some (tr.seq + 1), counters := { st.counters with gaps := gaps } }
            let dropped (counters : Counters) : Stream := { st with
              outstanding := outstanding, play := before ++ rest, counters := counters }
            (agrees → ¬ foreign → ahead = 0 → judges (accepted st.counters.gaps) []) ∧
            (agrees → ¬ foreign → 1 ≤ ahead → ahead < 2 ^ 31 →
              judges (accepted (min (2 ^ 32 - 1) (st.counters.gaps + 1))) []) ∧
            (agrees → foreign ∨ 2 ^ 31 ≤ ahead → judges (dropped { st.counters with
              discarded := min (2 ^ 32 - 1) (st.counters.discarded + 1) }) [page]) ∧
            (¬ agrees → c.policy = .goOn → judges (dropped { st.counters with
              unreadable := min (2 ^ 32 - 1) (st.counters.unreadable + 1) }) [page]) ∧
            (¬ agrees → c.policy = .halt → rest = [] →
              (∀ (q : PortNo) (f : Entry), f ∈ s.ports[q].queue → f.kind.stream = some i →
                q = p ∧ f.serial = e.serial) →
              let pages := (st.cur.map CurrentPage.page).toList ++ before.map PlayEntry.page ++ [page]
              reads fun u => (done u { st with
                  state := .faulted, outstanding := outstanding, cur := none, play := []
                  waitedPort := none } pages).notified (.streamFault {
                stream := i, take := st.take.getD 0, cause := .dataCheck, port := x.port
                lba := x.lba, seq := st.nextSeq.getD 0, skipCount := 0
                nextSeq := st.nextSeq.getD 0, commitMark := st.commitMark.getD 0 }))) ∧
          ∀ front y middle, before = front ++ y :: middle →
            (∀ z ∈ front, z.isAccepted = true) → y.status = .pending →
            (st.state = .running ∨ front.length < c.primeLevel) →
            reads fun u => done u { st with
              outstanding := outstanding, play := before ++ marked :: rest } []) ∧
        (st.state = .faulted → reads fun u => done u { st with
          outstanding := outstanding, play := before ++ rest } [page]) ∧
        (st.state = .draining → st.outstanding = 1 →
          let o : TakeEnd := if st.abortPart ≠ none then .aborted
            else if st.drainReason = some .endPage then .endPage else .stopped
          let bytes := (figures st o).bytes
          let stopped : HostLine := match st.stopPart with
            | some tag => s.host.answer tag (if st.abortPart = none then .ok else .aborted) bytes
            | none => s.host
          let replied : HostLine := match st.abortPart with
            | some tag => stopped.answer tag .ok bytes
            | none => stopped
          reads fun u => { done u { ended st o with outstanding := 0, play := before ++ rest } [page]
            with host := replied.raise (.streamEnded (figures st o)) }))

/-! ### Shared operations -/

/-- R26, over settings within the ranges of R9 and the accounting of R25. -/
def Obligations.PoolGrantsClaims : Prop :=
  ∀ (s : State) (i : StreamNo) (c : Settings), s.Reserved → s.streams[i].settings = some c →
    let held := s.pool.held[i]
    let first : Prop := held < c.reserve
    let second : Prop := held < c.quota ∧ s.work.reserveNeed < s.work.freeCount
    ((∃ grant, s.work.claim i = some grant) ↔ first ∨ second) ∧
    (s.work.claim i = none → held < c.quota → s.work.freeCount ≤ s.work.reserveNeed) ∧
    (held = c.quota → s.work.claim i = none)

/-- What a granted claim does (R28): the head of the free list, all of its 512 bytes 0x00 and no other
byte of the buffer memory changed, the held count one higher, and the need one lower for a claim
under the reserve. -/
def Obligations.ClaimsTakeAPage : Prop :=
  ∀ (s : State) (i : StreamNo) (page : PageNo) (w : Work), s.Reserved → s.pool.mem.Wf →
    s.work.claim i = some (page, w) →
    s.pool.free = page :: w.pool.free ∧
    w = { s.work with pool := { s.pool with
      free := w.pool.free, mem := w.pool.mem
      held := s.pool.held.set i (s.pool.held[i] + 1) } } ∧
    (∀ k < 512, w.pool.mem.read (pageAddr page k) = 0) ∧
    (∀ address, (∀ k < 512, address ≠ pageAddr page k) →
      w.pool.mem.read address = s.pool.mem.read address) ∧
    (s.pool.held[i] < s.streams[i].cfg.reserve → w.reserveNeed + 1 = s.work.reserveNeed) ∧
    (s.streams[i].cfg.reserve ≤ s.pool.held[i] → w.reserveNeed = s.work.reserveNeed)

/-- The verdicts of Table 6.1 (R96). -/
def Obligations.VerdictsFollowTheirTable : Prop :=
  ∀ (st : Stream) (e : PlayEntry),
    (∀ cause, e.status = .failed cause →
      (st.cfg.policy = .halt → st.verdict e = some (.fault cause)) ∧
      (st.cfg.policy = .goOn → st.verdict e = some .unreadable)) ∧
    (∀ t, e.status = .read t →
      let foreign : Prop := t.recTag ≠ st.cfg.recTag ∨ t.take ≠ st.take.getD 0 ∨ 512 < t.fill
      let ahead := (t.seq - st.nextSeq.getD 0).toNat
      (foreign → st.verdict e = some .foreign) ∧
      (¬ foreign → ahead = 0 → st.verdict e = some (.accepted false t)) ∧
      (¬ foreign → 1 ≤ ahead → ahead < 2 ^ 31 → st.verdict e = some (.accepted true t)) ∧
      (¬ foreign → 2 ^ 31 ≤ ahead → st.verdict e = some .stale)) ∧
    (e.status = .pending → st.verdict e = none) ∧
    (∀ t, e.status = .accepted t → st.verdict e = none)

/-- A sector taken from the cursor (R41, R44): the remaining count falls by 1 and a head used up is
retired; a fall to the low mark from above it, in an active state with the flag clear, sets the flag
and raises EXTENT_LOW once, at once or later in the step (R152; log 6). -/
def Obligations.TakingASectorTestsTheLowMark : Prop :=
  ∀ (s : State) (i : StreamNo) (e : Extent) (others : List Extent),
    s.streams[i].extents = e :: others → s.streams[i].offset < e.count →
    let st := s.streams[i]
    let used : Bool := decide (e.count = st.offset + 1)
    let moved : Stream := { st with
      extents := if used then others else e :: others
      offset := if used then 0 else st.offset + 1 }
    let crosses : Prop := st.isActive = true ∧ st.lowGiven = false ∧
      st.cfg.lowMark < st.remaining ∧ st.remaining ≤ st.cfg.lowMark + 1
    moved.remaining + 1 = st.remaining ∧
    (¬ crosses → s.work.takeSector i = (s.withStream i moved).work) ∧
    (crosses →
      let notice : Notice := .extentLow i moved.remaining st.cfg.lowMark moved.extents.length
      let after : State := { s.withStream i { moved with lowGiven := true } with
        pickCount := s.pickCount + 1 }
      s.work.takeSector i = (after.notified notice).work ∨
        s.work.takeSector i = { after.work with agenda := [.offer notice] })

/-- The check value (R158): the register starts at 0xFFFF, takes each byte into its top eight bits and
shifts eight times, with 0x1021 for a bit shifted out; a receiver that runs over the check bytes too
ends at 0. The two references are the spec's. -/
def Obligations.CheckValue : Prop :=
  let shift (r : Half) : Half := if r.getLsbD 15 then (r <<< 1) ^^^ 0x1021 else r <<< 1
  crc [] = 0xFFFF ∧
  (∀ (l : List Byte) (b : Byte), crc (l ++ [b]) =
    shift (shift (shift (shift (shift (shift (shift (shift
      (crc l ^^^ (b.zeroExtend 16 <<< 8)))))))))) ∧
  (∀ l : List Byte, crcBytes l =
    [((crc l) >>> 8).truncate 8, (crc l).truncate 8] ∧ crc (l ++ crcBytes l) = 0) ∧
  crc [0x00] = 0xE1F0 ∧
  crc [0x31, 0x32, 0x33, 0x34, 0x35, 0x36, 0x37, 0x38, 0x39] = 0x29B1
end

