-- ==== Sys2Proof/Laws/Memory.lean ====
section
/-! SUPPORT. The buffer memory: what a read gives after each operation, and that each operation
keeps the canonical form. -/

namespace Sys2Proof.Machine

/-! ### The canonical form, cell by cell -/

/-- The canonical form with every address above a bound: what an induction over the cells needs. -/
theorem Memory.wf_cons (c : Host.Cell) (m : Memory) :
    Memory.Wf (c :: m) ↔
      (∀ d ∈ m, c.1 < d.1) ∧ c.1 < 262144 ∧ c.2 ≠ 0 ∧ Memory.Wf m := by
  simp only [Memory.Wf, List.pairwise_cons, List.forall_mem_cons]
  tauto

theorem Memory.wf_nil : Memory.Wf [] := by simp [Memory.Wf]

/-- Below the first address every byte reads as an unlisted one. -/
theorem Memory.read_below (m : Memory) (a : Nat) (h : ∀ c ∈ m, a < c.1) : m.read a = 0 := by
  induction m with
  | nil => rfl
  | cons c m ih =>
    have hc := h c (by simp)
    have : c.1 ≠ a := by omega
    simp only [Memory.read, this, if_false]
    exact ih fun d hd => h d (by simp [hd])

/-! ### One byte -/

theorem Memory.mem_write {m : Memory} {a : Nat} {b : Byte} {c : Host.Cell}
    (h : c ∈ m.write a b) : c ∈ m ∨ (c = (a, b) ∧ b ≠ 0) := by
  induction m with
  | nil =>
    rw [Memory.write] at h
    split at h
    · cases h
    · exact Or.inr ⟨by simpa using h, ‹_›⟩
  | cons d m ih =>
    obtain ⟨k, v⟩ := d
    rw [Memory.write] at h
    split at h
    · split at h
      · exact Or.inl h
      · rcases List.mem_cons.1 h with h | h
        · exact Or.inr ⟨h, ‹_›⟩
        · exact Or.inl h
    · split at h
      · split at h
        · exact Or.inl (List.mem_cons_of_mem _ h)
        · rcases List.mem_cons.1 h with h | h
          · exact Or.inr ⟨h, ‹_›⟩
          · exact Or.inl (List.mem_cons_of_mem _ h)
      · rcases List.mem_cons.1 h with h | h
        · exact Or.inl (h ▸ List.mem_cons_self)
        · rcases ih h with h | h
          · exact Or.inl (List.mem_cons_of_mem _ h)
          · exact Or.inr h

/-- A write keeps the canonical form. -/
theorem Memory.wf_write {m : Memory} {a : Nat} (b : Byte) (hm : m.Wf) (ha : a < 262144) :
    (m.write a b).Wf := by
  induction m with
  | nil =>
    rw [Memory.write]
    split
    · exact Memory.wf_nil
    · exact (Memory.wf_cons _ _).2 ⟨by simp, ha, ‹_›, Memory.wf_nil⟩
  | cons d m ih =>
    obtain ⟨k, v⟩ := d
    obtain ⟨hlt, hk, hv, hm'⟩ := (Memory.wf_cons _ _).1 hm
    rw [Memory.write]
    split
    · split
      · exact hm
      · refine (Memory.wf_cons _ _).2 ⟨?_, ha, ‹_›, hm⟩
        intro d hd
        rcases List.mem_cons.1 hd with rfl | hd
        · assumption
        · exact lt_trans ‹a < k› (hlt d hd)
    · split
      · subst_vars
        split
        · exact hm'
        · exact (Memory.wf_cons _ _).2 ⟨hlt, hk, ‹_›, hm'⟩
      · refine (Memory.wf_cons _ _).2 ⟨?_, hk, hv, ih hm'⟩
        intro d hd
        rcases Memory.mem_write hd with hd | ⟨rfl, _⟩
        · exact hlt d hd
        · show k < a; omega

/-- The byte at an address of a nonempty memory. -/
theorem Memory.read_cons (k : Nat) (v : Byte) (m : Memory) (x : Nat) :
    Memory.read ((k, v) :: m) x = if k = x then v else m.read x := rfl

/-- A read after a write (canonical memory): the byte written there, and elsewhere what was read
before. -/
theorem Memory.read_write {m : Memory} (hm : m.Wf) (a : Nat) (b : Byte) (x : Nat) :
    (m.write a b).read x = if x = a then b else m.read x := by
  induction m with
  | nil =>
    rw [Memory.write]
    by_cases hx : x = a
    · subst hx
      split
      · simp only [if_true, ‹b = 0›]; rfl
      · simp only [Memory.read_cons, if_true]
    · rw [if_neg hx]
      split
      · rfl
      · rw [Memory.read_cons, if_neg fun e => hx e.symm]
  | cons d m ih =>
    obtain ⟨k, v⟩ := d
    obtain ⟨hlt, hk, hv, hm'⟩ := (Memory.wf_cons _ _).1 hm
    rw [Memory.write]
    split
    · have hbelow : Memory.read ((k, v) :: m) a = 0 := by
        apply Memory.read_below
        intro c hc
        rcases List.mem_cons.1 hc with rfl | hc
        · assumption
        · exact lt_trans ‹a < k› (hlt c hc)
      split
      · by_cases hx : x = a
        · rw [if_pos hx, hx, hbelow]; exact Eq.symm ‹b = 0›
        · rw [if_neg hx]
      · rw [Memory.read_cons a b]
        by_cases hx : x = a
        · rw [if_pos hx, if_pos hx.symm]
        · rw [if_neg hx, if_neg fun e => hx e.symm]
    · split
      · have hak : a = k := ‹a = k›
        rw [← hak]
        have htail : Memory.read m a = 0 := Memory.read_below m a fun c hc => hak ▸ hlt c hc
        split
        · by_cases hx : x = a
          · rw [if_pos hx, hx, htail]; exact Eq.symm ‹b = 0›
          · rw [if_neg hx, Memory.read_cons, if_neg fun e => hx e.symm]
        · rw [Memory.read_cons, Memory.read_cons]
          by_cases hx : x = a
          · rw [if_pos hx, if_pos hx.symm]
          · rw [if_neg hx, if_neg (fun e => hx e.symm), if_neg fun e => hx e.symm]
      · rw [Memory.read_cons, Memory.read_cons, ih hm']
        by_cases hx : k = x
        · have : x ≠ a := by omega
          rw [if_pos hx, if_neg this, if_pos hx]
        · rw [if_neg hx, if_neg hx]

/-! ### A whole page -/

/-- Clearing a page keeps the canonical form. -/
theorem Memory.wf_clearPage {m : Memory} (p : PageNo) (hm : m.Wf) : (m.clearPage p).Wf :=
  ⟨hm.1.filter _, fun c hc => hm.2 c (List.mem_filter.1 hc).1⟩

/-- A read after a page was cleared: 0x00 in the page, elsewhere what was read before (R28 (2)). -/
theorem Memory.read_clearPage (m : Memory) (p : PageNo) (x : Nat) :
    (m.clearPage p).read x = if pageAddr p 0 ≤ x ∧ x < pageAddr p 512 then 0 else m.read x := by
  induction m with
  | nil => simp [Memory.clearPage, Memory.read]
  | cons c m ih =>
    obtain ⟨k, v⟩ := c
    simp only [Memory.clearPage] at ih ⊢
    by_cases hk : pageAddr p 0 ≤ k ∧ k < pageAddr p 512
    · rw [List.filter_cons_of_neg (by simp [hk.1, hk.2])]
      rw [ih]
      by_cases hx : pageAddr p 0 ≤ x ∧ x < pageAddr p 512
      · simp [hx]
      · have : k ≠ x := fun e => hx (e ▸ hk)
        rw [if_neg hx, if_neg hx]
        simp [Memory.read, this]
    · rw [List.filter_cons_of_pos (by
        simp only [Bool.not_eq_eq_eq_not, Bool.not_true, Bool.and_eq_false_iff,
          decide_eq_false_iff_not]
        tauto)]
      by_cases hx : k = x
      · subst hx; simp [Memory.read, hk]
      · simp only [Memory.read, hx, if_false]
        exact ih

/-- Writing a run of bytes keeps the canonical form. -/
theorem Memory.wf_writeFrom {m : Memory} (p : PageNo) (k : Nat) (bytes : List Byte) (hm : m.Wf) :
    (m.writeFrom p k bytes).Wf := by
  induction bytes generalizing m k with
  | nil => exact hm
  | cons b bs ih =>
    rw [Memory.writeFrom]
    apply ih
    split
    · apply Memory.wf_write b hm
      have := p.isLt
      simp only [pageAddr]; omega
    · exact hm

/-- Placing a page's bytes keeps the canonical form. -/
theorem Memory.wf_writePage {m : Memory} (p : PageNo) (bytes : List Byte) (hm : m.Wf) :
    (m.writePage p bytes).Wf :=
  Memory.wf_writeFrom p 0 bytes (Memory.wf_clearPage p hm)

/-- A read after a run of bytes was written into a page from byte position `k` on: the byte of the run
that lies there, below position 512, and elsewhere what was read before. -/
theorem Memory.read_writeFrom {m : Memory} (p : PageNo) (k : Nat) (bytes : List Byte) (hm : m.Wf)
    (x : Nat) : (m.writeFrom p k bytes).read x =
      if pageAddr p k ≤ x ∧ x < pageAddr p 512 ∧ x < pageAddr p (k + bytes.length) then
        bytes.getD (x - pageAddr p k) 0
      else m.read x := by
  have address : ∀ j, pageAddr p j = pageAddr p 0 + j := fun j => by simp [pageAddr]
  induction bytes generalizing m k with
  | nil =>
    rw [Memory.writeFrom, if_neg]
    simp only [List.length_nil, Nat.add_zero]; omega
  | cons b bs ih =>
    have inPage : k < 512 → pageAddr p k < 262144 := by
      have := p.isLt
      simp only [pageAddr]; omega
    have here := address k
    have next := address (k + 1)
    have top := address 512
    have length : (b :: bs).length = bs.length + 1 := rfl
    have last := address (k + (b :: bs).length)
    have last' := address (k + 1 + bs.length)
    rw [Memory.writeFrom, ih]
    · by_cases first : x = pageAddr p k
      · rw [if_neg (by omega)]
        by_cases inside : k < 512
        · rw [if_pos inside, Memory.read_write hm, if_pos first, if_pos (by omega), first]
          simp
        · rw [if_neg inside, if_neg (by omega)]
      · have before : (if k < 512 then m.write (pageAddr p k) b else m).read x = m.read x := by
          split
          · rw [Memory.read_write hm, if_neg first]
          · rfl
        rw [before]
        by_cases later : pageAddr p (k + 1) ≤ x ∧ x < pageAddr p 512 ∧
            x < pageAddr p (k + 1 + bs.length)
        · rw [if_pos later, if_pos (by omega)]
          rw [show x - pageAddr p k = (x - pageAddr p (k + 1)) + 1 by omega]
          simp
        · rw [if_neg later, if_neg (by omega)]
    · split
      · exact Memory.wf_write b hm (inPage ‹_›)
      · exact hm

/-- A read after a page's bytes were placed: those bytes in the page, 0x00 behind them, and elsewhere
what was read before. -/
theorem Memory.read_writePage {m : Memory} (p : PageNo) (bytes : List Byte) (hm : m.Wf) (x : Nat) :
    (m.writePage p bytes).read x =
      if pageAddr p 0 ≤ x ∧ x < pageAddr p 512 then bytes.getD (x - pageAddr p 0) 0
      else m.read x := by
  have last : pageAddr p (0 + bytes.length) = pageAddr p 0 + bytes.length := by simp [pageAddr]
  rw [Memory.writePage, Memory.read_writeFrom p 0 bytes (Memory.wf_clearPage p hm),
    Memory.read_clearPage]
  by_cases inside : pageAddr p 0 ≤ x ∧ x < pageAddr p 512
  · rw [if_pos inside, if_pos inside]
    split
    · rfl
    · rw [List.getD_eq_getElem?_getD, List.getElem?_eq_none (by omega), Option.getD_none]
  · rw [if_neg inside, if_neg inside, if_neg (fun h => inside ⟨h.1, h.2.1⟩)]

/-- The memory after reset has the canonical form. -/
theorem Memory.wf_reset : State.reset.pool.mem.Wf := Memory.wf_nil

end Sys2Proof.Machine
end

