-- ==== Sys2Proof/Laws/State.lean ====
section
/-! SUPPORT. What each record update of the work in hand changes, field by field, so that no later
proof unfolds an update. -/

namespace Sys2Proof.Machine

/-! ### The record changed -/

@[simp] theorem Work.stream_updStream_self (w : Work) (i : StreamNo) (f : Stream → Stream) :
    (w.updStream i f).stream i = f (w.stream i) := by
  simp [Work.stream, Work.updStream]

theorem Work.stream_updStream (w : Work) (i j : StreamNo) (f : Stream → Stream) :
    (w.updStream i f).stream j = if i = j then f (w.stream j) else w.stream j := by
  by_cases h : i = j
  · subst h; simp
  · have : i.val ≠ j.val := fun e => h (Fin.ext e)
    simp [Work.stream, Work.updStream, h, this]

@[simp] theorem Work.port_updPort_self (w : Work) (p : PortNo) (f : Port → Port) :
    (w.updPort p f).port p = f (w.port p) := by
  simp [Work.port, Work.updPort]

theorem Work.port_updPort (w : Work) (p q : PortNo) (f : Port → Port) :
    (w.updPort p f).port q = if p = q then f (w.port q) else w.port q := by
  by_cases h : p = q
  · subst h; simp
  · have : p.val ≠ q.val := fun e => h (Fin.ext e)
    simp [Work.port, Work.updPort, h, this]

@[simp] theorem Work.pool_updPool (w : Work) (f : Pool → Pool) :
    (w.updPool f).pool = f w.pool := rfl

@[simp] theorem Work.host_updHost (w : Work) (f : HostLine → HostLine) :
    (w.updHost f).host = f w.host := rfl

@[simp] theorem Work.frame_updFrame (w : Work) (f : FramePort → FramePort) :
    (w.updFrame f).frame = f w.frame := rfl

@[simp] theorem Work.pool_updMem (w : Work) (f : Memory → Memory) :
    (w.updMem f).pool = { w.pool with mem := f w.pool.mem } := rfl

@[simp] theorem Work.agenda_post (w : Work) (e : Event) : (w.post e).agenda = w.agenda ++ [e] := rfl

theorem Work.postOnce_eq (w : Work) (e : Event) :
    w.postOnce e = w ∨ w.postOnce e = w.post e := by
  unfold Work.postOnce; split <;> simp

/-! ### Offers -/

/-- What an offer can do: the notice is raised at once or waits on the agenda; a choice is counted unless
one of the same block waits there already. -/
theorem Work.offer_eq (w : Work) (n : Notice) :
    (w.agenda.any (Event.follows (.offer n)) = true ∧ w.offer n = w.post (.offer n)) ∨
    (w.agenda.any (Event.follows (.offer n)) = false ∧
      (w.offer n = ({ w with pickCount := w.pickCount + 1 } : Work).raise n ∨
        w.offer n = ({ w with pickCount := w.pickCount + 1 } : Work).post (.offer n))) := by
  unfold Work.offer Work.anyBelow
  by_cases h : w.agenda.any (Event.follows (.offer n)) = true
  · simp [h]
  · simp only [h, ↓reduceIte, Bool.false_eq_true, false_and, false_or, true_and, Nat.one_ne_zero]
    split <;> simp

@[simp] theorem Work.pending_offer (w : Work) (n : Notice) : (w.offer n).pending = w.pending := by
  rcases w.offer_eq n with ⟨-, h⟩ | ⟨-, h | h⟩ <;> rw [h] <;> rfl

@[simp] theorem Work.resetLow_offer (w : Work) (n : Notice) : (w.offer n).resetLow = w.resetLow := by
  rcases w.offer_eq n with ⟨-, h⟩ | ⟨-, h | h⟩ <;> rw [h] <;> rfl

@[simp] theorem Work.streams_offer (w : Work) (n : Notice) : (w.offer n).streams = w.streams := by
  rcases w.offer_eq n with ⟨-, h⟩ | ⟨-, h | h⟩ <;> rw [h] <;> rfl

@[simp] theorem Work.pool_offer (w : Work) (n : Notice) : (w.offer n).pool = w.pool := by
  rcases w.offer_eq n with ⟨-, h⟩ | ⟨-, h | h⟩ <;> rw [h] <;> rfl

@[simp] theorem Work.frame_offer (w : Work) (n : Notice) : (w.offer n).frame = w.frame := by
  rcases w.offer_eq n with ⟨-, h⟩ | ⟨-, h | h⟩ <;> rw [h] <;> rfl

@[simp] theorem Work.ports_offer (w : Work) (n : Notice) : (w.offer n).ports = w.ports := by
  rcases w.offer_eq n with ⟨-, h⟩ | ⟨-, h | h⟩ <;> rw [h] <;> rfl

@[simp] theorem Work.engine_offer (w : Work) (n : Notice) : (w.offer n).engine = w.engine := by
  rcases w.offer_eq n with ⟨-, h⟩ | ⟨-, h | h⟩ <;> rw [h] <;> rfl

@[simp] theorem Work.serial_offer (w : Work) (n : Notice) : (w.offer n).serial = w.serial := by
  rcases w.offer_eq n with ⟨-, h⟩ | ⟨-, h | h⟩ <;> rw [h] <;> rfl

@[simp] theorem Work.stream_offer (w : Work) (n : Notice) (i : StreamNo) :
    (w.offer n).stream i = w.stream i := by simp [Work.stream]

@[simp] theorem Work.port_offer (w : Work) (n : Notice) (p : PortNo) :
    (w.offer n).port p = w.port p := by simp [Work.port]

/-! ### Everything else -/

@[simp] theorem Work.pending_updStream (w : Work) (i : StreamNo) (f : Stream → Stream) : (w.updStream i f).pending = w.pending := rfl

@[simp] theorem Work.resetLow_updStream (w : Work) (i : StreamNo) (f : Stream → Stream) : (w.updStream i f).resetLow = w.resetLow := rfl

@[simp] theorem Work.host_updStream (w : Work) (i : StreamNo) (f : Stream → Stream) : (w.updStream i f).host = w.host := rfl

@[simp] theorem Work.pool_updStream (w : Work) (i : StreamNo) (f : Stream → Stream) : (w.updStream i f).pool = w.pool := rfl

@[simp] theorem Work.frame_updStream (w : Work) (i : StreamNo) (f : Stream → Stream) : (w.updStream i f).frame = w.frame := rfl

@[simp] theorem Work.ports_updStream (w : Work) (i : StreamNo) (f : Stream → Stream) : (w.updStream i f).ports = w.ports := rfl

@[simp] theorem Work.engine_updStream (w : Work) (i : StreamNo) (f : Stream → Stream) : (w.updStream i f).engine = w.engine := rfl

@[simp] theorem Work.pickCount_updStream (w : Work) (i : StreamNo) (f : Stream → Stream) : (w.updStream i f).pickCount = w.pickCount := rfl

@[simp] theorem Work.serial_updStream (w : Work) (i : StreamNo) (f : Stream → Stream) : (w.updStream i f).serial = w.serial := rfl

@[simp] theorem Work.agenda_updStream (w : Work) (i : StreamNo) (f : Stream → Stream) : (w.updStream i f).agenda = w.agenda := rfl

@[simp] theorem Work.port_updStream (w : Work) (i : StreamNo) (f : Stream → Stream) (q : PortNo) :
    (w.updStream i f).port q = w.port q := rfl

@[simp] theorem Work.pending_updPort (w : Work) (p : PortNo) (f : Port → Port) : (w.updPort p f).pending = w.pending := rfl

@[simp] theorem Work.resetLow_updPort (w : Work) (p : PortNo) (f : Port → Port) : (w.updPort p f).resetLow = w.resetLow := rfl

@[simp] theorem Work.host_updPort (w : Work) (p : PortNo) (f : Port → Port) : (w.updPort p f).host = w.host := rfl

@[simp] theorem Work.streams_updPort (w : Work) (p : PortNo) (f : Port → Port) : (w.updPort p f).streams = w.streams := rfl

@[simp] theorem Work.pool_updPort (w : Work) (p : PortNo) (f : Port → Port) : (w.updPort p f).pool = w.pool := rfl

@[simp] theorem Work.frame_updPort (w : Work) (p : PortNo) (f : Port → Port) : (w.updPort p f).frame = w.frame := rfl

@[simp] theorem Work.engine_updPort (w : Work) (p : PortNo) (f : Port → Port) : (w.updPort p f).engine = w.engine := rfl

@[simp] theorem Work.pickCount_updPort (w : Work) (p : PortNo) (f : Port → Port) : (w.updPort p f).pickCount = w.pickCount := rfl

@[simp] theorem Work.serial_updPort (w : Work) (p : PortNo) (f : Port → Port) : (w.updPort p f).serial = w.serial := rfl

@[simp] theorem Work.agenda_updPort (w : Work) (p : PortNo) (f : Port → Port) : (w.updPort p f).agenda = w.agenda := rfl

@[simp] theorem Work.stream_updPort (w : Work) (p : PortNo) (f : Port → Port) (j : StreamNo) :
    (w.updPort p f).stream j = w.stream j := rfl

@[simp] theorem Work.pending_updPool (w : Work) (f : Pool → Pool) : (w.updPool f).pending = w.pending := rfl

@[simp] theorem Work.resetLow_updPool (w : Work) (f : Pool → Pool) : (w.updPool f).resetLow = w.resetLow := rfl

@[simp] theorem Work.host_updPool (w : Work) (f : Pool → Pool) : (w.updPool f).host = w.host := rfl

@[simp] theorem Work.streams_updPool (w : Work) (f : Pool → Pool) : (w.updPool f).streams = w.streams := rfl

@[simp] theorem Work.frame_updPool (w : Work) (f : Pool → Pool) : (w.updPool f).frame = w.frame := rfl

@[simp] theorem Work.ports_updPool (w : Work) (f : Pool → Pool) : (w.updPool f).ports = w.ports := rfl

@[simp] theorem Work.engine_updPool (w : Work) (f : Pool → Pool) : (w.updPool f).engine = w.engine := rfl

@[simp] theorem Work.pickCount_updPool (w : Work) (f : Pool → Pool) : (w.updPool f).pickCount = w.pickCount := rfl

@[simp] theorem Work.serial_updPool (w : Work) (f : Pool → Pool) : (w.updPool f).serial = w.serial := rfl

@[simp] theorem Work.agenda_updPool (w : Work) (f : Pool → Pool) : (w.updPool f).agenda = w.agenda := rfl

@[simp] theorem Work.stream_updPool (w : Work) (f : Pool → Pool) (j : StreamNo) :
    (w.updPool f).stream j = w.stream j := rfl

@[simp] theorem Work.port_updPool (w : Work) (f : Pool → Pool) (q : PortNo) :
    (w.updPool f).port q = w.port q := rfl

@[simp] theorem Work.pending_updHost (w : Work) (f : HostLine → HostLine) : (w.updHost f).pending = w.pending := rfl

@[simp] theorem Work.resetLow_updHost (w : Work) (f : HostLine → HostLine) : (w.updHost f).resetLow = w.resetLow := rfl

@[simp] theorem Work.streams_updHost (w : Work) (f : HostLine → HostLine) : (w.updHost f).streams = w.streams := rfl

@[simp] theorem Work.pool_updHost (w : Work) (f : HostLine → HostLine) : (w.updHost f).pool = w.pool := rfl

@[simp] theorem Work.frame_updHost (w : Work) (f : HostLine → HostLine) : (w.updHost f).frame = w.frame := rfl

@[simp] theorem Work.ports_updHost (w : Work) (f : HostLine → HostLine) : (w.updHost f).ports = w.ports := rfl

@[simp] theorem Work.engine_updHost (w : Work) (f : HostLine → HostLine) : (w.updHost f).engine = w.engine := rfl

@[simp] theorem Work.pickCount_updHost (w : Work) (f : HostLine → HostLine) : (w.updHost f).pickCount = w.pickCount := rfl

@[simp] theorem Work.serial_updHost (w : Work) (f : HostLine → HostLine) : (w.updHost f).serial = w.serial := rfl

@[simp] theorem Work.agenda_updHost (w : Work) (f : HostLine → HostLine) : (w.updHost f).agenda = w.agenda := rfl

@[simp] theorem Work.stream_updHost (w : Work) (f : HostLine → HostLine) (j : StreamNo) :
    (w.updHost f).stream j = w.stream j := rfl

@[simp] theorem Work.port_updHost (w : Work) (f : HostLine → HostLine) (q : PortNo) :
    (w.updHost f).port q = w.port q := rfl

@[simp] theorem Work.pending_updFrame (w : Work) (f : FramePort → FramePort) : (w.updFrame f).pending = w.pending := rfl

@[simp] theorem Work.resetLow_updFrame (w : Work) (f : FramePort → FramePort) : (w.updFrame f).resetLow = w.resetLow := rfl

@[simp] theorem Work.host_updFrame (w : Work) (f : FramePort → FramePort) : (w.updFrame f).host = w.host := rfl

@[simp] theorem Work.streams_updFrame (w : Work) (f : FramePort → FramePort) : (w.updFrame f).streams = w.streams := rfl

@[simp] theorem Work.pool_updFrame (w : Work) (f : FramePort → FramePort) : (w.updFrame f).pool = w.pool := rfl

@[simp] theorem Work.ports_updFrame (w : Work) (f : FramePort → FramePort) : (w.updFrame f).ports = w.ports := rfl

@[simp] theorem Work.engine_updFrame (w : Work) (f : FramePort → FramePort) : (w.updFrame f).engine = w.engine := rfl

@[simp] theorem Work.pickCount_updFrame (w : Work) (f : FramePort → FramePort) : (w.updFrame f).pickCount = w.pickCount := rfl

@[simp] theorem Work.serial_updFrame (w : Work) (f : FramePort → FramePort) : (w.updFrame f).serial = w.serial := rfl

@[simp] theorem Work.agenda_updFrame (w : Work) (f : FramePort → FramePort) : (w.updFrame f).agenda = w.agenda := rfl

@[simp] theorem Work.stream_updFrame (w : Work) (f : FramePort → FramePort) (j : StreamNo) :
    (w.updFrame f).stream j = w.stream j := rfl

@[simp] theorem Work.port_updFrame (w : Work) (f : FramePort → FramePort) (q : PortNo) :
    (w.updFrame f).port q = w.port q := rfl

@[simp] theorem Work.pending_updMem (w : Work) (f : Memory → Memory) : (w.updMem f).pending = w.pending := rfl

@[simp] theorem Work.resetLow_updMem (w : Work) (f : Memory → Memory) : (w.updMem f).resetLow = w.resetLow := rfl

@[simp] theorem Work.host_updMem (w : Work) (f : Memory → Memory) : (w.updMem f).host = w.host := rfl

@[simp] theorem Work.streams_updMem (w : Work) (f : Memory → Memory) : (w.updMem f).streams = w.streams := rfl

@[simp] theorem Work.frame_updMem (w : Work) (f : Memory → Memory) : (w.updMem f).frame = w.frame := rfl

@[simp] theorem Work.ports_updMem (w : Work) (f : Memory → Memory) : (w.updMem f).ports = w.ports := rfl

@[simp] theorem Work.engine_updMem (w : Work) (f : Memory → Memory) : (w.updMem f).engine = w.engine := rfl

@[simp] theorem Work.pickCount_updMem (w : Work) (f : Memory → Memory) : (w.updMem f).pickCount = w.pickCount := rfl

@[simp] theorem Work.serial_updMem (w : Work) (f : Memory → Memory) : (w.updMem f).serial = w.serial := rfl

@[simp] theorem Work.agenda_updMem (w : Work) (f : Memory → Memory) : (w.updMem f).agenda = w.agenda := rfl

@[simp] theorem Work.stream_updMem (w : Work) (f : Memory → Memory) (j : StreamNo) :
    (w.updMem f).stream j = w.stream j := rfl

@[simp] theorem Work.port_updMem (w : Work) (f : Memory → Memory) (q : PortNo) :
    (w.updMem f).port q = w.port q := rfl

@[simp] theorem Work.pending_post (w : Work) (e : Event) : (w.post e).pending = w.pending := rfl

@[simp] theorem Work.resetLow_post (w : Work) (e : Event) : (w.post e).resetLow = w.resetLow := rfl

@[simp] theorem Work.host_post (w : Work) (e : Event) : (w.post e).host = w.host := rfl

@[simp] theorem Work.streams_post (w : Work) (e : Event) : (w.post e).streams = w.streams := rfl

@[simp] theorem Work.pool_post (w : Work) (e : Event) : (w.post e).pool = w.pool := rfl

@[simp] theorem Work.frame_post (w : Work) (e : Event) : (w.post e).frame = w.frame := rfl

@[simp] theorem Work.ports_post (w : Work) (e : Event) : (w.post e).ports = w.ports := rfl

@[simp] theorem Work.engine_post (w : Work) (e : Event) : (w.post e).engine = w.engine := rfl

@[simp] theorem Work.pickCount_post (w : Work) (e : Event) : (w.post e).pickCount = w.pickCount := rfl

@[simp] theorem Work.serial_post (w : Work) (e : Event) : (w.post e).serial = w.serial := rfl

@[simp] theorem Work.stream_post (w : Work) (e : Event) (j : StreamNo) :
    (w.post e).stream j = w.stream j := rfl

@[simp] theorem Work.port_post (w : Work) (e : Event) (q : PortNo) :
    (w.post e).port q = w.port q := rfl


end Sys2Proof.Machine
end

