-- ==== Sys2Proof/Laws/Closed.lean ====
section
/-! SUPPORT. A property of the work in hand that every primitive change keeps is kept by every
shared operation, and by the taking of all messages at the end of a step. -/

-- One proof after another, so that they do not all wait at once.
set_option Elab.async false

namespace Sys2Proof.Machine

/-- A change of a stream record that keeps its ranges and settings and frees no stream. -/
structure Stream.Steady (a b : Stream) : Prop where
  bounded : a.Bounded → b.Bounded
  settings : b.settings = a.settings
  free : b.state = .free → a.state = .free

/-- Every primitive change that the streams, ports and pool make keeps the property. A change of a
stream record need only be allowed for if it is steady, a change of a port record if it keeps the
queue's length in range, a change of the memory if it keeps the canonical form. -/
structure Closed (P : Work → Prop) : Prop where
  stream : ∀ w i f, Stream.Steady (w.stream i) (f (w.stream i)) → P w → P (w.updStream i f)
  port : ∀ w p f, ((w.port p).Bounded → (f (w.port p)).Bounded) → P w → P (w.updPort p f)
  claim : ∀ w i p w', w.claim i = some (p, w') → P w → P w'
  claimHost : ∀ w p w', w.claimHost = some (p, w') → P w → P w'
  freed : ∀ (w : Work) (i : StreamNo) pages, P w → P (w.updPool fun pool =>
    { pool with
      free := pool.free ++ pages
      held := pool.held.set i (pool.held[i] - pages.length) })
  freedHost : ∀ (w : Work) (p : PageNo), P w → P (w.updPool fun pool =>
    { pool with free := pool.free ++ [p], hostCount := pool.hostCount - 1 })
  waits : ∀ (w : Work) (f : List (StreamNo × ClaimKind) → List (StreamNo × ClaimKind)), P w →
    P (w.updPool fun pool => { pool with waitList := f pool.waitList })
  mem : ∀ w f, (w.pool.mem.Wf → (f w.pool.mem).Wf) → P w → P (w.updMem f)
  raise : ∀ w n, P w → P (w.raise n)
  answer : ∀ w tag result payload, P w → P (w.answer tag result payload)
  agenda : ∀ (w : Work) l, P w → P { w with agenda := l }
  picks : ∀ (w : Work) n, P w → P { w with pickCount := n }
  serial : ∀ (w : Work) n, P w → P { w with serial := n }
  send : ∀ (w : Work) (f : Vector Byte 64 → Vector Byte 64), P w → P (w.updFrame fun fr => { fr with txSend := f fr.txSend })

variable {P : Work → Prop} {w : Work}

/-- A counter that saturates stays within its width. -/
theorem satAdd_le (top a n : Nat) : satAdd top a n ≤ top := Nat.min_le_left _ _

/-- A change of other fields than those the ranges speak of, with one counter or the commit mark
counted up at most. -/
theorem Stream.Steady.same {a b : Stream} (he : b.extents = a.extents := by rfl)
    (hk : b.skips = a.skips := by rfl) (ho : b.outstanding ≤ a.outstanding := by exact le_refl _)
    (hs : b.settings = a.settings := by rfl)
    (hf : b.state = .free → a.state = .free := by first | exact fun e => e | nofun)
    (hc : a.counters.Bounded → b.counters.Bounded := by
      first
      | exact fun c => c
      | exact fun c => ⟨⟨satAdd_le _ _ _, c.1.2⟩, c.2⟩
      | exact fun c => ⟨⟨c.1.1, satAdd_le _ _ _, c.1.2.2⟩, c.2⟩
      | exact fun c => ⟨⟨c.1.1, c.1.2.1, satAdd_le _ _ _⟩, c.2⟩
      | exact fun c => ⟨c.1, c.2.1, c.2.2.1, c.2.2.2.1, satAdd_le _ _ _⟩)
    (hm : a.markNow ≤ top32 → b.markNow ≤ top32 := by
      first
      | exact fun m => m
      | exact fun _ => satAdd_le _ _ _) :
    Stream.Steady a b :=
  ⟨fun h => ⟨he ▸ h.1, hk ▸ h.2.1, by
      have := h.2.2.1
      rw [Stream.cfg] at this ⊢
      rw [hs]
      omega, hc h.2.2.2.1, hm h.2.2.2.2⟩, hs, hf⟩

namespace Closed

/-! ### Ops -/

theorem post (h : Closed P) (e : Event) (hw : P w) : P (w.post e) := h.agenda w _ hw

theorem postOnce (h : Closed P) (e : Event) (hw : P w) : P (w.postOnce e) := by
  rcases w.postOnce_eq e with he | he <;> rw [he]
  · exact hw
  · exact h.post e hw

theorem postAll (h : Closed P) (l : List Event) (hw : P w) : P (w.postAll l) := by
  unfold Work.postAll
  induction l generalizing w with
  | nil => exact hw
  | cons e l ih => exact ih (h.postOnce e hw)

theorem posts (h : Closed P) (l : List Event) (hw : P w) : P (l.foldl Work.post w) := by
  induction l generalizing w with
  | nil => exact hw
  | cons e l ih => exact ih (h.post e hw)

theorem anyBelow (h : Closed P) (n : Nat) (hw : P w) : P (w.anyBelow n).2 := by
  unfold Work.anyBelow; split
  · exact hw
  · exact h.picks w _ hw

theorem offer (h : Closed P) (n : Notice) (hw : P w) : P (w.offer n) := by
  unfold Work.offer
  split
  · exact h.post _ hw
  · dsimp only
    split
    · exact h.raise _ _ (h.anyBelow 1 hw)
    · exact h.post _ (h.anyBelow 1 hw)

theorem answerOpt (h : Closed P) (tag : Option Byte) (r : Result) (pl : List Byte) (hw : P w) :
    P (w.answerOpt tag r pl) := by
  cases tag with
  | none => exact hw
  | some t => exact h.answer w t r pl hw

/-- A fold of operations that each keep the property. -/
theorem fold {α : Type} {f : Work → α → Work} (hf : ∀ w a, P w → P (f w a)) (l : List α)
    (hw : P w) : P (l.foldl f w) := by
  induction l generalizing w with
  | nil => exact hw
  | cons a l ih => exact ih (hf w a hw)

/-! ### Pool -/

theorem signal (h : Closed P) (hw : P w) : P w.signal := by
  exact h.postAll _ hw

theorem release (h : Closed P) (i : StreamNo) (pages : List PageNo) (hw : P w) :
    P (w.release i pages) := by
  unfold Work.release; split
  · exact hw
  · exact h.signal (h.freed w i pages hw)

theorem releaseHost (h : Closed P) (p : PageNo) (hw : P w) : P (w.releaseHost p) :=
  h.signal (h.freedHost w p hw)

theorem enterWait (h : Closed P) (i : StreamNo) (k : ClaimKind) (hw : P w) :
    P (w.enterWait i k) := by
  unfold Work.enterWait; split
  · exact hw
  · exact h.waits w (fun l => l ++ [(i, k)]) hw

theorem leaveWait (h : Closed P) (i : StreamNo) (hw : P w) : P (w.leaveWait i) :=
  h.waits w (fun l => l.filter (·.1 != i)) hw

/-! ### Extents -/

end Closed

theorem Stream.advanceCursor_steady (st : Stream) : Stream.Steady st st.advanceCursor := by
  unfold Stream.advanceCursor
  split
  · exact Stream.Steady.same
  · rename_i hd
    split
    · refine ⟨fun b => ⟨?_, b.2⟩, rfl, fun e => e⟩
      have := b.1
      simp only [hd, List.length_cons] at this
      simp only []
      omega
    · exact Stream.Steady.same

theorem Stream.advanceCursor_settings (st : Stream) : st.advanceCursor.settings = st.settings :=
  st.advanceCursor_steady.settings

namespace Closed

theorem takeSector (h : Closed P) (i : StreamNo) (hw : P w) : P (w.takeSector i) := by
  unfold Work.takeSector
  dsimp only
  split
  · refine h.offer _ (h.stream w i _ ?_ hw)
    have a := Stream.advanceCursor_steady (w.stream i)
    exact ⟨a.bounded, a.settings, a.free⟩
  · exact h.stream w i _ (Stream.advanceCursor_steady _) hw

/-! ### Ports -/

end Closed

theorem Port.choose_queue (pt : Port) : pt.choose.queue = pt.queue := by
  unfold Port.choose
  split <;> rfl

theorem Port.compare_queue (pt : Port) (e : Entry) : (pt.compare e).queue = pt.queue := by
  unfold Port.compare
  split
  · exact pt.choose_queue
  · split <;> rfl

theorem Port.arrival_queue (pt : Port) (e : Entry) : (pt.arrival e).queue = pt.queue ++ [e] := by
  unfold Port.arrival
  dsimp only
  split
  · exact Port.choose_queue _
  · exact Port.compare_queue _ _
  · rfl

theorem Port.arrive_queue (pt : Port) (c : Nat) : (pt.arrive c).queue = pt.queue := by
  unfold Port.arrive
  exact Port.choose_queue _

theorem Port.withdraw_queue (pt : Port) (i : StreamNo) :
    (pt.withdraw i).queue = pt.queue.filter fun e => !Entry.withdrawable i e := by
  unfold Port.withdraw
  dsimp only
  split
  · exact Port.choose_queue _
  · rfl

theorem Port.chooseAgain_queue (pt : Port) : pt.chooseAgain.queue = pt.queue := by
  unfold Port.chooseAgain
  split
  · rfl
  · exact Port.choose_queue _

/-- The choice counts nothing, and its tries are the port's or start anew. -/
theorem Port.choose_bounded {pt : Port} (b : pt.Bounded) : pt.choose.Bounded := by
  unfold Port.choose
  split
  · exact b
  · refine ⟨b.1, ?_, b.2.2⟩
    show (if pt.failedTarget = some _ then pt.posTries else 0) ≤ 2
    split
    · exact b.2.1
    · exact Nat.zero_le _
  · exact b

theorem Port.compare_bounded {pt : Port} (e : Entry) (b : pt.Bounded) : (pt.compare e).Bounded := by
  unfold Port.compare
  split
  · exact Port.choose_bounded b
  · split <;> exact b

theorem Port.arrival_bounded {pt : Port} (e : Entry) (room : pt.queue.length < 12)
    (b : pt.Bounded) : (pt.arrival e).Bounded := by
  have b' : ({ pt with queue := pt.queue ++ [e] } : Port).Bounded :=
    ⟨by simp; omega, b.2⟩
  unfold Port.arrival
  dsimp only
  split
  · exact Port.choose_bounded b'
  · exact Port.compare_bounded _ b'
  · exact b'

theorem Port.arrive_bounded {pt : Port} (c : Nat) (b : pt.Bounded) : (pt.arrive c).Bounded := by
  unfold Port.arrive
  exact Port.choose_bounded ⟨b.1, Nat.zero_le _, b.2.2⟩

/-- Fewer entries in the queue, and all that is counted as it was. -/
theorem Port.Bounded.fewer {pt : Port} (b : pt.Bounded) {q : Port}
    (len : q.queue.length ≤ pt.queue.length) (tries : q.posTries ≤ pt.posTries := by exact le_refl _)
    (count : (q.completed, q.missed, q.posFaults, q.restores) =
      (pt.completed, pt.missed, pt.posFaults, pt.restores) := by rfl) : q.Bounded := by
  simp only [Prod.mk.injEq] at count
  obtain ⟨h1, h2, h3, h4⟩ := count
  exact ⟨len.trans b.1, tries.trans b.2.1, h1 ▸ b.2.2.1, h2 ▸ b.2.2.2.1, h3 ▸ b.2.2.2.2.1,
    h4 ▸ b.2.2.2.2.2⟩

theorem Port.withdraw_bounded {pt : Port} (i : StreamNo) (b : pt.Bounded) :
    (pt.withdraw i).Bounded := by
  unfold Port.withdraw
  dsimp only
  have b' := b.fewer (List.length_filter_le (fun e => !Entry.withdrawable i e) pt.queue)
    (q := { pt with queue := pt.queue.filter fun e => !Entry.withdrawable i e })
  split
  · exact Port.choose_bounded b'
  · exact b'

theorem Port.chooseAgain_bounded {pt : Port} (b : pt.Bounded) : pt.chooseAgain.Bounded := by
  unfold Port.chooseAgain
  split
  · exact b
  · exact Port.choose_bounded b

theorem Port.restore_bounded {pt : Port} (b : pt.Bounded) : pt.restore.Bounded :=
  ⟨b.1, b.2.1, b.2.2.1, b.2.2.2.1, b.2.2.2.2.1, satAdd_le _ _ _⟩

theorem Port.afterTransfer_bounded {pt : Port} (e : Entry) (b : pt.Bounded) :
    (pt.afterTransfer e).Bounded := by
  refine ⟨?_, b.2.1, satAdd_le _ _ _, b.2.2.2⟩
  unfold Port.afterTransfer
  simp only [List.length_map]
  exact (List.length_filter_le _ _).trans b.1

theorem Port.updEntry_bounded {pt : Port} (k : Nat) (f : Entry → Entry) (b : pt.Bounded) :
    (pt.updEntry k f).Bounded := by
  refine b.fewer ?_
  simp [Port.updEntry]

namespace Closed

theorem report (h : Closed P) (p : PortNo) (hw : P w) : P (w.report p) := by
  exact h.postAll _ hw

theorem deliver (h : Closed P) (p : PortNo) (l : List Event) (hw : P w) : P (w.deliver p l) := by
  exact h.posts _ (h.report p hw)

theorem pauses (h : Closed P) (i : StreamNo) (hw : P w) : P (w.pauses i).2 := by
  unfold Work.pauses
  split
  · dsimp only
    split
    · exact h.anyBelow _ hw
    · exact h.postOnce _ (h.anyBelow _ hw)
  · exact hw

theorem cutRead (h : Closed P) (p : PortNo) (e : Entry) (hw : P w) : P (w.cutRead p e) := by
  unfold Work.cutRead
  split
  · exact hw
  · split
    · exact h.picks _ _ (h.mem _ _ (fun hm => Memory.wf_writeFrom _ _ _ hm) (h.picks w _ hw))
    · exact hw

theorem portFilled (h : Closed P) (p : PortNo) (hw : P w) : P (w.portFilled p) := by
  unfold Work.portFilled
  exact fold (fun w i hw => h.stream _ _ _ Stream.Steady.same (h.leaveWait i hw)) _ hw

/-- The placing of an entry on a queue that has room, or on an OFFLINE port. -/
theorem placeEntry (h : Closed P) (p : PortNo) (e : Entry) (room : (w.port p).hasRoom = true)
    (hw : P w) : P (w.placeEntry p e) := by
  unfold Work.placeEntry
  dsimp only
  have h1 := h.serial w (w.serial + 1) hw
  split
  · exact h.deliver _ _ h1
  · have h2 := h.port _ p (fun pt => pt.arrival e) (fun _ => by
      have hr : (w.port p).queue.length < 12 := by simpa [Port.hasRoom] using room
      exact Port.arrival_bounded e hr ‹_›) h1
    split
    · exact h2
    · exact h.portFilled p h2

theorem place (h : Closed P) (p : PortNo) (k : EntryKind) (lba : Nat)
    (room : (w.port p).hasRoom = true) (hw : P w) : P (w.place p k lba) :=
  h.placeEntry p _ room hw

theorem withdraw (h : Closed P) (i : StreamNo) (hw : P w) : P (w.withdraw i) := by
  unfold Work.withdraw
  dsimp only
  have lower (v : Work) (n : Nat) (hv : P v) :
      P (v.updStream i fun st => { st with outstanding := st.outstanding - n }) :=
    h.stream v i _ (Stream.Steady.same (ho := Nat.sub_le _ _)) hv
  refine lower _ _ ?_
  refine fold (fun w p hw => ?_) _ hw
  split
  · exact h.report p (h.port _ _ _ (Port.withdraw_bounded i) hw)
  · exact hw

theorem portChange (h : Closed P) (p : PortNo) (st : PortState) (c : PortCause)
    (g : Option Geometry) (n : Nat) (hw : P w) : P (w.portChange p st c g n) := h.raise _ _ hw

/-! ### Streams -/

theorem endStream (h : Closed P) (i : StreamNo) (o : TakeEnd) (hw : P w) :
    P (w.endStream i o) := by
  unfold Work.endStream
  exact h.raise _ _ (h.answerOpt _ _ _ (h.answerOpt _ _ _ (h.leaveWait i
    (h.stream _ _ _ Stream.Steady.same hw))))

/-! ### Capture -/

theorem wantSector (h : Closed P) (i : StreamNo) (hw : P w) : P (w.wantSector i) := by
  unfold Work.wantSector
  dsimp only
  have h1 (f) (hf : Stream.Steady (w.stream i) (f (w.stream i))) := h.stream w i f hf hw
  split
  · rename_i hs
    have hf : (if (w.stream i).state = .running then StreamState.hold else (w.stream i).state) =
        .free → (w.stream i).state = .free := by
      split
      · exact nofun
      · exact fun e => e
    split
    · exact h1 _ (Stream.Steady.same (hf := hf))
    · exact h.raise _ _ (h1 _ (Stream.Steady.same (hf := hf)))
  · exact hw

theorem takeSector_port (w : Work) (i : StreamNo) (p : PortNo) :
    (w.takeSector i).port p = w.port p := by
  unfold Work.takeSector
  dsimp only
  split
  · rw [Work.port_offer]; rfl
  · rfl

theorem placeWrite (h : Closed P) (i : StreamNo) (sec : PortNo × Nat × Bool) (pg : PageNo)
    (t : Trailer) (room : (w.port sec.1).hasRoom = true) (hw : P w) :
    P (w.placeWrite i sec pg t) :=
  h.place _ _ _ (by rw [takeSector_port]; exact room) (h.takeSector i hw)

theorem issueHead (h : Closed P) (i : StreamNo) (sec : PortNo × Nat × Bool)
    (room : (w.port sec.1).hasRoom = true) (depth : (w.stream i).outstanding < (w.stream i).cfg.depth)
    (hw : P w) : P (w.issueHead i sec) := by
  unfold Work.issueHead
  split
  · exact hw
  · exact h.placeWrite _ _ _ _ room
      (h.stream _ _ _ ⟨fun b => ⟨b.1, b.2.1, Nat.succ_le_of_lt depth, b.2.2.2⟩, rfl, fun e => e⟩ hw)

theorem captureIssue (h : Closed P) (i : StreamNo) (n : Nat) (hw : P w) :
    P (Work.captureIssue i n w) := by
  induction n generalizing w with
  | zero => exact hw
  | succ n ih =>
    rw [Work.captureIssue]
    split
    · rename_i hwant
      have depth : (w.stream i).outstanding < (w.stream i).cfg.depth := by
        simp only [Stream.wantsSector, Bool.and_eq_true, decide_eq_true_eq] at hwant
        exact hwant.2
      split
      · exact h.wantSector i hw
      · split
        · have h1 := h.pauses i (h.issueHead i _ ‹_› depth hw)
          dsimp only
          split
          · exact h1
          · exact ih h1
        · exact h.stream _ _ _ Stream.Steady.same hw
    · exact hw

theorem captureEndTest (h : Closed P) (i : StreamNo) (hw : P w) : P (w.captureEndTest i) := by
  unfold Work.captureEndTest
  dsimp only
  split
  · exact h.endStream _ _ hw
  · exact hw

theorem captureTest (h : Closed P) (i : StreamNo) (hw : P w) : P (w.captureTest i) :=
  h.captureEndTest i (h.captureIssue i _ hw)

theorem loseBytes (h : Closed P) (i : StreamNo) (n : Nat) (hw : P w) : P (w.loseBytes i n) := by
  unfold Work.loseBytes
  dsimp only
  have h1 (f) (hf : Stream.Steady (w.stream i) (f (w.stream i))) := h.stream w i f hf hw
  split
  · exact h1 _ Stream.Steady.same
  · exact h.raise _ _ (h1 _ Stream.Steady.same)

theorem placeByte (h : Closed P) (i : StreamNo) (c : CurrentPage) (b : Byte) (hw : P w) :
    P (w.placeByte i c b) := by
  unfold Work.placeByte
  dsimp only
  have h1 := h.mem w (fun m => m.writeFrom c.page c.pos [b])
    (fun hm => Memory.wf_writeFrom _ _ _ hm) hw
  split
  · exact h.stream _ _ _ Stream.Steady.same h1
  · exact h.captureTest i (h.stream _ _ _ Stream.Steady.same h1)

theorem placeBytes (h : Closed P) (i : StreamNo) (bs : List Byte) (hw : P w) :
    P (Work.placeBytes i bs w) := by
  induction bs generalizing w with
  | nil => exact hw
  | cons b bs ih =>
    rw [Work.placeBytes]
    split
    · exact ih (h.placeByte i _ b hw)
    · split
      · exact h.loseBytes i _ hw
      · exact ih (h.placeByte i _ b (h.stream _ _ _ Stream.Steady.same (h.claim _ _ _ _ ‹_› hw)))

theorem arrive (h : Closed P) (i : StreamNo) (bs : List Byte) (hw : P w) : P (w.arrive i bs) := by
  unfold Work.arrive
  split
  · exact h.placeBytes i bs (h.stream _ _ _ Stream.Steady.same hw)
  · exact hw

theorem advanceCommit (h : Closed P) (i : StreamNo) (hw : P w) : P (w.advanceCommit i) := by
  unfold Work.advanceCommit
  exact h.stream _ _ _ Stream.Steady.same hw

theorem captureGiveUp (h : Closed P) (i : StreamNo) (more : List PageNo) (hw : P w) :
    P (w.captureGiveUp i more) :=
  h.release _ _ (h.leaveWait _ (h.withdraw _ (h.stream _ _ _ Stream.Steady.same hw)))

theorem captureFault (h : Closed P) (i : StreamNo) (pg : PageNo) (seq : Seq) (p : PortNo)
    (lba : Nat) (c : Result) (hw : P w) : P (w.captureFault i pg seq p lba c) := by
  unfold Work.captureFault
  dsimp only
  refine h.answerOpt _ _ _ (h.stream _ _ _ Stream.Steady.same (h.raise _ _ (h.stream _ _ _ Stream.Steady.same
    (h.captureGiveUp _ _ (h.stream _ _ _ (Stream.Steady.same (ho := Nat.sub_le _ _)) hw)))))

theorem returnPage (h : Closed P) (i : StreamNo) (pg : ReadyPage) (p : Option PortNo) (hw : P w) :
    P (w.returnPage i pg p) :=
  h.stream _ _ _ (Stream.Steady.same (ho := Nat.sub_le _ _)) hw

theorem slip (h : Closed P) (i : StreamNo) (pg : PageNo) (t : Trailer) (p : PortNo) (lba : Nat)
    (c : Result) (fits : (w.stream i).skips.length < 8) (hw : P w) : P (w.slip i pg t p lba c) := by
  unfold Work.slip
  dsimp only
  have h1 := h.stream w i (fun st =>
      { st.count (fun c => { c with slips := satAdd top32 c.slips 1 }) with
        skips := st.skips ++ [⟨p, lba, c⟩] })
    ⟨fun b => ⟨b.1, by simpa using fits, b.2.2.1,
      ⟨b.2.2.2.1.1, satAdd_le _ _ _, b.2.2.2.1.2.2⟩, b.2.2.2.2⟩, rfl, fun e => e⟩ hw
  split
  · exact h.raise _ _ (h.wantSector _ (h.returnPage _ _ _ h1))
  · split
    · exact h.raise _ _ (h.placeWrite _ _ _ _ ‹_› h1)
    · exact h.raise _ _ (h.returnPage _ _ _ h1)

theorem finishWrite (h : Closed P) (i : StreamNo) (pg : PageNo) (hw : P w) :
    P (w.finishWrite i pg) :=
  h.stream _ _ _ (Stream.Steady.same (ho := Nat.sub_le _ _)) (h.release _ _ hw)

theorem abortEndTest (h : Closed P) (i : StreamNo) (hw : P w) : P (w.abortEndTest i) := by
  unfold Work.abortEndTest
  dsimp only
  split
  · exact h.endStream _ _ hw
  · exact hw

theorem captureResult (h : Closed P) (i : StreamNo) (pg : PageNo) (t : Trailer) (p : PortNo)
    (lba : Nat) (r : Result) (hw : P w) : P (w.captureResult i pg t p lba r) := by
  unfold Work.captureResult
  dsimp only
  split
  · exact h.finishWrite _ _ hw
  · split
    · exact h.abortEndTest _ (h.stream _ _ _ Stream.Steady.same (h.finishWrite _ _ hw))
    · split
      · exact h.captureTest _ (h.stream _ _ _ Stream.Steady.same
          (h.advanceCommit _ (h.finishWrite _ _ hw)))
      · split
        · exact h.captureFault _ _ _ _ _ _ hw
        · rename_i hn
          exact h.slip _ _ _ _ _ _ (by simp only [not_or, not_le] at hn; exact hn.2) hw

theorem makeEndPage (h : Closed P) (i : StreamNo) (pg : PageNo) (n : Nat) (hw : P w) :
    P (w.makeEndPage i pg n) := h.stream _ _ _ Stream.Steady.same hw

theorem claimEndPage (h : Closed P) (i : StreamNo) (hw : P w) : P (w.claimEndPage i) := by
  unfold Work.claimEndPage
  split
  · exact h.makeEndPage _ _ _ (h.stream _ _ _ Stream.Steady.same (h.leaveWait _ (h.claim _ _ _ _ ‹_› hw)))
  · exact h.enterWait _ _ (h.stream _ _ _ Stream.Steady.same hw)

theorem captureStop (h : Closed P) (i : StreamNo) (hw : P w) : P (w.captureStop i) := by
  unfold Work.captureStop
  dsimp only
  refine h.captureTest _ (h.stream _ _ _ (Stream.Steady.same (hf := ?_)) ?_)
  · intro e
    dsimp only at e
    split_ifs at e
    exact e
  · split
    · exact h.makeEndPage _ _ _ hw
    · exact h.claimEndPage _ hw

theorem renewEndPage (h : Closed P) (i : StreamNo) (hw : P w) : P (w.renewEndPage i) :=
  h.captureTest _ (h.claimEndPage _ hw)

theorem captureExtent (h : Closed P) (i : StreamNo) (hw : P w) : P (w.captureExtent i) := by
  unfold Work.captureExtent
  refine h.captureTest _ (h.stream _ _ _ (Stream.Steady.same (hf := ?_)) hw)
  dsimp only
  split
  · split <;> exact nofun
  · exact fun e => e

/-! ### Replay -/

theorem replayGiveUp (h : Closed P) (i : StreamNo) (hw : P w) : P (w.replayGiveUp i) :=
  h.release _ _ (h.leaveWait _ (h.withdraw _ (h.stream _ _ _ Stream.Steady.same hw)))

theorem drainOrEnd (h : Closed P) (i : StreamNo) (r : DrainReason) (o : TakeEnd) (hw : P w) :
    P (w.drainOrEnd i r o) := by
  unfold Work.drainOrEnd
  split
  · exact h.endStream _ _ hw
  · exact h.stream _ _ _ Stream.Steady.same hw

theorem extentEndTest (h : Closed P) (i : StreamNo) (hw : P w) : P (w.extentEndTest i) := by
  unfold Work.extentEndTest
  split
  · exact h.endStream _ _ hw
  · exact hw

theorem primingTest (h : Closed P) (i : StreamNo) (hw : P w) : P (w.primingTest i) := by
  unfold Work.primingTest
  split
  · exact hw
  · exact h.extentEndTest _ (h.raise _ _ (h.stream _ _ _ Stream.Steady.same hw))

theorem claim_port {i : StreamNo} {pg : PageNo} {w' : Work} (hc : w.claim i = some (pg, w'))
    (p : PortNo) : w'.port p = w.port p := by
  unfold Work.claim at hc
  split at hc
  · cases hc
  · split at hc <;> cases hc
    rfl

theorem claim_stream {i : StreamNo} {pg : PageNo} {w' : Work} (hc : w.claim i = some (pg, w'))
    (j : StreamNo) : w'.stream j = w.stream j := by
  unfold Work.claim at hc
  split at hc
  · cases hc
  · split at hc <;> cases hc
    rfl

theorem issueRead (h : Closed P) (i : StreamNo) (sec : PortNo × Nat × Bool) (pg : PageNo)
    (room : (w.port sec.1).hasRoom = true)
    (depth : (w.stream i).outstanding < (w.stream i).cfg.depth) (hw : P w) :
    P (w.issueRead i sec pg) := by
  unfold Work.issueRead
  dsimp only
  refine h.place _ _ _ ?_ (h.takeSector _ (h.leaveWait _ (h.stream _ _ _ ?_ hw)))
  · rw [takeSector_port]; exact room
  · exact ⟨fun b => ⟨b.1, b.2.1, Nat.succ_le_of_lt depth, b.2.2.2⟩, rfl, fun e => e⟩

theorem replayIssue (h : Closed P) (i : StreamNo) (n : Nat) (hw : P w) :
    P (Work.replayIssue i n w) := by
  induction n generalizing w with
  | zero => exact hw
  | succ n ih =>
    rw [Work.replayIssue]
    split
    · rename_i hmay
      have depth : (w.stream i).outstanding < (w.stream i).cfg.depth := by
        simp only [Stream.mayRead, Bool.and_eq_true, decide_eq_true_eq] at hmay
        exact hmay.1.2
      split
      · exact hw
      · split
        · split
          · split
            · exact h.enterWait _ _ hw
            · rename_i page _ hc
              have h1 := h.pauses i (h.issueRead i _ page (by rw [claim_port hc]; assumption)
                (by rw [claim_stream hc]; exact depth) (h.claim _ _ _ _ hc hw))
              dsimp only
              split
              · exact h1
              · exact ih h1
          · exact h.stream _ _ _ Stream.Steady.same (h.leaveWait _ hw)
        · exact hw
    · exact h.leaveWait _ hw

theorem replayTest (h : Closed P) (i : StreamNo) (hw : P w) : P (w.replayTest i) := by
  unfold Work.replayTest
  dsimp only
  have h1 := h.replayIssue i ((w.stream i).cfg.depth + 1) hw
  split
  · exact h.primingTest _ h1
  · exact h1

theorem replayNext (h : Closed P) (i : StreamNo) (hw : P w) : P (w.replayNext i) := by
  unfold Work.replayNext
  dsimp only
  have h1 := h.pauses i hw
  split
  · exact h1
  · exact h.replayTest _ h1

theorem replayFault (h : Closed P) (i : StreamNo) (e : PlayEntry) (c : Result) (hw : P w) :
    P (w.replayFault i e c) :=
  h.raise _ _ (h.replayGiveUp _ (h.stream _ _ _ Stream.Steady.same hw))

theorem discard (h : Closed P) (i : StreamNo) (front rest : List PlayEntry) (e : PlayEntry)
    (f : Counters → Counters) (hf : ∀ c : Counters, c.Bounded → (f c).Bounded) (hw : P w) :
    P (w.discard i front rest e f) :=
  h.release _ _ (h.stream _ _ _ (Stream.Steady.same (hc := hf _)) hw)

theorem judgeEntry (h : Closed P) (i : StreamNo) (front rest : List PlayEntry) (e : PlayEntry)
    (v : Verdict) (hw : P w) : P (w.judgeEntry i front rest e v) := by
  cases v with
  | fault c => exact h.replayFault _ _ _ hw
  | unreadable =>
    exact h.discard _ _ _ _ _
      (fun c b => ⟨b.1, b.2.1, b.2.2.1, satAdd_le _ _ _, b.2.2.2.2⟩) hw
  | foreign | stale =>
    exact h.discard _ _ _ _ _
      (fun c b => ⟨b.1, b.2.1, satAdd_le _ _ _, b.2.2.2⟩) hw
  | accepted gap t =>
    unfold Work.judgeEntry
    exact h.stream _ _ _ Stream.Steady.same hw

theorem judge (h : Closed P) (i : StreamNo) (n : Nat) (hw : P w) : P (Work.judge i n w) := by
  induction n generalizing w with
  | zero => exact hw
  | succ n ih =>
    rw [Work.judge]
    split
    · dsimp only
      split
      · exact hw
      · split
        · exact hw
        · exact ih (h.primingTest _ (h.judgeEntry _ _ _ _ _ hw))
    · exact hw

theorem readDone (h : Closed P) (i : StreamNo) (pg : PageNo) (d : Completion) (hw : P w) :
    P (w.readDone i pg d) := by
  unfold Work.readDone
  dsimp only
  refine h.replayNext _ (h.extentEndTest _ (h.primingTest _ (h.judge _ _
    (h.stream _ _ _ (Stream.Steady.same (ho := Nat.sub_le _ _)) hw))))

theorem drainEndTest (h : Closed P) (i : StreamNo) (hw : P w) : P (w.drainEndTest i) := by
  unfold Work.drainEndTest
  dsimp only
  split
  · split
    · exact h.endStream _ _ hw
    · split <;> exact h.endStream _ _ hw
  · exact hw

theorem readDropped (h : Closed P) (i : StreamNo) (pg : PageNo) (hw : P w) :
    P (w.readDropped i pg) := by
  unfold Work.readDropped
  exact h.drainEndTest _ (h.finishWrite _ _ (h.stream _ _ _ Stream.Steady.same hw))

theorem replayResult (h : Closed P) (i : StreamNo) (pg : PageNo) (d : Completion) (hw : P w) :
    P (w.replayResult i pg d) := by
  unfold Work.replayResult
  split
  · exact h.readDone _ _ _ hw
  · exact h.readDropped _ _ hw

theorem closeReplay (h : Closed P) (i : StreamNo) (c : CurrentPage) (hw : P w) :
    P (w.closeReplay i c) :=
  h.drainOrEnd _ _ _ (h.replayGiveUp _ (h.stream _ _ _ Stream.Steady.same hw))

theorem idleRest (h : Closed P) (i : StreamNo) (left : Nat) (hw : P w) : P (w.idleRest i left) :=
  h.stream _ _ _ Stream.Steady.same hw

theorem usedUp (h : Closed P) (i : StreamNo) (c : CurrentPage) (left : Nat) (hw : P w) :
    P (w.usedUp i c left) := by
  unfold Work.usedUp
  dsimp only
  have h1 := h.release i [c.page] (h.stream w i (fun st =>
    { st with cur := none, commitMark := some (satAdd top32 st.markNow 1) }) Stream.Steady.same hw)
  split
  · exact h.closeReplay _ _ (h.idleRest _ _ h1)
  · split
    · exact h.endStream _ _ (h.idleRest _ _ h1)
    · exact h.replayNext _ h1

theorem underrunByte (h : Closed P) (i : StreamNo) (hw : P w) : P (w.underrunByte i) := by
  unfold Work.underrunByte
  dsimp only
  have h1 (f) (hf : Stream.Steady (w.stream i) (f (w.stream i))) := h.stream w i f hf hw
  split
  · exact h1 _ Stream.Steady.same
  · exact h.raise _ _ (h1 _ Stream.Steady.same)

end Closed

theorem Stream.nextDrainPage_steady (st : Stream) : Stream.Steady st st.nextDrainPage := by
  unfold Stream.nextDrainPage
  split
  · split <;> exact Stream.Steady.same
  · exact Stream.Steady.same

namespace Closed

theorem supplyByte (h : Closed P) (i : StreamNo) (left : Nat) (hw : P w) :
    P (w.supplyByte i left).2 := by
  unfold Work.supplyByte
  dsimp only
  split
  · have h1 := h.stream w i Stream.nextDrainPage (Stream.nextDrainPage_steady _) hw
    split
    · exact h.underrunByte _ h1
    · split
      · have h2 (f) (hf) := h.stream (w.updStream i Stream.nextDrainPage) i f hf h1
        dsimp only
        split
        · exact h.usedUp _ _ _ (h2 _ Stream.Steady.same)
        · exact h2 _ Stream.Steady.same
      · exact h.usedUp i _ _ h1
  · exact hw

theorem supplyBytes (h : Closed P) (i : StreamNo) (n : Nat) (hw : P w) :
    P (Work.supplyBytes i n w).2 := by
  induction n generalizing w with
  | zero => exact hw
  | succ n ih => exact ih (h.supplyByte i n hw)

theorem supply (h : Closed P) (i : StreamNo) (n : Nat) (hw : P w) : P (w.supply i n).2 := by
  unfold Work.supply
  split
  · exact h.supplyBytes _ _ hw
  · exact hw

theorem replayStop (h : Closed P) (i : StreamNo) (hw : P w) : P (w.replayStop i) :=
  h.drainOrEnd _ _ _ (h.replayGiveUp _ hw)

theorem replayExtent (h : Closed P) (i : StreamNo) (hw : P w) : P (w.replayExtent i) := by
  unfold Work.replayExtent
  split
  · exact h.replayTest _ hw
  · exact hw

/-! ### The end of a step -/

theorem hostResult (h : Closed P) (e : Entry) (d : Completion) (hw : P w) :
    P (w.hostResult e d) := by
  unfold Work.hostResult
  dsimp only
  split
  · exact h.releaseHost _ (h.answer _ _ _ _ hw)
  · exact h.releaseHost _ (h.answer _ _ _ _ hw)
  · exact h.answer _ _ _ _ hw
  · exact hw

theorem takeResult (h : Closed P) (e : Entry) (d : Completion) (hw : P w) :
    P (w.takeResult e d) := by
  unfold Work.takeResult
  split
  · exact h.captureResult _ _ _ _ _ _ hw
  · exact h.replayResult _ _ _ hw
  · exact h.hostResult _ _ hw

theorem issueTest (h : Closed P) (i : StreamNo) (hw : P w) : P (w.issueTest i) := by
  unfold Work.issueTest
  split
  · exact h.captureTest _ hw
  · exact h.replayTest _ hw

theorem renew (h : Closed P) (c : StreamNo × ClaimKind) (hw : P w) : P (w.renew c) := by
  unfold Work.renew
  split
  · split
    · exact h.renewEndPage _ hw
    · exact h.replayTest _ hw
  · exact hw

theorem finishDetach (h : Closed P) (p : PortNo) (hw : P w) : P (w.finishDetach p) :=
  h.answerOpt _ _ _ (h.port _ _ _ (fun b => b) hw)

theorem takeRoom (h : Closed P) (p : PortNo) (i : StreamNo) (hw : P w) : P (w.takeRoom p i) := by
  unfold Work.takeRoom
  split
  · exact h.issueTest _ hw
  · exact hw

theorem exchange (h : Closed P) (i : StreamNo) (hw : P w) : P (w.exchange i) := by
  unfold Work.exchange
  dsimp only
  split
  · exact h.arrive _ _ hw
  · exact h.send _ (fun v => fillSlots _ _ v) (h.supply _ _ hw)

theorem nextEvent (h : Closed P) {e : Event} {v : Work} (he : w.nextEvent = some (e, v))
    (hw : P w) : P v := by
  unfold Work.nextEvent at he
  split at he
  · cases he
  · cases he
    exact h.agenda _ _ (h.anyBelow _ hw)

theorem handle (h : Closed P) (e : Event) (hw : P w) : P (w.handle e) := by
  cases e with
  | result e d => exact h.takeResult _ _ hw
  | room p i => exact h.takeRoom _ _ hw
  | renew c => exact h.renew _ hw
  | test i => exact h.issueTest _ hw
  | exchange i => exact h.exchange _ hw
  | offer n => exact h.raise _ _ hw
  | detached p => exact h.finishDetach _ hw

theorem drain (h : Closed P) (n : Nat) (hw : P w) : P (Work.drain n w) := by
  induction n generalizing w with
  | zero => exact hw
  | succ n ih =>
    rw [Work.drain]
    split
    · exact hw
    · exact ih (h.handle _ (h.nextEvent ‹_› hw))

/-- What the primitive changes keep, the taking of every message keeps. -/
theorem settle (h : Closed P) (hw : P w) : P w.settle := h.drain _ hw

end Closed

end Sys2Proof.Machine
end

