-- ==== Sys2Proof/Laws/HostLine.lean ====
section
/-! SUPPORT. The host line's queues: what each operation on them does, that each keeps their
capacities, and that each leaves the transmitter with its choice made. -/

namespace Sys2Proof.Machine

/-! ### The transmitter's choice -/

/-- The choice changes the transmitter and, for a notice, the missed count; nothing else. -/
theorem HostLine.choose_cases (h : HostLine) :
    h.choose = h ∨
      (h.tx = .idle ∧ h.replies ≠ [] ∧ h.choose = { h with tx := .reply }) ∨
      (h.tx = .idle ∧ h.replies = [] ∧ h.rejections ≠ [] ∧
        h.choose = { h with tx := .rejection }) ∨
      (h.tx = .idle ∧ h.replies = [] ∧ h.rejections = [] ∧ h.notices ≠ [] ∧
        h.noticeHold = false ∧ h.choose = { h with tx := .notice h.missed, missed := 0 }) := by
  unfold HostLine.choose
  split
  · split
    · exact .inr (.inl ⟨‹_›, ‹_›, rfl⟩)
    · split
      · exact .inr (.inr (.inl ⟨‹_›, by simpa using ‹¬h.replies ≠ []›, ‹_›, rfl⟩))
      · split
        · rename_i h1 h2 h3
          exact .inr (.inr (.inr ⟨‹_›, by simpa using h1, by simpa using h2, h3.1, h3.2, rfl⟩))
        · exact .inl rfl
  · exact .inl rfl

/-- A transmitter that is sending does not choose. -/
theorem HostLine.choose_busy {h : HostLine} (busy : h.tx ≠ .idle) : h.choose = h := by
  unfold HostLine.choose
  split
  · exact absurd ‹_› busy
  · rfl

/-- With a reply waiting an idle line begins the oldest reply (R151 (1)). -/
theorem HostLine.choose_reply {h : HostLine} (hr : h.replies ≠ []) :
    h.choose = { h with tx := if h.tx = .idle then .reply else h.tx } := by
  by_cases hi : h.tx = .idle
  · unfold HostLine.choose
    simp [hi, hr]
  · rw [HostLine.choose_busy hi]
    simp [hi]

/-- The choice is made: choosing again changes nothing. -/
theorem HostLine.choose_served (h : HostLine) : h.choose.Served := by
  unfold HostLine.Served
  rcases h.choose_cases with e | ⟨_, _, e⟩ | ⟨_, _, _, e⟩ | ⟨_, _, _, _, _, e⟩
  · rw [e, e]
  all_goals rw [e]; exact HostLine.choose_busy (by simp)

@[simp] theorem HostLine.choose_slots (h : HostLine) : h.choose.slots = h.slots := by
  rcases h.choose_cases with e | ⟨_, _, e⟩ | ⟨_, _, _, e⟩ | ⟨_, _, _, _, _, e⟩ <;> rw [e]

@[simp] theorem HostLine.choose_replies (h : HostLine) : h.choose.replies = h.replies := by
  rcases h.choose_cases with e | ⟨_, _, e⟩ | ⟨_, _, _, e⟩ | ⟨_, _, _, _, _, e⟩ <;> rw [e]

@[simp] theorem HostLine.choose_rejections (h : HostLine) :
    h.choose.rejections = h.rejections := by
  rcases h.choose_cases with e | ⟨_, _, e⟩ | ⟨_, _, _, e⟩ | ⟨_, _, _, _, _, e⟩ <;> rw [e]

@[simp] theorem HostLine.choose_notices (h : HostLine) : h.choose.notices = h.notices := by
  rcases h.choose_cases with e | ⟨_, _, e⟩ | ⟨_, _, _, e⟩ | ⟨_, _, _, _, _, e⟩ <;> rw [e]

@[simp] theorem HostLine.choose_noticeNumber (h : HostLine) :
    h.choose.noticeNumber = h.noticeNumber := by
  rcases h.choose_cases with e | ⟨_, _, e⟩ | ⟨_, _, _, e⟩ | ⟨_, _, _, _, _, e⟩ <;> rw [e]

@[simp] theorem HostLine.choose_lineFaults (h : HostLine) : h.choose.lineFaults = h.lineFaults := by
  rcases h.choose_cases with e | ⟨_, _, e⟩ | ⟨_, _, _, e⟩ | ⟨_, _, _, _, _, e⟩ <;> rw [e]

@[simp] theorem HostLine.choose_rx (h : HostLine) : h.choose.rx = h.rx := by
  rcases h.choose_cases with e | ⟨_, _, e⟩ | ⟨_, _, _, e⟩ | ⟨_, _, _, _, _, e⟩ <;> rw [e]

@[simp] theorem HostLine.choose_noticeHold (h : HostLine) : h.choose.noticeHold = h.noticeHold := by
  rcases h.choose_cases with e | ⟨_, _, e⟩ | ⟨_, _, _, e⟩ | ⟨_, _, _, _, _, e⟩ <;> rw [e]

@[simp] theorem HostLine.choose_resetPending (h : HostLine) :
    h.choose.resetPending = h.resetPending := by
  rcases h.choose_cases with e | ⟨_, _, e⟩ | ⟨_, _, _, e⟩ | ⟨_, _, _, _, _, e⟩ <;> rw [e]

@[simp] theorem HostLine.choose_lineSpeed (h : HostLine) : h.choose.lineSpeed = h.lineSpeed := by
  rcases h.choose_cases with e | ⟨_, _, e⟩ | ⟨_, _, _, e⟩ | ⟨_, _, _, _, _, e⟩ <;> rw [e]

/-- The choice never raises the missed count. -/
theorem HostLine.choose_missed (h : HostLine) : h.choose.missed ≤ h.missed := by
  rcases h.choose_cases with e | ⟨_, _, e⟩ | ⟨_, _, _, e⟩ | ⟨_, _, _, _, _, e⟩ <;> rw [e]
  exact Nat.zero_le _

/-! ### Capacities -/

theorem HostLine.Bounded.choose {h : HostLine} (b : h.Bounded) : h.choose.Bounded := by
  obtain ⟨b1, b2, b3, b4, b5, b6, b7⟩ := b
  have := h.choose_missed
  refine ⟨?_, ?_, ?_, ?_, ?_, ?_, ?_⟩
  · simpa [HostLine.load] using b1
  · simpa using b2
  · simpa using b3
  · simpa using b4
  · simpa using b5
  · omega
  · simpa using b7

theorem HostLine.Bounded.raise {h : HostLine} (b : h.Bounded) (n : Notice) :
    (h.raise n).Bounded := by
  obtain ⟨b1, b2, b3, b4, b5, b6, b7⟩ := b
  unfold HostLine.raise
  split
  · rename_i room
    refine HostLine.Bounded.choose ⟨b1, b2, b3, ?_, ?_, b6, b7⟩
    · simp; omega
    · exact Nat.mod_lt _ (by decide)
  · exact ⟨b1, b2, b3, b4, b5, by simp [satAdd], b7⟩

/-- Updating a waiting LINE_FAULT notice keeps the length of the queue. -/
theorem updateLineFault_length {total : Nat} {cause : LineFaultCause} :
    ∀ {l l' : List QueuedNotice}, updateLineFault total cause l = some l' → l'.length = l.length
  | [], l', e => by simp [updateLineFault] at e
  | q :: l, l', e => by
    unfold updateLineFault at e
    split at e
    · cases e; rfl
    · rcases hl : updateLineFault total cause l with _ | l2
      · simp [hl] at e
      · simp [hl] at e
        subst e
        simpa using updateLineFault_length hl

theorem HostLine.updatedNotices_length {h : HostLine} {total : Nat} {cause : LineFaultCause}
    {l : List QueuedNotice} (e : h.updatedNotices total cause = some l) :
    l.length = h.notices.length := by
  unfold HostLine.updatedNotices at e
  split at e
  · rename_i q l2 _ hn
    rcases hl : updateLineFault total cause l2 with _ | l3
    · simp [hl] at e
    · simp [hl] at e
      subst e
      rw [hn]
      simpa using updateLineFault_length hl
  · exact updateLineFault_length e

theorem HostLine.Bounded.fault {h : HostLine} (b : h.Bounded) (cause : LineFaultCause) :
    (h.fault cause).Bounded := by
  obtain ⟨b1, b2, b3, b4, b5, b6, b7⟩ := b
  have hs : satAdd 65535 h.lineFaults 1 ≤ 65535 := by simp [satAdd]
  unfold HostLine.fault
  dsimp only
  split
  · rename_i l hl
    have := HostLine.updatedNotices_length hl
    exact ⟨b1, b2, b3, by rw [this]; exact b4, b5, b6, hs⟩
  · exact HostLine.Bounded.raise (h := { h with lineFaults := satAdd 65535 h.lineFaults 1 })
      ⟨b1, b2, b3, b4, b5, b6, hs⟩ _

/-- An answer moves one request from its slot to the reply queue, or finds none in progress. -/
theorem HostLine.answer_cases (h : HostLine) (tag : Byte) (result : Result) (payload : List Byte) :
    (h.inProgress tag = false ∧ h.answer tag result payload = h) ∨
      ∃ slot ∈ h.slots, slot.tag = tag ∧
        h.answer tag result payload = HostLine.choose { h with
          slots := h.slots.eraseP (·.tag == tag)
          replies := h.replies ++ [⟨tag, slot.code, result, payload⟩] } := by
  unfold HostLine.answer
  rcases hf : h.slots.find? (·.tag == tag) with _ | slot
  · left
    refine ⟨?_, by simp only [hf]⟩
    rw [List.find?_eq_none] at hf
    simpa [HostLine.inProgress] using hf
  · right
    refine ⟨slot, List.mem_of_find?_eq_some hf, ?_, by simp only [hf]⟩
    simpa using List.find?_some hf

theorem HostLine.Bounded.answer {h : HostLine} (b : h.Bounded) (tag : Byte) (result : Result)
    (payload : List Byte) : (h.answer tag result payload).Bounded := by
  obtain ⟨b1, b2, b3, b4, b5, b6, b7⟩ := b
  rcases h.answer_cases tag result payload with ⟨_, e⟩ | ⟨slot, hmem, htag, e⟩
  · rw [e]; exact ⟨b1, b2, b3, b4, b5, b6, b7⟩
  · rw [e]
    refine HostLine.Bounded.choose ⟨?_, ?_, b3, b4, b5, b6, b7⟩
    · have hlen : (h.slots.eraseP (·.tag == tag)).length + 1 = h.slots.length :=
        List.length_eraseP_add_one hmem (by simp [htag])
      simp only [HostLine.load, List.length_append, List.length_singleton] at b1 ⊢
      omega
    · exact b2.sublist ((List.eraseP_sublist).map _)

theorem HostLine.Bounded.reject {h : HostLine} (b : h.Bounded) (tag code : Byte) (inUse : Bool) :
    (h.reject tag code inUse).Bounded := by
  unfold HostLine.reject
  split
  · obtain ⟨b1, b2, b3, b4, b5, b6, b7⟩ := b
    exact HostLine.Bounded.choose ⟨b1, b2, by simp; omega, b4, b5, b6, b7⟩
  · exact b.fault _

/-- A request that may be taken takes a slot within the load and with a tag of its own (R147). -/
theorem HostLine.Bounded.take {h : HostLine} (b : h.Bounded) (tag code : Byte) (owner : Owner)
    (fresh : h.inProgress tag = false) (room : h.load < 8) :
    HostLine.Bounded { h with slots := h.slots ++ [⟨tag, code, owner⟩] } := by
  obtain ⟨b1, b2, b3, b4, b5, b6, b7⟩ := b
  refine ⟨?_, ?_, b3, b4, b5, b6, b7⟩
  · simp only [HostLine.load, List.length_append, List.length_singleton] at room ⊢
    omega
  · have hne : ∀ a ∈ h.slots, ¬a.tag = tag := by simpa [HostLine.inProgress] using fresh
    rw [List.map_append, List.nodup_append]
    refine ⟨b2, by simp, ?_⟩
    intro x hx y hy
    simp only [List.map_cons, List.map_nil, List.mem_singleton] at hy
    obtain ⟨a, ha, rfl⟩ := List.mem_map.1 hx
    subst hy
    exact hne a ha

/-! ### The request answered at once -/

/-- A request taken into a slot and answered in the same step leaves its slot free again and its
reply queued (R149). -/
theorem HostLine.take_answer {h : HostLine} (tag code : Byte) (owner : Owner) (result : Result)
    (payload : List Byte) (fresh : h.inProgress tag = false) :
    HostLine.answer { h with slots := h.slots ++ [⟨tag, code, owner⟩] } tag result payload =
      { h with
        replies := h.replies ++ [⟨tag, code, result, payload⟩]
        tx := if h.tx = .idle then .reply else h.tx } := by
  have hne : ∀ a ∈ h.slots, ¬a.tag = tag := by simpa [HostLine.inProgress] using fresh
  have hfind : (h.slots ++ [(⟨tag, code, owner⟩ : Slot)]).find? (·.tag == tag) =
      some ⟨tag, code, owner⟩ := by
    rw [List.find?_append]
    have : h.slots.find? (·.tag == tag) = none := by
      rw [List.find?_eq_none]; simpa using hne
    simp [this]
  have herase : (h.slots ++ [(⟨tag, code, owner⟩ : Slot)]).eraseP (·.tag == tag) = h.slots := by
    rw [List.eraseP_append_right _ (by simpa using hne)]
    simp
  unfold HostLine.answer
  simp only [hfind, herase]
  rw [HostLine.choose_reply (by simp)]

end Sys2Proof.Machine
end

