-- ==== Sys2Proof/Laws/Pool.lean ====
section
/-! SUPPORT. The page pool: what a claim and a release do, and that each keeps the free count at or
above the outstanding reserve need (R25, R27). -/

namespace Sys2Proof.Machine

/-! ### What a claim does (R26, R28, R29, R31) -/

/-- A granted claim: the head of the free list, cleared, the held count one higher. -/
theorem Work.claim_cases {w w' : Work} {i : StreamNo} {p : PageNo} (h : w.claim i = some (p, w')) :
    ∃ rest, w.pool.free = p :: rest ∧ w.grants i = true ∧
      w' = w.updPool fun pool =>
        { pool with
          free := rest
          mem := pool.mem.clearPage p
          held := pool.held.set i (pool.held[i] + 1) } := by
  unfold Work.claim at h
  split at h
  · cases h
  · rename_i q rest hq
    split at h
    · cases h
      exact ⟨rest, hq, ‹_›, rfl⟩
    · cases h

/-- A granted host claim: the head of the free list, cleared, the host count one higher. -/
theorem Work.claimHost_cases {w w' : Work} {p : PageNo} (h : w.claimHost = some (p, w')) :
    ∃ rest, w.pool.free = p :: rest ∧ w.reserveNeed < w.freeCount ∧
      w' = w.updPool fun pool =>
        { pool with
          free := rest
          mem := pool.mem.clearPage p
          hostCount := pool.hostCount + 1 } := by
  unfold Work.claimHost at h
  split at h
  · cases h
  · rename_i q rest hq
    split at h
    · cases h
      exact ⟨rest, hq, ‹_›, rfl⟩
    · cases h

/-! ### Sums over the streams -/

/-- A sum over a list without repeats, with the term of one member changed. -/
theorem sum_map_change {α : Type} (l : List α) (nodup : l.Nodup) {i : α} (hi : i ∈ l)
    (f g : α → Nat) (same : ∀ j, j ≠ i → f j = g j) :
    (l.map f).sum + g i = (l.map g).sum + f i := by
  induction l with
  | nil => cases hi
  | cons a l ih =>
    obtain ⟨ha, hl⟩ := List.nodup_cons.1 nodup
    simp only [List.map_cons, List.sum_cons]
    rcases List.mem_cons.1 hi with rfl | hi
    · have : l.map f = l.map g :=
        List.map_congr_left fun j hj => same j fun e => ha (e ▸ hj)
      rw [this]; omega
    · have hne : a ≠ i := fun e => ha (e ▸ hi)
      have := ih hl hi
      rw [same a hne]
      omega

theorem mem_streamNos (i : StreamNo) : i ∈ streamNos := List.mem_finRange i

theorem nodup_streamNos : streamNos.Nodup := List.nodup_finRange 16

/-! ### The reserve need -/

/-- What one stream adds to the outstanding reserve need. -/
def Work.shortfall (w : Work) (i : StreamNo) : Nat :=
  if (w.stream i).state = .free then 0 else (w.stream i).cfg.reserve - w.held i

theorem Work.reserveNeed_eq (w : Work) : w.reserveNeed = (streamNos.map w.shortfall).sum := rfl

/-- The need after one stream's part of it changed. -/
theorem Work.reserveNeed_change {w w' : Work} (i : StreamNo)
    (same : ∀ j, j ≠ i → w'.shortfall j = w.shortfall j) :
    w'.reserveNeed + w.shortfall i = w.reserveNeed + w'.shortfall i :=
  sum_map_change streamNos nodup_streamNos (mem_streamNos i) _ _ same

end Sys2Proof.Machine
end

