-- ==== Sys2Proof/Laws/Settle.lean ====
section
/-! SUPPORT. What the end of a step keeps: with no message sent it changes nothing; it never touches
the queue of commands, the frame port, the engine or the reset input; and it keeps the ranges of
`State.Sound`. -/

namespace Sys2Proof.Machine

/-! ### No message -/

/-- With no message on the way the end of a step changes nothing. -/
theorem Work.settle_idle {w : Work} (h : w.agenda = []) : w.settle = w := by
  unfold Work.settle
  generalize w.bound = n
  cases n with
  | zero => rfl
  | succ n => rw [Work.drain, Work.nextEvent]; simp [h, nextEvents]

/-- The step of a command whose own work sends no message. -/
theorem act_quiet {f : Work → Work} {s : State} (h : (f { s with agenda := [] }).agenda = []) :
    act f s = .next (f { s with agenda := [] }).toState := by
  unfold act
  rw [Work.settle_idle h]

/-- The step of a command while the part is held in reset (R156). -/
theorem actUnlessReset_low {f : Work → Work} {s : State} (h : s.resetLow = true) :
    actUnlessReset f s = .next s := by
  unfold actUnlessReset
  rw [act_quiet] <;> simp [h]

/-- The step of a command while the part is not held in reset. -/
theorem actUnlessReset_high {f : Work → Work} {s : State} (h : s.resetLow = false) :
    actUnlessReset f s = act f s := by
  unfold actUnlessReset act
  simp [h]

/-! ### A request taken and answered at once -/

/-- A request that meets R147 (3) takes a slot and is served. -/
theorem Work.takeRequest_taken {w : Work} {tag code : Byte} {serve : Work → Work}
    (high : w.resetLow = false) (open_ : w.host.resetPending = false)
    (fresh : w.host.inProgress tag = false) (room : w.host.load < 8) :
    w.takeRequest tag code serve =
      serve (w.updHost fun h => { h with slots := h.slots ++ [⟨tag, code, ownerOf code⟩] }) := by
  unfold Work.takeRequest
  simp [high, open_, fresh, room]

/-- The answer of a request just taken (R149). -/
theorem Work.take_answer {w : Work} {tag code : Byte} {owner : Owner} {result : Result}
    {payload : List Byte} (fresh : w.host.inProgress tag = false) :
    (w.updHost fun h => { h with slots := h.slots ++ [⟨tag, code, owner⟩] }).answer tag result
        payload =
      w.updHost fun h =>
        { h with
          replies := h.replies ++ [⟨tag, code, result, payload⟩]
          tx := if h.tx = .idle then .reply else h.tx } := by
  simp only [Work.answer, Work.updHost]
  rw [HostLine.take_answer tag code owner result payload fresh]

/-! ### What no message touches -/

/-- The frame port but for the transmit buffer that a supply answer is placed in. -/
def FramePort.Same (f g : FramePort) : Prop := { f with txSend := g.txSend } = g

/-- The parts of the state that no stream, port or pool operation touches. -/
def Work.SameRest (w v : Work) : Prop :=
  w.pending = v.pending ∧ w.resetLow = v.resetLow ∧ w.frame.Same v.frame ∧ w.engine = v.engine

theorem closed_sameRest (v : Work) : Closed fun w => w.SameRest v where
  stream _ _ _ _ h := h
  port _ _ _ _ h := h
  claim w i p w' hc h := by
    obtain ⟨_, _, _, e⟩ := Work.claim_cases hc
    rw [e]; exact h
  claimHost w p w' hc h := by
    obtain ⟨_, _, _, e⟩ := Work.claimHost_cases hc
    rw [e]; exact h
  freed _ _ _ h := h
  freedHost _ _ h := h
  waits _ _ h := h
  mem _ _ _ h := h
  raise _ _ h := h
  answer _ _ _ _ h := h
  agenda _ _ h := h
  picks _ _ h := h
  serial _ _ h := h
  send _ _ h := h

/-- The end of a step leaves the queue of commands, the reset input, the frame port and the engine
as they are, but for the supply answers in the transmit buffer. -/
theorem Work.settle_sameRest (w : Work) : w.settle.SameRest w :=
  (closed_sameRest w).settle ⟨rfl, rfl, rfl, rfl⟩

/-- The parts of the host line that no stream, port or pool operation touches. -/
def Work.SameLine (w v : Work) : Prop :=
  w.host.rx = v.host.rx ∧ w.host.lineSpeed = v.host.lineSpeed ∧
    w.host.rejections = v.host.rejections ∧ w.host.noticeHold = v.host.noticeHold ∧
    w.host.lineFaults = v.host.lineFaults ∧ w.host.resetPending = v.host.resetPending

theorem closed_sameLine (v : Work) : Closed fun w => w.SameLine v where
  stream _ _ _ _ h := h
  port _ _ _ _ h := h
  claim w i p w' hc h := by
    obtain ⟨_, _, _, e⟩ := Work.claim_cases hc
    rw [e]; exact h
  claimHost w p w' hc h := by
    obtain ⟨_, _, _, e⟩ := Work.claimHost_cases hc
    rw [e]; exact h
  freed _ _ _ h := h
  freedHost _ _ h := h
  waits _ _ h := h
  mem _ _ _ h := h
  raise w n h := by
    simp only [Work.SameLine, Work.raise, Work.host_updHost, HostLine.raise] at h ⊢
    split <;> simpa using h
  answer w tag result payload h := by
    simp only [Work.SameLine, Work.answer, Work.host_updHost] at h ⊢
    rcases w.host.answer_cases tag result payload with ⟨_, e⟩ | ⟨_, _, _, e⟩ <;>
      rw [e] <;> simpa using h
  agenda _ _ h := h
  picks _ _ h := h
  serial _ _ h := h
  send _ _ h := h

/-- The end of a step leaves the receiver, the speed, the rejections, the hold, the line-fault count
and the pending reset as they are. -/
theorem Work.settle_sameLine (w : Work) : w.settle.SameLine w :=
  (closed_sameLine w).settle ⟨rfl, rfl, rfl, rfl, rfl, rfl⟩

/-! ### Ranges -/

theorem State.Sound.stream {w : Work} (h : w.toState.Sound) (i : StreamNo) :
    (w.stream i).Bounded := h.streams i

theorem State.Sound.port {w : Work} (h : w.toState.Sound) (p : PortNo) :
    (w.port p).Bounded := h.ports p

theorem closed_sound : Closed fun w => w.toState.Sound where
  stream w i f hf h :=
    { streams := fun j => by
        show ((w.updStream i f).stream j).Bounded
        rw [Work.stream_updStream]
        split
        · subst_vars; exact hf.bounded (h.streams _)
        · exact h.streams j
      ports := h.ports
      host := h.host
      frame := h.frame
      memory := h.memory }
  port w p f hf h :=
    { streams := h.streams
      ports := fun q => by
        show ((w.updPort p f).port q).Bounded
        rw [Work.port_updPort]
        split
        · subst_vars; exact hf (h.ports _)
        · exact h.ports q
      host := h.host
      frame := h.frame
      memory := h.memory }
  claim w i p w' hc h := by
    obtain ⟨_, _, _, e⟩ := Work.claim_cases hc
    rw [e]; exact ⟨h.streams, h.ports, h.host, h.frame, Memory.wf_clearPage _ h.memory⟩
  claimHost w p w' hc h := by
    obtain ⟨_, _, _, e⟩ := Work.claimHost_cases hc
    rw [e]; exact ⟨h.streams, h.ports, h.host, h.frame, Memory.wf_clearPage _ h.memory⟩
  freed _ _ _ h := ⟨h.streams, h.ports, h.host, h.frame, h.memory⟩
  freedHost _ _ h := ⟨h.streams, h.ports, h.host, h.frame, h.memory⟩
  waits _ _ h := ⟨h.streams, h.ports, h.host, h.frame, h.memory⟩
  mem _ _ hf h := ⟨h.streams, h.ports, h.host, h.frame, hf h.memory⟩
  raise _ n h := ⟨h.streams, h.ports, h.host.raise n, h.frame, h.memory⟩
  answer _ tag r pl h := ⟨h.streams, h.ports, h.host.answer tag r pl, h.frame, h.memory⟩
  agenda _ _ h := ⟨h.streams, h.ports, h.host, h.frame, h.memory⟩
  picks _ _ h := ⟨h.streams, h.ports, h.host, h.frame, h.memory⟩
  serial _ _ h := ⟨h.streams, h.ports, h.host, h.frame, h.memory⟩
  send _ _ h := ⟨h.streams, h.ports, h.host, h.frame, h.memory⟩

end Sys2Proof.Machine
end

