-- ==== Sys2Proof/Laws/Commands.lean ====
section
/-! SUPPORT. A property of the work in hand that the primitive changes and the few commands of the
frame port, the stream table and reset keep is kept by every command. -/

namespace Sys2Proof.Machine

/-- Every primitive change keeps the property, and so does each of the commands that change a role,
a slot map, a stream's settings, or the whole part. -/
structure Kept (P : Work → Prop) : Prop extends Closed P where
  host : ∀ w f, (w.host.Bounded → (f w.host).Bounded) →
    (w.host.Served → (f w.host).Served) → P w → P (w.updHost f)
  frame : ∀ w f, (f w.frame).rxMap = w.frame.rxMap → (f w.frame).txMap = w.frame.txMap →
    (f w.frame).slotCount = w.frame.slotCount → (w.frame.Bounded → (f w.frame).Bounded) →
    P w → P (w.updFrame f)
  engine : ∀ (w : Work) e, P w → P { w with engine := e }
  noticeRelease : ∀ tag code owner payload w, P w → w.host.inProgress tag = false →
    w.host.load < 8 → P (serveNoticeRelease tag payload
      (w.updHost fun h => { h with slots := h.slots ++ [⟨tag, code, owner⟩] }))
  frameSet : ∀ tag payload w, P w → P (serveFrameSet tag payload w)
  slotSet : ∀ tag payload w, P w → P (serveSlotSet tag payload w)
  slotClear : ∀ tag payload w, P w → P (serveSlotClear tag payload w)
  streamBind : ∀ tag payload w, P w → P (serveStreamBind tag payload w)
  streamUnbind : ∀ tag payload w, P w → P (serveStreamUnbind tag payload w)
  reset : ∀ spd1 spd0 w, P w → P (w.resetPart spd1 spd0)
  low : ∀ w : Work, P w → P { w with
    resetLow := true
    host := { w.host with tx := .idle }
    engine := {}
    frame := { w.frame with role := .off, state := .off } }
  sent : ∀ w : Work, P w → P (w.updHost (·.sent))

/-! ### The transmitter's choice and the host line's operations -/

/-- What it is to have chosen (R151). -/
theorem HostLine.served_iff (h : HostLine) :
    h.Served ↔ (h.tx = .idle → h.replies = [] ∧ h.rejections = [] ∧
      (h.notices = [] ∨ h.noticeHold = true)) := by
  unfold HostLine.Served HostLine.choose
  rcases h with ⟨rx, ls, sl, rep, rej, no, tx, nh, nn, mi, lf, rp⟩
  cases tx <;> simp
  split_ifs <;> simp_all
  cases nh <;> simp_all

theorem HostLine.Served.raise {h : HostLine} (b : h.Served) (n : Notice) : (h.raise n).Served := by
  unfold HostLine.raise
  split
  · exact HostLine.choose_served _
  · rw [HostLine.served_iff] at b ⊢; exact b

theorem HostLine.Served.answer {h : HostLine} (b : h.Served) (tag : Byte) (r : Result)
    (pl : List Byte) : (h.answer tag r pl).Served := by
  unfold HostLine.answer
  split
  · exact b
  · exact HostLine.choose_served _

theorem HostLine.Served.fault {h : HostLine} (b : h.Served) (cause : LineFaultCause) :
    (h.fault cause).Served := by
  unfold HostLine.fault
  dsimp only
  split
  · rename_i l hl
    have hlen := HostLine.updatedNotices_length hl
    rw [HostLine.served_iff] at b ⊢
    intro hi
    obtain ⟨b1, b2, b3⟩ := b hi
    refine ⟨b1, b2, b3.imp_left fun e => ?_⟩
    simp only [e] at hlen
    exact List.length_eq_zero_iff.1 hlen
  · refine HostLine.Served.raise ?_ _
    rw [HostLine.served_iff] at b ⊢; exact b

theorem HostLine.Served.reject {h : HostLine} (b : h.Served) (tag code : Byte) (inUse : Bool) :
    (h.reject tag code inUse).Served := by
  unfold HostLine.reject
  split
  · exact HostLine.choose_served _
  · exact b.fault _

/-- A change of what the choice does not look at. -/
theorem HostLine.Served.same {h g : HostLine} (b : h.Served)
    (e : (g.tx, g.replies, g.rejections, g.notices, g.noticeHold) =
      (h.tx, h.replies, h.rejections, h.notices, h.noticeHold)) : g.Served := by
  simp only [Prod.mk.injEq] at e
  rw [HostLine.served_iff] at b ⊢
  rw [e.1, e.2.1, e.2.2.1, e.2.2.2.1, e.2.2.2.2]
  exact b

variable {P : Work → Prop} {w : Work}
namespace Kept

/-! ### Requests -/

theorem reject (h : Kept P) (t c : Byte) (u : Bool) (hw : P w) : P (w.updHost (·.reject t c u)) :=
  h.host w _ (fun b => b.reject t c u) (fun b => b.reject t c u) hw

theorem receiverFault (h : Kept P) (c : LineFaultCause) (hw : P w) : P (w.receiverFault c) :=
  h.host w _ (fun b => HostLine.Bounded.fault (h := { w.host with rx := .hunt }) b c)
    (fun b => HostLine.Served.fault (h := { w.host with rx := .hunt })
      (HostLine.Served.same b rfl) c) hw

theorem taken (h : Kept P) (t c : Byte) (o : Owner) (fresh : w.host.inProgress t = false)
    (room : w.host.load < 8) (hw : P w) :
    P (w.updHost fun h => { h with slots := h.slots ++ [⟨t, c, o⟩] }) :=
  h.host _ _ (fun b => b.take _ _ _ fresh room) (fun b => b.same rfl) hw

/-- The taking of a request whose service keeps the property once it has its slot. -/
theorem takeRequest (h : Kept P) {t c : Byte} {serve : Work → Work}
    (hs : ∀ w, P w → w.host.inProgress t = false → w.host.load < 8 →
      P (serve (w.updHost fun h => { h with slots := h.slots ++ [⟨t, c, ownerOf c⟩] })))
    (hw : P w) : P (w.takeRequest t c serve) := by
  unfold Work.takeRequest
  split
  · exact hw
  · split
    · exact h.reject _ _ _ hw
    · split
      · exact h.reject _ _ _ hw
      · rename_i h1 h2 h3
        exact hs _ hw (by simpa using h2) (by omega)

/-- The taking of a request whose service keeps the property. -/
theorem takePlain (h : Kept P) {t c : Byte} {serve : Work → Work}
    (hs : ∀ w, P w → P (serve w)) (hw : P w) : P (w.takeRequest t c serve) :=
  h.takeRequest (fun _ hw fresh room => hs _ (h.taken _ _ _ fresh room hw)) hw

theorem checked (h : Kept P) {α : Type} {t : Byte} {pl : List Byte} {n : Nat}
    {p : List Byte → Option α} {o : α → Work → Work}
    (ho : ∀ a w, P w → P (o a w)) (hw : P w) : P (w.checked t pl n p o) := by
  unfold Work.checked
  split
  · exact h.answer _ _ _ _ hw
  · split
    · exact h.answer _ _ _ _ hw
    · exact ho _ _ hw

theorem hello (h : Kept P) (t pl) (hw : P w) : P (serveHello t pl w) :=
  h.checked (fun _ _ hw => h.answer _ _ _ _ hw) hw

theorem partReset (h : Kept P) (t pl) (hw : P w) : P (servePartReset t pl w) :=
  h.checked (fun _ _ hw => h.host _ _ (fun b => b) (fun b => b.same rfl) (h.answer _ _ _ _ hw)) hw

theorem noticeHold (h : Kept P) (t pl) (hw : P w) : P (serveNoticeHold t pl w) := by
  refine h.checked (fun _ _ hw => h.answer _ _ _ _ (h.host _ _ (fun b => b) (fun b => ?_) hw)) hw
  rw [HostLine.served_iff] at b ⊢
  exact fun hi => ⟨(b hi).1, (b hi).2.1, .inr rfl⟩

theorem failAttach (h : Kept P) (p r pl) (hw : P w) : P (w.failAttach p r pl) :=
  h.answerOpt _ _ _ (h.port _ _ _ (fun b => b) hw)

theorem portAttach (h : Kept P) (t pl) (hw : P w) : P (servePortAttach t pl w) := by
  refine h.checked (fun p w hw => ?_) hw
  split
  · exact h.port _ _ _
      (fun b => ⟨b.1, b.2.1, Nat.zero_le _, Nat.zero_le _, Nat.zero_le _, Nat.zero_le _⟩) hw
  · exact h.answer _ _ _ _ hw

theorem portDetach (h : Kept P) (t pl) (hw : P w) : P (servePortDetach t pl w) := by
  refine h.checked (fun p w hw => ?_) hw
  split
  · exact h.answer _ _ _ _ hw
  · unfold Work.detachPort
    dsimp only
    have h1 : P (w.updPort p (·.detachRecord t)) :=
      h.port _ _ _ (fun b => b.fewer (List.length_filter_le _ _) (Nat.zero_le _)) hw
    split_ifs
    all_goals first
      | exact h1
      | exact h.post _ h1
      | exact h.deliver _ _ h1
      | exact h.post _ (h.deliver _ _ h1)

theorem portQuery (h : Kept P) (t pl) (hw : P w) : P (servePortQuery t pl w) :=
  h.checked (fun _ _ hw => h.answer _ _ _ _ hw) hw

theorem trackFormat (h : Kept P) (t pl pm) (hw : P w) : P (serveTrackFormat t pl pm w) := by
  refine h.checked (fun a w hw => ?_) hw
  split
  · exact h.answer _ _ _ _ hw
  · rename_i hr
    refine h.placeEntry _ _ ?_ hw
    unfold Work.formatRefusal at hr
    dsimp only at hr
    split_ifs at hr with a1 a2 a3 a4 a5 a6
    simpa using a6

theorem hostEntry (h : Kept P) (t p lba kind) (fill : PageNo → Work → Work)
    (hf : ∀ pg w, P w → P (fill pg w)) (hw : P w) :
    P (w.hostEntry t p lba kind fill) := by
  unfold Work.hostEntry
  split
  · exact h.answer _ _ _ _ hw
  · have h1 := hf ‹_› _ (h.claimHost _ _ _ ‹_› hw)
    dsimp only
    split
    · exact h.place _ _ _ ‹_› h1
    · exact h.releaseHost _ (h.answer _ _ _ _ h1)

theorem sectorRead (h : Kept P) (t pl) (hw : P w) : P (serveSectorRead t pl w) := by
  refine h.checked (fun a w hw => ?_) hw
  split
  · exact h.answer _ _ _ _ hw
  · exact h.hostEntry _ _ _ _ _ (fun _ _ hw => hw) hw

theorem sectorWrite (h : Kept P) (t pl) (hw : P w) : P (serveSectorWrite t pl w) := by
  refine h.checked (fun a w hw => ?_) hw
  split
  · exact h.answer _ _ _ _ hw
  · split
    · exact h.answer _ _ _ _ hw
    · exact h.hostEntry _ _ _ _ _
        (fun _ _ hw => h.mem _ _ (fun hm => Memory.wf_writePage _ _ hm) hw) hw

/-- The record of a take that begins is within its ranges. -/
theorem startRecord_steady (st : Stream) (take seq) :
    Stream.Steady st (st.startRecord take seq) := by
  refine ⟨fun b => ⟨b.1, Nat.zero_le _, b.2.2.1, ?_, Nat.zero_le _⟩, rfl, ?_⟩
  · exact ⟨⟨Nat.zero_le _, Nat.zero_le _, Nat.zero_le _⟩, Nat.zero_le _, Nat.zero_le _, Nat.zero_le _,
      Nat.zero_le _⟩
  unfold Stream.startRecord
  dsimp only
  intro e
  split at e
  · cases e
  · split_ifs at e

theorem start_tail (h : Kept P) (i : StreamNo) (tag : Byte) (r : Result) (pl : List Byte)
    (v : Work) (h1 : P v) (low empty : Notice) (c1 c2 c3 : Prop) [Decidable c1] [Decidable c2]
    [Decidable c3] :
    P (let w := if c1 then v.offer low else v
      let w := if c2 then w.raise empty else w
      let w := w.answer tag r pl
      if c3 then w.replayTest i else w) := by
  dsimp only
  have a : P (if c1 then v.offer low else v) := by
    split
    · exact h.offer _ h1
    · exact h1
  generalize (if c1 then v.offer low else v) = v1 at *
  have b : P (if c2 then v1.raise empty else v1) := by
    split
    · exact h.raise _ _ a
    · exact a
  generalize (if c2 then v1.raise empty else v1) = v2 at *
  split
  · exact h.replayTest _ (h.answer _ _ _ _ b)
  · exact (h.answer _ _ _ _ b)

theorem streamStart (h : Kept P) (t pl) (hw : P w) : P (serveStreamStart t pl w) := by
  refine h.checked (fun a w hw => ?_) hw
  split
  · have h1 : P (w.updStream a.1 fun st => st.startRecord a.2.1 a.2.2) :=
      h.stream _ _ _ (startRecord_steady _ _ _) hw
    generalize hv : (w.updStream a.1 fun st => st.startRecord a.2.1 a.2.2) = v at *
    unfold Work.startStream
    rw [hv]
    exact h.start_tail a.1 _ _ _ _ h1 _ _ _ _ _
  · exact h.answer _ _ _ _ hw

theorem streamStop (h : Kept P) (t pl) (hw : P w) : P (serveStreamStop t pl w) := by
  refine h.checked (fun a w hw => ?_) hw
  split
  · have h1 : P (w.updStream a fun st => { st with stopPart := some t }) :=
      h.stream _ _ _ Stream.Steady.same hw
    unfold Work.stopStream
    split
    · exact h.captureStop _ h1
    · exact h.replayStop _ h1
  · exact h.answer _ _ _ _ hw

theorem streamAbort (h : Kept P) (t pl) (hw : P w) : P (serveStreamAbort t pl w) := by
  refine h.checked (fun a w hw => ?_) hw
  split
  · have h1 : P (w.updStream a fun st => { st with abortPart := some t }) :=
      h.stream _ _ _ Stream.Steady.same hw
    unfold Work.abortStream
    generalize (w.updStream a fun st => { st with abortPart := some t }) = v at *
    have h3 : P (match (v.stream a).cfg.direction with
      | .capture => v.captureGiveUp a [] | .replay => v.replayGiveUp a) := by
      split
      · exact h.captureGiveUp _ _ h1
      · exact h.replayGiveUp _ h1
    have key : ∀ u : Work, ∀ r, P u → P (if (u.stream a).outstanding = 0 then u.abortEndTest a
      else u.updStream a fun st => { st with state := .draining, drainReason := r }) := by
      intro u r hu
      split
      · exact h.abortEndTest _ hu
      · exact h.stream _ _ _ Stream.Steady.same hu
    exact key _ _ h3
  · exact h.answer _ _ _ _ hw

theorem streamQuery (h : Kept P) (t pl) (hw : P w) : P (serveStreamQuery t pl w) :=
  h.checked (fun _ _ hw => h.answer _ _ _ _ hw) hw

theorem addExtent_steady (st : Stream) (x) (hl : st.extents.length < 8) :
    Stream.Steady st (st.addExtent x) := by
  have : (st.extents ++ [x]).length ≤ 8 := by simp; omega
  unfold Stream.addExtent
  dsimp only
  generalize (if st.extents.isEmpty = true then 0 else st.offset) = o
  generalize (if st.extents.isEmpty = true then none else st.waitedPort) = ww
  split
  · exact ⟨fun b => ⟨this, b.2⟩, rfl, fun e => e⟩
  · exact ⟨fun b => ⟨this, b.2⟩, rfl, fun e => e⟩

theorem extentAdd (h : Kept P) (t pl) (hw : P w) : P (serveExtentAdd t pl w) := by
  refine h.checked (fun a w hw => ?_) hw
  split
  · exact h.answer _ _ _ _ hw
  · rename_i hr
    have hlen : (w.stream a.1).extents.length < 8 := by
      unfold Work.extentRefusal at hr
      dsimp only at hr
      split_ifs at hr
      omega
    have h1 : P (w.updStream a.1 (·.addExtent a.2)) := by
      exact h.stream _ _ _ (addExtent_steady _ _ hlen) hw
    dsimp only
    unfold Work.extentGiven
    split
    · exact h.captureExtent _ (h.answer _ _ _ _ h1)
    · exact h.replayExtent _ (h.answer _ _ _ _ h1)

theorem extentClear (h : Kept P) (t pl) (hw : P w) : P (serveExtentClear t pl w) := by
  refine h.checked (fun a w hw => ?_) hw
  split
  · dsimp only
    exact h.answer _ _ _ _
      (h.stream _ _ _ ⟨fun b => ⟨Nat.zero_le _, b.2⟩, rfl, fun e => e⟩ hw)
  · exact h.answer _ _ _ _ hw

/-! ### Drives and the engine -/

theorem releaseEngine (h : Kept P) (hw : P w) : P w.releaseEngine := h.engine _ _ hw

theorem engineComplete (h : Kept P) (p e d) (hw : P w) : P (w.engineComplete p e d) := by
  unfold Work.engineComplete
  dsimp only
  have h1 : P (w.releaseEngine.updPort p fun pt => (pt.afterTransfer e).chooseAgain) :=
    h.port _ _ _ (fun b => Port.chooseAgain_bounded (Port.afterTransfer_bounded e b))
      (h.releaseEngine hw)
  split
  · exact h.post _ (h.deliver _ _ h1)
  · exact h.deliver _ _ h1

theorem goOffline (h : Kept P) (p c) (hw : P w) : P (w.goOffline p c) := by
  unfold Work.goOffline
  dsimp only
  have key : ∀ v : Work, ∀ n, P v →
      P ((v.updPort p (·.offlineRecord c)).post (.offer
        ((v.updPort p (·.offlineRecord c)).portNotice p .offline (.offline c) none n))) :=
    fun v _ hv => h.post _ (h.port _ _ _
      (fun b => b.fewer (Nat.zero_le _) (Nat.zero_le _)) hv)
  have hw := Closed.fold (fun w e hw => h.cutRead p e hw) (w.port p).activeEntry.toList hw
  split_ifs
  all_goals first
    | exact key _ _ (h.releaseEngine hw)
    | exact h.deliver _ _ (key _ _ (h.releaseEngine hw))
    | exact key _ _ hw
    | exact h.deliver _ _ (key _ _ hw)

theorem cutDetached (h : Kept P) (p) (hw : P w) : P (w.cutDetached p) := by
  unfold Work.cutDetached
  split
  · exact hw
  · dsimp only
    have key : ∀ v : Work, P v →
        P (v.updPort p fun pt => { pt with queue := pt.queue.filter fun f => !f.active }) :=
      fun v hv => h.port _ _ _ (fun b => b.fewer (List.length_filter_le _ _)) hv
    have cut := fun e => h.cutRead p e hw
    split
    · exact h.post _ (h.deliver _ _ (key _ (h.releaseEngine (cut _))))
    · exact h.post _ (h.deliver _ _ (key _ (cut _)))

theorem failPositioning (h : Kept P) (p) (hw : P w) : P (w.failPositioning p) := by
  unfold Work.failPositioning
  dsimp only
  split
  · have key : ∀ (f : Port → Port) l, ((w.port p).Bounded → (f (w.port p)).Bounded) →
        P (if l = [] then w.updPort p f else (w.updPort p f).deliver p
          (l.map fun e => .result e { result := .positionFault })) := by
      intro f l hf
      have h1 : P (w.updPort p f) := h.port _ _ _ hf hw
      split
      · exact h1
      · exact h.deliver _ _ h1
    exact key _ _ fun b => Port.restore_bounded
      ⟨(List.length_filter_le _ _).trans b.1, Nat.zero_le _, b.2.2.1, b.2.2.2.1, satAdd_le _ _ _,
        b.2.2.2.2.2⟩
  · rename_i few
    exact h.port _ _ _ (fun b => Port.restore_bounded
      ⟨b.1, by dsimp only; omega, b.2.2.1, b.2.2.2.1, satAdd_le _ _ _, b.2.2.2.2.2⟩) hw

theorem restored (h : Kept P) (p) (hw : P w) : P (w.restored p) := by
  unfold Work.restored
  dsimp only
  split
  · exact h.answer _ _ _ _ (h.port _ _ _ (fun b => b) hw)
  · split
    · exact h.port _ _ _ Port.choose_bounded
        (h.portChange _ _ _ _ _ (h.port _ _ _ (fun b => b) hw))
    · have ha : ∀ c, P (w.updPort p (·.arrive c)) :=
        fun c => h.port _ _ _ (Port.arrive_bounded c) hw
      split
      · split
        · exact ha 0
        · exact h.port _ _ _ (fun b => b) hw
      · exact ha 0

theorem restoreFailed (h : Kept P) (p) (hw : P w) : P (w.restoreFailed p) := by
  unfold Work.restoreFailed
  split
  · exact h.failAttach _ _ _ hw
  · exact h.goOffline _ _ hw

theorem identAttach (h : Kept P) (p g r) (hw : P w) : P (w.identAttach p g r) := by
  unfold Work.identAttach
  split_ifs
  · exact h.failAttach _ _ _ hw
  · exact h.failAttach _ _ _ hw
  · exact h.port _ _ _ (fun b => Port.restore_bounded (pt := { w.port p with attachGeometry := some g }) b) hw

theorem identReturn (h : Kept P) (p g r) (hw : P w) : P (w.identReturn p g r) := by
  unfold Work.identReturn
  split_ifs
  · exact h.port _ _ _ (fun b => b) hw
  · exact h.port _ _ _ Port.restore_bounded hw
  · exact h.portChange _ _ _ _ _ (h.port _ _ _ (fun b => b) hw)

theorem claimEngine (h : Kept P) (p e) (hw : P w) : P (w.claimEngine p e) := by
  unfold Work.claimEngine
  split
  · exact h.engine _ _ (h.port _ _ _ (fun b => Port.updEntry_bounded (pt := w.port p) _ _ b) hw)
  · exact h.port _ _ _ (fun b => Port.choose_bounded
      ⟨b.1, b.2.1, b.2.2.1, satAdd_le _ _ _, b.2.2.2.2⟩) hw

theorem formatEnds (h : Kept P) (p e n) (hw : P w) : P (w.formatEnds p e n) :=
  h.engineComplete _ _ _ (h.port _ _ _ (fun b => b) hw)

theorem takeMark (h : Kept P) (p m) (hw : P w) : P (w.takeMark p m) := by
  unfold Work.takeMark
  dsimp only
  split
  · have h1 : P (w.updPort p fun pt => { pt with lastMark := some m }) :=
      h.port _ _ _ (fun b => b) hw
    split
    · split
      · exact h.claimEngine _ _ h1
      · exact h1
    · split
      · split
        · exact h.formatEnds _ _ _ h1
        · exact h1
      · exact h1
    · exact h1
  · split
    · split
      · split
        · exact h.formatEnds _ _ _ hw
        · exact hw
      · exact hw
    · exact hw

theorem headerMismatch (h : Kept P) (p e) (hw : P w) : P (w.headerMismatch p e) := by
  unfold Work.headerMismatch
  split
  · have key := fun k g (b : (w.port p).Bounded) =>
      (Port.updEntry_bounded (pt := w.port p) k g b)
    exact h.port _ _ _ (fun b => Port.restore_bounded (key _ _ b)) (h.releaseEngine hw)
  · exact h.engineComplete _ _ _ hw

theorem dataMismatch (h : Kept P) (p e t) (hw : P w) : P (w.dataMismatch p e t) := by
  unfold Work.dataMismatch
  split
  · exact h.port _ _ _ (fun b => Port.chooseAgain_bounded
      (Port.updEntry_bounded (pt := w.releaseEngine.port p) _ _ b)) (h.releaseEngine hw)
  · exact h.engineComplete _ _ _ hw

/-! ### The frame port -/

theorem frameEnd (h : Kept P) (r) (hw : P w) : P (w.frameEnd r) := by
  unfold Work.frameEnd
  exact h.postAll _ (h.frame _ _ rfl rfl rfl (fun b => b) hw)

/-- A port state with no bits counted is within its range. -/
theorem bounded_state {f : FramePort} (hs : ∀ run bits, f.state = .seeking run bits → bits = 0) :
    f.Bounded := fun run bits e => by
  rw [hs run bits e]
  exact ⟨Nat.zero_le _, fun _ => rfl⟩

theorem frameChange (h : Kept P) (st c) (hst : ∀ run bits, st = .seeking run bits → bits = 0)
    (hw : P w) : P (w.frameChange st c) := by
  unfold Work.frameChange
  dsimp only
  refine h.raise _ _ (h.frame _ _ ?_ ?_ ?_ (fun _ => bounded_state hst) hw) <;>
    (dsimp only; split <;> rfl)

/-- What FSY does to the port state of SEEKING keeps its bits within the frame (R59). -/
theorem skipLow_bounded (n : SlotCount) (low : Nat) (run : Fin 4) (bits : Nat) (r b)
    (e : (FrameState.seeking run bits).skipLow n low = .seeking r b) :
    b ≤ n.bits ∧ (r = 0 → b = 0) := by
  unfold FrameState.skipLow at e
  dsimp only at e
  split_ifs at e with h1 h2 <;> cases e
  · exact ⟨Nat.zero_le _, fun _ => rfl⟩
  · exact ⟨h2, fun e => absurd e h1⟩
  · exact ⟨Nat.zero_le _, fun _ => rfl⟩

theorem takeHigh_bounded (n : SlotCount) (st : FrameState) (r b)
    (e : st.takeHigh n = .seeking r b) (hst : ∃ run bits, st = .seeking run bits) :
    b ≤ n.bits ∧ (r = 0 → b = 0) := by
  obtain ⟨run, bits, rfl⟩ := hst
  have hn : 1 ≤ n.bits := by cases n <;> decide
  unfold FrameState.takeHigh at e
  dsimp only at e
  split_ifs at e with h1 h2 <;> cases e
  · refine ⟨hn, fun e => ?_⟩
    omega
  · exact ⟨hn, fun e => absurd e (by decide)⟩

theorem skipLow_seeking (n : SlotCount) (low : Nat) (run : Fin 4) (bits : Nat) :
    ∃ r b, (FrameState.seeking run bits).skipLow n low = .seeking r b := by
  unfold FrameState.skipLow
  dsimp only
  split_ifs <;> exact ⟨_, _, rfl⟩

theorem sample_bounded (n : SlotCount) (low : Nat) (fsy : Bool) (run : Fin 4) (bits : Nat) (r b)
    (e : (FrameState.seeking run bits).sample n low fsy = .seeking r b) :
    b ≤ n.bits ∧ (r = 0 → b = 0) := by
  unfold FrameState.sample at e
  split at e
  · exact takeHigh_bounded _ _ _ _ e (skipLow_seeking _ _ _ _)
  · exact skipLow_bounded _ _ _ _ _ _ e

theorem serveCode (h : Kept P) (code tag pl pm) (hw : P w)
    (fresh : w.host.inProgress tag = false) (room : w.host.load < 8) :
    P (Machine.serveCode code tag pl pm
      (w.updHost fun h => { h with slots := h.slots ++ [⟨tag, code, ownerOf code⟩] })) := by
  have hv := h.taken tag code (ownerOf code) fresh room hw
  unfold Machine.serveCode
  split
  · exact h.hello _ _ hv
  · exact h.partReset _ _ hv
  · exact h.noticeHold _ _ hv
  · exact h.noticeRelease _ _ _ _ _ hw fresh room
  · exact h.frameSet _ _ _ hv
  · exact h.slotSet _ _ _ hv
  · exact h.slotClear _ _ _ hv
  · exact h.portAttach _ _ hv
  · exact h.portDetach _ _ hv
  · exact h.portQuery _ _ hv
  · exact h.trackFormat _ _ _ hv
  · exact h.sectorRead _ _ hv
  · exact h.sectorWrite _ _ hv
  · exact h.streamBind _ _ _ hv
  · exact h.streamUnbind _ _ _ hv
  · exact h.streamStart _ _ hv
  · exact h.streamStop _ _ hv
  · exact h.streamAbort _ _ hv
  · exact h.streamQuery _ _ hv
  · exact h.extentAdd _ _ hv
  · exact h.extentClear _ _ hv
  · exact h.answer _ _ _ _ hv

theorem recordEnds (h : Kept P) (L B C pm) (hw : P w) : P (w.recordEnds L B C pm) := by
  unfold Work.recordEnds
  split
  · exact h.receiverFault _ hw
  · split
    · split
      · exact h.takeRequest (fun w hw fresh room => h.serveCode _ _ _ _ hw fresh room)
          (h.host _ _ (fun b => b) (fun b => b.same rfl) hw)
      · exact h.receiverFault _ hw
    · exact h.receiverFault _ hw

theorem receiveByte (h : Kept P) (b pm) (hw : P w) : P (w.receiveByte b pm) := by
  unfold Work.receiveByte
  dsimp only
  have g : ∀ rx, P (w.updHost fun h => { h with rx := rx }) :=
    fun rx => h.host _ _ (fun b => b) (fun b => b.same rfl) hw
  split
  · split
    · exact g _
    · exact hw
  · exact g _
  · split
    · exact g _
    · exact h.receiverFault _ hw
  · split <;> exact g _
  · exact g _
  · exact h.recordEnds _ _ _ _ hw

/-- The whole step. -/
theorem exec (h : Kept P) (c : Instr) (s t : State) (he : Machine.exec c s = .next t)
    (hs : P s.work) :
   ∃ w : Work, P w ∧ w.toState = t := by
  have A : ∀ f : Work → Work, (∀ w, P w → P (f w)) → act f s = .next t →
      ∃ w : Work, P w ∧ w.toState = t := by
    intro f hf e
    cases e
    exact ⟨_, h.settle (hf _ hs), rfl⟩
  have B : ∀ f : Work → Work, (∀ w, P w → P (f w)) → actUnlessReset f s = .next t →
      ∃ w : Work, P w ∧ w.toState = t := by
    intro f hf e
    refine A _ ?_ e
    intro w hw
    split
    · exact hw
    · exact hf w hw
  cases c with
  | hrxByte b framing permit =>
    unfold Machine.exec execHrxByte at he
    try dsimp only at he
    refine B _ (fun w hw => ?_) he
    split
    · exact hw
    · split
      · split
        · exact hw
        · exact h.receiverFault _ hw
      · exact h.receiveByte _ _ hw
  | interByteTimeout =>
    unfold Machine.exec execInterByteTimeout at he
    try dsimp only at he
    refine B _ (fun w hw => ?_) he
    split
    · exact hw
    · exact h.receiverFault _ hw
  | unknownRequest tag code payload =>
    unfold Machine.exec execUnknownRequest at he
    try dsimp only at he
    exact A _ (fun w hw => h.takeRequest (fun w hw fresh room =>
      h.serveCode _ _ _ _ hw fresh room) hw) he
  | hello =>
    unfold Machine.exec execHello at he
    try dsimp only at he
    exact A _ (fun w hw => h.takePlain (fun w hw => h.hello _ _ hw) hw) he
  | partReset =>
    unfold Machine.exec execPartReset at he
    try dsimp only at he
    exact A _ (fun w hw => h.takePlain (fun w hw => h.partReset _ _ hw) hw) he
  | noticeHold =>
    unfold Machine.exec execNoticeHold at he
    try dsimp only at he
    exact A _ (fun w hw => h.takePlain (fun w hw => h.noticeHold _ _ hw) hw) he
  | noticeRelease =>
    unfold Machine.exec execNoticeRelease at he
    try dsimp only at he
    exact A _ (fun w hw => h.takeRequest (fun w hw fresh room =>
      h.noticeRelease _ _ _ _ _ hw fresh room) hw) he
  | frameSet =>
    unfold Machine.exec execFrameSet at he
    try dsimp only at he
    exact A _ (fun w hw => h.takePlain (fun w hw => h.frameSet _ _ _ hw) hw) he
  | slotSet =>
    unfold Machine.exec execSlotSet at he
    try dsimp only at he
    exact A _ (fun w hw => h.takePlain (fun w hw => h.slotSet _ _ _ hw) hw) he
  | slotClear =>
    unfold Machine.exec execSlotClear at he
    try dsimp only at he
    exact A _ (fun w hw => h.takePlain (fun w hw => h.slotClear _ _ _ hw) hw) he
  | portAttach =>
    unfold Machine.exec execPortAttach at he
    try dsimp only at he
    exact A _ (fun w hw => h.takePlain (fun w hw => h.portAttach _ _ hw) hw) he
  | portDetach =>
    unfold Machine.exec execPortDetach at he
    try dsimp only at he
    exact A _ (fun w hw => h.takePlain (fun w hw => h.portDetach _ _ hw) hw) he
  | portQuery =>
    unfold Machine.exec execPortQuery at he
    try dsimp only at he
    exact A _ (fun w hw => h.takePlain (fun w hw => h.portQuery _ _ hw) hw) he
  | trackFormat =>
    unfold Machine.exec execTrackFormat at he
    try dsimp only at he
    exact A _ (fun w hw => h.takePlain (fun w hw => h.trackFormat _ _ _ hw) hw) he
  | sectorRead =>
    unfold Machine.exec execSectorRead at he
    try dsimp only at he
    exact A _ (fun w hw => h.takePlain (fun w hw => h.sectorRead _ _ hw) hw) he
  | sectorWrite =>
    unfold Machine.exec execSectorWrite at he
    try dsimp only at he
    exact A _ (fun w hw => h.takePlain (fun w hw => h.sectorWrite _ _ hw) hw) he
  | streamBind =>
    unfold Machine.exec execStreamBind at he
    try dsimp only at he
    exact A _ (fun w hw => h.takePlain (fun w hw => h.streamBind _ _ _ hw) hw) he
  | streamUnbind =>
    unfold Machine.exec execStreamUnbind at he
    try dsimp only at he
    exact A _ (fun w hw => h.takePlain (fun w hw => h.streamUnbind _ _ _ hw) hw) he
  | streamStart =>
    unfold Machine.exec execStreamStart at he
    try dsimp only at he
    exact A _ (fun w hw => h.takePlain (fun w hw => h.streamStart _ _ hw) hw) he
  | streamStop =>
    unfold Machine.exec execStreamStop at he
    try dsimp only at he
    exact A _ (fun w hw => h.takePlain (fun w hw => h.streamStop _ _ hw) hw) he
  | streamAbort =>
    unfold Machine.exec execStreamAbort at he
    try dsimp only at he
    exact A _ (fun w hw => h.takePlain (fun w hw => h.streamAbort _ _ hw) hw) he
  | streamQuery =>
    unfold Machine.exec execStreamQuery at he
    try dsimp only at he
    exact A _ (fun w hw => h.takePlain (fun w hw => h.streamQuery _ _ hw) hw) he
  | extentAdd =>
    unfold Machine.exec execExtentAdd at he
    try dsimp only at he
    exact A _ (fun w hw => h.takePlain (fun w hw => h.extentAdd _ _ hw) hw) he
  | extentClear =>
    unfold Machine.exec execExtentClear at he
    try dsimp only at he
    exact A _ (fun w hw => h.takePlain (fun w hw => h.extentClear _ _ hw) hw) he
  | recordSent =>
    unfold Machine.exec execRecordSent at he
    try dsimp only at he
    refine B _ (fun w hw => ?_) he
    split
    · exact h.reset _ _ _ hw
    · exact h.sent _ hw
  | resetnLow =>
    unfold Machine.exec execResetnLow at he
    try dsimp only at he
    exact A _ (fun w hw => h.low w hw) he
  | leaveReset =>
    unfold Machine.exec execLeaveReset at he
    try dsimp only at he
    exact A _ (fun w hw => h.reset _ _ _ hw) he
  | frameBoundary sync received =>
    unfold Machine.exec execFrameBoundary at he
    try dsimp only at he
    refine B _ (fun w hw => ?_) he
    split
    · exact h.frameEnd _ hw
    · split_ifs
      · exact h.frameEnd _ (h.frame _ _ rfl rfl rfl (fun _ => bounded_state nofun) hw)
      · exact h.frameChange _ _ (fun _ _ e => by cases e; rfl) hw
      · exact h.frameEnd _ (h.frame _ _ rfl rfl rfl (fun _ => bounded_state nofun) hw)
    · exact hw
  | frameSyncSeeking low fsy =>
    unfold Machine.exec execFrameSyncSeeking at he
    try dsimp only at he
    refine B _ (fun w hw => ?_) he
    split
    · rename_i run bits hst
      split
      · rename_i hl
        rw [hl]
        exact h.frameChange _ _ nofun hw
      · refine h.frame w (fun f => { f with state := _ }) rfl rfl rfl (fun _ r b e => ?_) hw
        rw [hst] at e
        exact sample_bounded _ _ _ _ _ _ _ e
    · exact hw
  | bitClockStopped =>
    unfold Machine.exec execBitClockStopped at he
    try dsimp only at he
    refine B _ (fun w hw => ?_) he
    split
    · exact h.frameChange _ _ (fun _ _ e => by cases e; rfl) hw
    · exact hw
  | ident p c hd sc rd =>
    unfold Machine.exec execIdent at he
    try dsimp only at he
    refine B _ (fun w hw => ?_) he
    split
    · split
      · exact h.identAttach _ _ _ hw
      · exact h.identReturn _ _ _ hw
      · exact hw
    · exact hw
  | identifyTimeout p =>
    unfold Machine.exec execIdentifyTimeout at he
    try dsimp only at he
    refine B _ (fun w hw => ?_) he
    split
    · split
      · exact h.failAttach _ _ _ hw
      · exact h.port _ _ _ (fun b => b) hw
      · exact hw
    · exact hw
  | ready p =>
    unfold Machine.exec execReady at he
    try dsimp only at he
    refine B _ (fun w hw => ?_) he
    split
    · exact h.port _ _ _ (fun b => b) hw
    · exact hw
  | notReady p =>
    unfold Machine.exec execNotReady at he
    try dsimp only at he
    refine B _ (fun w hw => ?_) he
    split
    · exact h.goOffline _ _ hw
    · split
      · exact h.failAttach _ _ _ hw
      · exact h.failAttach _ _ _ hw
      · split
        · exact h.port _ _ _ (fun b => b) hw
        · exact hw
      · split
        · exact h.cutDetached _ hw
        · exact hw
      · exact hw
  | positioned p c =>
    unfold Machine.exec execPositioned at he
    try dsimp only at he
    refine B _ (fun w hw => ?_) he
    split
    · split
      · exact h.port _ _ _ (Port.arrive_bounded _) hw
      · exact hw
    · split
      · exact h.restored _ hw
      · exact hw
    · exact hw
  | positionFault p =>
    unfold Machine.exec execPositionFault at he
    try dsimp only at he
    refine B _ (fun w hw => ?_) he
    split
    · exact h.failPositioning _ hw
    · exact h.restoreFailed _ hw
    · exact hw
  | positioningTimeout p =>
    unfold Machine.exec execPositioningTimeout at he
    try dsimp only at he
    refine B _ (fun w hw => ?_) he
    split
    · exact h.failPositioning _ hw
    · exact hw
  | restoreTimeout p =>
    unfold Machine.exec execRestoreTimeout at he
    try dsimp only at he
    refine B _ (fun w hw => ?_) he
    split
    · exact h.restoreFailed _ hw
    · exact hw
  | markTimeout p =>
    unfold Machine.exec execMarkTimeout at he
    try dsimp only at he
    refine B _ (fun w hw => ?_) he
    split
    · exact h.goOffline _ _ hw
    · split
      · exact h.cutDetached _ hw
      · exact hw
  | sectorMark marks =>
    unfold Machine.exec execSectorMark at he
    try dsimp only at he
    refine B _ (fun w hw => ?_) he
    refine Closed.fold (fun w p hw => ?_) _ hw
    split
    · exact h.takeMark _ _ hw
    · exact hw
  | headerRead header permit =>
    unfold Machine.exec execHeaderRead at he
    try dsimp only at he
    refine B _ (fun w hw => ?_) he
    split
    · exact hw
    · split_ifs
      · exact h.headerMismatch _ _ hw
      · exact h.engineComplete _ _ _ hw
      · exact h.engine _ _ hw
      · exact h.engine _ _ hw
  | writeData =>
    unfold Machine.exec execWriteData at he
    try dsimp only at he
    refine B _ (fun w hw => ?_) he
    split
    · exact hw
    · exact h.engineComplete _ _ _ (h.port _ _ _ (fun b => b) hw)
  | readData payload trailer =>
    unfold Machine.exec execReadData at he
    refine B _ (fun w hw => ?_) he
    split
    · exact hw
    · rename_i p e _
      have h1 : P (match e.kind.page with
        | some page => w.updMem (·.writePage page payload.toList)
        | none => w) := by
        split
        · exact h.mem _ (·.writePage _ payload.toList) (fun hm => Memory.wf_writePage _ _ hm) hw
        · exact hw
      have key : ∀ v : Work, P v → P (
          if dataCheckAgrees payload.toList trailer.toList = true then
            v.engineComplete p e
              { result := .ok, trailer := trailerOf trailer.toList, flags := v.engine.flags }
          else v.dataMismatch p e (trailerOf trailer.toList)) := by
        intro v hv
        split
        · exact h.engineComplete _ _ _ hv
        · exact h.dataMismatch _ _ _ hv
      exact key _ h1

end Kept

end Sys2Proof.Machine
end

