-- ==== Sys2Proof/Laws/Exec.lean ====
section
/-! SUPPORT. What a command's step is: the arm of each command, the step of a command that sends no
message, and the step of a request that is taken and answered at once. -/

namespace Sys2Proof.Machine

/-! ### The steps of commands -/

/-- A command's step: its own work, then every message. -/
theorem act_eq (f : Work → Work) (s : State) : act f s = .next (f s.work).settle.toState := rfl

/-- The step of a command whose work is known and sends no message. -/
theorem act_of_eq {f : Work → Work} {s : State} {w : Work} (e : f s.work = w)
    (quiet : w.agenda = []) : act f s = .next w.toState := by
  rw [act_eq, e, Work.settle_idle quiet]

/-- The same for a command that a part held in reset does not take. -/
theorem actUnlessReset_of_eq {f : Work → Work} {s : State} {w : Work} (high : s.resetLow = false)
    (e : f s.work = w) (quiet : w.agenda = []) : actUnlessReset f s = .next w.toState := by
  rw [actUnlessReset_high high, act_of_eq e quiet]

/-- A request that meets R147 (3) is served in its slot. -/
theorem act_takeRequest {s : State} {tag code : Byte} {serve : Work → Work} (h : s.Takes tag) :
    act (·.takeRequest tag code serve) s = act serve (s.inService tag code) := by
  rw [act_eq, act_eq,
    Work.takeRequest_taken (w := s.work) h.high h.noReset h.fresh h.room]
  rfl

/-- A request whose service changes the state to `t`, none of the host line, and then answers. -/
theorem act_answered {s t : State} {tag code : Byte} (h : s.Takes tag) {serve : Work → Work}
    {r : Result} {payload : List Byte} (line : t.host = s.host)
    (e : serve (s.inService tag code).work = (t.inService tag code).work.answer tag r payload) :
    act (·.takeRequest tag code serve) s = .next (t.replied tag code r payload) := by
  have fresh : t.work.host.inProgress tag = false := by
    rw [show t.work.host = s.host from line]
    exact h.fresh
  have reply : (t.inService tag code).work.answer tag r payload =
      (t.replied tag code r payload).work := Work.take_answer fresh
  rw [act_takeRequest h, act_eq, e, reply, Work.settle_idle rfl]
  rfl

/-! ### The arms of the dispatch -/

theorem exec_hrxByte (b : Byte) (framing permit : Bool) (s : State) :
    exec (.hrxByte b framing permit) s = execHrxByte b framing permit s := rfl

theorem exec_interByteTimeout (s : State) :
    exec .interByteTimeout s = execInterByteTimeout s := rfl

theorem exec_unknownRequest (tag code : Byte) (payload : List Byte) (s : State) :
    exec (.unknownRequest tag code payload) s = execUnknownRequest tag code payload s := rfl

theorem exec_hello (tag : Byte) (payload : List Byte) (s : State) :
    exec (.hello tag payload) s = execHello tag payload s := rfl

theorem exec_partReset (tag : Byte) (payload : List Byte) (s : State) :
    exec (.partReset tag payload) s = execPartReset tag payload s := rfl

theorem exec_noticeHold (tag : Byte) (payload : List Byte) (s : State) :
    exec (.noticeHold tag payload) s = execNoticeHold tag payload s := rfl

theorem exec_noticeRelease (tag : Byte) (payload : List Byte) (s : State) :
    exec (.noticeRelease tag payload) s = execNoticeRelease tag payload s := rfl

theorem exec_frameSet (tag : Byte) (payload : List Byte) (s : State) :
    exec (.frameSet tag payload) s = execFrameSet tag payload s := rfl

theorem exec_slotSet (tag : Byte) (payload : List Byte) (s : State) :
    exec (.slotSet tag payload) s = execSlotSet tag payload s := rfl

theorem exec_slotClear (tag : Byte) (payload : List Byte) (s : State) :
    exec (.slotClear tag payload) s = execSlotClear tag payload s := rfl

theorem exec_portAttach (tag : Byte) (payload : List Byte) (s : State) :
    exec (.portAttach tag payload) s = execPortAttach tag payload s := rfl

theorem exec_portDetach (tag : Byte) (payload : List Byte) (s : State) :
    exec (.portDetach tag payload) s = execPortDetach tag payload s := rfl

theorem exec_portQuery (tag : Byte) (payload : List Byte) (s : State) :
    exec (.portQuery tag payload) s = execPortQuery tag payload s := rfl

theorem exec_trackFormat (tag : Byte) (payload : List Byte) (permit : Bool) (s : State) :
    exec (.trackFormat tag payload permit) s = execTrackFormat tag payload permit s := rfl

theorem exec_sectorRead (tag : Byte) (payload : List Byte) (s : State) :
    exec (.sectorRead tag payload) s = execSectorRead tag payload s := rfl

theorem exec_sectorWrite (tag : Byte) (payload : List Byte) (s : State) :
    exec (.sectorWrite tag payload) s = execSectorWrite tag payload s := rfl

theorem exec_streamBind (tag : Byte) (payload : List Byte) (s : State) :
    exec (.streamBind tag payload) s = execStreamBind tag payload s := rfl

theorem exec_streamUnbind (tag : Byte) (payload : List Byte) (s : State) :
    exec (.streamUnbind tag payload) s = execStreamUnbind tag payload s := rfl

theorem exec_streamStart (tag : Byte) (payload : List Byte) (s : State) :
    exec (.streamStart tag payload) s = execStreamStart tag payload s := rfl

theorem exec_streamStop (tag : Byte) (payload : List Byte) (s : State) :
    exec (.streamStop tag payload) s = execStreamStop tag payload s := rfl

theorem exec_streamAbort (tag : Byte) (payload : List Byte) (s : State) :
    exec (.streamAbort tag payload) s = execStreamAbort tag payload s := rfl

theorem exec_streamQuery (tag : Byte) (payload : List Byte) (s : State) :
    exec (.streamQuery tag payload) s = execStreamQuery tag payload s := rfl

theorem exec_extentAdd (tag : Byte) (payload : List Byte) (s : State) :
    exec (.extentAdd tag payload) s = execExtentAdd tag payload s := rfl

theorem exec_extentClear (tag : Byte) (payload : List Byte) (s : State) :
    exec (.extentClear tag payload) s = execExtentClear tag payload s := rfl

theorem exec_recordSent (spd1 spd0 : Bool) (s : State) :
    exec (.recordSent spd1 spd0) s = execRecordSent spd1 spd0 s := rfl

theorem exec_resetnLow (s : State) :
    exec .resetnLow s = execResetnLow s := rfl

theorem exec_leaveReset (spd1 spd0 : Bool) (s : State) :
    exec (.leaveReset spd1 spd0) s = execLeaveReset spd1 spd0 s := rfl

theorem exec_frameBoundary (sync : Bool) (received : Vector Byte 64) (s : State) :
    exec (.frameBoundary sync received) s = execFrameBoundary sync received s := rfl

theorem exec_frameSyncSeeking (low : Nat) (fsy : Bool) (s : State) :
    exec (.frameSyncSeeking low fsy) s = execFrameSyncSeeking low fsy s := rfl

theorem exec_bitClockStopped (s : State) :
    exec .bitClockStopped s = execBitClockStopped s := rfl

theorem exec_ident (port : PortNo) (cylinders : Half) (heads sectors : Byte) (ready : Bool)
    (s : State) : exec (.ident port cylinders heads sectors ready) s =
      execIdent port cylinders heads sectors ready s := rfl

theorem exec_identifyTimeout (port : PortNo) (s : State) :
    exec (.identifyTimeout port) s = execIdentifyTimeout port s := rfl

theorem exec_ready (port : PortNo) (s : State) :
    exec (.ready port) s = execReady port s := rfl

theorem exec_notReady (port : PortNo) (s : State) :
    exec (.notReady port) s = execNotReady port s := rfl

theorem exec_positioned (port : PortNo) (cylinder : Half) (s : State) :
    exec (.positioned port cylinder) s = execPositioned port cylinder s := rfl

theorem exec_positionFault (port : PortNo) (s : State) :
    exec (.positionFault port) s = execPositionFault port s := rfl

theorem exec_positioningTimeout (port : PortNo) (s : State) :
    exec (.positioningTimeout port) s = execPositioningTimeout port s := rfl

theorem exec_restoreTimeout (port : PortNo) (s : State) :
    exec (.restoreTimeout port) s = execRestoreTimeout port s := rfl

theorem exec_markTimeout (port : PortNo) (s : State) :
    exec (.markTimeout port) s = execMarkTimeout port s := rfl

theorem exec_sectorMark (marks : List (PortNo × Byte)) (s : State) :
    exec (.sectorMark marks) s = execSectorMark marks s := rfl

theorem exec_headerRead (header : Vector Byte 7) (permit : Bool) (s : State) :
    exec (.headerRead header permit) s = execHeaderRead header permit s := rfl

theorem exec_writeData (s : State) :
    exec .writeData s = execWriteData s := rfl

theorem exec_readData (payload : Vector Byte 512) (trailer : Vector Byte 12) (s : State) :
    exec (.readData payload trailer) s = execReadData payload trailer s := rfl

end Sys2Proof.Machine
end

