-- ==== Sys2Proof/Laws/Reserve.lean ====
section
/-! SUPPORT. The primitive changes of streams, ports and pool keep the reserve accounting of R25 and
the slot maps of R65. -/

namespace Sys2Proof.Machine

/-! ### The accounting, in the work in hand -/

/-- The reserve accounting, said of the work in hand. -/
structure Work.Reserved (w : Work) : Prop where
  ranges : ∀ i c, (w.stream i).settings = some c → c.InRange
  free : ∀ i, (w.stream i).state = .free → (w.stream i).settings = none
  sum : w.reserveSum ≤ 480
  margin : w.reserveNeed ≤ w.freeCount

theorem Work.reserved_iff (w : Work) : w.toState.Reserved ↔ w.Reserved :=
  ⟨fun h => ⟨h.ranges, h.free, h.sum, h.margin⟩, fun h => ⟨h.ranges, h.free, h.sum, h.margin⟩⟩

/-- A stream whose settings are absent adds nothing to the need. -/
theorem Work.shortfall_eq {w : Work} (h : w.Reserved) (i : StreamNo) :
    w.shortfall i = (w.stream i).cfg.reserve - w.held i := by
  unfold Work.shortfall
  split
  · rename_i hf
    simp [Stream.cfg, h.free i hf, Settings.absent]
  · rfl

/-- What one stream adds to the sum of reserves. -/
theorem Work.reserve_eq {w : Work} (h : ∀ i, (w.stream i).state = .free →
      (w.stream i).settings = none) (i : StreamNo) :
    (if (w.stream i).state = .free then 0 else (w.stream i).cfg.reserve) =
      (w.stream i).cfg.reserve := by
  split
  · rename_i hf
    simp [Stream.cfg, h i hf, Settings.absent]
  · rfl

theorem Work.reserveSum_eq {w : Work} (h : ∀ i, (w.stream i).state = .free →
      (w.stream i).settings = none) :
    w.reserveSum = (streamNos.map fun i => (w.stream i).cfg.reserve).sum := by
  unfold Work.reserveSum
  rw [List.map_congr_left fun i _ => Work.reserve_eq h i]

theorem Work.reserveNeed_eq' {w : Work} (h : ∀ i, (w.stream i).state = .free →
      (w.stream i).settings = none) :
    w.reserveNeed = (streamNos.map fun i => (w.stream i).cfg.reserve - w.held i).sum := by
  rw [Work.reserveNeed_eq]
  refine congrArg List.sum (List.map_congr_left fun i _ => ?_)
  unfold Work.shortfall
  split
  · rename_i hf
    simp [Stream.cfg, h i hf, Settings.absent]
  · rfl

/-- The accounting depends on the settings, the held counts and the free count alone. -/
theorem Work.Reserved.congr {w v : Work} (h : w.Reserved)
    (hs : ∀ i, (v.stream i).settings = (w.stream i).settings)
    (hf : ∀ i, (v.stream i).state = .free → (w.stream i).state = .free)
    (hn : v.pool.held = w.pool.held) (hc : v.freeCount = w.freeCount) : v.Reserved := by
  have free : ∀ i, (v.stream i).state = .free → (v.stream i).settings = none :=
    fun i e => (hs i).trans (h.free i (hf i e))
  have cfg : ∀ i, (v.stream i).cfg = (w.stream i).cfg := fun i => by simp only [Stream.cfg, hs]
  refine ⟨fun i c e => h.ranges i c ((hs i) ▸ e), free, ?_, ?_⟩
  · rw [Work.reserveSum_eq free]
    simp only [cfg]
    rw [← Work.reserveSum_eq h.free]
    exact h.sum
  · rw [Work.reserveNeed_eq' free, hc]
    simp only [cfg, Work.held, hn]
    have := h.margin
    rw [Work.reserveNeed_eq' h.free] at this
    exact this

/-- One stream's held count changes: the need and the free count change with it. -/
theorem Work.Reserved.held {w v : Work} (h : w.Reserved) (i : StreamNo)
    (hs : v.streams = w.streams) (hn : ∀ j, j ≠ i → v.held j = w.held j)
    (margin : w.reserveNeed + ((w.stream i).cfg.reserve - v.held i) ≤
      v.freeCount + ((w.stream i).cfg.reserve - w.held i)) : v.Reserved := by
  have st : ∀ j, v.stream j = w.stream j := fun j => by simp only [Work.stream, hs]
  have free : ∀ j, (v.stream j).state = .free → (v.stream j).settings = none := fun j => by
    rw [st]; exact h.free j
  refine ⟨fun j c e => h.ranges j c (by rw [← st]; exact e), free, ?_, ?_⟩
  · rw [Work.reserveSum_eq free]
    simp only [st]
    rw [← Work.reserveSum_eq h.free]
    exact h.sum
  · have hchange := sum_map_change streamNos nodup_streamNos (mem_streamNos i)
      (fun j => (v.stream j).cfg.reserve - v.held j) (fun j => (w.stream j).cfg.reserve - w.held j)
      (fun j hj => by simp only [st, hn j hj])
    rw [← Work.reserveNeed_eq' free, ← Work.reserveNeed_eq' h.free] at hchange
    simp only [st] at hchange
    omega

/-- No stream's held count changes: the free count alone decides. -/
theorem Work.Reserved.count {w v : Work} (h : w.Reserved) (hs : v.streams = w.streams)
    (hn : v.pool.held = w.pool.held) (margin : w.reserveNeed ≤ v.freeCount) : v.Reserved := by
  refine h.held 0 hs (fun j _ => by simp only [Work.held, hn]) ?_
  simp only [Work.held, hn]
  omega

theorem Work.held_set (w : Work) (i j : StreamNo) (n : Nat) (f : Pool → Pool)
    (hf : (f w.pool).held = w.pool.held.set i n) :
    (w.updPool f).held j = if i = j then n else w.held j := by
  by_cases h : i = j
  · subst h; simp [Work.held, hf]
  · have : i.val ≠ j.val := fun e => h (Fin.ext e)
    simp [Work.held, hf, h, this]

theorem closed_reserved : Closed Work.Reserved where
  stream w i f hf h := by
    have key : ∀ j, ((w.updStream i f).stream j).settings = (w.stream j).settings ∧
        (((w.updStream i f).stream j).state = .free → (w.stream j).state = .free) := fun j => by
      rw [Work.stream_updStream]
      split
      · subst_vars; exact ⟨hf.settings, hf.free⟩
      · exact ⟨rfl, fun e => e⟩
    exact h.congr (fun j => (key j).1) (fun j => (key j).2) rfl rfl
  port w p f _ h := h.congr (fun _ => rfl) (fun _ e => e) rfl rfl
  claim w i p w' hc h := by
    obtain ⟨rest, hfree, hg, e⟩ := Work.claim_cases hc
    subst e
    have hheld : ∀ j, (w.updPool fun pool => { pool with
        free := rest, mem := pool.mem.clearPage p
        held := pool.held.set i (pool.held[i] + 1) }).held j =
          if i = j then w.held i + 1 else w.held j := fun j => Work.held_set w i j _ _ rfl
    refine h.held i rfl (fun j hj => by rw [hheld, if_neg (Ne.symm hj)]) ?_
    rw [hheld, if_pos rfl]
    have hm := h.margin
    have hcount : w.freeCount = rest.length + 1 := by simp [Work.freeCount, hfree]
    show w.reserveNeed + _ ≤ rest.length + _
    simp only [Work.grants, Bool.or_eq_true, Bool.and_eq_true, decide_eq_true_eq] at hg
    omega
  claimHost w p w' hc h := by
    obtain ⟨rest, hfree, hlt, e⟩ := Work.claimHost_cases hc
    subst e
    have hcount : w.freeCount = rest.length + 1 := by simp [Work.freeCount, hfree]
    refine h.count rfl rfl ?_
    show w.reserveNeed ≤ rest.length
    omega
  freed w i pages h := by
    have hheld : ∀ j, (w.updPool fun pool => { pool with
        free := pool.free ++ pages
        held := pool.held.set i (pool.held[i] - pages.length) }).held j =
          if i = j then w.held i - pages.length else w.held j :=
      fun j => Work.held_set w i j _ _ rfl
    refine h.held i rfl (fun j hj => by rw [hheld, if_neg (Ne.symm hj)]) ?_
    rw [hheld, if_pos rfl]
    have hm : w.reserveNeed ≤ w.pool.free.length := h.margin
    show w.reserveNeed + _ ≤ (w.pool.free ++ pages).length + _
    rw [List.length_append]
    omega
  freedHost w p h := by
    refine h.count rfl rfl ?_
    have hm := h.margin
    have hcount : (w.updPool fun pool =>
        { pool with free := pool.free ++ [p], hostCount := pool.hostCount - 1 }).freeCount =
          w.freeCount + 1 := by simp [Work.freeCount]
    omega
  waits w f h := h.congr (fun _ => rfl) (fun _ e => e) rfl rfl
  mem w f _ h := h.congr (fun _ => rfl) (fun _ e => e) rfl rfl
  raise w n h := h.congr (fun _ => rfl) (fun _ e => e) rfl rfl
  answer w _ _ _ h := h.congr (fun _ => rfl) (fun _ e => e) rfl rfl
  agenda w _ h := h.congr (fun _ => rfl) (fun _ e => e) rfl rfl
  picks w _ h := h.congr (fun _ => rfl) (fun _ e => e) rfl rfl
  serial w _ h := h.congr (fun _ => rfl) (fun _ e => e) rfl rfl
  send w _ h := h.congr (fun _ => rfl) (fun _ e => e) rfl rfl

/-! ### The settings and the slot maps -/

/-- The settings of every stream are those of another state, and the frame port is the same. -/
def Work.SameSettings (w v : Work) : Prop :=
  (∀ i, (w.stream i).settings = (v.stream i).settings ∧
    ((w.stream i).state = .free → (v.stream i).state = .free)) ∧ w.frame.Same v.frame

theorem closed_sameSettings (v : Work) : Closed fun w => w.SameSettings v where
  stream w i f hf h := by
    refine ⟨fun j => ?_, h.2⟩
    rw [Work.stream_updStream]
    split
    · subst_vars
      exact ⟨hf.settings.trans (h.1 _).1, fun e => (h.1 _).2 (hf.free e)⟩
    · exact h.1 j
  port _ _ _ _ h := h
  claim w i p w' hc h := by
    obtain ⟨_, _, _, e⟩ := Work.claim_cases hc
    subst e; exact h
  claimHost w p w' hc h := by
    obtain ⟨_, _, _, e⟩ := Work.claimHost_cases hc
    subst e; exact h
  freed _ _ _ h := h
  freedHost _ _ h := h
  waits _ _ h := h
  mem _ _ _ h := h
  raise _ _ h := h
  answer _ _ _ _ h := h
  agenda _ _ h := h
  picks _ _ h := h
  serial _ _ h := h
  send _ _ h := h

/-- The end of a step changes no stream's settings and frees no stream. -/
theorem Work.settle_sameSettings (w : Work) : w.settle.SameSettings w :=
  (closed_sameSettings w).settle ⟨fun _ => ⟨rfl, fun e => e⟩, rfl⟩

end Sys2Proof.Machine
end

