-- ==== Sys2Proof/WellFormed.lean ====
section
/-! DEFINITION. Which terms of `Instr` stand for something the outside can send: a request row
carries at most what one record holds (R145, R159), UNKNOWN_REQUEST a code that is in no row of
Table 10.2 (R149), and SECTOR_MARK at least one mark and at most one from each drive. -/

namespace Sys2Proof

/-- The largest payload of a request: the body is at most 560 bytes, kind, tag and code among them
(R145, R159). -/
def maxPayload : Nat := 557

/-- A payload that a record can carry. -/
def payloadFits (payload : List Byte) : Bool := decide (payload.length ≤ maxPayload)

/-- The marks of one moment: at least one, in ascending port number, one for a port. -/
def marksOrdered (marks : List (PortNo × Byte)) : Bool :=
  !marks.isEmpty && decide (marks.Pairwise fun a b => a.1 < b.1)

/-- The command can arrive from outside. -/
def Instr.wellFormed : Instr → Bool
  | .unknownRequest _ code payload =>
    (Machine.requestLength code).isNone && payloadFits payload
  | .hello _ p | .partReset _ p | .noticeHold _ p | .noticeRelease _ p | .frameSet _ p
  | .slotSet _ p | .slotClear _ p | .portAttach _ p | .portDetach _ p | .portQuery _ p
  | .trackFormat _ p _ | .sectorRead _ p | .sectorWrite _ p | .streamBind _ p
  | .streamUnbind _ p | .streamStart _ p | .streamStop _ p | .streamAbort _ p
  | .streamQuery _ p | .extentAdd _ p | .extentClear _ p => payloadFits p
  | .sectorMark marks => marksOrdered marks
  | .hrxByte .. | .interByteTimeout | .recordSent .. | .resetnLow | .leaveReset ..
  | .frameBoundary .. | .frameSyncSeeking .. | .bitClockStopped | .ident ..
  | .identifyTimeout _ | .ready _ | .notReady _ | .positioned .. | .positionFault _
  | .positioningTimeout _ | .restoreTimeout _ | .markTimeout _ | .headerRead ..
  | .writeData | .readData .. => true

end Sys2Proof
end

