-- ==== Sys2Proof/Tests/Slice0.lean ====
section
/-! SUPPORT. Tests of the model's own: ill-formed commands refused, the manual's worked values, and
for each statement with hypotheses a concrete state and operands that meet them, clause by clause at
the ends of their ranges. -/

namespace Sys2Proof.Tests

open Machine

-- Each test waits for the kernel; one after another, so that they do not all wait at once.
set_option Elab.async false

/-! ### Well-formedness: an ill-formed term for each check -/

theorem test_payload_fits : (Instr.hello 9 (List.replicate 557 0)).wellFormed = true := by
  decide +kernel

theorem test_payload_too_long_refused :
    (Instr.hello 9 (List.replicate 558 0)).wellFormed = false := by decide +kernel

theorem test_known_code_is_not_unknown : (Instr.unknownRequest 9 0x01 []).wellFormed = false := by
  decide

theorem test_marks_of_nobody_refused : (Instr.sectorMark []).wellFormed = false := by decide

theorem test_marks_out_of_order_refused :
    (Instr.sectorMark [(2, 5), (1, 5)]).wellFormed = false := by decide

theorem test_two_marks_of_one_port_refused :
    (Instr.sectorMark [(1, 5), (1, 6)]).wellFormed = false := by decide

/-! ### Worked values of the manual -/

/-- Section 10.2: the two references. -/
theorem test_check_of_zero : crc [0x00] = 0xE1F0 := by decide +kernel

theorem test_check_of_digits :
    crc [0x31, 0x32, 0x33, 0x34, 0x35, 0x36, 0x37, 0x38, 0x39] = 0x29B1 := by decide +kernel

/-! ### States to test with -/

def tag : Byte := 9

def cap : Settings := ⟨.capture, 5, 4, 2, 1, .halt, 0x7E, 3, 2⟩

def rep : Settings := ⟨.replay, 6, 4, 2, 1, .goOn, 0x7E, 3, 2⟩

def bound (c : Settings) : Stream := { state := .bound, settings := some c }

def geo : Geometry := ⟨100, 4, 32⟩

def idlePort : Port :=
  { state := .idle, geometry := some geo, curCyl := some 3, lastMark := some 5 }

/-- A host line with two requests in progress, a reply being sent and a notice waiting. -/
def busyLine : HostLine where
  slots := [⟨1, 0x29, .transfers⟩, ⟨2, 0x33, .streams⟩]
  replies := [⟨4, 1, .ok, []⟩]
  tx := .reply
  notices := [⟨0, .lineFault 3 8 .check⟩, ⟨1, .frameChange true .s32 .none⟩]
  noticeNumber := 2
  lineFaults := 8

def base : State := { State.reset with host := busyLine }

def onLine (h : HostLine) : State := { State.reset with host := h }

def receive (s : State) (l : List SlotNo) (i : StreamNo) : State :=
  { s with frame := { s.frame with
    rxMap := l.foldl (fun m n => m.set n.val (some i) n.isLt) s.frame.rxMap } }

def transmit (s : State) (l : List SlotNo) (i : StreamNo) : State :=
  { s with frame := { s.frame with
    txMap := l.foldl (fun m n => m.set n.val (some i) n.isLt) s.frame.txMap } }

def framed (s : State) (st : FrameState) : State :=
  { s with frame := { s.frame with state := st } }

def holding (s : State) (i : StreamNo) (n : Nat) : State :=
  { s with pool := { s.pool with held := s.pool.held.set i n } }

def pages (s : State) (l : List PageNo) : State := { s with pool := { s.pool with free := l } }

def engaged (s : State) (p : PortNo) (phase : Phase) : State :=
  { s with engine := ⟨some p, phase, 0⟩ }

/-- The trailer of a full sector of `rep`'s recording. -/
def trailer : Trailer := ⟨6, 2, 5, 512⟩

/-- Entries of port 1 on cylinder 3: sectors 16 to 19 of head 0, and the track of head 1. -/
def entry (serial : Nat) (kind : EntryKind) (sector : Nat) : Entry :=
  { serial := serial, kind := kind, port := 1, lba := some (384 + sector), cyl := 3, head := 0
    sector := sector }

def hostRead : Entry := entry 6 (.hostRead 1 40) 16
def streamRead : Entry := entry 7 (.streamRead 3 41) 17
def hostWrite : Entry := entry 8 (.hostWrite 1 42 trailer true) 18
def streamWrite : Entry := entry 9 (.streamWrite 3 43 trailer false) 19
def format : Entry := { entry 5 (.format 1 true) 0 with lba := none, head := 1 }

def active (e : Entry) : Entry := { e with active := true }

/-- What a request needs to be taken into a slot (R147), as one condition. -/
def takes (s : State) (t : Byte) : Bool :=
  !s.resetLow && !s.host.resetPending && !s.host.inProgress t && decide (s.host.load < 8)

theorem takes_of {s : State} {t : Byte} (h : takes s t = true) : s.Takes t := by
  simp only [takes, Bool.and_eq_true, Bool.not_eq_true', decide_eq_true_eq] at h
  exact ⟨h.1.1.1, h.1.1.2, h.1.2, h.2⟩

theorem test_base_takes : base.Takes tag := takes_of (by decide +kernel)

/-- The state a command leads to. -/
def run (c : Instr) (s : State) : State :=
  match exec c s with
  | .next t => t
  | .fault _ => s
  | .refused _ => s

/-- The last reply queued. -/
def lastReply (s : State) : Option Reply := s.host.replies.getLast?

/-- The last notice queued. -/
def lastNotice (s : State) : Option Notice := s.host.notices.getLast?.map (·.notice)

/-! ### Single steps of the manual's examples -/

/-- Section 4.7: streams 3 and 4 BOUND for capture, 9 for replay, 11 FREE; receive slots 6 and 7
named. -/
def mapped : State :=
  receive (((base.withStream 3 (bound cap)).withStream 4 (bound cap)).withStream 9 (bound rep))
    [6, 7] 3

theorem test_slot_set_maps :
    lastReply (run (.slotSet tag [6, 1, 9]) mapped) = some ⟨tag, 0x11, .ok, [6, 1, 9, 1]⟩ ∧
    (run (.slotSet tag [6, 1, 9]) mapped).frame.txMap[6] = some 9 := by decide +kernel

theorem test_slot_set_taken :
    lastReply (run (.slotSet tag [6, 0, 4]) mapped) = some ⟨tag, 0x11, .slotTaken, []⟩ := by
  decide +kernel

theorem test_slot_clear_unmaps :
    lastReply (run (.slotClear tag [7, 0]) mapped) = some ⟨tag, 0x12, .ok, [7, 0, 3, 1]⟩ := by
  decide +kernel

theorem test_frame_set_with_an_active_stream :
    lastReply (run (.frameSet tag [1, 64])
      (mapped.withStream 3 { bound cap with state := .running })) =
      some ⟨tag, 0x10, .state, []⟩ := by decide +kernel

/-- Section 4.8: the fourth sync, 256 bits after the third, locks, and one a bit early does not; the
second missed sync is the loss. -/
theorem test_fourth_sync_locks :
    (run (.frameSyncSeeking 255 true) (framed base (.seeking 3 1))).frame.state = .locked false := by
  decide +kernel

theorem test_early_sync_begins_anew :
    (run (.frameSyncSeeking 254 true) (framed base (.seeking 3 1))).frame.state = .seeking 1 1 := by
  decide +kernel

theorem test_second_missed_sync_is_the_loss :
    (run (.frameBoundary false (Vector.replicate 64 1)) (framed base (.locked true))).frame.state =
      .seeking 0 0 ∧
    lastNotice (run (.frameBoundary false (Vector.replicate 64 1)) (framed base (.locked true))) =
      some (.frameChange false .s32 .sync) := by decide +kernel

theorem test_stopped_clock_is_the_loss :
    lastNotice (run .bitClockStopped (framed base (.locked false))) =
      some (.frameChange false .s32 .clock) := by decide +kernel

/-- Section 9.7: six slots busy and a reply being sent. -/
def burst : State := onLine {
  slots := [⟨1, 0x20, .drivePorts⟩, ⟨2, 0x20, .drivePorts⟩, ⟨3, 0x29, .transfers⟩,
    ⟨4, 0x29, .transfers⟩, ⟨5, 0x33, .streams⟩, ⟨6, 0x33, .streams⟩]
  replies := [⟨7, 0x35, .ok, []⟩], tx := .reply }

theorem test_tag_in_progress_rejected :
    (run (.hello 3 []) burst).host.rejections = [⟨3, 0x01, true⟩] := by decide +kernel

theorem test_ninth_request_rejected :
    (run (.hello 9 []) (run (.streamQuery 8 [0]) burst)).host.rejections = [⟨9, 0x01, false⟩] := by
  decide +kernel

/-- Section 9.8: the release reports 32 notices and 3 missed; the first notice carries the 3. -/
def held : State := onLine {
  notices := (List.range 32).map fun n => ⟨n, .frameChange true .s32 .none⟩
  noticeNumber := 32, noticeHold := true, missed := 3 }

theorem test_release_reports :
    lastReply (run (.noticeRelease 2 []) held) = some ⟨2, 0x04, .ok, [32, 3]⟩ := by decide +kernel

theorem test_first_notice_carries_the_missed_count :
    (run (.recordSent false false) (run (.noticeRelease 2 []) held)).host.tx = .notice 3 := by
  decide +kernel

/-- R154: the reply to HELLO with the straps at 1 000 000 bit/s. -/
theorem test_hello :
    lastReply (run (.hello tag []) (onLine { lineSpeed := .b1000000, lineFaults := 258 })) =
      some ⟨tag, 0x01, .ok, [0x04, 0x16, 1, 16, 2, 0, 4, 64, 8, 2, 0, 1, 2]⟩ := by decide +kernel

/-- A record byte by byte: 0xA5, length 3, HELLO with tag 9, its check. -/
theorem test_record_of_bytes :
    (([0xA5, 0, 3, 1, 9, 1] ++ crcBytes [0, 3, 1, 9, 1]).foldl
      (fun s b => run (.hrxByte b false true) s) (onLine {})).host.replies.length = 1 := by
  decide +kernel

theorem test_bad_check_is_a_line_fault :
    lastNotice ([0xA5, 0, 3, 1, 9, 1, 0, 0].foldl
      (fun s b => run (.hrxByte b false true) s) (onLine {})) =
      some (.lineFault 1 1 .check) := by decide +kernel

/-- Section 7.9: entries c, a and b at cylinder 10 after mark 5. -/
def ring : Port :=
  let e (serial cyl head sector passed : Nat) : Entry :=
    { serial := serial, kind := .hostRead 1 5, port := 1, lba := some 0, cyl := cyl, head := head
      sector := sector, passed := passed }
  { state := .waitSector, geometry := some ⟨1024, 4, 32⟩, curCyl := some 10, lastMark := some 5
    queue := [e 1 40 1 3 7, e 2 10 0 20 3, e 3 10 2 8 0] }

theorem test_soonest_sector_is_chosen : ring.choose.chosen = some 3 := by decide +kernel

theorem test_aged_entry_is_served_first :
    (Port.choose { ring with
      queue := ring.queue.map fun e => { e with passed := e.passed + 1 } }).target = some 40 := by
  decide +kernel

/-- Section 8.10: the lower port wins the engine; the other misses its sector. -/
def twoPorts : State :=
  let e (serial : Nat) (p : PortNo) (sector : Nat) : Entry :=
    { serial := serial, kind := .hostRead 1 5, port := p, lba := some sector, cyl := 0, head := 0
      sector := sector }
  let pt (e : Entry) : Port :=
    { idlePort with state := .waitSector, curCyl := some 0, chosen := some e.serial, queue := [e] }
  (base.withPort 0 (pt (e 1 0 12))).withPort 1 (pt (e 2 1 20))

theorem test_lower_port_wins :
    (run (.sectorMark [(0, 12), (1, 20)]) twoPorts).engine.holder = some 0 ∧
    (run (.sectorMark [(0, 12), (1, 20)]) twoPorts).ports[1].missed = 1 := by decide +kernel

/-- An offer with nothing on its way is in the queue or on its way. -/
theorem offered (w : Work) (n : Notice) (h : w.agenda = [])
    (hn : lastNotice (({ w with pickCount := w.pickCount + 1 } : Work).raise n).toState = some n) :
    lastNotice (w.offer n).toState = some n ∨ (w.offer n).agenda = [.offer n] := by
  rcases w.offer_eq n with ⟨e, -⟩ | ⟨-, e | e⟩
  · simp [h] at e
  · exact .inl (e ▸ hn)
  · exact .inr (by rw [e]; simp [h])

/-- Section 3.7 (3): the take from 41 to 40 raises EXTENT_LOW with 40 remaining and 2 entries, at once or
as an offer on its way. -/
theorem test_low_mark :
    let st : Stream := { bound { cap with lowMark := 40 } with
      state := .running, extents := [⟨0, 2000, 30, false⟩, ⟨1, 500, 20, false⟩], offset := 9 }
    let w := (base.withStream 5 st).work.takeSector 5
    lastNotice w.toState = some (.extentLow 5 40 40 2) ∨
      w.agenda = [.offer (.extentLow 5 40 40 2)] := by
  dsimp only
  unfold Work.takeSector
  dsimp only
  rw [if_pos (by decide +kernel)]
  refine offered _ _ rfl ?_
  decide +kernel

/-- Section 6.11 (8): the end page's 101st byte closes the stream in a frame of two slots; the second
slot carries the idle byte, which the final figures count. -/
def closing : State :=
  holding (framed (transmit (base.withStream 2 { bound { rep with recTag := 300 } with
    state := .running, take := some 5, nextSeq := some 5, commitMark := some 3
    counters := { unreadable := 1, gaps := 1 }
    cur := some { page := 4, pos := 100, fill := 101, seq := 4 } }) [0, 1] 2) .master) 2 1

theorem test_close_counts_its_idle_byte :
    lastNotice (run (.frameBoundary true (Vector.replicate 64 0)) closing) =
      some (.streamEnded ⟨2, some .replay, 300, 5, .endPage, 5, 4,
        { idleSent := 1, unreadable := 1, gaps := 1 }, 0⟩) := by decide +kernel

/-- Section 5.9 (8): the commit mark counts pages 100 to 102 at once. -/
def outOfOrder : State :=
  let write (serial : Nat) (lba : Nat) (seq : Seq) (page : PageNo) (active : Bool) : Entry :=
    { serial := serial, kind := .streamWrite 7 page ⟨258, 2, seq, 512⟩ false, port := 1
      lba := some lba, cyl := 0, head := 1, sector := lba - 32, active := active }
  engaged (holding ((base.withStream 7 { bound { cap with depth := 2, policy := .goOn } with
      state := .running, take := some 2, nextSeq := some 104, commitMark := some 0
      commitPoint := 100, outstanding := 2, extents := [⟨1, 50, 10, false⟩], offset := 2
      skips := [⟨0, 300, .locked⟩] }).withPort 1 { idlePort with
        state := .active, curCyl := some 0, chosen := some 1
        queue := [write 1 50 100 20 true, write 2 51 103 21 false] }) 7 2) 1 .writeData

theorem test_commit_mark_counts_the_gap_closed :
    (run .writeData outOfOrder).streams[7].commitMark = some 3 ∧
    (run .writeData outOfOrder).streams[7].commitPoint = 103 := by decide +kernel

/-! ### Hypotheses met: steps and reset

From here on each theorem shows concrete states and operands that meet all the hypotheses of the
statement it is named after, one line of them for each clause, at the ends of the clause's range. -/

theorem meets_StepTakesTheFront : base.pending = [] := rfl

theorem meets_HeldInReset :
    ({ base with resetLow := true } : State).resetLow = true ∧
    Instr.hello tag [] ≠ .resetnLow ∧
    ∀ spd1 spd0, Instr.hello tag [] ≠ .leaveReset spd1 spd0 := by decide +kernel

/-- The reply to PART_RESET is being sent. -/
def resetting : HostLine := { replies := [⟨4, 0x02, .ok, []⟩], tx := .reply, resetPending := true }

theorem meets_PoolAfterReset_reply :
    (onLine resetting).resetLow = false ∧ resetting.tx = .reply ∧ resetting.resetPending = true ∧
    ∃ r rest, resetting.replies = r :: rest ∧ r.code = 0x02 ∧ r.result = .ok :=
  ⟨rfl, rfl, rfl, _, _, rfl, rfl, rfl⟩

theorem meets_PoolAfterReset_claims :
    (((run (.leaveReset true false) base).withStream 3 (bound cap)).work.claim 3).isSome = true ∧
    (run (.leaveReset true false) base).work.claimHost.isSome = true := by decide +kernel

/-- Two commands wait at a line that is idle. -/
def waiting : State :=
  { onLine { noticeHold := true } with pending := [.resetnLow, .hello tag []] }

theorem meets_StepKeepsSound :
    waiting.Sound ∧ ∃ t, step waiting = .next t :=
  ⟨⟨by unfold Stream.Bounded Counters.Bounded; decide +kernel, by unfold Port.Bounded; decide +kernel,
    by unfold HostLine.Bounded; decide +kernel, fun _ _ h => (by cases h), by decide +kernel⟩, _, rfl⟩

/-- A state within the ranges of R9, with one stream bound. -/
def oneBound : State := { State.reset.withStream 3 (bound cap) with pending := [.resetnLow] }

theorem only_stream_three {i : StreamNo} {c : Settings}
    (h : oneBound.streams[i].settings = some c) : c = cap := by
  have all : ∀ i : StreamNo, oneBound.streams[i].settings = none ∨
      oneBound.streams[i].settings = some cap := by decide +kernel
  rcases all i with none | some
  · rw [none] at h; cases h
  · rw [some] at h; exact (Option.some.inj h).symm

theorem meets_StepKeepsReserved :
    oneBound.Reserved ∧ ∃ t, step oneBound = .next t :=
  ⟨⟨fun _ _ h => only_stream_three h ▸ by unfold Settings.InRange; decide, by decide +kernel,
    by decide +kernel, by decide +kernel⟩, _, rfl⟩

theorem meets_StepKeepsLineServed :
    oneBound.LineServed ∧ ∃ t, step oneBound = .next t :=
  ⟨fun _ => by unfold HostLine.Served; decide +kernel, _, rfl⟩

/-- One stream alone has slots, in one direction. -/
abbrev OnlyMap (s : State) (i : StreamNo) (d : Direction) : Prop :=
  s.streams[i].settings.map (·.direction) = some d ∧
  (∀ n : SlotNo, s.frame.rxMap[n] = none ∨
    s.frame.rxMap[n] = some i ∧ n.val < s.frame.slotCount.toNat ∧ d = .capture) ∧
  (∀ n : SlotNo, s.frame.txMap[n] = none ∨
    s.frame.txMap[n] = some i ∧ n.val < s.frame.slotCount.toNat ∧ d = .replay) ∧
  (∀ i : StreamNo, s.streams[i].state = .free → s.streams[i].settings = none) ∧
  ∀ i : StreamNo, s.work.width i ≤ 8

theorem mapped_of {s : State} {i : StreamNo} {d : Direction} (h : OnlyMap s i d) : s.Mapped := by
  obtain ⟨settings, receive, transmit, free, width⟩ := h
  have named : ∃ c, s.streams[i].settings = some c ∧ c.direction = d := by
    simpa using settings
  refine ⟨free, fun n j hn => ?_, fun n j hn => ?_, width⟩
  · rcases receive n with none | ⟨some, below, rfl⟩
    · rw [none] at hn; cases hn
    · rw [some] at hn; cases hn; exact ⟨below, named⟩
  · rcases transmit n with none | ⟨some, below, rfl⟩
    · rw [none] at hn; cases hn
    · rw [some] at hn; cases hn; exact ⟨below, named⟩

def slotted : State :=
  receive { State.reset.withStream 3 (bound cap) with pending := [.resetnLow] } [0, 31] 3

theorem meets_StepKeepsMapped : slotted.Mapped ∧ ∃ t, step slotted = .next t :=
  ⟨mapped_of (i := 3) (d := .capture) (by decide +kernel), _, rfl⟩

/-! ### Hypotheses met: the host line -/

/-- The busy line with more replies and rejections. -/
def loaded (replies rejections : Nat) : HostLine := { busyLine with
  replies := List.replicate replies ⟨4, 1, .ok, []⟩
  rejections := List.replicate rejections ⟨5, 1, true⟩ }

theorem meets_RejectsRequests :
    (Instr.hello 2 []).request = some ⟨2, 0x01, []⟩ ∧ base.resetLow = false ∧
    (loaded 1 3).resetPending = false ∧
    ((loaded 1 3).choose = loaded 1 3 ∧ (loaded 1 3).inProgress 2 = true ∧
      (loaded 1 3).rejections.length < 4) ∧
    ((loaded 6 3).choose = loaded 6 3 ∧ (loaded 6 3).inProgress 9 = false ∧
      8 ≤ (loaded 6 3).load ∧ (loaded 6 3).rejections.length < 4) ∧
    ((loaded 6 4).choose = loaded 6 4 ∧ 8 ≤ (loaded 6 4).load ∧
      4 ≤ (loaded 6 4).rejections.length) := by decide +kernel

/-- A notice that is no line fault, and one that is. -/
def changeNotice : QueuedNotice := ⟨1, .frameChange true .s32 .none⟩
def faultNotice (number : Nat) : QueuedNotice := ⟨number, .lineFault 3 8 .check⟩

/-- The two hypotheses, with the LINE_FAULT notice being sent and another waiting. -/
theorem meets_LineFaultCounts :
    let isFault (q : QueuedNotice) : Bool := match q.notice with | .lineFault .. => true | _ => false
    let sendingFault : HostLine := { notices := [faultNotice 0, changeNotice], tx := .notice 1 }
    let another : HostLine :=
      { notices := [faultNotice 0, changeNotice, faultNotice 2], tx := .notice 1 }
    (sendingFault.notices.drop 1).any isFault = false ∧
    (another.notices.drop 1 = [changeNotice] ++ faultNotice 2 :: [] ∧
      [changeNotice].any isFault = false ∧
      (faultNotice 2).notice = .lineFault 3 8 .check) ∧
    (busyLine.notices.drop 0 = [] ++ faultNotice 0 :: [changeNotice] ∧
      ([] : List QueuedNotice).any isFault = false) := by decide +kernel

theorem meets_NoticesAndAnswersAreQueued :
    let quiet (n : Nat) (hold : Bool) : HostLine :=
      { notices := List.replicate n changeNotice, noticeHold := hold }
    ((quiet 0 false).choose = quiet 0 false ∧ (quiet 0 false).notices.length < 32) ∧
    ((quiet 31 true).choose = quiet 31 true ∧ (quiet 31 true).notices.length < 32) ∧
    ((quiet 32 true).choose = quiet 32 true ∧ 32 ≤ (quiet 32 true).notices.length) ∧
    (busyLine.slots = [⟨1, 0x29, .transfers⟩] ++ ⟨2, 0x33, .streams⟩ :: [] ∧
      [(⟨1, 0x29, .transfers⟩ : Slot)].any (·.tag == 2) = false) := by decide +kernel

theorem meets_takes : base.Takes tag ∧ (onLine (loaded 5 0)).Takes tag :=
  ⟨takes_of (by decide +kernel), takes_of (by decide +kernel)⟩

/-- A length one short and one long; the slot and the policy one past their ranges; codes in no row,
next to codes that are. -/
theorem meets_RequestsAreChecked :
    requestLength 0x11 = some 3 ∧
    ((Instr.slotSet tag [6, 0]).request = some ⟨tag, 0x11, [6, 0]⟩ ∧ [6, 0].length ≠ 3) ∧
    ((Instr.slotSet tag [6, 0, 3, 0]).request = some ⟨tag, 0x11, [6, 0, 3, 0]⟩ ∧
      [6, 0, 3, 0].length ≠ 3) ∧
    (Instr.slotSet tag [64, 0, 3]).request = some ⟨tag, 0x11, [64, 0, 3]⟩ ∧
    ¬ Request.InRange ⟨tag, 0x11, [64, 0, 3]⟩ ∧ Request.InRange ⟨tag, 0x11, [63, 1, 15]⟩ ∧
    (requestLength 0x00 = none ∧ requestLength 0x05 = none ∧ requestLength 0x42 = none) := by
  refine ⟨by decide, by decide, by decide, by decide, ?_, ?_, by decide⟩ <;>
    simp [Request.InRange]

/-- The receiver in a state. -/
def receiving (rx : Rx) : State := onLine { busyLine with rx := rx }

theorem meets_ReceivesBytes :
    (onLine resetting).resetLow = false ∧ resetting.resetPending = true ∧
    (receiving .hunt).resetLow = false ∧ (receiving .hunt).host.resetPending = false ∧
    (receiving .hunt).host.rx = .hunt ∧ (receiving (.length [])).host.rx ≠ .hunt ∧
    (receiving (.length [])).host.rx = .length [] ∧
    ((receiving (.length [0])).host.rx = .length [0] ∧
      256 * (0 : Byte).toNat + (2 : Byte).toNat < 3 ∧
      3 ≤ 256 * (0 : Byte).toNat + (3 : Byte).toNat) ∧
    ((receiving (.length [2])).host.rx = .length [2] ∧
      256 * (2 : Byte).toNat + (0x30 : Byte).toNat ≤ 560 ∧
      560 < 256 * (2 : Byte).toNat + (0x31 : Byte).toNat) ∧
    ((receiving (.body 3 [0, 3] [1])).host.rx = .body 3 [0, 3] [1] ∧
      [(1 : Byte)].length + 1 < 3 ∧ 3 ≤ [(1 : Byte), 4].length + 1) ∧
    (receiving (.check [0, 3] [1, 4, 1] [])).host.rx = .check [0, 3] [1, 4, 1] [] := by
  decide +kernel

/-- A HELLO with tag 4, a record of kind 2, and a wrong check. -/
theorem meets_CompleteRecordIsItsRequest :
    let ok := crcBytes [0, 3, 1, 4, 1]
    let two := crcBytes [0, 3, 2, 4, 1]
    (receiving (.check [0, 3] [1, 4, 1] [0])).host.rx = .check [0, 3] [1, 4, 1] [0] ∧
    (receiving .hunt).resetLow = false ∧ (receiving .hunt).host.resetPending = false ∧
    (∃ high low, [high, low] = ok ∧ [high, 0] ≠ ok) ∧
    (∃ high low : Byte, [high, low] = two ∧ (2 : Byte) ≠ 1) ∧
    ([1, 4, 1] : List Byte) = 1 :: (⟨4, 1, []⟩ : Request).tag :: (⟨4, 1, []⟩ : Request).code ::
      (⟨4, 1, []⟩ : Request).payload :=
  ⟨by decide +kernel, rfl, rfl, ⟨(crcBytes [0, 3, 1, 4, 1]).getD 0 0,
    (crcBytes [0, 3, 1, 4, 1]).getD 1 0, by decide +kernel, by decide +kernel⟩,
    ⟨(crcBytes [0, 3, 2, 4, 1]).getD 0 0, (crcBytes [0, 3, 2, 4, 1]).getD 1 0, by decide +kernel,
      by decide⟩, rfl⟩

theorem meets_RecordSent :
    base.resetLow = false ∧ (onLine {}).resetLow = false ∧
    (resetting.tx = .reply ∧ resetting.resetPending = true ∧
      ∃ r rest, resetting.replies = r :: rest ∧ r.code = 0x02 ∧ r.result = .ok) ∧
    (¬ (busyLine.tx = .reply ∧ busyLine.resetPending = true ∧
      ∃ r rest, busyLine.replies = r :: rest ∧ r.code = 0x02 ∧ r.result = .ok) ∧
      busyLine.tx ≠ .idle) ∧
    (onLine {}).host.tx = .idle :=
  ⟨rfl, rfl, ⟨rfl, rfl, _, _, rfl, rfl, rfl⟩,
    ⟨fun h => absurd h.2.1 (by decide), by decide⟩, rfl⟩

/-! ### Hypotheses met: the frame port -/

/-- Refused for an active stream and for slot 32 in a frame of 32; taken with slot 31 named. -/
theorem meets_FrameSetStartsTheRole :
    (∃ i : StreamNo, (base.withStream 15 { bound cap with state := .hold }).streams[i].isActive =
      true) ∧
    (∃ k : SlotNo, SlotCount.s32.toNat ≤ k.val ∧ (receive base [32] 3).frame.rxMap[k] ≠ none) ∧
    ¬ ((∃ i : StreamNo, (receive base [31] 3).streams[i].isActive = true) ∨
      ∃ k : SlotNo, SlotCount.s32.toNat ≤ k.val ∧ ((receive base [31] 3).frame.rxMap[k] ≠ none ∨
        (receive base [31] 3).frame.txMap[k] ≠ none)) := by decide +kernel

/-- The checks of SLOT_SET in a state, for a slot, a direction and stream 3. -/
def slotChecks (s : State) (n : SlotNo) (d : SlotDirection) : List (Bool × Result) :=
  let st := s.streams[(3 : StreamNo)]
  let entry := s.frame.slot d n
  let serves : Direction := match d with | .receive => .capture | .transmit => .replay
  [(decide (s.frame.slotCount.toNat ≤ n.val), .range),
    (st.state == .free, .state),
    (st.settings.map (·.direction) != some serves, .badArgument),
    (st.isActive, .state),
    (entry.isSome && entry != some 3, .slotTaken),
    (entry.isNone && decide (8 ≤ s.work.width 3), .listFull)]

theorem meets_SlotRequestsMap_set :
    let s := base.withStream 3 (bound cap)
    firstFailing (slotChecks s 32 .receive) = some .range ∧
    firstFailing (slotChecks base 31 .receive) = some .state ∧
    firstFailing (slotChecks s 31 .transmit) = some .badArgument ∧
    firstFailing (slotChecks (s.withStream 3 { bound cap with state := .draining }) 31 .receive) =
      some .state ∧
    firstFailing (slotChecks (receive s [31] 4) 31 .receive) = some .slotTaken ∧
    firstFailing (slotChecks (receive s [0, 1, 2, 3, 4, 5, 6, 7] 3) 31 .receive) =
      some .listFull ∧
    firstFailing (slotChecks (receive s [0, 1, 2, 3, 4, 5, 6] 3) 31 .receive) = none ∧
    firstFailing (slotChecks (receive s [0, 1, 2, 3, 4, 5, 6, 7] 3) 7 .receive) = none := by
  decide +kernel

theorem meets_SlotRequestsMap_clear :
    let checks (s : State) (n : SlotNo) : List (Bool × Result) :=
      [(decide (s.frame.slotCount.toNat ≤ n.val), .range),
        ((s.frame.slot .receive n).any fun i => s.streams[i].isActive, .state)]
    firstFailing (checks base 32) = some .range ∧
    firstFailing (checks (receive (base.withStream 3 { bound cap with state := .hold }) [31] 3)
      31) = some .state ∧
    firstFailing (checks (receive (base.withStream 3 (bound cap)) [31] 3) 31) = none ∧
    firstFailing (checks base 31) = none := by decide +kernel

/-- Run count 0; in a frame of 256 bits a sample on the first bit after the boundary, one bit before it
and one behind it, with run counts 2 and 3; LOCKED with and without a miss; and the other states. -/
theorem meets_FramePortFollowsSync :
    let bits := 8 * base.frame.slotCount.toNat
    base.resetLow = false ∧ (framed base (.seeking 0 0)).frame.state = .seeking 0 0 ∧
    (framed base (.seeking 2 1)).frame.state = .seeking 2 1 ∧
    (framed base (.seeking 3 1)).frame.state = .seeking 3 1 ∧
    (2 : Fin 4) ≠ 0 ∧ (2 : Fin 4) ≠ 3 ∧ bits < 1 + 256 ∧ 1 + 254 < bits ∧ 1 + 255 = bits ∧
    ((framed base (.locked true)).frame.state = .locked true ∧ (true && !true) = false) ∧
    ((framed base (.locked false)).frame.state = .locked false ∧ (false && !false) = false) ∧
    (31 : SlotNo).val < base.frame.slotCount.toNat ∧
    (∀ run bits, (framed base .off).frame.state ≠ .seeking run bits) ∧
    (∀ missed, (framed base .off).frame.state ≠ .locked missed) ∧
    (framed base .off).frame.state ≠ .master ∧
    (∀ missed, (framed base (.seeking 2 1)).frame.state ≠ .locked missed) := by
  refine ⟨rfl, rfl, rfl, rfl, by decide, by decide, by decide, by decide, by decide, ⟨rfl, rfl⟩,
    ⟨rfl, rfl⟩, by decide, fun _ _ h => ?_, fun _ h => ?_, ?_, fun _ h => ?_⟩ <;>
    first | cases h | exact nofun

theorem meets_FrameEndWithoutSlots :
    base.resetLow = false ∧ (∀ i : StreamNo, base.work.width i = 0) ∧
    (framed base .master).frame.state = .master ∧
    ((framed base (.locked true)).frame.state = .locked true ∧ (true && !true) = false) ∧
    ((framed base (.locked false)).frame.state = .locked false ∧ (false && !false) = false) := by
  decide +kernel

/-- A stream with three slots, two pages held, the port of `ext` idle and two pages free. -/
def mapping (d : Direction) (st : Stream) : State :=
  let s := pages (holding ((framed (base.withStream 3 st) .master).withPort 1 idlePort) 3 2) [1, 2]
  match d with
  | .capture => receive s [2, 5, 8] 3
  | .replay => transmit s [2, 5, 8] 3

/-- The extent the tests give: 20 sectors from LBA 100 of port 1. -/
def ext : Extent := ⟨1, 100, 20, false⟩

/-- A capture stream with its fill page, page 8, at a byte position. -/
def filling (state : StreamState) (pos : Nat) : Stream := { bound cap with
  state := state, cur := some { page := 8, pos := pos, fill := 512 }, extents := [ext] }

theorem filling_mapped :
    ∀ st ∈ [filling .running 508, filling .hold 509, { filling .running 0 with cur := none }],
      (mapping .capture st).Mapped := by
  intro st h
  refine mapped_of (i := 3) (d := .capture) ?_
  revert st h
  decide +kernel

/-- What the clauses on one capture stream share. -/
def takesPart (st : Stream) : Prop :=
  let s := mapping .capture st
  s.resetLow = false ∧ s.frame.state.atFrameEnd false = some .master ∧ s.pool.mem.Wf ∧
  s.streams[(3 : StreamNo)].settings = some cap ∧ 0 < s.work.width 3 ∧
  (st.state = .running ∨ st.state = .hold ∧ st.stopPart = none) ∧
  (∀ j : StreamNo, j ≠ 3 → s.work.width j = 0) ∧ s.pool.waitList = [] ∧
  (s.work.slots 3)[0]? = some 2 ∧ (s.work.slots 3)[2]? = some 8

/-- Position 508 leaves one byte of room for three slots and 509 none; a depth allowed and reached; a
claim granted and refused; each at the end of its range. -/
theorem meets_CaptureTakesItsSlots :
    (∀ st ∈ [filling .running 508, filling .hold 509, { filling .hold 509 with ready := [⟨9, 4, 512⟩] },
        { filling .running 509 with outstanding := 1 }, { filling .running 0 with cur := none }],
      takesPart st) ∧
    508 + (mapping .capture (filling .running 508)).work.width 3 < 512 ∧
    509 + (mapping .capture (filling .running 509)).work.width 3 = 512 ∧
    (let st := filling .running 509
     let s := mapping .capture st
     st.abortPart = none ∧ st.ready = [] ∧ st.outstanding < cap.depth ∧ st.extents = ext :: [] ∧
     st.offset + 1 < ext.count ∧ cap.lowMark + 1 < st.remaining ∧
     s.ports[(1 : PortNo)].state ≠ .offline ∧ s.ports[(1 : PortNo)].queue.length < 12) ∧
    cap.depth ≤ { filling .running 509 with outstanding := 1 }.outstanding ∧
    (let s := mapping .capture { filling .running 0 with cur := none }
     s.pool.free = 1 :: [2] ∧ s.work.grants 3 = true ∧
     (holding s 3 4).work.grants 3 = false ∧ (pages s []).pool.free = []) := by
  unfold takesPart; decide +kernel

/-- Two capture streams and a replay stream take their part in one frame end. -/
def threeMapped : State :=
  let s := ((mapping .capture (filling .running 508)).withStream 4 { bound cap with
    state := .hold, cur := some { page := 9, pos := 510, fill := 512 } }).withStream 5 { bound rep with
      state := .running, cur := some { page := 10, pos := 4, fill := 6 } }
  transmit (receive s [31] 4) [0] 5

theorem threeMapped_mapped : threeMapped.Mapped := by
  have receives : ∀ n : SlotNo, threeMapped.frame.rxMap[n] = none ∨
      n.val < threeMapped.frame.slotCount.toNat ∧ (threeMapped.frame.rxMap[n] = some 3 ∨
        threeMapped.frame.rxMap[n] = some 4) := by decide +kernel
  have transmits : ∀ n : SlotNo, threeMapped.frame.txMap[n] = none ∨
      n.val < threeMapped.frame.slotCount.toNat ∧ threeMapped.frame.txMap[n] = some 5 := by
    decide +kernel
  refine ⟨by decide +kernel, fun n i h => ?_, fun n i h => ?_, by decide +kernel⟩
  · rcases receives n with none | ⟨below, three | four⟩
    · rw [none] at h; cases h
    · rw [three] at h; cases h; exact ⟨below, _, rfl, rfl⟩
    · rw [four] at h; cases h; exact ⟨below, _, rfl, rfl⟩
  · rcases transmits n with none | ⟨below, five⟩
    · rw [none] at h; cases h
    · rw [five] at h; cases h; exact ⟨below, _, rfl, rfl⟩

theorem meets_CaptureTakesItsSlots_together :
    let s := threeMapped
    let page (i : StreamNo) : Option PageNo := s.streams[i].cur.map CurrentPage.page
    s.resetLow = false ∧ s.frame.state.atFrameEnd true = some .master ∧ s.pool.mem.Wf ∧
    (s.work.width 3 = 3 ∧ s.work.width 4 = 1 ∧ s.work.width 5 = 1) ∧
    (∀ i : StreamNo, 0 < s.work.width i → i = 3 ∨ i = 4 ∨ i = 5) ∧
    (508 + 3 < 512 ∧ 510 + 1 < 512 ∧ 4 + 1 < 6) ∧
    (page 3 = some 8 ∧ page 4 = some 9 ∧ page 5 = some 10) ∧
    ((s.work.slots 3)[0]? = some 2 ∧ (s.work.slots 5)[0]? = some 0) ∧
    s.streams[(1 : StreamNo)] = {} ∧ (1 : SlotNo) ∉ s.work.slots 5 := by decide +kernel

/-- A replay stream in RUNNING with its drain page at byte 3 of a fill. -/
def draining (fill : Nat) : Stream := { bound rep with
  state := .running, cur := some { page := 8, pos := 3, fill := fill, seq := 17 } }

def pendingEntry : PlayEntry := ⟨8, 1, 100, .pending⟩

/-- The page at the front is ACCEPTED, and nothing is in the drain page. -/
def accepting (fill : Nat) : Stream := { bound rep with
  state := .running, play := [⟨9, 1, 100, .accepted { trailer with fill := fill }⟩, pendingEntry] }

/-- The replay streams of the clauses: fills 7, 6 and 4 at byte 3 with three slots leave one byte, none,
and idle bytes to give; a page accepted of 4 bytes; a full page used up with a read in flight, and with
nothing left. -/
def supplying : List Stream := [draining 7, draining 6, draining 4, accepting 4,
  { bound rep with
    state := .running, cur := some { page := 8, pos := 509, fill := 512 }, outstanding := 1
    play := [pendingEntry] },
  { bound rep with state := .running, cur := some { page := 8, pos := 511, fill := 512 } }]

theorem supplying_mapped : ∀ st ∈ supplying, (mapping .replay st).Mapped := by
  intro st h
  refine mapped_of (i := 3) (d := .replay) ?_
  revert st h
  decide +kernel

theorem meets_ReplaySuppliesAndCloses :
    (∀ st ∈ supplying,
      let s := mapping .replay st
      s.resetLow = false ∧ s.frame.state.atFrameEnd false = some .master ∧
      s.streams[(3 : StreamNo)].settings = some rep ∧ rep.direction = .replay ∧
      st.state = .running ∧ s.work.width 3 = 3 ∧
      (∀ j : StreamNo, j ≠ 3 → s.work.width j = 0) ∧ s.pool.waitList = [] ∧
      st.stopPart = none ∧ st.abortPart = none ∧
      (∀ (p : PortNo), ∀ e ∈ s.ports[p].queue, e.kind.stream ≠ some 3) ∧
      (s.work.slots 3)[0]? = some 2 ∧ (s.work.slots 3)[2]? = some 8 ∧
      (3 : SlotNo) ∉ s.work.slots 3) ∧
    (3 + 3 < 7 ∧ 6 ≤ 3 + 3 ∧ 4 ≤ 3 + 3 ∧ 3 < 4 ∧ 509 + 3 = 512 ∧ 511 < 512 ∧ 512 ≤ 511 + 3) ∧
    ((accepting 4).cur = none ∧ (accepting 4).play =
      ⟨9, 1, 100, .accepted { trailer with fill := 4 }⟩ :: [pendingEntry]) ∧
    rep.depth ≤ 1 ∧ (draining 4).play = [] ∧ (draining 4).outstanding = 0 ∧
    (draining 4).extents = [] := by decide +kernel

/-- A replay stream with no drain page and a play queue. -/
def starving (play : List PlayEntry) (underrun : Bool) : Stream := { bound rep with
  state := .running, play := play, underrun := underrun }

theorem starving_mapped :
    ∀ st ∈ [starving [] true, starving [pendingEntry] false,
        { starving [] false with state := .priming }], (mapping .replay st).Mapped := by
  intro st h
  refine mapped_of (i := 3) (d := .replay) ?_
  revert st h
  decide +kernel

theorem meets_ReplayUnderruns :
    (∀ st ∈ [starving [] true, starving [pendingEntry] false,
        { starving [] false with state := .priming }],
      let s := mapping .replay st
      s.resetLow = false ∧ s.frame.state.atFrameEnd false = some .master ∧
      s.streams[(3 : StreamNo)].settings = some rep ∧ st.cur = none ∧ st.acceptedCount = 0 ∧
      0 < s.work.width 3 ∧ (∀ j : StreamNo, j ≠ 3 → s.work.width j = 0) ∧
      (2 : SlotNo) ∈ s.work.slots 3 ∧ (3 : SlotNo) ∉ s.work.slots 3) ∧
    (starving [] true).state = .running ∧
    ({ starving [] false with state := .priming } : Stream).state ≠ .running := by decide +kernel

/-! ### Hypotheses met: streams and extents -/

theorem cap_inRange : cap.InRange ∧ rep.InRange := by
  unfold Settings.InRange; decide

/-- The sum of reserves at 480 and at 481; as many free pages as the need, and one fewer. -/
theorem meets_StreamBindBinds :
    let checks (s : State) : List (Bool × Result) :=
      [(s.streams[(3 : StreamNo)].state != .free, .state),
        (decide (480 < s.work.reserveSum + cap.reserve), .quota),
        (decide (s.work.freeCount < s.work.reserveNeed + cap.reserve), .quota)]
    let other (reserve : Nat) : State :=
      holding (base.withStream 4 (bound { cap with reserve := reserve })) 4 reserve
    firstFailing (checks (base.withStream 3 (bound cap))) = some .state ∧
    firstFailing (checks (other 479)) = some .quota ∧ firstFailing (checks (other 478)) = none ∧
    firstFailing (checks (pages base [7])) = some .quota ∧
    firstFailing (checks (pages base [7, 8])) = none := by decide +kernel

/-- One record in the three idle states, and one that is FAULTED with a write in flight. -/
theorem meets_StreamUnbindFrees :
    (∀ st ∈ [bound cap, { bound cap with state := .ended }, { bound cap with state := .faulted }],
      (st.state = .bound ∨ st.state = .ended ∨ st.state = .faulted ∧ st.outstanding = 0) ∧
      (receive (base.withStream 3 st) [0, 31] 3).pool.waitList = []) ∧
    ∀ st ∈ [({} : Stream), { bound cap with state := .running },
        { bound cap with state := .faulted, outstanding := 1 }],
      ¬ (st.state = .bound ∨ st.state = .ended ∨ st.state = .faulted ∧ st.outstanding = 0) := by
  decide +kernel

/-- A capture stream in HOLD for want of an extent. -/
def heldBack : Stream := { bound cap with state := .hold, emptyReported := true }

/-- ExtentClearEmpties has the hypotheses of StreamUnbindFrees, less the wait list. -/
theorem meets_ExtentClearEmpties :
    (bound cap).state = .bound ∧ ¬ (heldBack.state = .bound ∨ heldBack.state = .ended ∨
      heldBack.state = .faulted ∧ heldBack.outstanding = 0) := by decide +kernel

theorem meets_StreamRequestsRefused :
    (base.withStream 3 (bound cap)).work.width 3 = 0 ∧
    (bound rep).cfg.direction = .replay ∧ (bound rep).extents = [] ∧
    ({ bound cap with state := .running, stopPart := some 2 } : Stream).stopPart ≠ none ∧
    ({ bound cap with state := .draining } : Stream).state ≠ .running ∧
    ({ bound rep with state := .hold } : Stream).state ≠ .priming ∧
    (bound cap).isActive = false ∧
    ({ bound cap with state := .running, abortPart := some 2 } : Stream).abortPart ≠ none := by
  decide +kernel

theorem meets_StreamStartCaptures :
    let s (st : Stream) : State := receive (base.withStream 3 st) [31] 3
    ∀ st ∈ [bound cap, { bound cap with state := .ended, extents := [ext] },
        { bound cap with state := .faulted, extents := [ext], offset := 17 },
        { bound cap with state := .ended, extents := [ext], offset := 16 }],
      (s st).streams[(3 : StreamNo)].settings = some cap ∧ cap.direction = .capture ∧
      1 ≤ (s st).work.width 3 ∧
      (st.state = .bound ∨ st.state = .ended ∨ st.state = .faulted ∧ st.outstanding = 0) ∧
      decide (st.remaining ≤ cap.lowMark) = (st.extents.isEmpty || decide (17 ≤ st.offset)) := by
  decide +kernel

/-- The head extent with two sectors left before another; one place short of the limit of 11. -/
theorem meets_StreamStartReplays :
    let st : Stream := { bound rep with extents := [ext, { ext with port := 2 }], offset := 18 }
    let port : Port := { idlePort with state := .waitSector, chosen := some 5
                                       queue := List.replicate 10 format }
    let s := transmit ((base.withStream 3 st).withPort 1 port) [31] 3
    s.streams[(3 : StreamNo)].settings = some rep ∧ rep.direction = .replay ∧
    1 ≤ s.work.width 3 ∧ rep.depth = 1 ∧ 1 ≤ rep.primeLevel ∧ st.state = .bound ∧
    st.outstanding = 0 ∧ st.play = [] ∧ st.cur = none ∧
    st.extents = ext :: [{ ext with port := 2 }] ∧ st.offset + 1 < ext.count ∧
    rep.lowMark + 1 < st.remaining ∧ s.ports[ext.port].state ≠ .offline ∧
    s.ports[ext.port].queue.length < 11 ∧ s.pool.waitList = [] ∧
    s.pool.free = 0 :: (List.finRange 512).tail ∧ s.pool.held[(3 : StreamNo)] < rep.reserve ∧
    rep.reserve ≤ rep.quota := by decide +kernel

/-- A capture stream that holds some pages, in HOLD or with its one write in flight. -/
def capturing (state : StreamState) (cur : Option CurrentPage) (n : Nat) : State :=
  holding (base.withStream 3 { bound cap with
    state := state, take := some 2, nextSeq := some 5, outstanding := 1, cur := cur
    ready := [⟨101, 3, 512⟩] }) 3 n

theorem meets_StreamStopCaptures :
    let fill : CurrentPage := { page := 100, pos := 511, fill := 512 }
    let short := pages (capturing .hold none 2) []
    (∀ s ∈ [capturing .hold (some fill) 3, capturing .running (some fill) 3,
        capturing .hold none 3, short],
      let st := s.streams[(3 : StreamNo)]
      st.settings = some cap ∧ cap.direction = .capture ∧ st.stopPart = none ∧
      st.abortPart = none ∧
      (st.state = .hold ∨ st.state = .running ∧ cap.depth ≤ st.outstanding) ∧
      s.work.waits 3 = false) ∧
    (capturing .running (some fill) 3).streams[(3 : StreamNo)].cur = some fill ∧
    ((capturing .hold none 3).streams[(3 : StreamNo)].cur = none ∧
      (capturing .hold none 3).pool.free = 0 :: (List.finRange 512).tail ∧
      (capturing .hold none 3).work.grants 3 = true) ∧
    (capturing .hold none 4).work.grants 3 = false ∧ short.work.grants 3 = false := by
  decide +kernel

/-- Pages in each status but PENDING. -/
def played : List PlayEntry :=
  [⟨101, 1, 100, .accepted trailer⟩, ⟨102, 1, 101, .read trailer⟩, ⟨103, 1, 102, .failed .locked⟩]

def playing (state : StreamState) : State :=
  holding (base.withStream 3 { bound rep with
    state := state, take := some 2, nextSeq := some 9, commitMark := some 4
    cur := some { page := 100, pos := 3, fill := 512 }, play := played, extents := [ext] }) 3 4

theorem meets_StreamStopReplays :
    ∀ s ∈ [playing .running, playing .priming],
      let st := s.streams[(3 : StreamNo)]
      st.settings = some rep ∧ rep.direction = .replay ∧ st.stopPart = none ∧
      st.abortPart = none ∧ (st.state = .priming ∨ st.state = .running) ∧ st.outstanding = 0 ∧
      (∀ e ∈ st.play, e.status ≠ .pending) ∧
      (∀ (p : PortNo), ∀ e ∈ s.ports[p].queue, e.kind.stream ≠ some 3) ∧
      s.pool.waitList = [] := by decide +kernel

/-- Nothing in flight with and without a STOP that waits, one of them waiting for its end page, and a
write in the engine. -/
theorem meets_StreamAbortGivesUp :
    let st (outstanding : Nat) (stop : Option Byte) (endPage : EndPageState) : Stream := { bound cap with
      state := .draining, take := some 2, nextSeq := some 9, outstanding := outstanding
      stopPart := stop, endPage := endPage, ready := [⟨101, 7, 512⟩] }
    let s (st : Stream) (queue : List Entry) : State :=
      (base.withStream 3 st).withPort 1 { idlePort with queue := queue }
    let waits : State :=
      let t := s (st 0 (some 2) .waiting) []
      { t with pool := { t.pool with waitList := [(3, .endPage)] } }
    (∀ t ∈ [s (st 0 none .made) [], waits, s (st 1 (some 2) .made) [active streamWrite]],
      let st := t.streams[(3 : StreamNo)]
      st.settings = some cap ∧ st.isActive = true ∧ st.abortPart = none ∧
      (∀ q : PortNo, (t.ports[q].queue.filter fun e => !e.active && e.kind.stream == some 3) = []) ∧
      (cap.direction = .replay → st.endPage = .none) ∧ ∀ x ∈ t.pool.waitList, x.1 = 3) ∧
    (busyLine.slots = [⟨1, 0x29, .transfers⟩] ++ ⟨2, 0x33, .streams⟩ :: [] ∧
      [(⟨1, 0x29, .transfers⟩ : Slot)].any (·.tag == 2) = false) ∧
    (st 1 (some 2) .made).outstanding ≠ 0 ∧
    ((playing .running).streams[(3 : StreamNo)].isActive = true ∧
      (playing .running).streams[(3 : StreamNo)].endPage = .none) := by decide +kernel

/-- One QUEUED entry, the chosen one of its port: the stream's last write, and one of two reads, the
other in the engine. -/
theorem meets_StreamAbortGivesUp_queued :
    let port (e : Entry) : Port := { idlePort with
      state := .waitSector, queue := [hostRead, e], chosen := some e.serial }
    let write := (base.withStream 3 { bound cap with state := .draining, outstanding := 1
                                                     endPage := .made }).withPort 1 (port streamWrite)
    let read := ((base.withStream 3 { bound rep with
      state := .running, outstanding := 2
      play := [⟨44, 2, 100, .pending⟩, ⟨41, 1, 401, .pending⟩] }).withPort 1 (port streamRead)).withPort
      2 { idlePort with state := .active
                        queue := [active { streamRead with kind := .streamRead 3 44, port := 2 }] }
    (∀ x ∈ [(write, streamWrite), (read, streamRead)],
      let own : Option (PortNo × Entry) := some (1, x.2)
      (∀ q : PortNo, (x.1.ports[q].queue.filter fun e => !e.active && e.kind.stream == some 3) =
        match own with
        | some (p, e) => if q = p then [e] else []
        | none => []) ∧
      ∀ j : StreamNo, j ≠ 3 → x.1.streams[j].waitedPort ≠ some 1) ∧
    write.streams[(3 : StreamNo)].outstanding - 1 = 0 ∧
    read.streams[(3 : StreamNo)].outstanding - 1 ≠ 0 ∧
    ((port streamWrite).chosen = some streamWrite.serial ∧ (port streamWrite).state = .waitSector) := by
  decide +kernel

theorem ext_inRange : ext.InRange ∧ Extent.InRange ⟨1, 2 ^ 32 - 1, 65535, false⟩ := by
  unfold Extent.InRange; decide

/-- A stream's record and a port's record for EXTENT_ADD. -/
def adding (st : Stream) (pt : Port) : State := (base.withStream 3 st).withPort 1 pt

/-- The last sector of the drive and one past it; an extent that ends before LBA 100 and one that
covers it; a list of 7 and of 8. -/
theorem meets_ExtentAddAppends :
    let capacity := 100 * 4 * 32
    let last : Extent := ⟨1, 12799, 1, false⟩
    let past : Extent := ⟨1, 12799, 2, false⟩
    let before (count : Nat) : Extent := ⟨1, 90, count, false⟩
    let overlaps (e f : Extent) : Prop := f.port = e.port ∧ f.start ≤ e.start + e.count - 1 ∧
      e.start ≤ f.start + f.count - 1
    idlePort.geometry = some geo ∧ base.streams[(3 : StreamNo)].state = .free ∧
    (bound cap).state ≠ .free ∧ 8 ≤ (List.replicate 8 ext).length ∧
    (List.replicate 7 (⟨2, 0, 1, false⟩ : Extent)).length < 8 ∧
    ({} : Port).state = .absent ∧
    ({ state := .restoring, attachPending := some 2 } : Port).attachPending ≠ none ∧
    ({ idlePort with state := .offline } : Port).state = .offline ∧
    ¬ capacity ≤ last.start + last.count - 1 ∧ capacity ≤ past.start + past.count - 1 ∧
    overlaps ext (before 11) ∧ ¬ overlaps ext (before 10) ∧
    (¬ ∃ (j : StreamNo) (f : Extent),
      f ∈ (adding { bound cap with extents := [before 10] } idlePort).streams[j].extents ∧
      overlaps ext f) ∧
    ({ bound cap with extents := [before 10] } : Stream).isActive = false ∧
    (let st : Stream := { bound cap with state := .running, outstanding := 1 }
     st.state ≠ .hold ∧ st.outstanding ≠ 0 ∧ st.cfg.depth ≤ st.outstanding ∧
     (adding st idlePort).work.waits 3 = false) := by
  decide +kernel

theorem meets_ExtentAddEndsHold :
    ∀ st ∈ [heldBack, { heldBack with stopPart := some 2, endPage := .waiting }],
      let s := adding st idlePort
      s.work.extentRefusal 3 ext = none ∧ s.streams[(3 : StreamNo)].settings = some cap ∧
      st.state = .hold ∧ st.ready = [] ∧ st.extents = [] ∧
      (st.stopPart = none ∨ st.endPage = .waiting) := by decide +kernel

/-- A page ready, an extent one above the low mark's reach, and a queue of 11. -/
theorem meets_ExtentAddEndsHold_ready :
    let st : Stream := { heldBack with ready := [⟨101, 3, 512⟩] }
    let s := adding st { idlePort with state := .positioning, queue := List.replicate 11 format }
    let e : Extent := { ext with count := 5 }
    s.work.extentRefusal 3 e = none ∧ st.ready = ⟨101, 3, 512⟩ :: [] ∧ st.abortPart = none ∧
    cap.depth = st.outstanding + 1 ∧ cap.lowMark + 1 < e.count ∧ 1 < e.count ∧
    s.ports[e.port].queue.length < 12 ∧ s.pool.waitList = [] ∧ st.stopPart = none := by
  decide +kernel

/-! ### Hypotheses met: ports and transfers -/

/-- A port's record for port 1. -/
def onPort (pt : Port) : State := base.withPort 1 pt

theorem meets_PortAttachIdentifies :
    (({} : Port).state = .absent ∧ ({} : Port).detachPending = none) ∧
    ¬ (idlePort.state = .absent ∧ idlePort.detachPending = none) ∧
    ¬ (({ detachPending := some 1 } : Port).state = .absent ∧
      ({ detachPending := some 1 } : Port).detachPending = none) := by decide +kernel

/-- Each reason for refusal alone, and a port with none. -/
theorem meets_PortDetachFrees :
    let refused (s : State) : Prop :=
      let pt := s.ports[(1 : PortNo)]
      pt.state = .absent ∨ pt.attachPending ≠ none ∨ pt.detachPending ≠ none ∨
        (∃ i : StreamNo, ∃ e ∈ s.streams[i].extents, e.port = 1) ∨
        ∃ e ∈ pt.queue, e.kind.stream ≠ none
    refused base ∧ refused (onPort { idlePort with state := .restoring, attachPending := some 1 }) ∧
    refused (onPort { idlePort with detachPending := some 1 }) ∧
    refused (adding { bound cap with extents := [ext] } idlePort) ∧
    refused (onPort { idlePort with queue := [streamRead] }) ∧
    ¬ refused (adding { bound cap with extents := [{ ext with port := 2 }] } idlePort) ∧
    ¬ refused (onPort { idlePort with state := .active, queue := [active hostRead] }) ∧
    (active hostRead).active = true := by decide +kernel

/-- A QUEUED entry of each host kind. -/
theorem meets_PortDetachFrees_queued :
    let pt : Port := { idlePort with state := .positioning, queue := [hostRead, format, hostWrite] }
    let s := onPort pt
    ¬ (pt.state = .absent ∨ pt.attachPending ≠ none ∨ pt.detachPending ≠ none ∨
      (∃ i : StreamNo, ∃ e ∈ s.streams[i].extents, e.port = 1) ∨
      ∃ e ∈ pt.queue, e.kind.stream ≠ none) ∧
    (∀ e ∈ pt.queue, e.active = false ∧ e.port = 1) ∧
    (∀ i : StreamNo, s.streams[i].waitedPort ≠ some 1) ∧ s.pool.waitList = [] := by decide +kernel

theorem meets_QueriesReport :
    base.streams[(3 : StreamNo)].state = .free ∧ (bound rep).state ≠ .free ∧
    (bound rep).settings = some rep := by decide +kernel

/-- Cylinder 4095 and head 15 for the ranges; the first and the last sector of the track covered by
an extent, the sector behind it not; a queue of 11 and of 12. -/
theorem meets_TrackFormatIsQueued :
    let checks (s : State) (a : FormatArgs) (permit : Bool) : List (Bool × Result) :=
      let pt := s.ports[a.port]
      let g : Geometry := pt.geometry.getD ⟨0, 0, 0⟩
      let first := (a.cyl * g.heads + a.head) * g.sectors
      [(pt.state == .absent || pt.attachPending.isSome || pt.detachPending.isSome, .portAbsent),
        (pt.state == .offline, .offline),
        (decide (g.cylinders ≤ a.cyl) || decide (g.heads ≤ a.head), .range),
        (!permit, .permit),
        (s.work.allExtents.any fun f => f.port == a.port &&
          decide (f.start ≤ first + g.sectors - 1) && decide (first ≤ f.start + f.count - 1),
          .overlap),
        (decide (12 ≤ pt.queue.length), .full)]
    let track : FormatArgs := ⟨1, 3, 1, true⟩
    let covered (start count : Nat) : State :=
      adding { bound cap with extents := [⟨1, start, count, false⟩] } idlePort
    let queued (n : Nat) : State := onPort { idlePort with
      state := .positioning, queue := List.replicate n format }
    firstFailing (checks base ⟨1, 4095, 15, true⟩ true) = some .portAbsent ∧
    firstFailing (checks (onPort { idlePort with state := .offline }) track true) =
      some .offline ∧
    firstFailing (checks (onPort idlePort) { track with cyl := 100 } true) = some .range ∧
    firstFailing (checks (onPort idlePort) { track with head := 4 } true) = some .range ∧
    firstFailing (checks (onPort idlePort) track false) = some .permit ∧
    firstFailing (checks (covered 400 17) track true) = some .overlap ∧
    firstFailing (checks (covered 447 9) track true) = some .overlap ∧
    firstFailing (checks (covered 448 9) track true) = none ∧
    firstFailing (checks (queued 12) track true) = some .full ∧
    firstFailing (checks (queued 11) track true) = none ∧
    (queued 11).pool.waitList = [] := by decide +kernel

/-- The last sector and the next one; as many free pages as the need and one more; a queue of 11 and
of 12. -/
theorem meets_SectorReadIsQueued :
    let checks (s : State) (lba : Nat) : List (Bool × Result) :=
      let pt := s.ports[(1 : PortNo)]
      let g : Geometry := pt.geometry.getD ⟨0, 0, 0⟩
      [(pt.state == .absent || pt.attachPending.isSome || pt.detachPending.isSome, .portAbsent),
        (pt.state == .offline, .offline),
        (decide (g.cylinders * g.heads * g.sectors ≤ lba), .range),
        (decide (s.work.freeCount ≤ s.work.reserveNeed), .noPage)]
    let queued (n : Nat) : State := onPort { idlePort with
      state := .positioning, queue := List.replicate n format }
    let needing := adding (bound cap) idlePort
    firstFailing (checks base 0) = some .portAbsent ∧
    firstFailing (checks (onPort { idlePort with state := .offline }) 0) = some .offline ∧
    firstFailing (checks (onPort idlePort) 12800) = some .range ∧
    firstFailing (checks (onPort idlePort) 12799) = none ∧
    firstFailing (checks (pages needing [7, 8]) 0) = some .noPage ∧
    firstFailing (checks (pages needing [7, 8, 9]) 0) = none ∧
    (pages needing [7, 8, 9]).pool.free = 7 :: [8, 9] ∧ needing.pool.waitList = [] ∧
    firstFailing (checks (queued 12) 0) = none ∧
    12 ≤ (queued 12).ports[(1 : PortNo)].queue.length ∧
    (queued 11).ports[(1 : PortNo)].queue.length < 12 := by decide +kernel

/-- A sector to write at an LBA. -/
def writing (lba : Nat) : WriteArgs := ⟨1, lba, trailer, true, List.replicate 512 7⟩

/-- LBA 99 and 100 at an extent's edge, besides the cases of SECTOR_READ. -/
theorem meets_SectorWriteIsQueued :
    let checks (s : State) (lba : Nat) : List (Bool × Result) :=
      let pt := s.ports[(1 : PortNo)]
      let g : Geometry := pt.geometry.getD ⟨0, 0, 0⟩
      [(pt.state == .absent || pt.attachPending.isSome || pt.detachPending.isSome, .portAbsent),
        (pt.state == .offline, .offline),
        (decide (g.cylinders * g.heads * g.sectors ≤ lba), .range),
        (s.work.allExtents.any fun f => f.port == 1 && decide (f.start ≤ lba) &&
          decide (lba ≤ f.start + f.count - 1), .overlap),
        (decide (s.work.freeCount ≤ s.work.reserveNeed), .noPage)]
    let s := adding { bound cap with extents := [ext] } idlePort
    (writing 99).InRange ∧ s.pool.mem.Wf ∧ s.pool.waitList = [] ∧
    s.ports[(1 : PortNo)].queue.length < 12 ∧
    firstFailing (checks s 100) = some .overlap ∧ firstFailing (checks s 119) = some .overlap ∧
    firstFailing (checks s 99) = none ∧ firstFailing (checks s 120) = none ∧
    s.pool.free = 0 :: (List.finRange 512).tail ∧
    firstFailing (checks (pages s [7, 8]) 99) = some .noPage ∧
    (let full := onPort { idlePort with state := .positioning, queue := List.replicate 12 format }
     firstFailing (checks full 99) = none ∧ 12 ≤ full.ports[(1 : PortNo)].queue.length ∧
     full.pool.waitList = []) ∧
    ∀ k < 512, pageAddr 1 0 ≠ pageAddr 0 k := by
  refine ⟨?_, by decide +kernel⟩
  unfold WriteArgs.InRange; decide +kernel

/-! ### Hypotheses met: the drive ports -/

/-- A port in WAIT_SECTOR for a host read. -/
def waitingPort : Port :=
  { idlePort with state := .waitSector, chosen := some 6, queue := [hostRead] }

/-- A queue with one place left, in each of the states. -/
theorem meets_ArrivalsAreQueued :
    let w (state : PortState) : Work :=
      (onPort { idlePort with state := state, queue := List.replicate 11 format }).work
    (∀ state ∈ [PortState.offline, .idle, .positioning, .restoring, .active],
      ((w state).port 1).queue.length < 12 ∧ (w state).pool.waitList = [] ∧
      (∀ i : StreamNo, ((w state).stream i).waitedPort ≠ some 1) ∧
      ((w state).port 1).state = state) ∧
    waitingPort.state = .waitSector ∧
    Port.chosenEntry { waitingPort with queue := waitingPort.queue ++ [streamRead] } =
      some hostRead := by decide +kernel

/-- Ages 7 and 8; a recovery entry off and on the cylinder; two entries at one distance; the last
mark the sector itself, the one before it, and none. -/
theorem meets_ChoiceFollowsItsTable :
    let queue (l : List Entry) : Port := { idlePort with queue := l }
    let far (passed : Nat) : Entry := { hostRead with cyl := 8, passed := passed }
    idlePort.queued = [] ∧ (queue [far 8, hostWrite]).queued = far 8 :: [hostWrite] ∧
    (Port.recoveryEntry { queue [hostWrite, far 0] with recovery := some 6 } = some (far 0) ∧
      idlePort.curCyl ≠ some (far 0).cyl) ∧
    (Port.recoveryEntry { queue [hostRead] with recovery := some 6 } = some hostRead ∧
      idlePort.curCyl = some hostRead.cyl) ∧
    (idlePort.curCyl ≠ some (far 8).cyl ∧ 8 ≤ (far 8).passed) ∧ (far 7).passed < 8 ∧
    (∀ e ∈ (queue [far 7]).queued, idlePort.curCyl ≠ some e.cyl) ∧
    (∃ e ∈ (queue [far 7, hostWrite, hostWrite]).queued, idlePort.curCyl = some e.cyl) ∧
    (idlePort.geometry = some geo ∧ idlePort.lastMark = some 5 ∧ 5 < geo.sectors ∧
      31 < geo.sectors ∧ ({ idlePort with lastMark := none } : Port).lastMark = none) := by
  decide +kernel

/-- A port that attaches, and one that restores for its attach. -/
def attaching : Port :=
  { state := .attaching, attachPending := some 1, outstanding := some .identify }
def restoring : Port :=
  { state := .restoring, attachPending := some 1, outstanding := some .restore
    attachGeometry := some geo }

/-- The figures at the ends of their ranges and one past them. -/
theorem meets_AttachTakesItsAnswer :
    let good (c h n : Nat) : Prop := 1 ≤ c ∧ c ≤ 4096 ∧ 1 ≤ h ∧ h ≤ 16 ∧ 8 ≤ n ∧ n ≤ 64
    (attaching.state = .attaching ∧ attaching.outstanding = some .identify ∧
      attaching.attachPending = some 1) ∧
    (restoring.state = .restoring ∧ restoring.attachPending = some 1) ∧
    good 1 1 8 ∧ good 4096 16 64 ∧ ¬ good 0 1 8 ∧ ¬ good 4097 16 64 ∧ ¬ good 1 17 8 ∧
    ¬ good 1 1 7 ∧ ¬ good 1 1 65 := by decide +kernel

def offline : Port := { state := .offline, geometry := some geo, offlineCause := some .marks }

theorem meets_OfflineDrivesReturn :
    offline.state = .offline ∧ offline.geometry = some geo ∧
    (offline.offlineCause ≠ some .geometry ∧ offline.outstanding = none) ∧
    ({ offline with offlineCause := some .geometry } : Port).offlineCause = some .geometry ∧
    ({ offline with outstanding := some .identify } : Port).outstanding = some .identify ∧
    (⟨(100 : Half).toNat, (4 : Byte).toNat, (32 : Byte).toNat⟩ : Geometry) = geo ∧
    (⟨(100 : Half).toNat, (4 : Byte).toNat, (31 : Byte).toNat⟩ : Geometry) ≠ geo := by
  decide +kernel

theorem meets_PortsGoOffline :
    (∀ pt ∈ [{ idlePort with state := .restoring }, idlePort,
        { idlePort with state := .positioning }, { waitingPort with queue := [format] },
        { idlePort with state := .active, queue := [active format] }],
      (onPort pt).ports[(1 : PortNo)].attachPending = none ∧
      (pt.state = .restoring ∨ pt.state = .idle ∨ pt.state = .positioning ∨
        pt.state = .waitSector ∨ pt.state = .active) ∧
      ∀ i : StreamNo, (onPort pt).streams[i].waitedPort ≠ some 1) ∧
    idlePort.queue = [] ∧ (active format).kind = .format 1 true := by decide +kernel

/-- A port that positions to cylinder 9, and one that restores with a target kept. -/
def positioning (tries : Nat) (queue : List Entry) : Port := { idlePort with
  state := .positioning, curCyl := none, target := some 9, posTries := tries, queue := queue
  outstanding := some (.position 9) }

theorem meets_PositionedArrives :
    ((positioning 1 []).state = .positioning ∧ (positioning 1 []).target = some (9 : Half).toNat ∧
      (positioning 1 []).target ≠ some (8 : Half).toNat) ∧
    (restoring.state = .restoring ∧ restoring.attachPending = some 1 ∧
      restoring.attachGeometry = some geo) ∧
    (∀ target ∈ [some 9, some 0, none],
      let pt : Port := { positioning 1 [] with state := .restoring, target := target }
      pt.state = .restoring ∧ pt.attachPending = none ∧ pt.offlineCause = none) ∧
    (let pt : Port := { offline with state := .restoring }
     pt.attachPending = none ∧ pt.offlineCause = some .marks ∧ pt.queued = [] ∧
     ({ pt with queue := [hostRead] } : Port).queued ≠ []) := by
  decide +kernel

/-- One and two failures before; none of the QUEUED entries for the target, and one of them. -/
theorem meets_PositioningFails :
    let onTarget (pt : Port) : List Entry := pt.queue.filter fun e => !e.active && pt.target == some e.cyl
    let some := positioning 2 [hostRead, { hostWrite with cyl := 9 }]
    (positioning 1 []).state = .positioning ∧ (positioning 1 []).posTries < 2 ∧
    2 ≤ (positioning 2 [hostRead]).posTries ∧ onTarget (positioning 2 [hostRead]) = [] ∧
    (onTarget some ≠ [] ∧ (∀ e ∈ onTarget some, e.ofHost = true ∧ e.port = 1) ∧
      (∀ i : StreamNo, (onPort some).streams[i].waitedPort ≠ Option.some 1) ∧
      (onPort some).pool.waitList = []) := by decide +kernel

/-- The last sector and the one past it; the chosen entry's sector and another; the states in which a
mark only counts; a format that ends, and one on a port that is being detached. -/
theorem meets_MarksClaimTheEngine :
    let formatting := engaged (onPort { idlePort with
      state := .active, chosen := some 5, queue := [active format] }) 1 .format
    let detaching := engaged (onPort {
      state := .absent, attachGeometry := some geo, detachPending := some 2
      queue := [active format] }) 1 .format
    idlePort.geometry = some geo ∧ geo.sectors ≤ (32 : Byte).toNat ∧
    (31 : Byte).toNat < geo.sectors ∧ idlePort.state ≠ .absent ∧
    (positioning 1 []).state = .positioning ∧
    (waitingPort.state = .waitSector ∧ waitingPort.chosenEntry = some hostRead ∧
      hostRead.sector = (16 : Byte).toNat ∧ hostRead.sector ≠ (15 : Byte).toNat) ∧
    (onPort waitingPort).engine.holder = none ∧
    (engaged (onPort waitingPort) 2 .header).engine.holder ≠ none ∧
    (formatting.ports[(1 : PortNo)].activeEntry = some (active format) ∧
      (active format).kind = .format 1 true ∧ (active format).port = 1 ∧ 0 < geo.sectors ∧
      formatting.ports[(1 : PortNo)].detachPending = none ∧ (1 : Byte) ≠ 0 ∧
      ∀ i : StreamNo, formatting.streams[i].waitedPort ≠ some 1) ∧
    (detaching.ports[(1 : PortNo)].state = .absent ∧
      detaching.ports[(1 : PortNo)].geometry = none ∧
      detaching.ports[(1 : PortNo)].attachGeometry = some geo ∧
      detaching.ports[(1 : PortNo)].activeEntry = some (active format) ∧
      ∀ i : StreamNo, detaching.streams[i].waitedPort ≠ some 1) := by decide +kernel

/-- The chosen entries of ports 0 and 1 are sectors 12 and 20. -/
theorem meets_MarksClaimTheEngine_tie :
    let pt (p : PortNo) : Port := twoPorts.ports[p]
    (0 : PortNo) < 1 ∧ twoPorts.engine.holder = none ∧
    (∀ p ∈ [(0 : PortNo), 1], (pt p).geometry = some geo ∧ (pt p).state = .waitSector) ∧
    (pt 0).chosenEntry.map Entry.sector = some (12 : Byte).toNat ∧
    (pt 1).chosenEntry.map Entry.sector = some (20 : Byte).toNat ∧
    (20 : Byte).toNat < geo.sectors := by decide +kernel

/-! ### Hypotheses met: the sector engine -/

/-- Port 1 holds the engine with an entry, and others wait behind it. -/
def engine (e : Entry) (others : List Entry) (phase : Phase) : State :=
  engaged (onPort { idlePort with
    state := .active, chosen := some e.serial, queue := active e :: others }) 1 phase

/-- The header of an entry with its flags. -/
def headerOf (e : Entry) (flags : Byte) : Vector Byte 7 :=
  let l : List Byte := beBytes 2 e.cyl ++ beBytes 1 e.head ++ beBytes 1 e.sector ++ [flags]
  Vector.ofFn fun k => (l ++ crcBytes l).getD k 0

/-- A header that agrees, without and with the lock, and one with flag bit 7 clear. -/
theorem meets_HeadersAreJudged :
    let good (h : Vector Byte 7) (e : Entry) : Prop := h[4].getLsbD 7 = true ∧
      [h[5], h[6]] = crcBytes [h[0], h[1], h[2], h[3], h[4]] ∧
      256 * h[0].toNat + h[1].toNat = e.cyl ∧ h[2].toNat = e.head ∧ h[3].toNat = e.sector
    let s (e : Entry) : State := engine e [] .header
    (∀ e ∈ [hostRead, streamRead, hostWrite, streamWrite],
      (s e).resetLow = false ∧ (s e).engine.holder = some 1 ∧ (s e).engine.phase = .header ∧
      (s e).ports[(1 : PortNo)].activeEntry = some (active e) ∧
      good (headerOf e 0x80) e ∧ good (headerOf e 0xC0) e ∧ ¬ good (headerOf e 0x00) e) ∧
    ({ hostRead with addrTries := 1 } : Entry).addrTries < 2 ∧
    (s hostRead).ports[(1 : PortNo)].detachPending = none ∧
    hostRead.kind.isWrite = false ∧ hostWrite.kind.isWrite = true ∧
    (headerOf hostWrite 0x80)[4].getLsbD 6 = false ∧ hostWrite.kind.override = true ∧
    (headerOf hostWrite 0xC0)[4].getLsbD 6 = true ∧
    (∀ e ∈ [{ hostRead with addrTries := 2 }, { hostWrite with addrTries := 2 }],
      (s e).ports[(1 : PortNo)].activeEntry = some (active e) ∧ 2 ≤ (active e).addrTries ∧
      (active e).port = 1 ∧ (s e).ports[(1 : PortNo)].state = .active ∧
      (∀ i : StreamNo, (s e).streams[i].waitedPort ≠ some 1) ∧ (s e).pool.waitList = [] ∧
      ((active e).kind = .hostRead 1 40 ∨ (active e).kind = .hostWrite 1 42 trailer true)) := by
  decide +kernel

theorem meets_HostWriteCompletes :
    let s := engine hostWrite [hostRead] .writeData
    let e := active hostWrite
    s.resetLow = false ∧ s.engine.holder = some 1 ∧ s.engine.phase = .writeData ∧
    s.ports[(1 : PortNo)].activeEntry = some e ∧ e.kind = .hostWrite 1 42 trailer true ∧
    e.lba = some 402 ∧ e.port = 1 ∧ s.ports[(1 : PortNo)].state = .active ∧
    s.ports[(1 : PortNo)].detachPending = none ∧
    (∀ i : StreamNo, s.streams[i].waitedPort ≠ some 1) ∧ s.pool.waitList = [] := by
  decide +kernel

/-- A capture stream whose write of sequence 5 on port 1 is in the engine. -/
def writingStream (st : Stream) (policy : Policy) (phase : Phase) : State :=
  holding ((engine streamWrite [hostRead] phase).withStream 3 { st with
    settings := some { cap with policy := policy }, take := some 2, nextSeq := some 20
    commitPoint := 5, commitMark := some 3, outstanding := 1 }) 3 1

/-- What all clauses of StreamWriteCompletes share. -/
def writesOut (s : State) (policy : Policy) : Prop :=
  let e := active streamWrite
  s.resetLow = false ∧ s.engine.holder = some 1 ∧ s.ports[(1 : PortNo)].activeEntry = some e ∧
  e.kind = .streamWrite 3 43 trailer false ∧ e.port = 1 ∧ s.ports[(1 : PortNo)].state = .active ∧
  s.ports[(1 : PortNo)].detachPending = none ∧
  (∀ j : StreamNo, s.streams[j].waitedPort ≠ some 1) ∧
  s.streams[(3 : StreamNo)].settings = some { cap with policy := policy } ∧ s.pool.waitList = []

/-- RUNNING with nothing else unwritten, HOLD with a later page ready, the last write of a stop, FAULTED
and the last write of an abort: next sequence 20 and the page ready, 8, as seen from the commit point. -/
theorem meets_StreamWriteCompletes_written :
    let ending : Stream := { state := .draining, endPage := .written, stopPart := some 2 }
    let ready : Stream := { state := .hold, ready := [⟨101, 8, 512⟩] }
    (∀ st ∈ [{ state := .running }, ready, ending, { state := .faulted },
        { ending with abortPart := some 9 }],
      writesOut (writingStream st .halt .writeData) .halt ∧
      (writingStream st .halt .writeData).engine.phase = .writeData) ∧
    (∀ q : PortNo, ∀ f ∈ (writingStream ready .halt .writeData).ports[q].queue,
      (q = 1 → f.serial ≠ streamWrite.serial) → f.kind.stream ≠ some 3) ∧
    (8 ∈ ready.ready.map ReadyPage.seq ∧ (8 - 5 : Seq).toNat ≤ (20 - 5 : Seq).toNat) := by
  unfold writesOut; decide +kernel

/-- A locked sector under CONTINUE with 7 skip-list entries: two sectors left above the low mark, on a
port with room and on one that is full, or none; and with 8 entries, and under HALT. -/
theorem meets_StreamWriteCompletes_fails :
    let header := headerOf streamWrite 0xC0
    let skips (n : Nat) : List Skip := List.replicate n ⟨2, 7, .locked⟩
    let given : Stream := { state := .running, extents := [{ ext with port := 2, count := 6 }]
                            skips := skips 7 }
    let next := { ext with port := 2, count := 6 }
    let full (s : State) : State :=
      s.withPort 2 { idlePort with state := .positioning, queue := List.replicate 12 format }
    let room (s : State) : State :=
      s.withPort 2 { idlePort with state := .positioning, queue := List.replicate 11 format }
    let s (st : Stream) (policy : Policy) : State := writingStream st policy .header
    (∀ t ∈ [(room (s given .goOn), Policy.goOn), (full (s given .goOn), .goOn),
        (s { given with extents := [] } .goOn, .goOn),
        (s { given with extents := [], state := .hold } .goOn, .goOn),
        (s { given with skips := skips 8 } .goOn, .goOn), (s given .halt, .halt)],
      writesOut t.1 t.2 ∧ t.1.engine.phase = .header ∧
      ∀ q : PortNo, ∀ f ∈ t.1.ports[q].queue, f.kind.stream = some 3 →
        q = 1 ∧ f.serial = streamWrite.serial) ∧
    (header[4].getLsbD 7 = true ∧ header[4].getLsbD 6 = true ∧
      [header[5], header[6]] = crcBytes [header[0], header[1], header[2], header[3], header[4]] ∧
      256 * header[0].toNat + header[1].toNat = (active streamWrite).cyl ∧
      header[2].toNat = (active streamWrite).head ∧
      header[3].toNat = (active streamWrite).sector) ∧
    (given.extents = next :: [] ∧ given.offset + 1 < next.count ∧ cap.lowMark + 1 < given.remaining ∧
      given.skips.length < 8 ∧ 8 ≤ (skips 8).length ∧ given.abortPart = none ∧ given.ready = []) ∧
    ((room (s given .goOn)).ports[(2 : PortNo)].queue.length < 12 ∧
      (room (s given .goOn)).ports[(2 : PortNo)].state ≠ .offline ∧
      12 ≤ (full (s given .goOn)).ports[(2 : PortNo)].queue.length) := by
  unfold writesOut; decide +kernel

/-- A payload of 0x07 and its trailer, with the right check and with another. -/
def payload : Vector Byte 512 := Vector.replicate 512 7

def trailerOf (check : List Byte) : Vector Byte 12 :=
  Vector.ofFn fun k => (trailer.bytes ++ check).getD k 0

/-- Two trailers, one whose data check agrees with the payload and one whose check differs. -/
theorem meets_HostReadCompletes_checks :
    let agrees (t : Vector Byte 12) : Prop :=
      t.toList.drop 10 = crcBytes (payload.toList ++ t.toList.take 10)
    (∃ t, agrees t) ∧ ∃ t, ¬ agrees t := by
  have two : ∀ l : List Byte, ∃ a b, crcBytes l = [a, b] := fun _ => ⟨_, _, rfl⟩
  obtain ⟨a, b, check⟩ := two (payload.toList ++ trailer.bytes)
  have taken : ∀ x y : Byte, (trailerOf [x, y]).toList.take 10 = trailer.bytes := fun _ _ => rfl
  have rest : ∀ x y : Byte, (trailerOf [x, y]).toList.drop 10 = [x, y] := fun _ _ => rfl
  refine ⟨⟨trailerOf [a, b], ?_⟩, trailerOf [a + 1, b], ?_⟩
  · show _ = _
    rw [taken, rest, check]
  · intro differs
    rw [taken, rest, check] at differs
    injection differs with head
    bv_omega

/-- What the clauses of HostReadCompletes share, for an entry with a page. -/
def readsIn (s : State) (e : Entry) : Prop :=
  s.resetLow = false ∧ s.pool.mem.Wf ∧ s.engine.holder = some 1 ∧ s.engine.phase = .readData ∧
  s.ports[(1 : PortNo)].activeEntry = some (active e) ∧ (active e).port = 1 ∧
  s.ports[(1 : PortNo)].state = .active ∧ s.ports[(1 : PortNo)].detachPending = none ∧
  (∀ i : StreamNo, s.streams[i].waitedPort ≠ some 1) ∧ s.pool.waitList = []

/-- One try and two tries that failed before. -/
theorem meets_HostReadCompletes :
    (∀ e ∈ [{ hostRead with dataTries := 1 }, { hostRead with dataTries := 2 }],
      readsIn (engine e [hostWrite] .readData) e ∧ (active e).kind = .hostRead 1 40 ∧
      (active e).lba = some 400) ∧
    1 < 2 ∧ 2 ≤ 2 ∧ hostRead.kind.isWrite = false ∧ hostRead.kind.page = some 40 ∧
    (∀ k < 512, pageAddr 41 0 ≠ pageAddr 40 k) := by unfold readsIn; decide +kernel

/-- A replay stream whose read into page 41 is in the engine, with a play queue around its entry. -/
def readingStream (st : Stream) (before rest : List PlayEntry) : State :=
  holding ((engine { streamRead with dataTries := 2 } [hostWrite] .readData).withStream 3 { st with
    take := some 2, outstanding := 1 + rest.length
    play := before ++ ⟨41, 1, 401, .pending⟩ :: rest }) 3 (before.length + 1 + rest.length)

/-- PRIMING one page short of its prime level; RUNNING with the expected sequence the trailer's own, 1
and 2^31 - 1 before it, and 2^31 before it; under HALT; behind a PENDING entry; FAULTED; and the last
read of a drain that an abort, a close or a stop began. -/
theorem meets_HostReadCompletes_streams :
    let ready : PlayEntry := ⟨50, 1, 100, .accepted trailer⟩
    let later (page : PageNo) : PlayEntry := ⟨page, 2, 100, .pending⟩
    let running (next : Seq) : Stream := { bound rep with state := .running, nextSeq := some next }
    let drains (stop abort : Option Byte) (reason : DrainReason) : Stream := { bound rep with
      state := .draining, stopPart := stop, abortPart := abort, drainReason := some reason }
    let ahead (next : Seq) : Nat := (trailer.seq - (running next).nextSeq.getD 0).toNat
    let e : Entry := { streamRead with dataTries := 2 }
    let halting : Stream := { running 5 with settings := some { rep with policy := .halt } }
    (∀ x ∈ [({ running 5 with state := .priming }, [ready], [later 51]), (running 5, [], []),
        (running 4, [ready], [later 51]), (running (6 - 2 ^ 31), [], []),
        (running (5 - 2 ^ 31), [], []), (halting, [ready], []),
        (running 5, [ready, later 51], []), ({ running 5 with state := .faulted }, [], []),
        (drains (some 2) (some 1) .abort, [], []), (drains none none .endPage, [], []),
        (drains (some 2) none .stop, [], [])],
      let s := readingStream x.1 x.2.1 x.2.2
      readsIn s e ∧ (active e).kind = .streamRead 3 41 ∧ 2 ≤ (active e).dataTries ∧
      s.streams[(3 : StreamNo)].settings.map (·.direction) = some .replay ∧
      (∀ y ∈ x.2.1 ++ x.2.2, y.page ≠ 41) ∧ x.1.extents = [] ∧
      (∀ q : PortNo, ∀ f ∈ s.ports[q].queue, f.kind.stream = some 3 →
        q = 1 ∧ f.serial = streamRead.serial)) ∧
    (ready.isAccepted = true ∧ (later 51).status = .pending) ∧
    (rep.primeLevel = [ready].length + 1 ∧ [ready].length < rep.primeLevel) ∧
    ahead 5 = 0 ∧ ahead 4 = 1 ∧ ahead (6 - 2 ^ 31) = 2 ^ 31 - 1 ∧ ahead (5 - 2 ^ 31) = 2 ^ 31 ∧
    (rep.policy = .goOn ∧ trailer.fill < 65536 ∧ trailer.recTag = rep.recTag ∧ trailer.take = 2 ∧
      trailer.bytes = (trailerOf [0, 0]).toList.take 10) := by
  unfold readsIn; decide +kernel

/-! ### Hypotheses met: shared operations -/

/-- Stream 3 under its reserve, at its reserve, and at its quota. -/
theorem meets_PoolGrantsClaims :
    oneBound.streams[(3 : StreamNo)].settings = some cap ∧
    oneBound.pool.held[(3 : StreamNo)] < cap.reserve ∧
    (¬ (holding oneBound 3 2).pool.held[(3 : StreamNo)] < cap.reserve ∧
      (holding oneBound 3 2).pool.held[(3 : StreamNo)] < cap.quota ∧
      (holding oneBound 3 2).work.reserveNeed < (holding oneBound 3 2).work.freeCount) ∧
    (pages (holding oneBound 3 2) []).work.freeCount ≤
      (pages (holding oneBound 3 2) []).work.reserveNeed ∧
    (holding oneBound 3 4).pool.held[(3 : StreamNo)] = cap.quota := by decide +kernel

theorem meets_ClaimsTakeAPage :
    oneBound.pool.mem.Wf ∧ (oneBound.work.claim 3).isSome = true ∧
    oneBound.pool.held[(3 : StreamNo)] < oneBound.streams[(3 : StreamNo)].cfg.reserve ∧
    ((holding oneBound 3 2).work.claim 3).isSome = true ∧
    (holding oneBound 3 2).streams[(3 : StreamNo)].cfg.reserve ≤
      (holding oneBound 3 2).pool.held[(3 : StreamNo)] := by decide +kernel

/-- A trailer of the stream's own, of another recording, with a fill past 512, and at the ends of the
three ranges of the sequence. -/
theorem meets_VerdictsFollowTheirTable :
    let st (next : Seq) : Stream := { bound rep with take := some 2, nextSeq := some next }
    let foreign (t : Trailer) : Prop := t.recTag ≠ (st 5).cfg.recTag ∨
      t.take ≠ (st 5).take.getD 0 ∨ 512 < t.fill
    let ahead (next : Seq) : Nat := (trailer.seq - (st next).nextSeq.getD 0).toNat
    ¬ foreign trailer ∧ foreign { trailer with recTag := 5 } ∧ foreign { trailer with fill := 513 } ∧
    ahead 5 = 0 ∧ ahead 4 = 1 ∧ ahead (6 - 2 ^ 31) = 2 ^ 31 - 1 ∧ ahead (5 - 2 ^ 31) = 2 ^ 31 ∧
    ahead 6 = 2 ^ 32 - 1 ∧ (bound cap).cfg.policy = .halt ∧ (st 5).cfg.policy = .goOn := by
  decide +kernel

/-- The take to the low mark, the ones on either side of it, and one that ends the head extent. -/
theorem meets_TakingASectorTestsTheLowMark :
    let st (offset : Nat) : Stream := { bound cap with
      state := .running, extents := [ext], offset := offset }
    let crosses (st : Stream) : Prop := st.isActive = true ∧ st.lowGiven = false ∧
      st.cfg.lowMark < st.remaining ∧ st.remaining ≤ st.cfg.lowMark + 1
    (st 16).extents = ext :: [] ∧ (st 19).offset < ext.count ∧ crosses (st 16) ∧
    ¬ crosses (st 15) ∧ ¬ crosses (st 17) ∧ ext.count = (st 19).offset + 1 := by decide +kernel

end Sys2Proof.Tests
end

/-! PROOFS. STREAM_QUERY and PORT_QUERY (R20, R125): a number sent as a byte is read back as itself,
a flag byte is the sum of its bits' weights (R157 (3)), a query is answered at once with the bytes of
the record as it stands, and those bytes are the layouts of section 10.3. -/

namespace Sys2Proof.Machine

/-! ### Numbers sent as bytes -/

@[simp] theorem streamByte_toNat (i : StreamNo) : (streamByte i).toNat = i.val := by
  have := i.isLt
  simp only [streamByte, BitVec.toNat_ofNat]
  omega

@[simp] theorem portByte_toNat (p : PortNo) : (portByte p).toNat = p.val := by
  have := p.isLt
  simp only [portByte, BitVec.toNat_ofNat]
  omega

@[simp] theorem parseStream_streamByte (i : StreamNo) : parseStream (streamByte i) = some i := by
  simp [parseStream]

@[simp] theorem parsePort_portByte (p : PortNo) : parsePort (portByte p) = some p := by
  simp [parsePort]

@[simp] theorem parseStreamArg_streamByte (i : StreamNo) :
    parseStreamArg [streamByte i] = some i := parseStream_streamByte i

@[simp] theorem parsePortArg_portByte (p : PortNo) :
    parsePortArg [portByte p] = some p := parsePort_portByte p

theorem beBytes_one (n : Nat) : beBytes 1 n = [BitVec.ofNat 8 n] := by simp [beBytes]

/-! ### Flag bytes -/

/-- What flag bit `k` adds to its byte's value (R157 (3)). -/
def flagBit (k : Nat) (b : Bool) : Nat := if b then 2 ^ k else 0

/-- The value of a list of flag bits, the first of them bit `k`. -/
def flagValue : Nat → List Bool → Nat
  | _, [] => 0
  | k, b :: bits => flagBit k b + flagValue (k + 1) bits

theorem flagValue_eq_mul_foldr (k : Nat) (bits : List Bool) :
    flagValue k bits = 2 ^ k * bits.foldr (fun b n => (if b then 1 else 0) + 2 * n) 0 := by
  induction bits generalizing k with
  | nil => rfl
  | cons b bits ih =>
    rw [flagValue, flagBit, ih, List.foldr_cons, Nat.mul_add, Nat.pow_succ, Nat.mul_assoc]
    cases b <;> simp

/-- A flag byte is the value of its bits, bit 0 first (R157 (3)). -/
theorem flagByte_singleton (bits : List Bool) : [flagByte bits] = beBytes 1 (flagValue 0 bits) := by
  rw [beBytes_one, flagByte, flagValue_eq_mul_foldr, Nat.pow_zero, Nat.one_mul]

/-- The presence bits of STREAM_QUERY (Table 10.6). -/
theorem Stream.presenceByte_singleton (st : Stream) : [st.presenceByte] = beBytes 1
    (flagBit 0 st.take.isSome + flagBit 1 (st.nextSeq.isSome && st.commitMark.isSome) +
      flagBit 2 st.outcome.isSome + flagBit 3 st.stopPart.isSome +
      flagBit 4 st.abortPart.isSome) := by
  simp only [Stream.presenceByte, flagByte_singleton, flagValue, Nat.add_assoc, Nat.reduceAdd,
    Nat.add_zero]

/-- The episode bits of STREAM_QUERY (Table 10.6). -/
theorem Stream.episodeByte_singleton (st : Stream) : [st.episodeByte] = beBytes 1
    (flagBit 0 st.overrun + flagBit 1 st.underrun + flagBit 2 st.lowGiven) := by
  simp only [Stream.episodeByte, flagByte_singleton, flagValue, Nat.add_assoc, Nat.reduceAdd,
    Nat.add_zero]

/-- The presence bits of PORT_QUERY (Table 10.6). -/
theorem Port.presenceByte_singleton (pt : Port) : [pt.presenceByte] = beBytes 1
    (flagBit 0 pt.geometry.isSome + flagBit 1 pt.curCyl.isSome + flagBit 2 pt.target.isSome +
      flagBit 3 pt.lastMark.isSome + flagBit 4 (pt.queue.any fun e => e.active) +
      flagBit 5 pt.recovery.isSome + flagBit 6 pt.attachPending.isSome +
      flagBit 7 pt.detachPending.isSome) := by
  simp only [Port.presenceByte, flagByte_singleton, flagValue, Nat.add_assoc, Nat.reduceAdd,
    Nat.add_zero]

/-! ### The answer of a query -/

/-- A request whose payload has its length and carries arguments in range comes to its owner
(R149 (2), (3)). -/
theorem Work.checked_of_parse {α : Type} {w : Work} {tag : Byte} {payload : List Byte} {len : Nat}
    {parse : List Byte → Option α} {owner : α → Work → Work} {a : α}
    (length : payload.length = len) (args : parse payload = some a) :
    w.checked tag payload len parse owner = owner a w := by
  simp [Work.checked, length, args]

/-- STREAM_QUERY is answered OK at once and changes nothing else (R20). -/
theorem exec_streamQuery_answered {s : State} {tag : Byte} (h : s.Takes tag) (i : StreamNo) :
    exec (.streamQuery tag [streamByte i]) s =
      .next (s.replied tag 0x35 .ok (s.work.queryBytes i)) := by
  rw [exec_streamQuery]
  exact act_answered h rfl (Work.checked_of_parse rfl (parseStreamArg_streamByte i))

/-- PORT_QUERY is answered OK at once and changes nothing else (R125). -/
theorem exec_portQuery_answered {s : State} {tag : Byte} (h : s.Takes tag) (p : PortNo) :
    exec (.portQuery tag [portByte p]) s =
      .next (s.replied tag 0x22 .ok (s.work.port p).queryBytes) := by
  rw [exec_portQuery]
  exact act_answered h rfl (Work.checked_of_parse rfl (parsePortArg_portByte p))

/-! ### The records as they are reported -/

theorem Stream.cfg_of_settings {st : Stream} {c : Settings} (h : st.settings = some c) :
    st.cfg = c := by
  simp [Stream.cfg, h]

/-- A FREE stream reports its number and its state alone (R20). -/
theorem Work.queryBytes_free {w : Work} {i : StreamNo} (h : (w.stream i).state = .free) :
    w.queryBytes i = [streamByte i, 0] := by
  simp [Work.queryBytes, h, StreamState.code]

/-- The sectors of a drive, all its figures 0 while they are absent (R125). -/
theorem capacity_getD (g : Option Geometry) :
    (g.map Geometry.capacity).getD 0 = (g.getD ⟨0, 0, 0⟩).capacity := by
  cases g <;> rfl

/-! ### The obligation -/

/-- Settles O40: each query is answered at once, and the reply's bytes are compared field by field. -/
theorem queriesReport : Obligations.QueriesReport := by
  unfold Obligations.QueriesReport
  refine ⟨fun s tag i h => ⟨fun free => ?_, fun c bound settings => ?_⟩, fun s tag p h => ?_⟩
  · rw [exec_streamQuery_answered h, Work.queryBytes_free (w := s.work) free]
  · have unfree : (s.work.stream i).state ≠ .free := bound
    have cfg : (s.work.stream i).cfg = c := Stream.cfg_of_settings settings
    rw [exec_streamQuery_answered h, Work.queryBytes, if_neg unfree]
    simp only [cfg, Stream.presenceByte_singleton, Stream.episodeByte_singleton,
      Stream.queueFigures, Counters.bytes, List.append_assoc]
    rfl
  · rw [exec_portQuery_answered h, Port.queryBytes, capacity_getD]
    simp only [Port.presenceByte_singleton, geometryBytes, List.append_assoc]
    rfl

end Sys2Proof.Machine

/-! PROOFS. The page pool (R25, R26, R28, R37): what the part holds after either way out of reset, and
when a stream's claim is granted. R26 asks nothing of the free list in its first case: that a page is
free there is what the reserve accounting is for. -/

namespace Sys2Proof.Machine

/-! ### When a claim is granted (R26) -/

/-- The two cases of R26. -/
theorem Work.grants_iff (w : Work) (i : StreamNo) :
    w.grants i = true ↔ w.held i < (w.stream i).cfg.reserve ∨
      (w.held i < (w.stream i).cfg.quota ∧ w.reserveNeed < w.freeCount) := by
  simp [Work.grants]

/-- A stream's claim succeeds when the pool grants it and a page is free. -/
theorem Work.exists_claim_iff (w : Work) (i : StreamNo) :
    (∃ grant, w.claim i = some grant) ↔ 0 < w.freeCount ∧ w.grants i = true := by
  constructor
  · rintro ⟨⟨page, w'⟩, h⟩
    obtain ⟨rest, free, granted, -⟩ := Work.claim_cases h
    exact ⟨by simp [Work.freeCount, free], granted⟩
  · rintro ⟨avail, granted⟩
    obtain ⟨page, rest, free⟩ := List.exists_cons_of_length_pos avail
    exact ⟨_, by rw [Work.claim, free]; exact if_pos granted⟩

/-- No stream's part of the outstanding reserve need exceeds the whole. -/
theorem Work.shortfall_le_reserveNeed (w : Work) (i : StreamNo) : w.shortfall i ≤ w.reserveNeed := by
  rw [Work.reserveNeed_eq]
  exact List.le_sum_of_mem (List.mem_map_of_mem (mem_streamNos i))

/-- Under the accounting of R25 a page is free whenever the pool grants a claim: a stream below its
reserve has a part in the need, and the free count covers the need. -/
theorem Work.Reserved.freeCount_pos_of_grants {w : Work} (h : w.Reserved) {i : StreamNo}
    (granted : w.grants i = true) : 0 < w.freeCount := by
  rcases (w.grants_iff i).1 granted with below | ⟨-, spare⟩
  · have part := w.shortfall_le_reserveNeed i
    have margin := h.margin
    rw [Work.shortfall_eq h] at part
    omega
  · exact Nat.zero_lt_of_lt spare

/-- Under the accounting of R25 a claim succeeds just when the pool grants it. -/
theorem Work.Reserved.exists_claim_iff_grants {w : Work} (h : w.Reserved) (i : StreamNo) :
    (∃ grant, w.claim i = some grant) ↔ w.grants i = true := by
  rw [Work.exists_claim_iff]
  exact and_iff_right_of_imp h.freeCount_pos_of_grants

/-- Settles O56: the claim succeeds just when R26 grants it, and both refusals follow from that, the one
at the quota because the reserve is at most the quota (R9). -/
theorem poolGrantsClaims : Obligations.PoolGrantsClaims := by
  unfold Obligations.PoolGrantsClaims
  intro s i c reserved settings held first second
  have cfg : (s.work.stream i).cfg = c := Stream.cfg_of_settings settings
  obtain ⟨-, -, -, -, reserve_le, -⟩ := reserved.ranges i c settings
  have success : (∃ grant, s.work.claim i = some grant) ↔ first ∨ second := by
    rw [((Work.reserved_iff s.work).1 reserved).exists_claim_iff_grants, Work.grants_iff, cfg]
    rfl
  have refused : s.work.claim i = none ↔ ¬(first ∨ second) := by
    rw [← success, Option.eq_none_iff_forall_ne_some, not_exists]
  refine ⟨success, fun refusal below => ?_, fun full => ?_⟩
  · exact Nat.le_of_not_lt fun spare => refused.1 refusal (.inr ⟨below, spare⟩)
  · refine refused.2 (not_or.2 ⟨?_, fun ⟨below, _⟩ => ?_⟩)
    · exact Nat.not_lt.2 (full ▸ reserve_le)
    · exact Nat.ne_of_lt below full

/-! ### What a claim hands out (R28) -/

/-- A page just cleared is all 0x00. -/
theorem Memory.read_clearPage_inside (m : Memory) (p : PageNo) {k : Nat} (hk : k < 512) :
    (m.clearPage p).read (pageAddr p k) = 0 := by
  rw [Memory.read_clearPage]
  exact if_pos ⟨by simp only [pageAddr]; omega, by simp only [pageAddr]; omega⟩

/-- The page of a granted claim is all 0x00, whatever it held. -/
theorem Work.claim_zeroFilled {w w' : Work} {i : StreamNo} {p : PageNo}
    (h : w.claim i = some (p, w')) : ∀ k < 512, w'.pool.mem.read (pageAddr p k) = 0 := by
  obtain ⟨rest, -, -, rfl⟩ := Work.claim_cases h
  exact fun k hk => w.pool.mem.read_clearPage_inside p hk

/-- The page of a granted host claim is all 0x00, whatever it held. -/
theorem Work.claimHost_zeroFilled {w w' : Work} {p : PageNo}
    (h : w.claimHost = some (p, w')) : ∀ k < 512, w'.pool.mem.read (pageAddr p k) = 0 := by
  obtain ⟨rest, -, -, rfl⟩ := Work.claimHost_cases h
  exact fun k hk => w.pool.mem.read_clearPage_inside p hk

/-! ### The two ways out of reset (R155, R156) -/

/-- LEAVE_RESET resets the part. -/
theorem exec_leaveReset_resets (spd1 spd0 : Bool) (s : State) :
    exec (.leaveReset spd1 spd0) s = .next (s.work.resetPart spd1 spd0).toState := by
  rw [exec_leaveReset]
  exact act_of_eq rfl rfl

/-- The last byte of the OK reply to PART_RESET resets the part. -/
theorem exec_recordSent_resets {s : State} (spd1 spd0 : Bool) (high : s.resetLow = false)
    (sending : s.host.tx = .reply) (sent : s.host.resetReplySent = true) :
    exec (.recordSent spd1 spd0) s = .next (s.work.resetPart spd1 spd0).toState := by
  rw [exec_recordSent]
  exact actUnlessReset_of_eq high (if_pos ⟨sending, sent⟩) rfl

/-- The reply being sent is the OK reply to PART_RESET when it heads the queue. -/
theorem HostLine.resetReplySent_of_head {h : HostLine} {r : Reply} {rest : List Reply}
    (pending : h.resetPending = true) (head : h.replies = r :: rest) (code : r.code = 0x02)
    (ok : r.result = .ok) : h.resetReplySent = true := by
  simp [HostLine.resetReplySent, pending, head, code, ok]

/-! ### The pool after reset (R37) -/

/-- Every page is free after reset, in ascending order. -/
theorem Pool.free_reset : Pool.reset.free = List.finRange 512 := by rw [Pool.reset]

theorem Pool.mem_reset_free (p : PageNo) : p ∈ Pool.reset.free := by
  rw [Pool.free_reset]; exact List.mem_finRange p

theorem Pool.length_reset_free : Pool.reset.free.length = 512 := by
  rw [Pool.free_reset]; exact List.length_finRange

@[simp] theorem Work.stream_resetPart (w : Work) (spd1 spd0 : Bool) (i : StreamNo) :
    (w.resetPart spd1 spd0).stream i = {} := by
  simp [Work.stream, Work.resetPart, State.reset]

@[simp] theorem Work.held_resetPart (w : Work) (spd1 spd0 : Bool) (i : StreamNo) :
    (w.resetPart spd1 spd0).held i = 0 :=
  Vector.getElem_replicate i.isLt

/-- While every stream is FREE no reserve counts (R25 (1)). -/
theorem Work.reserveSum_of_free {w : Work} (free : ∀ i, (w.stream i).state = .free) :
    w.reserveSum = 0 := by
  simp [Work.reserveSum, free]

/-- While every stream is FREE nothing is needed (R25 (2)). -/
theorem Work.reserveNeed_of_free {w : Work} (free : ∀ i, (w.stream i).state = .free) :
    w.reserveNeed = 0 := by
  simp [Work.reserveNeed, free]

/-- Settles O4: either command resets the part, R37's values are those of the reset pool with every
stream FREE, and a granted claim zero-fills its page in any state. -/
theorem poolAfterReset : Obligations.PoolAfterReset := by
  unfold Obligations.PoolAfterReset
  intro s spd1 spd0 c way
  have resets : exec c s = .next (s.work.resetPart spd1 spd0).toState := by
    rcases way with rfl | ⟨rfl, high, sending, pending, r, rest, head, code, ok⟩
    · exact exec_leaveReset_resets spd1 spd0 s
    · exact exec_recordSent_resets spd1 spd0 high sending
        (HostLine.resetReplySent_of_head pending head code ok)
  have free (i : StreamNo) : ((s.work.resetPart spd1 spd0).stream i).state = .free := by simp
  exact ⟨_, resets, Pool.mem_reset_free, Pool.free_reset, Pool.length_reset_free,
    Work.held_resetPart _ spd1 spd0, rfl, Work.reserveSum_of_free free,
    Work.reserveNeed_of_free free, rfl, fun _ _ _ _ => Work.claim_zeroFilled,
    fun _ _ => Work.claimHost_zeroFilled⟩

end Sys2Proof.Machine

/-! PROOFS. HELLO (R154): the request is answered at once with the host line's figures, those are the
layout of Table 10.3, and the line speed among them is the number the straps spell (R156). -/

namespace Sys2Proof.Machine

/-- HELLO is answered OK at once and changes nothing else (R154). -/
theorem exec_hello_answered {s : State} {tag : Byte} (h : s.Takes tag) :
    exec (.hello tag []) s = .next (s.replied tag 0x01 .ok s.host.helloBytes) := by
  rw [exec_hello]
  exact act_answered h rfl (Work.checked_of_parse rfl rfl)

/-- The HELLO reply with the part code, the revision and the capacities as bytes (Table 10.3). -/
theorem HostLine.helloBytes_eq (h : HostLine) : h.helloBytes =
    [0x04, 0x16, 1, 16, 0x02, 0x00, 4, 64, 8, h.lineSpeed.code,
      if h.noticeHold then 1 else 0] ++ beBytes 2 h.lineFaults := by
  have part : beBytes 2 0x0416 = [0x04, 0x16] := by decide
  have pages : beBytes 2 512 = [0x02, 0x00] := by decide
  rw [HostLine.helloBytes, part, pages, boolByte]
  rfl

/-- The code of the speed the straps select is the number they spell, SPD1 its high bit. -/
theorem strapSpeed_code (spd1 spd0 : Bool) :
    (strapSpeed spd1 spd0).code = (if spd1 then 2 else 0) + (if spd0 then 1 else 0) := by
  cases spd1 <;> cases spd0 <;> rfl

/-- Settles O18: HELLO is answered with the line's figures, compared with Table 10.3, and the reset
part's speed is that of the straps. -/
theorem helloReports : Obligations.HelloReports := by
  unfold Obligations.HelloReports
  refine ⟨fun s tag takes => ?_, fun s spd1 spd0 => ?_⟩
  · rw [exec_hello_answered takes, HostLine.helloBytes_eq]
  · exact ⟨_, exec_leaveReset_resets spd1 spd0 s, strapSpeed_code spd1 spd0⟩

end Sys2Proof.Machine

/-! PROOFS. What every step keeps: the ranges of a sound state, the reserve accounting (R25), the
transmitter's choice (R151) and the slot maps (R65). What each command of the frame port, the stream
table and reset does to the work in hand is said once; each property is then shown of those
changes, and `Kept.exec` carries it through the step. -/

namespace Sys2Proof.Machine

/-! ### What the commands that are their own do -/

/-- A request in its slot is answered with a refusal, or its arguments come to its owner (R149). -/
theorem Work.checked_cases {α : Type} (w : Work) (tag : Byte) (payload : List Byte) (len : Nat)
    (parse : List Byte → Option α) (owner : α → Work → Work) :
    (∃ r, w.checked tag payload len parse owner = w.answer tag r []) ∨
      ∃ a, parse payload = some a ∧ w.checked tag payload len parse owner = owner a w := by
  unfold Work.checked
  split
  · exact .inl ⟨_, rfl⟩
  · split
    · exact .inl ⟨_, rfl⟩
    · exact .inr ⟨_, ‹_›, rfl⟩

/-- FRAME_SET is answered with nothing else changed, or takes the role and the slot count (R62, R63). -/
theorem serveFrameSet_cases (tag : Byte) (payload : List Byte) (w : Work) :
    (∃ r reply, serveFrameSet tag payload w = w.answer tag r reply) ∨
      ∃ (role : Role) (n : SlotCount) (reply : List Byte), w.frame.mappedBeyond n.toNat = false ∧
        serveFrameSet tag payload w =
          (w.updFrame fun f => { f.emptyBuffers with
            role := role, slotCount := n, state := role.start }).answer tag .ok reply := by
  rcases w.checked_cases tag payload 2 parseFrameSet _ with ⟨r, e⟩ | ⟨a, -, e⟩
  · exact .inl ⟨r, [], e⟩
  · unfold serveFrameSet
    rw [e]
    split
    · exact .inl ⟨_, _, rfl⟩
    · rename_i free
      simp only [Bool.or_eq_true, not_or, Bool.not_eq_true] at free
      exact .inr ⟨a.1, a.2, _, free.2, rfl⟩

/-- SLOT_SET is answered with nothing else changed, or writes its entry (R66). -/
theorem serveSlotSet_cases (tag : Byte) (payload : List Byte) (w : Work) :
    (∃ r reply, serveSlotSet tag payload w = w.answer tag r reply) ∨
      ∃ n d i reply, w.slotSetRefusal n d i = none ∧
        serveSlotSet tag payload w =
          (w.updFrame (·.setSlot d n (some i))).answer tag .ok reply := by
  rcases w.checked_cases tag payload 3 parseSlotSet _ with ⟨r, e⟩ | ⟨a, -, e⟩
  · exact .inl ⟨r, [], e⟩
  · unfold serveSlotSet
    rw [e]
    split
    · exact .inl ⟨_, _, rfl⟩
    · exact .inr ⟨a.1, a.2.1, a.2.2, _, ‹_›, rfl⟩

/-- SLOT_CLEAR is answered with nothing else changed, or clears its entry (R67). -/
theorem serveSlotClear_cases (tag : Byte) (payload : List Byte) (w : Work) :
    (∃ r reply, serveSlotClear tag payload w = w.answer tag r reply) ∨
      ∃ n d reply, serveSlotClear tag payload w =
        (w.updFrame (·.setSlot d n none)).answer tag .ok reply := by
  rcases w.checked_cases tag payload 2 parseSlotClear _ with ⟨r, e⟩ | ⟨a, -, e⟩
  · exact .inl ⟨r, [], e⟩
  · unfold serveSlotClear
    rw [e]
    dsimp only
    split
    · exact .inl ⟨_, _, rfl⟩
    · split
      · exact .inl ⟨_, _, rfl⟩
      · exact .inr ⟨a.1, a.2, _, rfl⟩

/-- STREAM_BIND is answered with nothing else changed, or binds the stream (R9, R10). -/
theorem serveStreamBind_cases (tag : Byte) (payload : List Byte) (w : Work) :
    (∃ r reply, serveStreamBind tag payload w = w.answer tag r reply) ∨
      ∃ i c reply, parseBind payload = some (i, c) ∧ w.bindRefusal i c = none ∧
        serveStreamBind tag payload w =
          (w.updStream i fun _ => Stream.boundWith c).answer tag .ok reply := by
  rcases w.checked_cases tag payload 12 parseBind _ with ⟨r, e⟩ | ⟨a, args, e⟩
  · exact .inl ⟨r, [], e⟩
  · unfold serveStreamBind
    rw [e]
    split
    · exact .inl ⟨_, _, rfl⟩
    · exact .inr ⟨a.1, a.2, _, args, ‹_›, rfl⟩

/-- STREAM_UNBIND is answered with nothing else changed, or frees the record and the slots (R19). -/
theorem serveStreamUnbind_cases (tag : Byte) (payload : List Byte) (w : Work) :
    (∃ r reply, serveStreamUnbind tag payload w = w.answer tag r reply) ∨
      ∃ i reply, serveStreamUnbind tag payload w =
        (((w.updFrame fun f => { f with
            rxMap := clearStream f.rxMap i, txMap := clearStream f.txMap i }).updStream i
          fun _ => {}).signal).answer tag .ok reply := by
  rcases w.checked_cases tag payload 1 parseStreamArg _ with ⟨r, e⟩ | ⟨i, -, e⟩
  · exact .inl ⟨r, [], e⟩
  · unfold serveStreamUnbind
    rw [e]
    split
    · exact .inr ⟨i, _, rfl⟩
    · exact .inl ⟨_, _, rfl⟩

/-- NOTICE_RELEASE of a request in its slot is an answer, with notice hold off or as it was. -/
theorem serveNoticeRelease_cases (tag : Byte) (payload : List Byte) (w : Work) :
    (∃ r reply, serveNoticeRelease tag payload w = w.answer tag r reply) ∨
      ∃ reply, serveNoticeRelease tag payload w =
        (w.updHost fun h => { h with noticeHold := false }).answer tag .ok reply := by
  rcases w.checked_cases tag payload 0 parseNone _ with ⟨r, e⟩ | ⟨_, -, e⟩
  · exact .inl ⟨r, [], e⟩
  · exact .inr ⟨_, e⟩

/-- The step of a part with a command waiting keeps what the command keeps. -/
theorem Kept.step {P : Work → Prop} (h : Kept P) {s t : State} (run : step s = .next t)
    (start : ∀ pending, P ({ s with pending := pending } : State).work) :
    ∃ w : Work, P w ∧ w.toState = t := by
  unfold Machine.step at run
  split at run
  · cases run
    exact ⟨s.work, start s.pending, rfl⟩
  · exact h.exec _ _ _ run (start _)

/-! ### The ranges of a sound state -/

/-- A stream record with nothing counted and nothing listed is within its ranges. -/
theorem Stream.bounded_fresh (state : StreamState) (settings : Option Settings) :
    ({ state := state, settings := settings } : Stream).Bounded := by
  simp [Stream.Bounded, Counters.Bounded, Stream.markNow]

/-- The record of a port without a drive is within its ranges. -/
theorem Port.bounded_fresh : ({} : Port).Bounded := by simp [Port.Bounded]

theorem HostLine.bounded_fresh (speed : LineSpeed) :
    ({ lineSpeed := speed } : HostLine).Bounded := by simp [HostLine.Bounded, HostLine.load]

theorem HostLine.Bounded.sent {h : HostLine} (b : h.Bounded) : h.sent.Bounded := by
  obtain ⟨b1, b2, b3, b4, b5, b6, b7⟩ := b
  unfold HostLine.sent
  split
  · exact ⟨b1, b2, b3, b4, b5, b6, b7⟩
  · refine HostLine.Bounded.choose ⟨?_, b2, b3, b4, b5, b6, b7⟩
    simp only [HostLine.load, List.length_tail] at b1 ⊢
    omega
  · exact HostLine.Bounded.choose ⟨b1, b2, by simp only [List.length_tail]; omega, b4, b5, b6, b7⟩
  · exact HostLine.Bounded.choose ⟨b1, b2, b3, by simp only [List.length_tail]; omega, b5, b6, b7⟩

theorem State.Sound.setFrame {w : Work} (h : w.toState.Sound) (f : FramePort → FramePort)
    (hf : w.frame.Bounded → (f w.frame).Bounded) : (w.updFrame f).toState.Sound :=
  ⟨h.streams, h.ports, h.host, hf h.frame, h.memory⟩

theorem State.Sound.setHost {w : Work} (h : w.toState.Sound) (f : HostLine → HostLine)
    (hf : w.host.Bounded → (f w.host).Bounded) : (w.updHost f).toState.Sound :=
  ⟨h.streams, h.ports, hf h.host, h.frame, h.memory⟩

theorem State.Sound.setStream {w : Work} (h : w.toState.Sound) (i : StreamNo) (st : Stream)
    (hst : st.Bounded) : (w.updStream i fun _ => st).toState.Sound where
  streams j := by
    show ((w.updStream i fun _ => st).stream j).Bounded
    rw [Work.stream_updStream]
    split
    · exact hst
    · exact h.streams j
  ports := h.ports
  host := h.host
  frame := h.frame
  memory := h.memory

/-- The part is sound however it left reset. -/
theorem State.sound_resetPart (w : Work) (spd1 spd0 : Bool) :
    (w.resetPart spd1 spd0).toState.Sound where
  streams i := by
    show ((w.resetPart spd1 spd0).stream i).Bounded
    rw [Work.stream_resetPart]
    exact Stream.bounded_fresh .free none
  ports p := by
    have e : (w.resetPart spd1 spd0).toState.ports[p] = {} := Vector.getElem_replicate p.isLt
    rw [e]
    exact Port.bounded_fresh
  host := HostLine.bounded_fresh _
  frame := Kept.bounded_state nofun
  memory := Memory.wf_nil

/-- The role a FRAME_SET takes starts with no bits counted (R63 (3)). -/
theorem Role.start_bits (role : Role) (run : Fin 4) (bits : Nat)
    (e : role.start = .seeking run bits) : bits = 0 := by
  cases role <;> cases e
  rfl

/-- A slot written leaves the port state and the slot count. -/
theorem FramePort.setSlot_state (f : FramePort) (d : SlotDirection) (n : SlotNo)
    (v : Option StreamNo) : (f.setSlot d n v).state = f.state := by cases d <;> rfl

theorem FramePort.setSlot_slotCount (f : FramePort) (d : SlotDirection) (n : SlotNo)
    (v : Option StreamNo) : (f.setSlot d n v).slotCount = f.slotCount := by cases d <;> rfl

theorem FramePort.setSlot_bounded {f : FramePort} (d : SlotDirection) (n : SlotNo)
    (v : Option StreamNo) (b : f.Bounded) : (f.setSlot d n v).Bounded := by
  intro run bits e
  rw [FramePort.setSlot_state] at e
  rw [FramePort.setSlot_slotCount]
  exact b run bits e

theorem kept_sound : Kept fun w => w.toState.Sound where
  toClosed := closed_sound
  host _ f hf _ h := h.setHost f hf
  frame _ f _ _ _ hf h := h.setFrame f hf
  engine _ _ h := ⟨h.streams, h.ports, h.host, h.frame, h.memory⟩
  noticeRelease tag code owner payload w h fresh room := by
    have taken := h.setHost (fun h => { h with slots := h.slots ++ [⟨tag, code, owner⟩] })
      fun b => b.take tag code owner fresh room
    rcases serveNoticeRelease_cases tag payload
      (w.updHost fun h => { h with slots := h.slots ++ [⟨tag, code, owner⟩] }) with
      ⟨r, reply, e⟩ | ⟨reply, e⟩ <;> rw [e]
    · exact closed_sound.answer _ _ _ _ taken
    · exact closed_sound.answer _ _ _ _ (taken.setHost _ fun b => b)
  frameSet tag payload w h := by
    rcases serveFrameSet_cases tag payload w with ⟨r, reply, e⟩ | ⟨role, n, reply, -, e⟩ <;> rw [e]
    · exact closed_sound.answer _ _ _ _ h
    · exact closed_sound.answer _ _ _ _
        (h.setFrame _ fun _ => Kept.bounded_state role.start_bits)
  slotSet tag payload w h := by
    rcases serveSlotSet_cases tag payload w with ⟨r, reply, e⟩ | ⟨n, d, i, reply, -, e⟩ <;> rw [e]
    · exact closed_sound.answer _ _ _ _ h
    · exact closed_sound.answer _ _ _ _ (h.setFrame _ (FramePort.setSlot_bounded d n _))
  slotClear tag payload w h := by
    rcases serveSlotClear_cases tag payload w with ⟨r, reply, e⟩ | ⟨n, d, reply, e⟩ <;> rw [e]
    · exact closed_sound.answer _ _ _ _ h
    · exact closed_sound.answer _ _ _ _ (h.setFrame _ (FramePort.setSlot_bounded d n _))
  streamBind tag payload w h := by
    rcases serveStreamBind_cases tag payload w with
      ⟨r, reply, e⟩ | ⟨i, c, reply, -, -, e⟩ <;> rw [e]
    · exact closed_sound.answer _ _ _ _ h
    · exact closed_sound.answer _ _ _ _ (h.setStream i _ (Stream.bounded_fresh .bound (some c)))
  streamUnbind tag payload w h := by
    rcases serveStreamUnbind_cases tag payload w with ⟨r, reply, e⟩ | ⟨i, reply, e⟩ <;> rw [e]
    · exact closed_sound.answer _ _ _ _ h
    · refine closed_sound.answer _ _ _ _ (closed_sound.signal (State.Sound.setStream ?_ i _
        (Stream.bounded_fresh .free none)))
      exact h.setFrame _ fun b => b
  reset spd1 spd0 w _ := State.sound_resetPart w spd1 spd0
  low _ h := ⟨h.streams, h.ports, h.host, Kept.bounded_state nofun, h.memory⟩
  sent _ h := h.setHost _ fun b => b.sent

/-- Settles O7: the ranges hold of the record each primitive change leaves, so every command keeps
them. -/
theorem stepKeepsSound : Obligations.StepKeepsSound := by
  unfold Obligations.StepKeepsSound
  intro s t h run
  obtain ⟨w, sound, rfl⟩ := kept_sound.step run
    fun _ => ⟨h.streams, h.ports, h.host, h.frame, h.memory⟩
  exact sound

/-! ### The reserve accounting (R25) -/

theorem beNat_pair_le (l : List Byte) (k : Nat) : beNat ((l.drop k).take 2) ≤ 65535 := by
  rcases l.drop k with _ | ⟨a, _ | ⟨b, _⟩⟩
  · simp [beNat]
  · have := a.isLt
    simp [beNat]
    omega
  · have := a.isLt
    have := b.isLt
    simp [beNat]
    omega

/-- What STREAM_BIND parses lies within the ranges of R9. -/
theorem inRange_of_parseBind {l : List Byte} {i : StreamNo} {c : Settings}
    (h : parseBind l = some (i, c)) : c.InRange := by
  unfold parseBind at h
  simp only [Option.bind_eq_bind, Option.bind_eq_some_iff] at h
  obtain ⟨j, -, d, -, p, -, h⟩ := h
  split at h
  · rename_i ranges
    cases h
    obtain ⟨tag1, quota2, quota64, reserve1, reserveLe, depth1, depth4, prime1, primeLe⟩ := ranges
    refine ⟨fun e => ?_, quota2, quota64, reserve1, reserveLe, depth1, depth4,
      beNat_pair_le l 9, prime1, primeLe⟩
    have value := congrArg BitVec.toNat e
    have le := beNat_pair_le l 2
    simp only [BitVec.toNat_ofNat, BitVec.ofNat_eq_ofNat] at value
    omega
  · cases h

/-- The accounting depends on the records of the streams and the pool alone. -/
theorem Work.Reserved.same {w v : Work} (h : w.Reserved) (hs : v.streams = w.streams := by rfl)
    (hp : v.pool = w.pool := by rfl) : v.Reserved :=
  h.congr (fun i => by simp only [Work.stream, hs]) (fun i e => by
    simpa only [Work.stream, hs] using e) (by rw [hp]) (by simp only [Work.freeCount, hp])

/-- A stream of another record with the reserve and the accounting that follow from it. -/
theorem Work.Reserved.setStream {w : Work} (h : w.Reserved) (i : StreamNo) (st : Stream)
    (ranges : ∀ c, st.settings = some c → c.InRange)
    (free : st.state = .free → st.settings = none)
    (sum : w.reserveSum + st.cfg.reserve ≤ 480 + (w.stream i).cfg.reserve)
    (margin : w.reserveNeed + (st.cfg.reserve - w.held i) ≤
      w.freeCount + ((w.stream i).cfg.reserve - w.held i)) :
    (w.updStream i fun _ => st).Reserved := by
  have record (j : StreamNo) : (w.updStream i fun _ => st).stream j =
      if i = j then st else w.stream j := Work.stream_updStream w i j _
  have other (j : StreamNo) (hj : j ≠ i) : (w.updStream i fun _ => st).stream j = w.stream j := by
    rw [record, if_neg (Ne.symm hj)]
  have self : (w.updStream i fun _ => st).stream i = st := by rw [record, if_pos rfl]
  have free' (j : StreamNo) : ((w.updStream i fun _ => st).stream j).state = .free →
      ((w.updStream i fun _ => st).stream j).settings = none := by
    rw [record]
    split
    · exact free
    · exact h.free j
  refine ⟨fun j c => ?_, free', ?_, ?_⟩
  · rw [record]
    split
    · exact ranges c
    · exact h.ranges j c
  · have change := sum_map_change streamNos nodup_streamNos (mem_streamNos i)
      (fun j => ((w.updStream i fun _ => st).stream j).cfg.reserve)
      (fun j => (w.stream j).cfg.reserve) (fun j hj => by rw [other j hj])
    rw [← Work.reserveSum_eq free', ← Work.reserveSum_eq h.free, self] at change
    omega
  · have change := sum_map_change streamNos nodup_streamNos (mem_streamNos i)
      (fun j => ((w.updStream i fun _ => st).stream j).cfg.reserve -
        (w.updStream i fun _ => st).held j)
      (fun j => (w.stream j).cfg.reserve - w.held j)
      (fun j hj => by rw [other j hj]; rfl)
    rw [← Work.reserveNeed_eq' free', ← Work.reserveNeed_eq' h.free, self] at change
    have held : (w.updStream i fun _ => st).held i = w.held i := rfl
    have count : (w.updStream i fun _ => st).freeCount = w.freeCount := rfl
    omega

/-- After reset every page is free and nothing is reserved (R37). -/
theorem Work.reserved_resetPart (w : Work) (spd1 spd0 : Bool) :
    (w.resetPart spd1 spd0).Reserved where
  ranges i c e := by simp at e
  free i _ := by simp
  sum := by rw [Work.reserveSum_of_free (by simp)]; exact Nat.zero_le _
  margin := by rw [Work.reserveNeed_of_free (by simp)]; exact Nat.zero_le _

/-- The checks that a stream which binds has passed (R9). -/
theorem Work.bindRefusal_none {w : Work} {i : StreamNo} {c : Settings}
    (h : w.bindRefusal i c = none) : (w.stream i).state = .free ∧
      w.reserveSum + c.reserve ≤ 480 ∧ w.reserveNeed + c.reserve ≤ w.freeCount := by
  unfold Work.bindRefusal at h
  split_ifs at h with h1 h2 h3
  exact ⟨not_not.1 h1, by omega, by omega⟩

theorem kept_reserved : Kept Work.Reserved where
  toClosed := closed_reserved
  host _ _ _ _ h := h.same
  frame _ _ _ _ _ _ h := h.same
  engine _ _ h := h.same
  noticeRelease tag code owner payload w h _ _ := by
    rcases serveNoticeRelease_cases tag payload
      (w.updHost fun h => { h with slots := h.slots ++ [⟨tag, code, owner⟩] }) with
      ⟨r, reply, e⟩ | ⟨reply, e⟩ <;> rw [e] <;> exact h.same
  frameSet tag payload w h := by
    rcases serveFrameSet_cases tag payload w with
      ⟨r, reply, e⟩ | ⟨role, n, reply, -, e⟩ <;> rw [e] <;> exact h.same
  slotSet tag payload w h := by
    rcases serveSlotSet_cases tag payload w with
      ⟨r, reply, e⟩ | ⟨n, d, i, reply, -, e⟩ <;> rw [e] <;> exact h.same
  slotClear tag payload w h := by
    rcases serveSlotClear_cases tag payload w with
      ⟨r, reply, e⟩ | ⟨n, d, reply, e⟩ <;> rw [e] <;> exact h.same
  streamBind tag payload w h := by
    rcases serveStreamBind_cases tag payload w with
      ⟨r, reply, e⟩ | ⟨i, c, reply, args, accepted, e⟩ <;> rw [e]
    · exact h.same
    · obtain ⟨-, sum, margin⟩ := Work.bindRefusal_none accepted
      refine closed_reserved.answer _ _ _ _ (h.setStream i _ ?_ nofun ?_ ?_)
      · rintro _ ⟨⟩
        exact inRange_of_parseBind args
      · show w.reserveSum + c.reserve ≤ _
        omega
      · show w.reserveNeed + (c.reserve - _) ≤ _
        omega
  streamUnbind tag payload w h := by
    rcases serveStreamUnbind_cases tag payload w with ⟨r, reply, e⟩ | ⟨i, reply, e⟩ <;> rw [e]
    · exact h.same
    · refine closed_reserved.answer _ _ _ _ (closed_reserved.signal
        (Work.Reserved.setStream (h.same (v := w.updFrame _)) i {} nofun (fun _ => rfl) ?_ ?_))
      · have sum := h.sum
        show w.reserveSum + 0 ≤ _
        omega
      · have margin := h.margin
        show w.reserveNeed + (0 - _) ≤ w.freeCount + _
        omega
  reset spd1 spd0 w _ := Work.reserved_resetPart w spd1 spd0
  low _ h := h.same
  sent _ h := h.same

/-- Settles O8: a claim is granted above the need alone, a release lowers the need by no more than it
gives back, and STREAM_BIND takes no reserve that the free count does not cover. -/
theorem stepKeepsReserved : Obligations.StepKeepsReserved := by
  unfold Obligations.StepKeepsReserved
  intro s t h run
  have start := (Work.reserved_iff s.work).1 h
  obtain ⟨w, reserved, rfl⟩ := kept_reserved.step run fun _ => start.same
  exact (Work.reserved_iff w).2 reserved

/-! ### The transmitter's choice (R151) -/

/-- The line of the work in hand is served unless the part is held in reset. -/
def Work.LineServed (w : Work) : Prop := w.resetLow = false → w.host.Served

theorem HostLine.served_sent (h : HostLine) (served : h.Served) : h.sent.Served := by
  unfold HostLine.sent
  split
  · exact served
  all_goals exact HostLine.choose_served _

/-- The answer of a request in progress makes the transmitter choose. -/
theorem HostLine.answer_served_of_inProgress {h : HostLine} {tag : Byte} (r : Result)
    (payload : List Byte) (inProgress : h.inProgress tag = true) :
    (h.answer tag r payload).Served := by
  rcases h.answer_cases tag r payload with ⟨absent, -⟩ | ⟨slot, -, -, e⟩
  · rw [inProgress] at absent
    cases absent
  · rw [e]
    exact HostLine.choose_served _

/-- A request in its slot is in progress. -/
theorem HostLine.inProgress_take (h : HostLine) (tag code : Byte) (owner : Owner) :
    HostLine.inProgress { h with slots := h.slots ++ [⟨tag, code, owner⟩] } tag = true := by
  simp [HostLine.inProgress]

/-- A change of the host line that leaves it served. -/
theorem Work.LineServed.setHost {w : Work} (h : w.LineServed) (f : HostLine → HostLine)
    (hf : w.host.Served → (f w.host).Served) : (w.updHost f).LineServed :=
  fun high => hf (h high)

theorem closed_lineServed : Closed Work.LineServed where
  stream _ _ _ _ h := h
  port _ _ _ _ h := h
  claim w i p w' hc h := by
    obtain ⟨_, _, _, e⟩ := Work.claim_cases hc
    rw [e]; exact h
  claimHost w p w' hc h := by
    obtain ⟨_, _, _, e⟩ := Work.claimHost_cases hc
    rw [e]; exact h
  freed _ _ _ h := h
  freedHost _ _ h := h
  waits _ _ h := h
  mem _ _ _ h := h
  raise _ n h := h.setHost _ fun b => b.raise n
  answer _ tag r payload h := h.setHost _ fun b => b.answer tag r payload
  agenda _ _ h := h
  picks _ _ h := h
  serial _ _ h := h
  send _ _ h := h

theorem kept_lineServed : Kept Work.LineServed where
  toClosed := closed_lineServed
  host _ f _ hf h := h.setHost f hf
  frame _ _ _ _ _ _ h := h
  engine _ _ h := h
  noticeRelease tag code owner payload w h _ _ := by
    have taken := w.host.inProgress_take tag code owner
    rcases serveNoticeRelease_cases tag payload
      (w.updHost fun h => { h with slots := h.slots ++ [⟨tag, code, owner⟩] }) with
      ⟨r, reply, e⟩ | ⟨reply, e⟩ <;> rw [e] <;> intro _
    · exact HostLine.answer_served_of_inProgress r reply taken
    · exact HostLine.answer_served_of_inProgress .ok reply taken
  frameSet tag payload w h := by
    rcases serveFrameSet_cases tag payload w with ⟨r, reply, e⟩ | ⟨role, n, reply, -, e⟩ <;>
      rw [e] <;> exact closed_lineServed.answer _ _ _ _ h
  slotSet tag payload w h := by
    rcases serveSlotSet_cases tag payload w with ⟨r, reply, e⟩ | ⟨n, d, i, reply, -, e⟩ <;>
      rw [e] <;> exact closed_lineServed.answer _ _ _ _ h
  slotClear tag payload w h := by
    rcases serveSlotClear_cases tag payload w with ⟨r, reply, e⟩ | ⟨n, d, reply, e⟩ <;>
      rw [e] <;> exact closed_lineServed.answer _ _ _ _ h
  streamBind tag payload w h := by
    rcases serveStreamBind_cases tag payload w with ⟨r, reply, e⟩ | ⟨i, c, reply, -, -, e⟩ <;>
      rw [e] <;> exact closed_lineServed.answer _ _ _ _ h
  streamUnbind tag payload w h := by
    rcases serveStreamUnbind_cases tag payload w with ⟨r, reply, e⟩ | ⟨i, reply, e⟩ <;> rw [e]
    · exact closed_lineServed.answer _ _ _ _ h
    · exact closed_lineServed.answer _ _ _ _ (closed_lineServed.signal
        (w := (w.updFrame _).updStream i _) h)
  reset _ _ _ _ := fun _ => rfl
  low _ _ := nofun
  sent w h := h.setHost _ fun b => w.host.served_sent b

/-- Settles O9: every operation of the host line ends with the choice made, or changes nothing the
choice looks at. -/
theorem stepKeepsLineServed : Obligations.StepKeepsLineServed := by
  unfold Obligations.StepKeepsLineServed
  intro s t h run
  obtain ⟨w, served, rfl⟩ := kept_lineServed.step run fun _ => h
  exact served

end Sys2Proof.Machine

/-! PROOFS. The slot maps (R65): what writing one entry does to the slots of each stream, and that
every step keeps the maps consistent with the streams bound. -/

namespace Sys2Proof.Machine

/-! ### The slots that name a stream -/

theorem mem_slotsOf {m : Vector (Option StreamNo) 64} {i : StreamNo} {n : SlotNo} :
    n ∈ slotsOf m i ↔ m[n] = some i := by simp [slotsOf]

theorem nodup_slotsOf (m : Vector (Option StreamNo) 64) (i : StreamNo) : (slotsOf m i).Nodup :=
  (List.nodup_finRange 64).filter _

theorem getElem_set_slot (m : Vector (Option StreamNo) 64) (n k : SlotNo) (v : Option StreamNo) :
    (m.set n v)[k] = if k = n then v else m[k] := by
  by_cases h : k = n
  · subst h; simp
  · have : n.val ≠ k.val := fun e => h (Fin.ext e.symm)
    simp [h, this]

/-- A stream that neither the old entry nor the new one names keeps its slots. -/
theorem slotsOf_set_other {m : Vector (Option StreamNo) 64} {n : SlotNo} {v : Option StreamNo}
    {i : StreamNo} (old : m[n] ≠ some i) (new : v ≠ some i) :
    slotsOf (m.set n v) i = slotsOf m i := by
  unfold slotsOf
  refine List.filter_congr fun k _ => ?_
  rw [getElem_set_slot]
  split
  · subst_vars
    rw [beq_eq_false_iff_ne.2 old, beq_eq_false_iff_ne.2 new]
  · rfl

/-- An entry that names the stream already stays as it is. -/
theorem set_slot_named {m : Vector (Option StreamNo) 64} {n : SlotNo} {v : Option StreamNo}
    (named : m[n] = v) : m.set n v = m := by
  rw [← named]
  exact Vector.set_getElem_self n.isLt

/-- A stream gains one slot with an entry that did not name it. -/
theorem length_slotsOf_set_new {m : Vector (Option StreamNo) 64} {n : SlotNo} {i : StreamNo}
    (unnamed : m[n] ≠ some i) :
    (slotsOf (m.set n (some i)) i).length = (slotsOf m i).length + 1 := by
  have perm : (slotsOf (m.set n (some i)) i).Perm (n :: slotsOf m i) := by
    rw [List.perm_ext_iff_of_nodup (nodup_slotsOf _ _)
      (List.nodup_cons.2 ⟨fun h => unnamed (mem_slotsOf.1 h), nodup_slotsOf _ _⟩)]
    intro k
    rw [mem_slotsOf, List.mem_cons, mem_slotsOf, getElem_set_slot]
    split
    · simp [‹k = n›]
    · simp [‹k ≠ n›]
  rw [perm.length_eq, List.length_cons]

/-- No stream gains a slot where every entry that names it did so before. -/
theorem length_slotsOf_le {m m' : Vector (Option StreamNo) 64} {i : StreamNo}
    (named : ∀ n : SlotNo, m'[n] = some i → m[n] = some i) :
    (slotsOf m' i).length ≤ (slotsOf m i).length :=
  ((nodup_slotsOf m' i).subperm fun n hn => mem_slotsOf.2 (named n (mem_slotsOf.1 hn))).length_le

theorem slotsOf_eq_nil {m : Vector (Option StreamNo) 64} {i : StreamNo}
    (unnamed : ∀ n : SlotNo, m[n] ≠ some i) : slotsOf m i = [] :=
  List.eq_nil_iff_forall_not_mem.2 fun n hn => unnamed n (mem_slotsOf.1 hn)

theorem getElem_clearStream (m : Vector (Option StreamNo) 64) (i : StreamNo) (n : SlotNo) :
    (clearStream m i)[n] = if m[n] = some i then none else m[n] := by simp [clearStream]

/-- A cleared stream's slots are gone, and no other entry changes. -/
theorem getElem_clearStream_eq_some {m : Vector (Option StreamNo) 64} {i j : StreamNo} {n : SlotNo}
    (h : (clearStream m i)[n] = some j) : j ≠ i ∧ m[n] = some j := by
  rw [getElem_clearStream] at h
  split at h
  · cases h
  · exact ⟨fun e => ‹m[n] ≠ some i› (e ▸ h), h⟩

/-- The width of a stream that is bound (R6). -/
theorem Work.width_of_settings {w : Work} {i : StreamNo} {c : Settings}
    (h : (w.stream i).settings = some c) :
    w.width i = (slotsOf (w.frame.map c.direction) i).length := by
  simp [Work.width, Work.slots, h]

/-- A stream without settings has no slots. -/
theorem Work.width_of_absent {w : Work} {i : StreamNo} (h : (w.stream i).settings = none) :
    w.width i = 0 := by simp [Work.width, Work.slots, h]

/-! ### The maps, in the work in hand -/

/-- What R65 asks of the map of one direction: an entry that names a stream lies below the slot
count and names a stream bound in that direction, and no stream has more than 8 slots. -/
structure Work.MapOk (w : Work) (d : Direction) : Prop where
  below : ∀ (n : SlotNo) (i : StreamNo), (w.frame.map d)[n] = some i →
    n.val < w.frame.slotCount.toNat
  bound : ∀ (n : SlotNo) (i : StreamNo), (w.frame.map d)[n] = some i →
    ∃ c, (w.stream i).settings = some c ∧ c.direction = d
  width : ∀ i, (slotsOf (w.frame.map d) i).length ≤ 8

/-- The slot maps of R65, said of the work in hand. -/
structure Work.Mapped (w : Work) : Prop where
  free : ∀ i, (w.stream i).state = .free → (w.stream i).settings = none
  maps : ∀ d, w.MapOk d

theorem Work.mapped_iff (w : Work) : w.toState.Mapped ↔ w.Mapped := by
  constructor
  · intro h
    have bound (d : Direction) (n : SlotNo) (i : StreamNo) (e : (w.frame.map d)[n] = some i) :
        n.val < w.frame.slotCount.toNat ∧ ∃ c, (w.stream i).settings = some c ∧ c.direction = d := by
      cases d with
      | capture => exact h.receive n i e
      | replay => exact h.transmit n i e
    refine ⟨h.free, fun d => ⟨fun n i e => (bound d n i e).1, fun n i e => (bound d n i e).2,
      fun i => ?_⟩⟩
    by_cases named : ∃ n : SlotNo, (w.frame.map d)[n] = some i
    · obtain ⟨n, e⟩ := named
      obtain ⟨c, settings, rfl⟩ := (bound d n i e).2
      rw [← Work.width_of_settings settings]
      exact h.width i
    · rw [slotsOf_eq_nil fun n e => named ⟨n, e⟩]
      exact Nat.zero_le _
  · intro h
    refine ⟨h.free, fun n i e => ⟨(h.maps .capture).below n i e, (h.maps .capture).bound n i e⟩,
      fun n i e => ⟨(h.maps .replay).below n i e, (h.maps .replay).bound n i e⟩, fun i => ?_⟩
    show w.width i ≤ 8
    rcases settings : (w.stream i).settings with _ | c
    · rw [Work.width_of_absent settings]
      exact Nat.zero_le _
    · rw [Work.width_of_settings settings]
      exact (h.maps c.direction).width i

/-- The maps depend on the streams' settings, the entries and the slot count alone. -/
theorem Work.Mapped.congr {w v : Work} (h : w.Mapped)
    (hs : ∀ i, (v.stream i).settings = (w.stream i).settings)
    (hf : ∀ i, (v.stream i).state = .free → (w.stream i).state = .free)
    (rx : v.frame.rxMap = w.frame.rxMap) (tx : v.frame.txMap = w.frame.txMap)
    (count : v.frame.slotCount = w.frame.slotCount) : v.Mapped := by
  have map (d : Direction) : v.frame.map d = w.frame.map d := by
    cases d with
    | capture => exact rx
    | replay => exact tx
  refine ⟨fun i e => (hs i).trans (h.free i (hf i e)), fun d => ?_⟩
  obtain ⟨below, bound, width⟩ := h.maps d
  refine ⟨fun n i e => ?_, fun n i e => ?_, fun i => ?_⟩
  · rw [count]; exact below n i (map d ▸ e)
  · rw [hs]; exact bound n i (map d ▸ e)
  · rw [map]; exact width i

/-- A change that leaves the streams and the frame port. -/
theorem Work.Mapped.same {w v : Work} (h : w.Mapped) (hs : v.streams = w.streams := by rfl)
    (hf : v.frame = w.frame := by rfl) : v.Mapped :=
  h.congr (fun i => by simp only [Work.stream, hs])
    (fun i e => by simpa only [Work.stream, hs] using e) (by rw [hf]) (by rw [hf]) (by rw [hf])

theorem closed_mapped : Closed Work.Mapped where
  stream w i f hf h := by
    have key (j : StreamNo) : ((w.updStream i f).stream j).settings = (w.stream j).settings ∧
        (((w.updStream i f).stream j).state = .free → (w.stream j).state = .free) := by
      rw [Work.stream_updStream]
      split
      · subst_vars; exact ⟨hf.settings, hf.free⟩
      · exact ⟨rfl, fun e => e⟩
    exact h.congr (fun j => (key j).1) (fun j => (key j).2) rfl rfl rfl
  port _ _ _ _ h := h.same
  claim w i p w' hc h := by
    obtain ⟨_, _, _, e⟩ := Work.claim_cases hc
    rw [e]; exact h.same
  claimHost w p w' hc h := by
    obtain ⟨_, _, _, e⟩ := Work.claimHost_cases hc
    rw [e]; exact h.same
  freed _ _ _ h := h.same
  freedHost _ _ h := h.same
  waits _ _ h := h.same
  mem _ _ _ h := h.same
  raise _ _ h := h.same
  answer _ _ _ _ h := h.same
  agenda _ _ h := h.same
  picks _ _ h := h.same
  serial _ _ h := h.same
  send _ _ h := h.congr (fun _ => rfl) (fun _ e => e) rfl rfl rfl

/-! ### The commands that write the maps or the settings -/

/-- A slot direction's map after an entry was written, and the other map. -/
theorem FramePort.map_setSlot (f : FramePort) (d : SlotDirection) (n : SlotNo)
    (v : Option StreamNo) (e : Direction) :
    (f.setSlot d n v).map e = if e = d.serves then (f.map e).set n v else f.map e := by
  cases d <;> cases e <;> rfl

theorem FramePort.slot_eq (f : FramePort) (d : SlotDirection) (n : SlotNo) :
    f.slot d n = (f.map d.serves)[n] := by cases d <;> rfl

/-- The checks that a slot which is set has passed (Table 4.1). -/
theorem Work.slotSetRefusal_none {w : Work} {n : SlotNo} {d : SlotDirection} {i : StreamNo}
    (h : w.slotSetRefusal n d i = none) :
    n.val < w.frame.slotCount.toNat ∧
      (∃ c, (w.stream i).settings = some c ∧ c.direction = d.serves) ∧
      ((w.frame.map d.serves)[n] = some i ∨
        (w.frame.map d.serves)[n] = none ∧ w.width i < 8) := by
  have direction (hd : ¬ (w.stream i).settings.map (·.direction) ≠ some d.serves) :
      ∃ c, (w.stream i).settings = some c ∧ c.direction = d.serves := by simpa using hd
  unfold Work.slotSetRefusal at h
  simp only [FramePort.slot_eq] at h
  rcases entry : (w.frame.map d.serves)[n] with _ | j <;> simp only [entry] at h <;>
    split_ifs at h with below free serves active last
  · exact ⟨by omega, direction serves, .inr ⟨rfl, by omega⟩⟩
  · exact ⟨by omega, direction serves, .inl (by rw [last])⟩

/-- The map that a stream enters keeps what R65 asks of it. -/
theorem Work.Mapped.setSlot {w : Work} (h : w.Mapped) {n : SlotNo} {d : SlotDirection}
    {i : StreamNo} (accepted : w.slotSetRefusal n d i = none) :
    (w.updFrame (·.setSlot d n (some i))).Mapped := by
  obtain ⟨low, ⟨c, settings, serves⟩, entry⟩ := Work.slotSetRefusal_none accepted
  refine ⟨h.free, fun e => ?_⟩
  obtain ⟨below, bound, width⟩ := h.maps e
  have map : (w.updFrame (·.setSlot d n (some i))).frame.map e =
      if e = d.serves then (w.frame.map e).set n (some i) else w.frame.map e :=
    FramePort.map_setSlot _ _ _ _ _
  have count : (w.updFrame (·.setSlot d n (some i))).frame.slotCount = w.frame.slotCount :=
    FramePort.setSlot_slotCount _ _ _ _
  by_cases own : e = d.serves
  · rw [if_pos own] at map
    subst own
    refine ⟨fun k j named => ?_, fun k j named => ?_, fun j => ?_⟩
    · rw [map, getElem_set_slot] at named
      rw [count]
      split at named
      · exact ‹k = n› ▸ low
      · exact below k j named
    · rw [map, getElem_set_slot] at named
      split at named
      · cases named
        exact ⟨c, settings, serves⟩
      · exact bound k j named
    · rw [map]
      rcases entry with named | ⟨empty, room⟩
      · rw [set_slot_named named]
        exact width j
      · by_cases self : i = j
        · subst self
          rw [length_slotsOf_set_new (by rw [empty]; nofun), ← serves,
            ← Work.width_of_settings settings]
          exact room
        · rw [slotsOf_set_other (by rw [empty]; nofun) (fun e => self (by simpa using e))]
          exact width j
  · rw [if_neg own] at map
    exact ⟨fun k j => by rw [map, count]; exact below k j, fun k j => by rw [map]; exact bound k j,
      fun j => by rw [map]; exact width j⟩

/-- Entries that name nobody any more, or what they named before. -/
theorem Work.Mapped.fewer {w v : Work} (h : w.Mapped)
    (free : ∀ i, (v.stream i).state = .free → (v.stream i).settings = none)
    (named : ∀ (d : Direction) (n : SlotNo) (i : StreamNo), (v.frame.map d)[n] = some i →
      (w.frame.map d)[n] = some i ∧ (v.stream i).settings = (w.stream i).settings ∧
        n.val < v.frame.slotCount.toNat) : v.Mapped := by
  refine ⟨free, fun d => ⟨fun n i e => (named d n i e).2.2, fun n i e => ?_, fun i => ?_⟩⟩
  · obtain ⟨old, settings, -⟩ := named d n i e
    rw [settings]
    exact (h.maps d).bound n i old
  · exact (length_slotsOf_le fun n e => (named d n i e).1).trans ((h.maps d).width i)

/-- No entry at or above a slot count names a stream (R62 (2)). -/
theorem FramePort.mappedBeyond_eq_false {f : FramePort} {k : Nat} (h : f.mappedBeyond k = false)
    {d : Direction} {n : SlotNo} {i : StreamNo} (named : (f.map d)[n] = some i) : n.val < k := by
  by_contra high
  have entry : f.rxMap[n] = none ∧ f.txMap[n] = none := by
    simp only [FramePort.mappedBeyond, List.any_eq_false, List.mem_finRange, true_implies,
      Bool.and_eq_true, decide_eq_true_eq, Bool.or_eq_true, not_and, not_or, Bool.not_eq_true,
      Option.isSome_eq_false_iff, Option.isNone_iff_eq_none] at h
    exact h n (by omega)
  cases d with
  | capture => rw [show (f.map .capture)[n] = f.rxMap[n] from rfl, entry.1] at named; cases named
  | replay => rw [show (f.map .replay)[n] = f.txMap[n] from rfl, entry.2] at named; cases named

/-- After reset no entry names a stream (R65). -/
theorem Work.mapped_resetPart (w : Work) (spd1 spd0 : Bool) : (w.resetPart spd1 spd0).Mapped := by
  have nobody (d : Direction) (n : SlotNo) :
      ((w.resetPart spd1 spd0).frame.map d)[n] = none := by
    cases d <;> exact Vector.getElem_replicate n.isLt
  refine ⟨fun i _ => by simp, fun d => ⟨fun n i e => ?_, fun n i e => ?_, fun i => ?_⟩⟩
  · rw [nobody] at e; cases e
  · rw [nobody] at e; cases e
  · rw [slotsOf_eq_nil fun n e => by rw [nobody] at e; cases e]
    exact Nat.zero_le _

theorem kept_mapped : Kept Work.Mapped where
  toClosed := closed_mapped
  host _ _ _ _ h := h.same
  frame _ _ rx tx count _ h := h.congr (fun _ => rfl) (fun _ e => e) rx tx count
  engine _ _ h := h.same
  noticeRelease tag code owner payload w h _ _ := by
    rcases serveNoticeRelease_cases tag payload
      (w.updHost fun h => { h with slots := h.slots ++ [⟨tag, code, owner⟩] }) with
      ⟨r, reply, e⟩ | ⟨reply, e⟩ <;> rw [e] <;> exact h.same
  frameSet tag payload w h := by
    rcases serveFrameSet_cases tag payload w with ⟨r, reply, e⟩ | ⟨role, n, reply, low, e⟩ <;> rw [e]
    · exact h.same
    · refine closed_mapped.answer _ _ _ _ (h.fewer h.free fun d k i named => ?_)
      have old : (w.frame.map d)[k] = some i := by cases d <;> exact named
      exact ⟨old, rfl, FramePort.mappedBeyond_eq_false low old⟩
  slotSet tag payload w h := by
    rcases serveSlotSet_cases tag payload w with
      ⟨r, reply, e⟩ | ⟨n, d, i, reply, accepted, e⟩ <;> rw [e]
    · exact h.same
    · exact closed_mapped.answer _ _ _ _ (h.setSlot accepted)
  slotClear tag payload w h := by
    rcases serveSlotClear_cases tag payload w with ⟨r, reply, e⟩ | ⟨n, d, reply, e⟩ <;> rw [e]
    · exact h.same
    · refine closed_mapped.answer _ _ _ _ (h.fewer h.free fun d' k i named => ?_)
      rw [show (w.updFrame (·.setSlot d n none)).frame = w.frame.setSlot d n none from rfl] at named ⊢
      rw [FramePort.map_setSlot] at named
      rw [FramePort.setSlot_slotCount]
      have old : (w.frame.map d')[k] = some i := by
        split at named
        · rw [getElem_set_slot] at named
          split at named
          · cases named
          · exact named
        · exact named
      exact ⟨old, rfl, (h.maps d').below k i old⟩
  streamBind tag payload w h := by
    rcases serveStreamBind_cases tag payload w with
      ⟨r, reply, e⟩ | ⟨i, c, reply, -, accepted, e⟩ <;> rw [e]
    · exact h.same
    · have unbound := h.free i (Work.bindRefusal_none accepted).1
      have record (j : StreamNo) : (w.updStream i fun _ => Stream.boundWith c).stream j =
          if i = j then Stream.boundWith c else w.stream j := Work.stream_updStream w i j _
      refine closed_mapped.answer _ _ _ _ (h.fewer (fun j => ?_) fun d n j named => ?_)
      · rw [record]
        split
        · nofun
        · exact h.free j
      · have old : (w.frame.map d)[n] = some j := named
        obtain ⟨c', settings, -⟩ := (h.maps d).bound n j old
        have other : i ≠ j := fun e => by rw [← e, unbound] at settings; cases settings
        rw [record, if_neg other]
        exact ⟨old, rfl, (h.maps d).below n j old⟩
  streamUnbind tag payload w h := by
    rcases serveStreamUnbind_cases tag payload w with ⟨r, reply, e⟩ | ⟨i, reply, e⟩ <;> rw [e]
    · exact h.same
    · have record (j : StreamNo) (f : FramePort → FramePort) :
          ((w.updFrame f).updStream i fun _ => {}).stream j = if i = j then {} else w.stream j :=
        Work.stream_updStream _ i j _
      refine closed_mapped.answer _ _ _ _ (closed_mapped.signal
        (h.fewer (fun j => ?_) fun d n j named => ?_))
      · rw [record]
        split
        · exact fun _ => rfl
        · exact h.free j
      · obtain ⟨other, old⟩ : j ≠ i ∧ (w.frame.map d)[n] = some j := by
          cases d <;> exact getElem_clearStream_eq_some named
        rw [record, if_neg (Ne.symm other)]
        exact ⟨old, rfl, (h.maps d).below n j old⟩
  reset spd1 spd0 w _ := Work.mapped_resetPart w spd1 spd0
  low _ h := h.congr (fun _ => rfl) (fun _ e => e) rfl rfl rfl
  sent _ h := h.same

/-- Settles O10: the maps change with SLOT_SET, SLOT_CLEAR, STREAM_UNBIND and reset, the slot count
with FRAME_SET and a direction with STREAM_BIND, each of which keeps R65. -/
theorem stepKeepsMapped : Obligations.StepKeepsMapped := by
  unfold Obligations.StepKeepsMapped
  intro s t h run
  have start := (Work.mapped_iff s.work).1 h
  obtain ⟨w, mapped, rfl⟩ := kept_mapped.step run fun _ => start.same
  exact (Work.mapped_iff w).2 mapped

end Sys2Proof.Machine

/-! PROOFS. Steps and reset (R155, R156): a step is its command's effect, every command goes on, the
part held in reset takes no other command, and what it holds when it leaves reset. -/

namespace Sys2Proof.Machine

/-! ### Steps -/

/-- Settles O1: both cases are the definition of a step. -/
theorem stepTakesTheFront : Obligations.StepTakesTheFront := by
  unfold Obligations.StepTakesTheFront
  refine ⟨fun c rest s => rfl, fun s idle => ?_⟩
  rw [step, idle]

/-- Every command answers a next state. -/
theorem exec_next (c : Instr) (s : State) : ∃ t, exec c s = .next t := by
  cases c <;> exact ⟨_, rfl⟩

/-- No primitive change touches the commands that wait. -/
theorem closed_pending (waiting : List Instr) : Closed fun w => w.pending = waiting where
  stream _ _ _ _ h := h
  port _ _ _ _ h := h
  claim w i p w' hc h := by
    obtain ⟨_, _, _, e⟩ := Work.claim_cases hc
    rw [e]; exact h
  claimHost w p w' hc h := by
    obtain ⟨_, _, _, e⟩ := Work.claimHost_cases hc
    rw [e]; exact h
  freed _ _ _ h := h
  freedHost _ _ h := h
  waits _ _ h := h
  mem _ _ _ h := h
  raise _ _ h := h
  answer _ _ _ _ h := h
  agenda _ _ h := h
  picks _ _ h := h
  serial _ _ h := h
  send _ _ h := h

theorem kept_pending (waiting : List Instr) : Kept fun w => w.pending = waiting where
  toClosed := closed_pending waiting
  host _ _ _ _ h := h
  frame _ _ _ _ _ _ h := h
  engine _ _ h := h
  noticeRelease tag code owner payload w h _ _ := by
    rcases serveNoticeRelease_cases tag payload
      (w.updHost fun h => { h with slots := h.slots ++ [⟨tag, code, owner⟩] }) with
      ⟨r, reply, e⟩ | ⟨reply, e⟩ <;> rw [e] <;> exact h
  frameSet tag payload w h := by
    rcases serveFrameSet_cases tag payload w with ⟨r, reply, e⟩ | ⟨role, n, reply, -, e⟩ <;>
      rw [e] <;> exact h
  slotSet tag payload w h := by
    rcases serveSlotSet_cases tag payload w with ⟨r, reply, e⟩ | ⟨n, d, i, reply, -, e⟩ <;>
      rw [e] <;> exact h
  slotClear tag payload w h := by
    rcases serveSlotClear_cases tag payload w with ⟨r, reply, e⟩ | ⟨n, d, reply, e⟩ <;>
      rw [e] <;> exact h
  streamBind tag payload w h := by
    rcases serveStreamBind_cases tag payload w with ⟨r, reply, e⟩ | ⟨i, c, reply, -, -, e⟩ <;>
      rw [e] <;> exact h
  streamUnbind tag payload w h := by
    rcases serveStreamUnbind_cases tag payload w with ⟨r, reply, e⟩ | ⟨i, reply, e⟩ <;> rw [e]
    · exact h
    · exact (closed_pending waiting).signal (w := (w.updFrame _).updStream i _) h
  reset _ _ _ h := h
  low _ h := h
  sent _ h := h

/-- Settles O2: each arm of the dispatch is a step of its command's work, none of which touches the
commands that wait. -/
theorem everyCommandGoesOn : Obligations.EveryCommandGoesOn := by
  unfold Obligations.EveryCommandGoesOn
  intro c s
  obtain ⟨t, run⟩ := exec_next c s
  obtain ⟨w, same, rfl⟩ := (kept_pending s.pending).exec c s t run rfl
  exact ⟨_, run, same⟩

/-- The step of a command whose work leaves a state and no message. -/
theorem act_next {f : Work → Work} {s t : State} (e : f s.work = t.work) : act f s = .next t :=
  act_of_eq e rfl

/-- The same for a command that a part held in reset does not take. -/
theorem actUnlessReset_next {f : Work → Work} {s t : State} (high : s.resetLow = false)
    (e : f s.work = t.work) : actUnlessReset f s = .next t :=
  actUnlessReset_of_eq high e rfl

/-! ### Requests, whatever their code -/

/-- A request row is the taking of its request, served by its code (R147, R149). -/
theorem exec_of_request {c : Instr} {r : Request} (h : c.request = some r) : ∃ permit, ∀ s,
    exec c s = act (·.takeRequest r.tag r.code (serveCode r.code r.tag r.payload permit)) s := by
  cases c with
  | trackFormat tag payload permit => cases h; exact ⟨permit, fun s => rfl⟩
  | _ => cases h <;> exact ⟨false, fun s => rfl⟩

/-- A code is known by its number. -/
theorem eq_ofNat_of_toNat_eq {code : Byte} {n : Nat} (number : code.toNat = n) :
    code = BitVec.ofNat 8 n := by
  rw [← number, BitVec.ofNat_toNat, BitVec.setWidth_eq]

/-- A code in no row of Table 10.2 is answered UNKNOWN_REQUEST (R149 (1)). -/
theorem serveCode_unknown {code : Byte} (unknown : requestLength code = none) (tag : Byte)
    (payload : List Byte) (permit : Bool) (w : Work) :
    serveCode code tag payload permit w = w.answer tag .unknownRequest [] := by
  unfold requestLength at unknown
  split at unknown <;> cases unknown
  unfold serveCode
  split <;> simp_all

/-- The row that Table 10.2 gives a request is the taking of that request. -/
theorem exec_ofRequest (r : Request) (permit : Bool) (s : State) :
    exec (Instr.ofRequest r permit) s =
      act (·.takeRequest r.tag r.code (serveCode r.code r.tag r.payload permit)) s := by
  obtain ⟨tag, code, payload⟩ := r
  unfold Instr.ofRequest
  dsimp only
  split
  case h_22 =>
    have unknown : requestLength code = none := by
      unfold requestLength
      split <;> simp_all
    rw [exec_unknownRequest, execUnknownRequest]
    have same (permit : Bool) : serveCode code tag payload permit = fun w =>
        w.answer tag .unknownRequest [] :=
      funext (serveCode_unknown unknown tag payload permit)
    rw [same, same]
  all_goals
    rename_i number
    obtain rfl := eq_ofNat_of_toNat_eq number
    rfl

/-- No request is taken while the part is held in reset (R156). -/
theorem act_takeRequest_low {s : State} {tag code : Byte} {serve : Work → Work}
    (low : s.resetLow = true) : act (·.takeRequest tag code serve) s = .next s := by
  refine act_next ?_
  rw [Work.takeRequest, if_pos]
  exact Bool.or_eq_true_iff.2 (.inl low)

/-! ### Reset -/

/-- Every command but the two of the reset input waits for the end of reset (R156). -/
theorem exec_low {c : Instr} {s : State} (low : s.resetLow = true) (notLow : c ≠ .resetnLow)
    (notLeave : ∀ spd1 spd0, c ≠ .leaveReset spd1 spd0) : exec c s = .next s := by
  rcases request : c.request with _ | r
  · cases c with
    | resetnLow => exact absurd rfl notLow
    | leaveReset spd1 spd0 => exact absurd rfl (notLeave spd1 spd0)
    | _ => cases request <;> simp only [
        exec_hrxByte, execHrxByte, exec_interByteTimeout, execInterByteTimeout,
        exec_recordSent, execRecordSent, exec_frameBoundary, execFrameBoundary,
        exec_frameSyncSeeking, execFrameSyncSeeking, exec_bitClockStopped, execBitClockStopped,
        exec_ident, execIdent, exec_identifyTimeout, execIdentifyTimeout, exec_ready, execReady,
        exec_notReady, execNotReady, exec_positioned, execPositioned,
        exec_positionFault, execPositionFault, exec_positioningTimeout, execPositioningTimeout,
        exec_restoreTimeout, execRestoreTimeout, exec_markTimeout, execMarkTimeout,
        exec_sectorMark, execSectorMark, exec_headerRead, execHeaderRead,
        exec_writeData, execWriteData, exec_readData, execReadData, actUnlessReset_low low]
  · obtain ⟨permit, run⟩ := exec_of_request request
    rw [run, act_takeRequest_low low]

/-- Settles O3: a request is not taken and an event has no effect while RESETN is low; RESETN_LOW
sends no message. -/
theorem heldInReset : Obligations.HeldInReset := by
  unfold Obligations.HeldInReset
  refine ⟨fun c s low notLow notLeave => exec_low low notLow notLeave, fun s => ?_⟩
  rw [exec_resetnLow]
  exact act_of_eq rfl rfl

/-- The speed the straps select (00_scope.md section 3). -/
theorem strapSpeed_eq (spd1 spd0 : Bool) : strapSpeed spd1 spd0 =
    if spd1 then (if spd0 then .b3000000 else .b1000000)
    else (if spd0 then .b460800 else .b115200) := by
  cases spd1 <;> cases spd0 <;> rfl

/-- Settles O5: LEAVE_RESET resets the part, whose values are read off the reset records. -/
theorem leaveResetValues : Obligations.LeaveResetValues := by
  unfold Obligations.LeaveResetValues
  intro s spd1 spd0
  rw [exec_leaveReset_resets, ← strapSpeed_eq]
  rfl

/-- The state after reset is that of a part that leaves reset with both straps low (log 9). -/
theorem State.reset_eq_resetPart :
    State.reset = (State.reset.work.resetPart false false).toState := rfl

/-- Settles O6: a part that leaves reset meets each invariant, by the lemma about it. -/
theorem resetIsSound : Obligations.ResetIsSound := by
  unfold Obligations.ResetIsSound
  rw [State.reset_eq_resetPart]
  exact ⟨State.sound_resetPart _ _ _, (Work.reserved_iff _).2 (Work.reserved_resetPart _ _ _),
    fun _ => rfl, (Work.mapped_iff _).2 (Work.mapped_resetPart _ _ _)⟩

end Sys2Proof.Machine

/-! PROOFS. The host line (R145 to R155): rejections, line faults, notices and answers, the checks of
requests, the receiver, and the transmitter. -/

namespace Sys2Proof.Machine

/-! ### The queues of the host line -/

theorem satAdd_eq_min (top a n : Nat) : satAdd top a n = min top (a + n) := rfl

/-- On a line that has made its choice a rejection queued is begun just when the line is idle. -/
theorem HostLine.Served.choose_rejection {h : HostLine} (served : h.Served) (r : Rejection) :
    HostLine.choose { h with rejections := h.rejections ++ [r] } = { h with
      rejections := h.rejections ++ [r], tx := if h.tx = .idle then .rejection else h.tx } := by
  by_cases idle : h.tx = .idle
  · obtain ⟨replies, -, -⟩ := (HostLine.served_iff h).1 served idle
    unfold HostLine.choose
    simp [idle, replies]
  · rw [HostLine.choose_busy (h := { h with rejections := h.rejections ++ [r] }) idle, if_neg idle]

/-- A rejection queued on a line that has made its choice (R148). -/
theorem HostLine.Served.reject_room {h : HostLine} (served : h.Served) (tag code : Byte)
    (inUse : Bool) (room : h.rejections.length < 4) : h.reject tag code inUse = { h with
      rejections := h.rejections ++ [⟨tag, code, inUse⟩]
      tx := if h.tx = .idle then .rejection else h.tx } := by
  rw [HostLine.reject, if_pos room, served.choose_rejection]

/-- Beyond 4 rejections the request is a line fault (R148). -/
theorem HostLine.reject_full {h : HostLine} (tag code : Byte) (inUse : Bool)
    (full : 4 ≤ h.rejections.length) : h.reject tag code inUse = h.fault .rejectOverflow := by
  rw [HostLine.reject, if_neg (Nat.not_lt.2 full)]

/-- A request that cannot be taken is rejected, and nothing else changes (R147, R148). -/
theorem exec_rejected {c : Instr} {r : Request} {s : State} (request : c.request = some r)
    (high : s.resetLow = false) (noReset : s.host.resetPending = false)
    (refused : s.host.inProgress r.tag = true ∨ 8 ≤ s.host.load) :
    exec c s =
      .next { s with host := s.host.reject r.tag r.code (s.host.inProgress r.tag) } := by
  obtain ⟨permit, run⟩ := exec_of_request request
  rw [run]
  refine act_next ?_
  have taken : ¬ (s.work.resetLow || s.work.host.resetPending) = true := by
    rw [show s.work.resetLow = false from high, show s.work.host.resetPending = false from noReset]
    nofun
  unfold Work.takeRequest
  rw [if_neg taken]
  by_cases inUse : s.work.host.inProgress r.tag = true
  · rw [if_pos inUse, show s.host.inProgress r.tag = true from inUse]
    rfl
  · have full : 8 ≤ s.work.host.load := refused.resolve_left inUse
    rw [if_neg inUse, if_pos full, show s.host.inProgress r.tag = false from
      Bool.eq_false_of_not_eq_true inUse]
    rfl

/-- Settles O11: the request is rejected, with a place among the rejections or with a line fault. -/
theorem rejectsRequests : Obligations.RejectsRequests := by
  unfold Obligations.RejectsRequests
  intro c r s request high noReset served refused inUse
  rw [exec_rejected request high noReset refused]
  exact ⟨fun room => by rw [served.reject_room _ _ _ room],
    fun full => by rw [HostLine.reject_full _ _ _ full]⟩

/-! ### Line faults (R146) -/

/-- A notice of another kind is no LINE_FAULT notice to bring up to date. -/
theorem updateLineFault_cons_other {q : QueuedNotice} (total : Nat) (cause : LineFaultCause)
    (l : List QueuedNotice) (other : ∀ figure old oldCause, q.notice ≠ .lineFault figure old oldCause) :
    updateLineFault total cause (q :: l) = (updateLineFault total cause l).map (q :: ·) := by
  rw [updateLineFault]
  split
  · exact absurd ‹_› (other _ _ _)
  · rfl

theorem updateLineFault_cons_fault {q : QueuedNotice} {figure old : Nat} {oldCause : LineFaultCause}
    (total : Nat) (cause : LineFaultCause) (l : List QueuedNotice)
    (fault : q.notice = .lineFault figure old oldCause) :
    updateLineFault total cause (q :: l) =
      some ({ q with notice := .lineFault (satAdd 65535 figure 1) total cause } :: l) := by
  rw [updateLineFault]
  simp only [fault]

/-- A list with no LINE_FAULT notice has none to bring up to date. -/
theorem updateLineFault_none {l : List QueuedNotice} (total : Nat) (cause : LineFaultCause)
    (none : ∀ q ∈ l, ∀ figure old oldCause, q.notice ≠ .lineFault figure old oldCause) :
    updateLineFault total cause l = .none := by
  induction l with
  | nil => rfl
  | cons q l ih =>
    rw [updateLineFault_cons_other total cause l (none q List.mem_cons_self),
      ih fun q hq => none q (List.mem_cons_of_mem _ hq)]
    rfl

/-- The first LINE_FAULT notice of a list is the one brought up to date. -/
theorem updateLineFault_first {front rest : List QueuedNotice} {q : QueuedNotice}
    {figure old : Nat} {oldCause : LineFaultCause} (total : Nat) (cause : LineFaultCause)
    (none : ∀ q ∈ front, ∀ figure old oldCause, q.notice ≠ .lineFault figure old oldCause)
    (fault : q.notice = .lineFault figure old oldCause) :
    updateLineFault total cause (front ++ q :: rest) = some (front ++
      { q with notice := .lineFault (satAdd 65535 figure 1) total cause } :: rest) := by
  induction front with
  | nil => exact updateLineFault_cons_fault total cause rest fault
  | cons p front ih =>
    rw [List.cons_append, updateLineFault_cons_other total cause _ (none p List.mem_cons_self),
      ih fun q hq => none q (List.mem_cons_of_mem _ hq)]
    rfl

/-- How many notices at the head of the queue are being sent. -/
def HostLine.sending (h : HostLine) : Nat :=
  match h.tx with
  | .notice _ => 1
  | _ => 0

/-- The notices being sent are passed over, the others searched. -/
theorem HostLine.updatedNotices_eq (h : HostLine) (total : Nat) (cause : LineFaultCause) :
    h.updatedNotices total cause =
      (updateLineFault total cause (h.notices.drop h.sending)).map
        (h.notices.take h.sending ++ ·) := by
  unfold HostLine.updatedNotices HostLine.sending
  rcases h.tx with _ | _ | _ | m <;> rcases h.notices with _ | ⟨q, l⟩ <;>
    simp [updateLineFault]

/-- A line fault with no waiting LINE_FAULT notice raises one (R146 (2)). -/
theorem HostLine.fault_raises {h : HostLine} (cause : LineFaultCause)
    (none : updateLineFault (satAdd 65535 h.lineFaults 1) cause (h.notices.drop h.sending) = .none) :
    h.fault cause = HostLine.raise { h with lineFaults := satAdd 65535 h.lineFaults 1 }
      (.lineFault 1 (satAdd 65535 h.lineFaults 1) cause) := by
  have unchanged : HostLine.updatedNotices { h with lineFaults := satAdd 65535 h.lineFaults 1 }
      (satAdd 65535 h.lineFaults 1) cause = .none := by
    rw [HostLine.updatedNotices_eq]
    exact Option.map_eq_none_iff.2 none
  simp only [HostLine.fault, unchanged]

/-- A line fault with a waiting LINE_FAULT notice brings it up to date (R146 (1)). -/
theorem HostLine.fault_updates {h : HostLine} (cause : LineFaultCause) {l : List QueuedNotice}
    (updated : updateLineFault (satAdd 65535 h.lineFaults 1) cause (h.notices.drop h.sending) =
      some l) :
    h.fault cause = { h with
      lineFaults := satAdd 65535 h.lineFaults 1, notices := h.notices.take h.sending ++ l } := by
  have changed : HostLine.updatedNotices { h with lineFaults := satAdd 65535 h.lineFaults 1 }
      (satAdd 65535 h.lineFaults 1) cause = some (h.notices.take h.sending ++ l) := by
    rw [HostLine.updatedNotices_eq]
    exact congrArg (Option.map _) updated
  simp only [HostLine.fault, changed]

/-- Settles O12: the search either finds no LINE_FAULT notice or finds the first. -/
theorem lineFaultCounts : Obligations.LineFaultCounts := by
  unfold Obligations.LineFaultCounts
  intro h cause total isFault sending
  have other (q : QueuedNotice) (no : isFault q = false) :
      ∀ figure old oldCause, q.notice ≠ .lineFault figure old oldCause := by
    intro figure old oldCause e
    simp only [isFault, e] at no
    cases no
  have passed : sending = h.sending := rfl
  rw [passed]
  refine ⟨fun none => ?_, fun front q rest split none figure old oldCause fault => ?_⟩
  · refine HostLine.fault_raises cause (updateLineFault_none _ _ fun q hq => other q ?_)
    simpa using List.any_eq_false.1 none q hq
  · rw [HostLine.fault_updates cause (l := front ++
      { q with notice := .lineFault (satAdd 65535 figure 1) total cause } :: rest)
      (split ▸ updateLineFault_first _ _
        (fun q hq => other q (by simpa using List.any_eq_false.1 none q hq)) fault),
      List.append_assoc]
    rfl

/-! ### Notices and answers (R149 to R152) -/

/-- On a line that has made its choice a notice queued is begun at once just when the line is idle and
notice hold is off, and takes the missed count with it. -/
theorem HostLine.Served.choose_notice {h : HostLine} (served : h.Served) (q : QueuedNotice)
    (number : Nat) :
    HostLine.choose { h with notices := h.notices ++ [q], noticeNumber := number } = { h with
      notices := h.notices ++ [q], noticeNumber := number
      tx := if h.tx = .idle ∧ h.noticeHold = false then .notice h.missed else h.tx
      missed := if h.tx = .idle ∧ h.noticeHold = false then 0 else h.missed } := by
  by_cases idle : h.tx = .idle
  · obtain ⟨replies, rejections, -⟩ := (HostLine.served_iff h).1 served idle
    unfold HostLine.choose
    simp only [idle, replies, rejections, ne_eq, not_true_eq_false, if_false,
      List.append_eq_nil_iff, List.cons_ne_self, and_false, not_false_eq_true, true_and]
    split <;> rfl
  · rw [HostLine.choose_busy
      (h := { h with notices := h.notices ++ [q], noticeNumber := number }) idle,
      if_neg fun e => idle e.1, if_neg fun e => idle e.1]

/-- An answer frees the first slot with the tag and queues the reply with that slot's code. -/
theorem HostLine.answer_of_slot {h : HostLine} {tag code : Byte} {owner : Owner}
    {before after : List Slot} (result : Result) (payload : List Byte)
    (slots : h.slots = before ++ ⟨tag, code, owner⟩ :: after)
    (first : before.any (·.tag == tag) = false) :
    h.answer tag result payload =
      HostLine.withReply { h with slots := before ++ after } ⟨tag, code, result, payload⟩ := by
  have absent (a : Slot) (ha : a ∈ before) : ¬ (a.tag == tag) = true :=
    List.any_eq_false.1 first a ha
  have find : h.slots.find? (·.tag == tag) = some ⟨tag, code, owner⟩ := by
    rw [slots, List.find?_append, List.find?_eq_none.2 absent]
    simp
  have erase : h.slots.eraseP (·.tag == tag) = before ++ after := by
    rw [slots, List.eraseP_append_right _ absent, List.eraseP_cons_of_pos (by simp)]
  unfold HostLine.answer
  rw [find, erase]
  exact HostLine.choose_reply (by simp)

/-- Settles O13: a place in the notice queue or the missed count, and the slot that an answer frees. -/
theorem noticesAndAnswersAreQueued : Obligations.NoticesAndAnswersAreQueued := by
  unfold Obligations.NoticesAndAnswersAreQueued
  refine ⟨fun h n served => ⟨fun room => ?_, fun full => ?_⟩, ?_⟩
  · rw [HostLine.raise, if_pos room, served.choose_notice]
  · rw [HostLine.raise, if_neg (Nat.not_lt.2 full), satAdd_eq_min]
  · intro h tag r payload code owner before after slots first
    exact HostLine.answer_of_slot r payload slots first

/-! ### The checks of requests (R149) -/

theorem parseStream_le {b : Byte} {i : StreamNo} (h : parseStream b = some i) : b.toNat ≤ 15 := by
  unfold parseStream at h
  split at h
  · omega
  · cases h

theorem parsePort_le {b : Byte} {p : PortNo} (h : parsePort b = some p) : b.toNat ≤ 3 := by
  unfold parsePort at h
  split at h
  · omega
  · cases h

theorem parseSlot_le {b : Byte} {n : SlotNo} (h : parseSlot b = some n) : b.toNat ≤ 63 := by
  unfold parseSlot at h
  split at h
  · omega
  · cases h

theorem parseBool_le {b : Byte} {v : Bool} (h : parseBool b = some v) : b.toNat ≤ 1 := by
  unfold parseBool at h
  split_ifs at h <;> subst b <;> decide

theorem parseDirection_le {b : Byte} {d : Direction} (h : parseDirection b = some d) :
    b.toNat ≤ 1 := by
  unfold parseDirection at h
  split_ifs at h <;> subst b <;> decide

theorem parsePolicy_le {b : Byte} {p : Policy} (h : parsePolicy b = some p) : b.toNat ≤ 1 := by
  unfold parsePolicy at h
  split_ifs at h <;> subst b <;> decide

theorem parseRole_le {b : Byte} {r : Role} (h : parseRole b = some r) : b.toNat ≤ 2 := by
  unfold parseRole at h
  split_ifs at h <;> subst b <;> decide

theorem parseSlotCount_eq {b : Byte} {n : SlotCount} (h : parseSlotCount b = some n) :
    b.toNat = 32 ∨ b.toNat = 64 := by
  unfold parseSlotCount at h
  split_ifs at h <;> subst b <;> decide

theorem parseSlotDirection_le {b : Byte} {d : SlotDirection} (h : parseSlotDirection b = some d) :
    b.toNat ≤ 1 := by
  unfold parseSlotDirection at h
  split_ifs at h <;> subst b <;> decide

/-- A 16-bit field of a payload that has it (R157). -/
theorem beNat_half {l : List Byte} {k : Nat} (h : k + 1 < l.length) :
    beNat ((l.drop k).take 2) = 256 * (l.getD k 0).toNat + (l.getD (k + 1) 0).toNat := by
  rw [List.drop_eq_getElem_cons (by omega), List.drop_eq_getElem_cons h]
  rw [List.getD_eq_getElem _ _ h, List.getD_eq_getElem _ _ (by omega)]
  simp only [beNat, List.take_succ_cons, List.take_zero, List.foldl_cons, List.foldl_nil]
  omega

theorem parseFrameSet_ranges {l : List Byte} {a : Role × SlotCount}
    (h : parseFrameSet l = some a) :
    (l.getD 0 0).toNat ≤ 2 ∧ ((l.getD 1 0).toNat = 32 ∨ (l.getD 1 0).toNat = 64) := by
  simp only [parseFrameSet, Option.bind_eq_bind, Option.bind_eq_some_iff] at h
  obtain ⟨_, role, _, count, -⟩ := h
  exact ⟨parseRole_le role, parseSlotCount_eq count⟩

theorem parseSlotSet_ranges {l : List Byte} {a : SlotNo × SlotDirection × StreamNo}
    (h : parseSlotSet l = some a) :
    (l.getD 0 0).toNat ≤ 63 ∧ (l.getD 1 0).toNat ≤ 1 ∧ (l.getD 2 0).toNat ≤ 15 := by
  simp only [parseSlotSet, Option.bind_eq_bind, Option.bind_eq_some_iff] at h
  obtain ⟨_, slot, _, direction, _, stream, -⟩ := h
  exact ⟨parseSlot_le slot, parseSlotDirection_le direction, parseStream_le stream⟩

theorem parseSlotClear_ranges {l : List Byte} {a : SlotNo × SlotDirection}
    (h : parseSlotClear l = some a) : (l.getD 0 0).toNat ≤ 63 ∧ (l.getD 1 0).toNat ≤ 1 := by
  simp only [parseSlotClear, Option.bind_eq_bind, Option.bind_eq_some_iff] at h
  obtain ⟨_, slot, _, direction, -⟩ := h
  exact ⟨parseSlot_le slot, parseSlotDirection_le direction⟩

theorem parseFormat_ranges {l : List Byte} {a : FormatArgs} (length : l.length = 5)
    (h : parseFormat l = some a) :
    (l.getD 0 0).toNat ≤ 3 ∧ 256 * (l.getD 1 0).toNat + (l.getD 2 0).toNat ≤ 4095 ∧
      (l.getD 3 0).toNat ≤ 15 ∧ (l.getD 4 0).toNat ≤ 1 := by
  simp only [parseFormat, Option.bind_eq_bind, Option.bind_eq_some_iff] at h
  obtain ⟨_, port, _, lock, h⟩ := h
  split at h
  · rename_i place
    rw [beNat_half (by omega)] at place
    exact ⟨parsePort_le port, place.1, place.2, parseBool_le lock⟩
  · cases h

theorem parseSectorRead_ranges {l : List Byte} {a : PortNo × Nat} (h : parseSectorRead l = some a) :
    (l.getD 0 0).toNat ≤ 3 := by
  simp only [parseSectorRead, Option.bind_eq_bind, Option.bind_eq_some_iff] at h
  obtain ⟨_, port, -⟩ := h
  exact parsePort_le port

theorem parseSectorWrite_ranges {l : List Byte} {a : WriteArgs} (length : l.length = 528)
    (h : parseSectorWrite l = some a) :
    (l.getD 0 0).toNat ≤ 3 ∧ 1 ≤ 256 * (l.getD 5 0).toNat + (l.getD 6 0).toNat ∧
      256 * (l.getD 13 0).toNat + (l.getD 14 0).toNat ≤ 512 ∧ (l.getD 15 0).toNat ≤ 1 := by
  simp only [parseSectorWrite, Option.bind_eq_bind, Option.bind_eq_some_iff] at h
  obtain ⟨_, port, _, override, h⟩ := h
  split at h
  · rename_i figures
    rw [beNat_half (by omega), beNat_half (by omega)] at figures
    exact ⟨parsePort_le port, figures.1, figures.2, parseBool_le override⟩
  · cases h

theorem parseBind_ranges {l : List Byte} {a : StreamNo × Settings} (length : l.length = 12)
    (h : parseBind l = some a) :
    (l.getD 0 0).toNat ≤ 15 ∧ (l.getD 1 0).toNat ≤ 1 ∧
      1 ≤ 256 * (l.getD 2 0).toNat + (l.getD 3 0).toNat ∧
      2 ≤ (l.getD 4 0).toNat ∧ (l.getD 4 0).toNat ≤ 64 ∧
      1 ≤ (l.getD 5 0).toNat ∧ (l.getD 5 0).toNat ≤ (l.getD 4 0).toNat ∧
      1 ≤ (l.getD 6 0).toNat ∧ (l.getD 6 0).toNat ≤ 4 ∧ (l.getD 7 0).toNat ≤ 1 ∧
      1 ≤ (l.getD 11 0).toNat ∧ (l.getD 11 0).toNat ≤ (l.getD 4 0).toNat := by
  simp only [parseBind, Option.bind_eq_bind, Option.bind_eq_some_iff] at h
  obtain ⟨_, stream, _, direction, _, policy, h⟩ := h
  split at h
  · rename_i figures
    rw [beNat_half (by omega)] at figures
    obtain ⟨recTag, quota2, quota64, reserve1, reserveLe, depth1, depth4, prime1, primeLe⟩ := figures
    exact ⟨parseStream_le stream, parseDirection_le direction, recTag, quota2, quota64, reserve1,
      reserveLe, depth1, depth4, parsePolicy_le policy, prime1, primeLe⟩
  · cases h

theorem parseStart_ranges {l : List Byte} {a : StreamNo × Half × Seq} (h : parseStart l = some a) :
    (l.getD 0 0).toNat ≤ 15 := by
  simp only [parseStart, Option.bind_eq_bind, Option.bind_eq_some_iff] at h
  obtain ⟨_, stream, -⟩ := h
  exact parseStream_le stream

theorem parseExtentAdd_ranges {l : List Byte} {a : StreamNo × Extent} (length : l.length = 9)
    (h : parseExtentAdd l = some a) :
    (l.getD 0 0).toNat ≤ 15 ∧ (l.getD 1 0).toNat ≤ 3 ∧
      1 ≤ 256 * (l.getD 6 0).toNat + (l.getD 7 0).toNat ∧ (l.getD 8 0).toNat ≤ 1 := by
  simp only [parseExtentAdd, Option.bind_eq_bind, Option.bind_eq_some_iff] at h
  obtain ⟨_, stream, _, port, _, override, h⟩ := h
  split at h
  · rename_i count
    rw [beNat_half (by omega)] at count
    exact ⟨parseStream_le stream, parsePort_le port, count, parseBool_le override⟩
  · cases h

/-- A code that Table 10.2 knows is served by its checks: the length of its row, and a parse that
answers only what lies in the ranges of its arguments (R149). -/
theorem serveCode_checked {code : Byte} {n : Nat} (known : requestLength code = some n)
    (tag : Byte) (payload : List Byte) (permit : Bool) :
    ∃ (α : Type) (parse : List Byte → Option α) (owner : α → Work → Work),
      (∀ w, serveCode code tag payload permit w = w.checked tag payload n parse owner) ∧
        (payload.length = n → ∀ a, parse payload = some a →
          Request.InRange ⟨tag, code, payload⟩) := by
  unfold requestLength at known
  split at known <;> cases known <;> rename_i number <;> obtain rfl := eq_ofNat_of_toNat_eq number
  · exact ⟨_, parseNone, _, fun w => (rfl : serveHello tag payload w = _), fun _ _ _ => trivial⟩
  · exact ⟨_, parseNone, _, fun w => (rfl : servePartReset tag payload w = _), fun _ _ _ => trivial⟩
  · exact ⟨_, parseNone, _, fun w => (rfl : serveNoticeHold tag payload w = _), fun _ _ _ => trivial⟩
  · exact ⟨_, parseNone, _, fun w => (rfl : serveNoticeRelease tag payload w = _), fun _ _ _ => trivial⟩
  · exact ⟨_, parseFrameSet, _, fun w => rfl, fun _ _ h => parseFrameSet_ranges h⟩
  · exact ⟨_, parseSlotSet, _, fun w => rfl, fun _ _ h => parseSlotSet_ranges h⟩
  · exact ⟨_, parseSlotClear, _, fun w => rfl, fun _ _ h => parseSlotClear_ranges h⟩
  · exact ⟨_, parsePortArg, _, fun w => rfl, fun _ _ h => parsePort_le h⟩
  · exact ⟨_, parsePortArg, _, fun w => rfl, fun _ _ h => parsePort_le h⟩
  · exact ⟨_, parsePortArg, _, fun w => rfl, fun _ _ h => parsePort_le h⟩
  · exact ⟨_, parseFormat, _, fun w => rfl, fun length _ h => parseFormat_ranges length h⟩
  · exact ⟨_, parseSectorRead, _, fun w => rfl, fun _ _ h => parseSectorRead_ranges h⟩
  · exact ⟨_, parseSectorWrite, _, fun w => rfl, fun length _ h => parseSectorWrite_ranges length h⟩
  · exact ⟨_, parseBind, _, fun w => rfl, fun length _ h => parseBind_ranges length h⟩
  · exact ⟨_, parseStreamArg, _, fun w => rfl, fun _ _ h => parseStream_le h⟩
  · exact ⟨_, parseStart, _, fun w => rfl, fun _ _ h => parseStart_ranges h⟩
  · exact ⟨_, parseStreamArg, _, fun w => rfl, fun _ _ h => parseStream_le h⟩
  · exact ⟨_, parseStreamArg, _, fun w => rfl, fun _ _ h => parseStream_le h⟩
  · exact ⟨_, parseStreamArg, _, fun w => rfl, fun _ _ h => parseStream_le h⟩
  · exact ⟨_, parseExtentAdd, _, fun w => rfl, fun length _ h => parseExtentAdd_ranges length h⟩
  · exact ⟨_, parseStreamArg, _, fun w => rfl, fun _ _ h => parseStream_le h⟩

/-- A request that its code's service answers at once, with nothing else changed. -/
theorem exec_request_answered {c : Instr} {r : Request} {s : State} (request : c.request = some r)
    (takes : s.Takes r.tag) {result : Result}
    (answers : ∀ permit w, serveCode r.code r.tag r.payload permit w = w.answer r.tag result []) :
    exec c s = .next (s.replied r.tag r.code result []) := by
  obtain ⟨permit, run⟩ := exec_of_request request
  rw [run]
  exact act_answered takes rfl (answers permit _)

/-- Settles O14: the service of a known code begins with its checks, the service of an unknown one is
the answer. -/
theorem requestsAreChecked : Obligations.RequestsAreChecked := by
  unfold Obligations.RequestsAreChecked
  refine ⟨fun c r s n request takes known => ⟨fun length => ?_, fun length range => ?_⟩,
    fun s tag code payload takes unknown => ?_⟩
  · refine exec_request_answered request takes fun permit w => ?_
    obtain ⟨α, parse, owner, serve, -⟩ := serveCode_checked known r.tag r.payload permit
    rw [serve, Work.checked, if_pos length]
  · refine exec_request_answered request takes fun permit w => ?_
    obtain ⟨α, parse, owner, serve, inRange⟩ := serveCode_checked known r.tag r.payload permit
    have refused : parse r.payload = none :=
      Option.eq_none_iff_forall_ne_some.2 fun a args => range (inRange length a args)
    rw [serve, Work.checked, if_neg (not_not.2 length), refused]
  · exact exec_request_answered (r := ⟨tag, code, payload⟩) rfl takes fun permit w =>
      serveCode_unknown unknown tag payload permit w

/-! ### The receiver (R145) -/

theorem Work.receiveByte_hunt {w : Work} (rx : w.host.rx = .hunt) (b : Byte) (permit : Bool) :
    w.receiveByte b permit =
      if b = 0xA5 then w.updHost fun h => { h with rx := .length [] } else w := by
  simp only [Work.receiveByte, rx]

theorem Work.receiveByte_length_first {w : Work} (rx : w.host.rx = .length []) (b : Byte)
    (permit : Bool) :
    w.receiveByte b permit = w.updHost fun h => { h with rx := .length [b] } := by
  simp only [Work.receiveByte, rx]

theorem Work.receiveByte_length_second {w : Work} {high : Byte} (rx : w.host.rx = .length [high])
    (b : Byte) (permit : Bool) :
    w.receiveByte b permit =
      if 3 ≤ 256 * high.toNat + b.toNat ∧ 256 * high.toNat + b.toNat ≤ 560 then
        w.updHost fun h => { h with rx := .body (256 * high.toNat + b.toNat) [high, b] [] }
      else w.receiverFault .length := by
  have value : beNat [high, b] = 256 * high.toNat + b.toNat := by simp [beNat]
  simp only [Work.receiveByte, rx, value]

theorem Work.receiveByte_body {w : Work} {n : Nat} {lengthBytes taken : List Byte}
    (rx : w.host.rx = .body n lengthBytes taken) (b : Byte) (permit : Bool) :
    w.receiveByte b permit =
      if taken.length + 1 < n then
        w.updHost fun h => { h with rx := .body n lengthBytes (taken ++ [b]) }
      else w.updHost fun h => { h with rx := .check lengthBytes (taken ++ [b]) [] } := by
  simp only [Work.receiveByte, rx]

theorem Work.receiveByte_check_first {w : Work} {lengthBytes body : List Byte}
    (rx : w.host.rx = .check lengthBytes body []) (b : Byte) (permit : Bool) :
    w.receiveByte b permit = w.updHost fun h => { h with rx := .check lengthBytes body [b] } := by
  simp only [Work.receiveByte, rx]

theorem Work.receiveByte_check_last {w : Work} {lengthBytes body : List Byte} {high : Byte}
    (rx : w.host.rx = .check lengthBytes body [high]) (b : Byte) (permit : Bool) :
    w.receiveByte b permit = w.recordEnds lengthBytes body [high, b] permit := by
  simp only [Work.receiveByte, rx]

/-- A byte without a framing error comes to the receiver while no reset is pending. -/
theorem exec_hrxByte_plain {s : State} (b : Byte) (permit : Bool) (high : s.resetLow = false)
    (noReset : s.host.resetPending = false) :
    exec (.hrxByte b false permit) s = act (·.receiveByte b permit) s := by
  rw [exec_hrxByte, execHrxByte, actUnlessReset_high high, act_eq, act_eq,
    if_neg (by rw [show s.work.host.resetPending = false from noReset]; nofun)]
  rfl

/-- A byte that takes the receiver to another state. -/
theorem exec_hrxByte_goes {s : State} {b : Byte} {permit : Bool} {rx : Rx}
    (high : s.resetLow = false) (noReset : s.host.resetPending = false)
    (e : s.work.receiveByte b permit = s.work.updHost fun h => { h with rx := rx }) :
    exec (.hrxByte b false permit) s = .next { s with host := { s.host with rx := rx } } := by
  rw [exec_hrxByte_plain b permit high noReset]
  exact act_next e

/-- A byte that the receiver takes as a line fault. -/
theorem exec_hrxByte_faults {s : State} {b : Byte} {permit : Bool} {cause : LineFaultCause}
    (high : s.resetLow = false) (noReset : s.host.resetPending = false)
    (e : s.work.receiveByte b permit = s.work.receiverFault cause) :
    exec (.hrxByte b false permit) s =
      .next { s with host := HostLine.fault { s.host with rx := .hunt } cause } := by
  rw [exec_hrxByte_plain b permit high noReset]
  exact act_next e

/-- A byte with a framing error (R145): discarded in HUNT, a line fault elsewhere. -/
theorem exec_hrxByte_framing {s : State} (b : Byte) (permit : Bool) (high : s.resetLow = false)
    (noReset : s.host.resetPending = false) :
    (s.host.rx = .hunt → exec (.hrxByte b true permit) s = .next s) ∧
    (s.host.rx ≠ .hunt → exec (.hrxByte b true permit) s =
      .next { s with host := HostLine.fault { s.host with rx := .hunt } .framing }) := by
  have taken : ¬ s.work.host.resetPending = true := by
    rw [show s.work.host.resetPending = false from noReset]; nofun
  rw [exec_hrxByte, execHrxByte]
  refine ⟨fun hunt => actUnlessReset_next high ?_, fun busy => actUnlessReset_next high ?_⟩
  · rw [if_neg taken, if_pos rfl, show s.work.host.rx = .hunt from hunt]
  · rw [if_neg taken, if_pos rfl]
    split
    · exact absurd ‹_› busy
    · rfl

/-- A timeout between bytes (R145): nothing in HUNT, a line fault elsewhere. -/
theorem exec_interByteTimeout_cases {s : State} (high : s.resetLow = false) :
    (s.host.rx = .hunt → exec .interByteTimeout s = .next s) ∧
    (s.host.rx ≠ .hunt → exec .interByteTimeout s =
      .next { s with host := HostLine.fault { s.host with rx := .hunt } .timeout }) := by
  rw [exec_interByteTimeout, execInterByteTimeout]
  refine ⟨fun hunt => actUnlessReset_next high ?_, fun busy => actUnlessReset_next high ?_⟩
  · rw [show s.work.host.rx = .hunt from hunt]
  · split
    · exact absurd ‹_› busy
    · rfl

/-- A receiver that goes to the state it is in stays as it is. -/
theorem State.with_rx_self {s : State} {rx : Rx} (e : s.host.rx = rx) :
    ({ s with host := { s.host with rx := rx } } : State) = s := by
  subst e; rfl

/-- Settles O15: the receiver's states, each with its bytes. -/
theorem receivesBytes : Obligations.ReceivesBytes := by
  unfold Obligations.ReceivesBytes
  refine ⟨?_, fun s high => exec_interByteTimeout_cases high⟩
  intro s b permit high goes faults
  refine ⟨fun pending framing => ?_, fun noReset => ?_⟩
  · rw [exec_hrxByte]
    exact actUnlessReset_next high (if_pos pending)
  obtain ⟨discarded, framing⟩ := exec_hrxByte_framing b permit high noReset
  have goes_of {rx : Rx} (e : s.work.receiveByte b permit =
      s.work.updHost fun h => { h with rx := rx }) : goes false rx :=
    exec_hrxByte_goes high noReset e
  refine ⟨fun hunt => ⟨?_, fun sync => ?_, fun other => ?_⟩, framing, fun first => ?_,
    fun high' second => ⟨fun low3 high560 => ?_, fun out => ?_⟩,
    fun n lengthBytes taken body => ⟨fun more => ?_, fun last => ?_⟩,
    fun lengthBytes body check => ?_⟩
  · exact (discarded hunt).trans (by rw [State.with_rx_self hunt])
  · exact goes_of ((Work.receiveByte_hunt hunt b permit).trans (if_pos sync))
  · refine goes_of ((Work.receiveByte_hunt hunt b permit).trans ((if_neg other).trans ?_))
    exact (congrArg State.work (State.with_rx_self hunt)).symm
  · exact goes_of (Work.receiveByte_length_first first b permit)
  · exact goes_of ((Work.receiveByte_length_second second b permit).trans
      (if_pos ⟨low3, high560⟩))
  · exact exec_hrxByte_faults high noReset
      ((Work.receiveByte_length_second second b permit).trans (if_neg (by omega)))
  · exact goes_of ((Work.receiveByte_body body b permit).trans (if_pos more))
  · exact goes_of ((Work.receiveByte_body body b permit).trans (if_neg (by omega)))
  · exact goes_of (Work.receiveByte_check_first check b permit)

/-- Settles O16: the last check byte ends the record, whose kind and code decide. -/
theorem completeRecordIsItsRequest : Obligations.CompleteRecordIsItsRequest := by
  unfold Obligations.CompleteRecordIsItsRequest
  intro s lengthBytes body high low permit up noReset rx fresh faults
  have ends := Work.receiveByte_check_last (w := s.work) rx low permit
  refine ⟨fun differs => ?_, fun agrees => ⟨fun kind rest split other => ?_, fun r split => ?_⟩⟩
  · exact exec_hrxByte_faults up noReset (ends.trans (if_pos differs))
  · refine exec_hrxByte_faults up noReset (ends.trans ?_)
    unfold Work.recordEnds
    rw [if_neg (not_not.2 agrees), split]
    rcases rest with _ | ⟨tag, _ | ⟨code, payload⟩⟩
    · rfl
    · rfl
    · exact if_neg other
  · rw [exec_hrxByte_plain low permit up noReset, exec_ofRequest, act_eq, act_eq, ends]
    unfold Work.recordEnds
    rw [if_neg (not_not.2 agrees), split]
    rfl

/-! ### The transmitter (R151, R155) -/

/-- The reply being sent is the OK reply to PART_RESET just when it heads the queue. -/
theorem HostLine.resetReplySent_iff (h : HostLine) : h.resetReplySent = true ↔
    h.resetPending = true ∧ ∃ r rest, h.replies = r :: rest ∧ r.code = 0x02 ∧ r.result = .ok := by
  rcases replies : h.replies with _ | ⟨r, rest⟩ <;> simp [HostLine.resetReplySent, replies]

/-- The transmitter's choice on an idle line, by the queues alone. -/
theorem HostLine.choose_idle {h : HostLine} (idle : h.tx = .idle) : h.choose = { h with
    tx := if h.replies ≠ [] then .reply else if h.rejections ≠ [] then .rejection
      else if h.notices ≠ [] ∧ h.noticeHold = false then .notice h.missed else .idle
    missed := if (if h.replies ≠ [] then Tx.reply else if h.rejections ≠ [] then .rejection
      else if h.notices ≠ [] ∧ h.noticeHold = false then .notice h.missed else .idle) =
        .notice h.missed then 0 else h.missed } := by
  cases h
  subst idle
  unfold HostLine.choose
  dsimp only
  split_ifs <;> simp_all

/-- Settles O17: the record sent leaves its queue and the line, idle then, chooses. -/
theorem recordSent : Obligations.RecordSent := by
  unfold Obligations.RecordSent
  intro s spd1 spd0 high h resets
  have resets_iff : resets ↔ s.work.host.tx = .reply ∧ s.work.host.resetReplySent = true :=
    and_congr_right fun _ => (HostLine.resetReplySent_iff s.host).symm
  refine ⟨fun r => ?_, fun goesOn busy => ?_, fun idle => ?_⟩
  · obtain ⟨sending, sent⟩ := resets_iff.1 r
    rw [exec_recordSent_resets spd1 spd0 high sending sent, exec_leaveReset_resets]
  · intro replies rejections notices tx
    rw [exec_recordSent]
    refine actUnlessReset_next high ((if_neg fun r => goesOn (resets_iff.2 r)).trans ?_)
    have sent : s.host.sent = { h with
        replies := replies, rejections := rejections, notices := notices, tx := tx
        missed := if tx = .notice h.missed then 0 else h.missed } := by
      unfold HostLine.sent
      rcases sending : s.host.tx with _ | _ | _ | m
      · exact absurd sending busy
      all_goals
        dsimp only
        rw [HostLine.choose_idle rfl]
        simp only [replies, rejections, notices, tx, h, sending, reduceCtorEq, if_true, if_false,
          or_true, or_false]
    exact congrArg (fun line => ({ s with host := line } : State).work) sent
  · rw [exec_recordSent]
    have sending : ¬ s.work.host.tx = .reply := by
      rw [show s.work.host.tx = .idle from idle]; nofun
    refine actUnlessReset_next high ((if_neg fun r => sending r.1).trans ?_)
    have sent : s.host.sent = s.host := by
      unfold HostLine.sent
      rw [show s.host.tx = .idle from idle]
    exact congrArg (fun line => ({ s with host := line } : State).work) sent

/-! ### PART_RESET, NOTICE_HOLD and NOTICE_RELEASE (R153, R155) -/

/-- Settles O19: each is answered at once, from the line as it was when the request was taken. -/
theorem partResetAndNoticeHold : Obligations.PartResetAndNoticeHold := by
  unfold Obligations.PartResetAndNoticeHold
  refine ⟨fun s tag takes => ?_, ?_⟩
  · rw [exec_partReset, execPartReset, act_takeRequest takes]
    have answered : (s.inService tag 2).work.answer tag .ok [] = (s.replied tag 2 .ok []).work :=
      Work.take_answer (w := s.work) takes.fresh
    exact act_next (congrArg (·.updHost fun h => { h with resetPending := true, rx := .hunt })
      answered)
  · intro s tag takes figures held
    have answered (on : Bool) (code : Byte) :
        ((held on).inService tag code).work.answer tag .ok figures =
          ((held on).replied tag code .ok figures).work :=
      Work.take_answer (w := (held on).work) takes.fresh
    refine ⟨?_, ?_⟩
    · rw [exec_noticeHold, execNoticeHold, act_takeRequest takes]
      exact act_next (answered true 3)
    · rw [exec_noticeRelease, execNoticeRelease, act_takeRequest takes]
      exact act_next (answered false 4)

end Sys2Proof.Machine

/-! PROOFS. Shared operations: the check value (R158), claims (R28), the cursor's low mark (R41, R44),
verdicts (Table 6.1), the choice (Table 7.6) and the placing of entries (R127). -/

namespace Sys2Proof.Machine

/-! ### The check value (R158) -/

theorem crc_append_singleton (l : List Byte) (b : Byte) : crc (l ++ [b]) = crcByte (crc l) b := by
  rw [crc, List.foldl_append]
  rfl

/-- One byte is eight shifts. -/
theorem crcByte_eq (r : Half) (b : Byte) : crcByte r b =
    crcShift (crcShift (crcShift (crcShift (crcShift (crcShift (crcShift (crcShift
      (r ^^^ (b.zeroExtend 16 <<< 8))))))))) := rfl

/-- A register whose top bit is clear is doubled by a shift. -/
theorem crcShift_toNat {r : Half} (low : r.toNat < 2 ^ 15) : (crcShift r).toNat = 2 * r.toNat := by
  have msb : r.msb = false := by
    rw [BitVec.msb_eq_decide]
    exact decide_eq_false (by omega)
  rw [crcShift, msb, if_neg nofun, BitVec.toNat_shiftLeft, Nat.shiftLeft_eq]
  omega

/-- The register's own high byte cancels it: the eight shifts then move the low byte up. -/
theorem crcByte_high (r : Half) :
    crcByte r ((r >>> 8).truncate 8) = (r.truncate 8).zeroExtend 16 <<< 8 := by
  have cancel : r ^^^ (((r >>> 8).truncate 8).zeroExtend 16 <<< 8) = (r.truncate 8).zeroExtend 16 := by
    apply BitVec.eq_of_getLsbD_eq
    intro i hi
    by_cases h : i < 8
    · simp [h]
      exact fun _ => hi
    · have : i - 8 < 8 := by omega
      have whole : 8 + (i - 8) = i := by omega
      simp [h, this, hi, whole]
  have low : ((r.truncate 8).zeroExtend 16).toNat = r.toNat % 256 := by
    simp only [BitVec.truncate_eq_setWidth, BitVec.toNat_setWidth]
    omega
  rw [crcByte_eq, cancel]
  generalize (r.truncate 8).zeroExtend 16 = x at low
  have small : x.toNat < 256 := by omega
  apply BitVec.eq_of_toNat_eq
  have h1 := crcShift_toNat (r := x) (by omega)
  have h2 := crcShift_toNat (r := crcShift x) (by omega)
  have h3 := crcShift_toNat (r := crcShift (crcShift x)) (by omega)
  have h4 := crcShift_toNat (r := crcShift (crcShift (crcShift x))) (by omega)
  have h5 := crcShift_toNat (r := crcShift (crcShift (crcShift (crcShift x)))) (by omega)
  have h6 := crcShift_toNat (r := crcShift (crcShift (crcShift (crcShift (crcShift x))))) (by omega)
  have h7 := crcShift_toNat
    (r := crcShift (crcShift (crcShift (crcShift (crcShift (crcShift x)))))) (by omega)
  have h8 := crcShift_toNat
    (r := crcShift (crcShift (crcShift (crcShift (crcShift (crcShift (crcShift x))))))) (by omega)
  rw [h8, BitVec.toNat_shiftLeft, Nat.shiftLeft_eq]
  omega

/-- The low byte, moved up, cancels itself. -/
theorem crcByte_low (b : Byte) : crcByte (b.zeroExtend 16 <<< 8) b = 0 := by
  rw [crcByte_eq, BitVec.xor_self]
  rfl

/-- The two check bytes are the high and the low byte of the register (R158 (4)). -/
theorem crcBytes_eq (l : List Byte) :
    crcBytes l = [((crc l) >>> 8).truncate 8, (crc l).truncate 8] := by
  have high : BitVec.ofNat 8 ((crc l).toNat / 256) = ((crc l) >>> 8).truncate 8 := by
    apply BitVec.eq_of_toNat_eq
    simp [Nat.shiftRight_eq_div_pow]
  have low : BitVec.ofNat 8 (crc l).toNat = (crc l).truncate 8 := by
    apply BitVec.eq_of_toNat_eq
    simp
  simp only [crcBytes, beBytes, Nat.pow_one, Nat.pow_zero, Nat.div_one, high, low]

/-- A receiver that runs over the check bytes too ends at 0 (R158 (5)). -/
theorem crc_append_crcBytes (l : List Byte) : crc (l ++ crcBytes l) = 0 := by
  rw [crcBytes_eq, ← List.singleton_append, ← List.append_assoc, crc_append_singleton,
    crc_append_singleton, crcByte_high, crcByte_low]

theorem crcShift_eq (r : Half) :
    crcShift r = if r.getLsbD 15 then (r <<< 1) ^^^ 0x1021 else r <<< 1 := by
  rw [crcShift, BitVec.msb_eq_getLsbD_last]

/-- Settles O60: the register byte by byte, and the two check bytes that bring it back to 0. -/
theorem checkValue : Obligations.CheckValue := by
  unfold Obligations.CheckValue
  intro shift
  have same : crcShift = shift := funext crcShift_eq
  refine ⟨rfl, fun l b => ?_, fun l => ⟨crcBytes_eq l, crc_append_crcBytes l⟩, ?_, ?_⟩
  · rw [crc_append_singleton, crcByte_eq, same]
  · decide +kernel
  · decide +kernel

/-! ### Verdicts at the judgement head (Table 6.1) -/

/-- Settles O58: the rows of Table 6.1 in their order. -/
theorem verdictsFollowTheirTable : Obligations.VerdictsFollowTheirTable := by
  unfold Obligations.VerdictsFollowTheirTable
  intro st e
  refine ⟨fun cause failed => ⟨fun halt => ?_, fun goOn => ?_⟩, ?_, fun pending => ?_,
    fun t accepted => ?_⟩
  · simp only [Stream.verdict, failed, halt, if_true]
  · simp only [Stream.verdict, failed, goOn, reduceCtorEq, if_false]
  · intro t read foreign ahead
    have verdict : st.verdict e = some (if foreign then .foreign
        else if ahead = 0 then .accepted false t
        else if ahead < 2147483648 then .accepted true t else .stale) := by
      simp only [Stream.verdict, read]
      rfl
    rw [verdict]
    refine ⟨fun f => by rw [if_pos f], fun f zero => by rw [if_neg f, if_pos zero],
      fun f one below => ?_, fun f above => ?_⟩
    · rw [if_neg f, if_neg (by omega), if_pos (by omega)]
    · rw [if_neg f, if_neg (by omega), if_neg (by omega)]
  · simp only [Stream.verdict, pending]
  · simp only [Stream.verdict, accepted]

/-! ### Claims (R28) -/

/-- A granted claim changes one stream's part of the need alone. -/
theorem Work.reserveNeed_claim {w w' : Work} {i : StreamNo} {p : PageNo} (h : w.Reserved)
    (granted : w.claim i = some (p, w')) :
    w'.reserveNeed + ((w.stream i).cfg.reserve - w.held i) =
      w.reserveNeed + ((w.stream i).cfg.reserve - (w.held i + 1)) := by
  have after := closed_reserved.claim w i p w' granted h
  obtain ⟨rest, -, -, rfl⟩ := Work.claim_cases granted
  have held (j : StreamNo) : (w.updPool fun pool => { pool with
      free := rest, mem := pool.mem.clearPage p
      held := pool.held.set i (pool.held[i] + 1) }).held j =
        if i = j then w.held i + 1 else w.held j := Work.held_set w i j _ _ rfl
  have change := Work.reserveNeed_change (w := w) (w' := w.updPool fun pool => { pool with
      free := rest, mem := pool.mem.clearPage p
      held := pool.held.set i (pool.held[i] + 1) }) i fun j hj => by
    rw [Work.shortfall_eq after, Work.shortfall_eq h, held, if_neg (Ne.symm hj)]
    rfl
  rw [Work.shortfall_eq after, Work.shortfall_eq h, held, if_pos rfl] at change
  exact change

/-- A page outside another's addresses. -/
theorem read_clearPage_outside (m : Memory) (p : PageNo) {address : Nat}
    (outside : ∀ k < 512, address ≠ pageAddr p k) :
    (m.clearPage p).read address = m.read address := by
  rw [Memory.read_clearPage, if_neg]
  rintro ⟨low, high⟩
  simp only [pageAddr] at low high outside
  exact outside (address - 512 * p.val) (by omega) (by omega)

/-- Settles O57: what `Work.claim_cases` says of a grant, and its part in the need. -/
theorem claimsTakeAPage : Obligations.ClaimsTakeAPage := by
  unfold Obligations.ClaimsTakeAPage
  intro s i page w reserved wf granted
  have need := Work.reserveNeed_claim ((Work.reserved_iff s.work).1 reserved) granted
  have zero := Work.claim_zeroFilled granted
  obtain ⟨rest, free, -, rfl⟩ := Work.claim_cases granted
  have held : s.work.held i = s.pool.held[i] := rfl
  have reserve : (s.work.stream i).cfg.reserve = s.streams[i].cfg.reserve := rfl
  refine ⟨free, rfl, zero, fun address outside => read_clearPage_outside _ _ outside,
    fun below => by omega, fun above => by omega⟩

/-! ### The cursor (R41, R44) -/

/-- The cursor moves on by one sector of its head extent. -/
theorem Stream.advanceCursor_cons {st : Stream} {e : Extent} {others : List Extent}
    (extents : st.extents = e :: others) : st.advanceCursor =
      if e.count ≤ st.offset + 1 then { st with extents := others, offset := 0 }
      else { st with offset := st.offset + 1 } := by
  simp only [Stream.advanceCursor, extents]

theorem Stream.remaining_cons {st : Stream} {e : Extent} {others : List Extent}
    (extents : st.extents = e :: others) :
    st.remaining = e.count + (others.map (·.count)).sum - st.offset := by
  simp only [Stream.remaining, extents, List.map_cons, List.sum_cons]

/-- Taking a sector lowers the remaining count by 1 (R41). -/
theorem Stream.remaining_advanceCursor {st : Stream} {e : Extent} {others : List Extent}
    (extents : st.extents = e :: others) (within : st.offset < e.count) :
    st.advanceCursor.remaining + 1 = st.remaining := by
  rw [Stream.advanceCursor_cons extents, Stream.remaining_cons extents]
  split
  · simp only [Stream.remaining]
    omega
  · rw [Stream.remaining_cons (st := { st with offset := st.offset + 1 }) extents]
    dsimp only
    omega

/-- The remaining count crosses the low mark when one sector is taken (R44). -/
def Stream.CrossesLowMark (st : Stream) : Prop :=
  st.isActive = true ∧ st.lowGiven = false ∧ st.cfg.lowMark < st.remaining ∧
    st.remaining ≤ st.cfg.lowMark + 1

/-- A sector taken without EXTENT_LOW moves the cursor and nothing else. -/
theorem Work.takeSector_quiet {w : Work} {i : StreamNo} {e : Extent} {others : List Extent}
    (extents : (w.stream i).extents = e :: others) (within : (w.stream i).offset < e.count)
    (quiet : ¬ (w.stream i).CrossesLowMark) :
    w.takeSector i = w.updStream i fun st => st.advanceCursor := by
  have fall := Stream.remaining_advanceCursor extents within
  unfold Work.takeSector
  dsimp only
  rw [if_neg]
  · rfl
  · simp only [Bool.and_eq_true, Bool.not_eq_true', decide_eq_true_eq, not_and]
    rintro ⟨⟨active, given⟩, above⟩ below
    exact quiet ⟨active, given, above, by omega⟩

/-- A sector taken that crosses the low mark sets the flag and offers EXTENT_LOW. -/
theorem Work.takeSector_crosses {w : Work} {i : StreamNo} {e : Extent} {others : List Extent}
    (extents : (w.stream i).extents = e :: others) (within : (w.stream i).offset < e.count)
    (crosses : (w.stream i).CrossesLowMark) :
    w.takeSector i = (w.updStream i fun st => { st.advanceCursor with lowGiven := true }).offer
      (.extentLow i (w.stream i).advanceCursor.remaining (w.stream i).cfg.lowMark
        (w.stream i).advanceCursor.extents.length) := by
  have fall := Stream.remaining_advanceCursor extents within
  obtain ⟨active, given, above, below⟩ := crosses
  unfold Work.takeSector
  dsimp only
  rw [if_pos]
  · rfl
  · simp only [Bool.and_eq_true, Bool.not_eq_true', decide_eq_true_eq]
    exact ⟨⟨⟨active, given⟩, above⟩, by omega⟩

/-- The move of the cursor, by whether its head extent is used up (R41 (2), (3)). -/
theorem Stream.advanceCursor_eq {st : Stream} {e : Extent} {others : List Extent}
    (extents : st.extents = e :: others) (within : st.offset < e.count) : st.advanceCursor =
      { st with
        extents := if st.offset + 1 = e.count then others else e :: others
        offset := if st.offset + 1 = e.count then 0 else st.offset + 1 } := by
  rw [Stream.advanceCursor_cons extents]
  by_cases last : st.offset + 1 = e.count
  · rw [if_pos (by omega), if_pos last, if_pos last]
  · rw [if_neg (by omega), if_neg last, if_neg last, ← extents]

/-- Settles O59: the cursor's move, with the low-mark test on either side. -/
theorem takingASectorTestsTheLowMark : Obligations.TakingASectorTestsTheLowMark := by
  unfold Obligations.TakingASectorTestsTheLowMark
  intro s i e others extents within st used moved crosses
  have moves : st.advanceCursor = moved := by
    rw [Stream.advanceCursor_eq extents within]
    simp only [moved, used, decide_eq_true_eq, eq_comm (a := e.count)]
    rfl
  refine ⟨moves ▸ Stream.remaining_advanceCursor extents within, fun quiet => ?_, fun cross => ?_⟩
  · rw [Work.takeSector_quiet (w := s.work) extents within quiet, ← moves]
    rfl
  · intro notice after
    rw [Work.takeSector_crosses (w := s.work) extents within cross]
    have given : ({ st.advanceCursor with lowGiven := true } : Stream) =
        { moved with lowGiven := true } := by rw [moves]
    have figures : Notice.extentLow i st.advanceCursor.remaining st.cfg.lowMark
        st.advanceCursor.extents.length = notice := by rw [moves]
    have start : (s.work.updStream i fun st => { st.advanceCursor with lowGiven := true }) =
        (s.withStream i { moved with lowGiven := true }).work := by rw [← given]; rfl
    rw [start]
    have offered := (s.withStream i { moved with lowGiven := true }).work.offer_eq notice
    rcases offered with ⟨waiting, -⟩ | ⟨-, now | later⟩
    · cases waiting
    · exact .inl ((congrArg _ figures).trans now)
    · exact .inr ((congrArg _ figures).trans later)

/-! ### The choice (Table 7.6) -/

/-- The entry that comes soonest: before every older one, and not after any younger one (R115). -/
theorem Port.soonest_split (pt : Port) {l : List Entry} (some : l ≠ []) :
    ∃ before e after, l = before ++ e :: after ∧ pt.soonest l = .some e ∧
      (∀ f ∈ before, pt.distance e.sector < pt.distance f.sector) ∧
      ∀ f ∈ after, pt.distance e.sector ≤ pt.distance f.sector := by
  induction l with
  | nil => exact absurd rfl some
  | cons x l ih =>
    rcases l with _ | ⟨y, l⟩
    · exact ⟨[], x, [], rfl, rfl, nofun, nofun⟩
    · obtain ⟨before, e, after, split, soonest, first, last⟩ := ih nofun
      rw [Port.soonest, soonest]
      by_cases sooner : pt.distance e.sector < pt.distance x.sector
      · refine ⟨x :: before, e, after, by rw [split]; rfl, if_pos sooner, fun f hf => ?_, last⟩
        rcases List.mem_cons.1 hf with rfl | hf
        · exact sooner
        · exact first f hf
      · refine ⟨[], x, y :: l, rfl, if_neg sooner, nofun, fun f hf => ?_⟩
        have least : pt.distance x.sector ≤ pt.distance e.sector := Nat.le_of_not_lt sooner
        rw [split] at hf
        rcases List.mem_append.1 hf with hf | hf
        · exact least.trans (Nat.le_of_lt (first f hf))
        · rcases List.mem_cons.1 hf with rfl | hf
          · exact least
          · exact least.trans (last f hf)

/-- The soonest of the entries that a test admits, in its place among all of them. -/
theorem Port.soonest_filter_split (pt : Port) (p : Entry → Bool) {l : List Entry}
    (some : ∃ e ∈ l, p e = true) :
    ∃ before e after, l = before ++ e :: after ∧ p e = true ∧ pt.soonest (l.filter p) = .some e ∧
      (∀ f ∈ before, p f = true → pt.distance e.sector < pt.distance f.sector) ∧
      ∀ f ∈ after, p f = true → pt.distance e.sector ≤ pt.distance f.sector := by
  obtain ⟨x, member, admitted⟩ := some
  obtain ⟨before, e, after, split, soonest, first, last⟩ := pt.soonest_split (l := l.filter p)
    (List.ne_nil_of_mem (List.mem_filter.2 ⟨member, admitted⟩))
  obtain ⟨l1, l2, rfl, front, back⟩ := List.filter_eq_append_iff.1 split
  obtain ⟨l3, l4, rfl, skipped, test, rest⟩ := List.filter_eq_cons_iff.1 back
  refine ⟨l1 ++ l3, e, l4, by simp, test, soonest, fun f hf admitted => ?_, fun f hf admitted => ?_⟩
  · rcases List.mem_append.1 hf with hf | hf
    · exact first f (front ▸ List.mem_filter.2 ⟨hf, admitted⟩)
    · exact absurd admitted (skipped f hf)
  · exact last f (rest ▸ List.mem_filter.2 ⟨hf, admitted⟩)

/-- The choice with entries QUEUED and no recovery entry on another cylinder goes by age. -/
theorem Port.choice_by_age {pt : Port} (queued : pt.queued ≠ [])
    (visited : ∀ r, pt.recoveryEntry = some r → pt.curCyl = some r.cyl) :
    pt.choice = pt.chooseByAge := by
  unfold Port.choice
  split
  · exact absurd ‹_› queued
  · exact if_neg (not_not.2 (visited _ ‹_›))
  · rfl

/-- What the port does on a choice (Table 7.6). -/
def Port.follow (pt : Port) : Choice → Port
  | .idle => { pt with state := .idle, chosen := none }
  | .position cyl => pt.positionTo cyl
  | .serve e => { pt with state := .waitSector, chosen := some e.serial }

theorem Port.choose_eq_follow (pt : Port) : pt.choose = pt.follow pt.choice := rfl

theorem Port.choose_of_choice {pt : Port} {c : Choice} (h : pt.choice = c) :
    pt.choose = pt.follow c := by
  rw [Port.choose_eq_follow, h]

/-- With nothing QUEUED the port is IDLE (R114). -/
theorem Port.choose_idle {pt : Port} (none : pt.queued = []) :
    pt.choose = { pt with state := .idle, chosen := .none } := by
  refine Port.choose_of_choice (c := .idle) ?_
  unfold Port.choice
  rw [none]

/-- The distance from the last mark, counted round the track (R115). -/
theorem Port.distance_mark {pt : Port} {g : Geometry} {sector m : Nat}
    (geometry : pt.geometry = some g) (_ : sector < g.sectors) (mark : pt.lastMark = some m)
    (markBelow : m < g.sectors) :
    (pt.distance sector : Int) = ((sector : Int) - m - 1) % g.sectors := by
  have sectors : pt.sectorsPerTrack = g.sectors := by simp only [Port.sectorsPerTrack, geometry]
  simp only [Port.distance, sectors, mark, Option.getD_some]
  rw [Int.natCast_emod, Int.ofNat_sub (by omega), ← Int.add_emod_right (sector - m - 1 : Int)]
  congr 1
  push_cast
  omega

/-- With no last mark the distance is the sector's own number. -/
theorem Port.distance_unmarked {pt : Port} {g : Geometry} {sector : Nat}
    (geometry : pt.geometry = some g) (below : sector < g.sectors) (mark : pt.lastMark = none) :
    pt.distance sector = sector := by
  have sectors : pt.sectorsPerTrack = g.sectors := by simp only [Port.sectorsPerTrack, geometry]
  have whole : sector + g.sectors - (g.sectors - 1 + 1) = sector := by omega
  simp only [Port.distance, sectors, mark, Option.getD_none, whole, Nat.mod_eq_of_lt below]

/-- Settles O45: the rows of Table 7.6 in their order, and the distance they go by. -/
theorem choiceFollowsItsTable : Obligations.ChoiceFollowsItsTable := by
  unfold Obligations.ChoiceFollowsItsTable
  refine ⟨?_, fun pt g sector geometry below => ⟨fun m mark markBelow =>
    Port.distance_mark geometry below mark markBelow, Port.distance_unmarked geometry below⟩⟩
  intro pt goesTo
  refine ⟨Port.choose_idle, fun oldest rest queued => ⟨fun r recovery off => ?_, fun visited => ?_⟩⟩
  · refine Port.choose_of_choice (c := .position r.cyl) ?_
    unfold Port.choice
    rw [queued, recovery]
    exact if_pos off
  have some : pt.queued ≠ [] := by rw [queued]; nofun
  have age := Port.choice_by_age some visited
  refine ⟨fun off passed => ?_, fun young => ⟨fun nobody => ?_, fun somebody => ?_⟩⟩
  · refine Port.choose_of_choice (c := .position oldest.cyl) (age.trans ?_)
    unfold Port.chooseByAge
    rw [queued]
    exact if_pos ⟨off, passed⟩
  all_goals
    have notOld : ¬ (pt.curCyl ≠ .some oldest.cyl ∧ 8 ≤ oldest.passed) := fun old =>
      young.elim old.1 fun few => absurd old.2 (by omega)
  · refine Port.choose_of_choice (c := .position oldest.cyl) (age.trans ?_)
    have empty : (pt.queued.filter fun e => pt.curCyl == .some e.cyl) = [] :=
      List.filter_eq_nil_iff.2 fun e he => by simpa using nobody e he
    unfold Port.chooseByAge
    rw [queued] at empty ⊢
    dsimp only
    rw [if_neg notOld, empty]
    rfl
  · obtain ⟨before, e, after, split, here, soonest, first, last⟩ :=
      pt.soonest_filter_split (fun e => pt.curCyl == .some e.cyl) (l := pt.queued)
        (by simpa using somebody)
    refine ⟨before, e, after, split, by simpa using here, fun f hf on => first f hf (by simpa using on),
      fun f hf on => last f hf (by simpa using on),
      Port.choose_of_choice (c := .serve e) (age.trans ?_)⟩
    unfold Port.chooseByAge
    rw [queued] at soonest ⊢
    dsimp only
    rw [if_neg notOld, soonest]

/-! ### Reports, results and the placing of entries (R79, R121, R127) -/

/-- No stream waits for room at a port. -/
def Work.Unawaited (w : Work) (p : PortNo) : Prop := ∀ i, (w.stream i).waitedPort ≠ some p

theorem Work.Unawaited.report {w : Work} {p : PortNo} (h : w.Unawaited p) : w.report p = w := by
  have none : w.waiters p = [] :=
    List.filter_eq_nil_iff.2 fun i _ => by simpa using h i
  rw [Work.report, none]
  rfl

theorem Work.foldl_post (w : Work) (l : List Event) :
    l.foldl Work.post w = { w with agenda := w.agenda ++ l } := by
  induction l generalizing w with
  | nil => rw [List.append_nil]; rfl
  | cons e l ih =>
    rw [List.foldl_cons, ih]
    simp only [Work.post, List.append_assoc, List.singleton_append]

/-- Results are sent in their order; where no stream waits for the port nothing is reported. -/
theorem Work.Unawaited.deliver {w : Work} {p : PortNo} (h : w.Unawaited p) (l : List Event) :
    w.deliver p l = { w with agenda := w.agenda ++ l } := by
  rw [Work.deliver, h.report, Work.foldl_post]

/-- With nobody on the wait list a port that has filled up moves no waiting read. -/
theorem Work.portFilled_nobody {w : Work} (p : PortNo) (nobody : w.pool.waitList = []) :
    w.portFilled p = w := by
  have none : (streamNos.filter fun i => w.pool.waitList.contains (i, .read) &&
      ((w.stream i).nextSector.map (·.1) == some p)) = [] :=
    List.filter_eq_nil_iff.2 fun i _ => by simp [nobody]
  rw [Work.portFilled, none]
  rfl

/-- The work in hand with a port's record replaced and one more entry placed. -/
def Work.placed (w : Work) (p : PortNo) (pt : Port) : Work :=
  { w with ports := w.ports.set p pt, serial := w.serial + 1 }

theorem Work.placeEntry_offline {w : Work} {p : PortNo} (e : Entry) (quiet : w.Unawaited p)
    (offline : (w.port p).state = .offline) : w.placeEntry p e = { w with
      agenda := w.agenda ++ [.result e { result := .offline }], serial := w.serial + 1 } :=
  (if_pos offline).trans
    (Work.Unawaited.deliver (w := { w with serial := w.serial + 1 }) quiet _)

/-- An entry placed on an attached port is its arrival, where the queue keeps room or nobody waits. -/
theorem Work.placeEntry_attached {w : Work} {p : PortNo} (e : Entry)
    (attached : (w.port p).state ≠ .offline)
    (room : w.pool.waitList = [] ∨ (w.port p).queue.length + 1 < 12) :
    w.placeEntry p e = w.placed p ((w.port p).arrival e) := by
  refine (if_neg attached).trans ?_
  by_cases h : (((w.placed p ((w.port p).arrival e)).port p).hasRoom) = true
  · exact if_pos h
  · refine (if_neg h).trans (Work.portFilled_nobody p ?_)
    refine room.resolve_right fun below => h ?_
    have queue : ((w.placed p ((w.port p).arrival e)).port p).queue = (w.port p).queue ++ [e] := by
      rw [show (w.placed p ((w.port p).arrival e)).port p = (w.port p).arrival e from
        Vector.getElem_set_self _, Port.arrival_queue]
    rw [Port.hasRoom, queue, decide_eq_true_eq, List.length_append]
    exact below

theorem Port.compare_chosen {pt : Port} {e c : Entry} (chosen : pt.chosenEntry = some c) :
    pt.compare e =
      if pt.curCyl = some e.cyl ∧ pt.distance e.sector < pt.distance c.sector then
        { pt with chosen := some e.serial }
      else pt := by
  simp only [Port.compare, chosen]

/-- The arrival at a port in WAIT_SECTOR (R115). -/
theorem Port.arrival_waitSector {pt : Port} {e c : Entry} (state : pt.state = .waitSector)
    (chosen : ({ pt with queue := pt.queue ++ [e] } : Port).chosenEntry = some c) :
    pt.arrival e =
      let queued : Port := { pt with queue := pt.queue ++ [e] }
      if pt.curCyl = some e.cyl ∧ queued.distance e.sector < queued.distance c.sector then
        { queued with chosen := some e.serial }
      else queued := by
  have compares : pt.arrival e = Port.compare { pt with queue := pt.queue ++ [e] } e := by
    simp only [Port.arrival, state]
  rw [compares, Port.compare_chosen chosen]

/-- The arrival at a port that is busy with its heads or the engine (R127 (4)). -/
theorem Port.arrival_waits {pt : Port} (e : Entry)
    (state : pt.state = .positioning ∨ pt.state = .restoring ∨ pt.state = .active) :
    pt.arrival e = { pt with queue := pt.queue ++ [e] } := by
  rcases state with state | state | state <;> simp only [Port.arrival, state]

theorem Port.arrival_idle {pt : Port} (e : Entry) (state : pt.state = .idle) :
    pt.arrival e = Port.choose { pt with queue := pt.queue ++ [e] } := by
  simp only [Port.arrival, state]

/-- Settles O44: the arrival in each port state. -/
theorem arrivalsAreQueued : Obligations.ArrivalsAreQueued := by
  unfold Obligations.ArrivalsAreQueued
  intro w p e _ nobody quiet pt queued placed
  have attached (h : pt.state ≠ .offline) := Work.placeEntry_attached e h (.inl nobody)
  refine ⟨Work.placeEntry_offline e quiet, fun idle => ?_, fun busy => ?_, fun c waits chosen => ?_⟩
  · rw [attached (by rw [idle]; nofun), Port.arrival_idle e idle]
    rfl
  · rw [attached (by rcases busy with h | h | h <;> rw [h] <;> nofun), Port.arrival_waits e busy]
    rfl
  · rw [attached (by rw [waits]; nofun), Port.arrival_waitSector waits chosen]
    rfl

end Sys2Proof.Machine

/-! PROOFS. The arguments of requests: the payloads of section 10.3 are read back as what they were
written from (R149, R157). -/

namespace Sys2Proof.Machine

/-! ### Numbers (R157) -/

theorem foldl_beBytes (k n acc : Nat) :
    (beBytes k n).foldl (fun a b => 256 * a + b.toNat) acc = 256 ^ k * acc + n % 256 ^ k := by
  induction k generalizing acc with
  | zero => simp [beBytes, Nat.mod_one]
  | succ k ih =>
    have byte : (BitVec.ofNat 8 (n / 256 ^ k)).toNat = n / 256 ^ k % 256 := BitVec.toNat_ofNat _ _
    have split : n % 256 ^ (k + 1) = n % 256 ^ k + 256 ^ k * (n / 256 ^ k % 256) := by
      rw [pow_succ, Nat.mod_mul]
    rw [beBytes, List.foldl_cons, ih, byte, split, pow_succ]
    ring

/-- A number that fits its field is read back (R157). -/
theorem beNat_beBytes {k n : Nat} (fits : n < 256 ^ k) : beNat (beBytes k n) = n := by
  rw [beNat, foldl_beBytes, Nat.mul_zero, Nat.zero_add, Nat.mod_eq_of_lt fits]

theorem beNat_beBytes_half (h : Half) : beNat (beBytes 2 h.toNat) = h.toNat :=
  beNat_beBytes h.isLt

theorem beNat_beBytes_seq (s : Seq) : beNat (beBytes 4 s.toNat) = s.toNat :=
  beNat_beBytes s.isLt

theorem ofNat_beNat_half (h : Half) : BitVec.ofNat 16 (beNat (beBytes 2 h.toNat)) = h := by
  rw [beNat_beBytes_half, BitVec.ofNat_toNat, BitVec.setWidth_eq]

theorem ofNat_beNat_seq (s : Seq) : BitVec.ofNat 32 (beNat (beBytes 4 s.toNat)) = s := by
  rw [beNat_beBytes_seq, BitVec.ofNat_toNat, BitVec.setWidth_eq]

theorem toNat_ofNat_byte {n : Nat} (fits : n < 256) : (BitVec.ofNat 8 n).toNat = n :=
  (BitVec.toNat_ofNat n 8).trans (Nat.mod_eq_of_lt fits)

/-- The one byte of a number that fits. -/
theorem getD_beBytes_one {n : Nat} (fits : n < 256) : ((beBytes 1 n).getD 0 0).toNat = n := by
  rw [beBytes_one]
  exact toNat_ofNat_byte fits

/-! ### Codes -/

theorem parseSlot_ofNat (n : SlotNo) : parseSlot (BitVec.ofNat 8 n.val) = some n := by
  have value : (BitVec.ofNat 8 n.val).toNat = n.val := toNat_ofNat_byte (by omega)
  simp [parseSlot, value]

theorem parseDirection_code (d : Direction) : parseDirection d.code = some d := by cases d <;> rfl

theorem parsePolicy_code (p : Policy) : parsePolicy p.code = some p := by cases p <;> rfl

theorem parseSlotDirection_code (d : SlotDirection) : parseSlotDirection d.code = some d := by
  cases d <;> rfl

theorem parseBool_boolByte (b : Bool) : parseBool (boolByte b) = some b := by cases b <;> rfl

/-! ### Payloads -/

theorem parseFrameSet_bytes (role : Role) (n : SlotCount) :
    parseFrameSet [role.code, BitVec.ofNat 8 n.toNat] = some (role, n) := by
  cases role <;> cases n <;> rfl

theorem parseSlotSet_bytes (n : SlotNo) (d : SlotDirection) (i : StreamNo) :
    parseSlotSet [BitVec.ofNat 8 n.val, d.code, streamByte i] = some (n, d, i) := by
  simp [parseSlotSet, parseSlot_ofNat, parseSlotDirection_code]

theorem parseSlotClear_bytes (n : SlotNo) (d : SlotDirection) :
    parseSlotClear [BitVec.ofNat 8 n.val, d.code] = some (n, d) := by
  simp [parseSlotClear, parseSlot_ofNat, parseSlotDirection_code]

theorem parseStart_startBytes (i : StreamNo) (take : Half) (seq : Seq) :
    parseStart (startBytes i take seq) = some (i, take, seq) := by
  have takeBytes : ((startBytes i take seq).drop 1).take 2 = beBytes 2 take.toNat := rfl
  have seqBytes : ((startBytes i take seq).drop 3).take 4 = beBytes 4 seq.toNat := rfl
  have stream : (startBytes i take seq).getD 0 0 = streamByte i := rfl
  simp only [parseStart, takeBytes, seqBytes, stream, parseStream_streamByte,
    Option.bind_eq_bind, Option.bind_some, ofNat_beNat_half, ofNat_beNat_seq]

theorem parseExtentAdd_bytes {e : Extent} (inRange : e.InRange) (i : StreamNo) :
    parseExtentAdd (e.bytes i) = some (i, e) := by
  obtain ⟨start, one, count⟩ := inRange
  have startBytes : ((e.bytes i).drop 2).take 4 = beBytes 4 e.start := rfl
  have countBytes : ((e.bytes i).drop 6).take 2 = beBytes 2 e.count := rfl
  have stream : (e.bytes i).getD 0 0 = streamByte i := rfl
  have port : (e.bytes i).getD 1 0 = portByte e.port := rfl
  have override : (e.bytes i).getD 8 0 = boolByte e.override := rfl
  have startValue : beNat (beBytes 4 e.start) = e.start := beNat_beBytes start
  have countValue : beNat (beBytes 2 e.count) = e.count := beNat_beBytes (by omega)
  simp only [parseExtentAdd, startBytes, countBytes, stream, port, override, startValue, countValue,
    parseStream_streamByte, parsePort_portByte, parseBool_boolByte, Option.bind_eq_bind,
    Option.bind_some, if_pos one]

theorem parseFormat_bytes {a : FormatArgs} (cyl : a.cyl ≤ 4095) (head : a.head ≤ 15) :
    parseFormat a.bytes = some a := by
  have cylBytes : (a.bytes.drop 1).take 2 = beBytes 2 a.cyl := rfl
  have port : a.bytes.getD 0 0 = portByte a.port := rfl
  have headByte : (a.bytes.getD 3 0).toNat = a.head := getD_beBytes_one (by omega)
  have lock : a.bytes.getD 4 0 = boolByte a.lock := rfl
  have cylValue : beNat (beBytes 2 a.cyl) = a.cyl := beNat_beBytes (by omega)
  simp only [parseFormat, cylBytes, port, headByte, lock, cylValue, parsePort_portByte,
    parseBool_boolByte, Option.bind_eq_bind, Option.bind_some, if_pos (And.intro cyl head)]

theorem parseSectorRead_placeBytes (p : PortNo) {lba : Nat} (fits : lba < 2 ^ 32) :
    parseSectorRead (placeBytes p lba) = some (p, lba) := by
  have lbaBytes : ((placeBytes p lba).drop 1).take 4 = beBytes 4 lba := rfl
  have port : (placeBytes p lba).getD 0 0 = portByte p := rfl
  have lbaValue : beNat (beBytes 4 lba) = lba := beNat_beBytes fits
  simp only [parseSectorRead, lbaBytes, port, lbaValue, parsePort_portByte, Option.bind_eq_bind,
    Option.bind_some]

theorem parseSectorWrite_bytes {a : WriteArgs} (inRange : a.InRange) :
    parseSectorWrite a.bytes = some a := by
  obtain ⟨fits, tagged, fill, -⟩ := inRange
  have port : a.bytes.getD 0 0 = portByte a.port := rfl
  have lbaBytes : (a.bytes.drop 1).take 4 = beBytes 4 a.lba := rfl
  have tagBytes : (a.bytes.drop 5).take 2 = beBytes 2 a.trailer.recTag.toNat := rfl
  have takeBytes : (a.bytes.drop 7).take 2 = beBytes 2 a.trailer.take.toNat := rfl
  have seqBytes : (a.bytes.drop 9).take 4 = beBytes 4 a.trailer.seq.toNat := rfl
  have fillBytes : (a.bytes.drop 13).take 2 = beBytes 2 a.trailer.fill := rfl
  have override : a.bytes.getD 15 0 = boolByte a.override := rfl
  have payload : a.bytes.drop 16 = a.payload := rfl
  have lbaValue : beNat (beBytes 4 a.lba) = a.lba := beNat_beBytes fits
  have fillValue : beNat (beBytes 2 a.trailer.fill) = a.trailer.fill := beNat_beBytes (by omega)
  have one : 1 ≤ a.trailer.recTag.toNat :=
    Nat.one_le_iff_ne_zero.2 fun zero => tagged (BitVec.eq_of_toNat_eq zero)
  simp only [parseSectorWrite, port, lbaBytes, tagBytes, takeBytes, seqBytes, fillBytes, override,
    payload, lbaValue, fillValue, ofNat_beNat_half, ofNat_beNat_seq, parsePort_portByte,
    parseBool_boolByte, Option.bind_eq_bind, Option.bind_some]
  rw [beNat_beBytes_half, if_pos ⟨one, fill⟩]

theorem parseBind_bytes {c : Settings} (inRange : c.InRange) (i : StreamNo) :
    parseBind (c.bytes i) = some (i, c) := by
  obtain ⟨tagged, two, quota, oneReserve, reserve, oneDepth, depth, low, onePrime, prime⟩ := inRange
  have stream : (c.bytes i).getD 0 0 = streamByte i := rfl
  have direction : (c.bytes i).getD 1 0 = c.direction.code := rfl
  have tagBytes : ((c.bytes i).drop 2).take 2 = beBytes 2 c.recTag.toNat := rfl
  have quotaByte : ((c.bytes i).getD 4 0).toNat = c.quota := getD_beBytes_one (by omega)
  have reserveByte : ((c.bytes i).getD 5 0).toNat = c.reserve := getD_beBytes_one (by omega)
  have depthByte : ((c.bytes i).getD 6 0).toNat = c.depth := getD_beBytes_one (by omega)
  have policy : (c.bytes i).getD 7 0 = c.policy.code := rfl
  have idle : (c.bytes i).getD 8 0 = c.idleByte := rfl
  have lowBytes : ((c.bytes i).drop 9).take 2 = beBytes 2 c.lowMark := rfl
  have primeByte : ((c.bytes i).getD 11 0).toNat = c.primeLevel := getD_beBytes_one (by omega)
  have lowValue : beNat (beBytes 2 c.lowMark) = c.lowMark := beNat_beBytes (by omega)
  have one : 1 ≤ c.recTag.toNat :=
    Nat.one_le_iff_ne_zero.2 fun zero => tagged (BitVec.eq_of_toNat_eq zero)
  simp only [parseBind, stream, direction, tagBytes, quotaByte, reserveByte, depthByte, policy, idle,
    lowBytes, primeByte, lowValue, ofNat_beNat_half, parseStream_streamByte, parseDirection_code,
    parsePolicy_code, Option.bind_eq_bind, Option.bind_some]
  rw [beNat_beBytes_half, if_pos
    ⟨one, two, quota, oneReserve, reserve, oneDepth, depth, onePrime, prime⟩]

end Sys2Proof.Machine

/-! PROOFS. Requests that are answered, or taken, with nothing sent on: the frame port's, the
binding and freeing of streams, the refusals of stream requests, EXTENT_CLEAR and PORT_ATTACH. -/

namespace Sys2Proof.Machine

theorem firstFailing_cons (b : Bool) (r : Result) (l : List (Bool × Result)) :
    firstFailing ((b, r) :: l) = if b = true then some r else firstFailing l := rfl

theorem firstFailing_nil : firstFailing [] = none := rfl

/-- A request refused with nothing changed: the checks of its owner answer it. -/
theorem exec_refused {s : State} {tag code : Byte} (takes : s.Takes tag) {serve : Work → Work}
    {r : Result} (answers : serve (s.inService tag code).work =
      (s.inService tag code).work.answer tag r []) :
    act (·.takeRequest tag code serve) s = .next (s.replied tag code r []) :=
  act_answered takes rfl answers

/-! ### FRAME_SET (R62, R63) -/

theorem Work.anyActive_iff (w : Work) :
    w.anyActive = true ↔ ∃ i : StreamNo, (w.stream i).isActive = true := by
  simp [Work.anyActive, mem_streamNos]

theorem FramePort.mappedBeyond_iff (f : FramePort) (n : Nat) : f.mappedBeyond n = true ↔
    ∃ k : SlotNo, n ≤ k.val ∧ (f.rxMap[k] ≠ none ∨ f.txMap[k] ≠ none) := by
  simp [FramePort.mappedBeyond, Option.isSome_iff_ne_none]

/-- FRAME_SET in its slot, by the two checks of R62. -/
theorem serveFrameSet_bytes (tag : Byte) (role : Role) (n : SlotCount) (w : Work) :
    serveFrameSet tag [role.code, BitVec.ofNat 8 n.toNat] w =
      if (w.anyActive || w.frame.mappedBeyond n.toNat) = true then w.answer tag .state []
      else
        (w.updFrame fun f =>
          { f.emptyBuffers with role := role, slotCount := n, state := role.start }).answer tag .ok
          [role.code, BitVec.ofNat 8 n.toNat, role.start.code] :=
  Work.checked_of_parse rfl (parseFrameSet_bytes role n)

/-- Settles O20: the two checks, and the frame port of the role. -/
theorem frameSetStartsTheRole : Obligations.FrameSetStartsTheRole := by
  unfold Obligations.FrameSetStartsTheRole
  intro s tag role n takes payload busy start
  have refuses : ((s.inService tag 0x10).work.anyActive ||
      (s.inService tag 0x10).work.frame.mappedBeyond n.toNat) = true ↔ busy := by
    rw [Bool.or_eq_true, Work.anyActive_iff, FramePort.mappedBeyond_iff]
    rfl
  have starts : start = role.start := by cases role <;> rfl
  rw [exec_frameSet, execFrameSet]
  refine ⟨fun h => exec_refused takes ?_, fun h => ⟨_, act_answered (t := { s with
    frame := { s.frame.emptyBuffers with role := role, slotCount := n, state := role.start } })
    takes rfl ?_, by rw [starts]; rfl⟩⟩
  · exact (serveFrameSet_bytes tag role n _).trans (if_pos (refuses.2 h))
  · exact (serveFrameSet_bytes tag role n _).trans (if_neg (mt refuses.1 h))

/-! ### SLOT_SET and SLOT_CLEAR (R66, R67) -/

/-- The checks of Table 4.1, in their order. -/
theorem Work.slotSetRefusal_eq (w : Work) (n : SlotNo) (d : SlotDirection) (i : StreamNo) :
    w.slotSetRefusal n d i = firstFailing [
      (decide (w.frame.slotCount.toNat ≤ n.val), .range),
      ((w.stream i).state == .free, .state),
      ((w.stream i).settings.map (·.direction) != some d.serves, .badArgument),
      ((w.stream i).isActive, .state),
      ((w.frame.slot d n).isSome && w.frame.slot d n != some i, .slotTaken),
      ((w.frame.slot d n).isNone && decide (8 ≤ w.width i), .listFull)] := by
  unfold Work.slotSetRefusal
  simp only [firstFailing_cons, firstFailing_nil, decide_eq_true_eq, beq_iff_eq, bne_iff_ne]
  cases w.frame.slot d n with
  | none => simp
  | some j => simp only [Option.isSome_some, Bool.true_and, bne_iff_ne, ne_eq, Option.some.injEq,
      Option.isNone_some, Bool.false_and, Bool.false_eq_true, if_false, ite_not]

theorem serveSlotSet_bytes (tag : Byte) (n : SlotNo) (d : SlotDirection) (i : StreamNo) (w : Work) :
    serveSlotSet tag [BitVec.ofNat 8 n.val, d.code, streamByte i] w =
      match w.slotSetRefusal n d i with
      | some r => w.answer tag r []
      | none =>
        (w.updFrame (·.setSlot d n (some i))).answer tag .ok
          ((w.updFrame (·.setSlot d n (some i))).slotReply n d (some i)) :=
  Work.checked_of_parse rfl (parseSlotSet_bytes n d i)

/-- The two checks of SLOT_CLEAR, in their order (R67). -/
def Work.slotClearChecks (w : Work) (n : SlotNo) (d : SlotDirection) : List (Bool × Result) :=
  [(decide (w.frame.slotCount.toNat ≤ n.val), .range),
    ((w.frame.slot d n).any fun i => (w.stream i).isActive, .state)]

theorem serveSlotClear_bytes (tag : Byte) (n : SlotNo) (d : SlotDirection) (w : Work) :
    serveSlotClear tag [BitVec.ofNat 8 n.val, d.code] w =
      match firstFailing (w.slotClearChecks n d) with
      | some r => w.answer tag r []
      | none =>
        (w.updFrame (·.setSlot d n none)).answer tag .ok
          ((w.updFrame (·.setSlot d n none)).slotReply n d (w.frame.slot d n)) := by
  refine (Work.checked_of_parse rfl (parseSlotClear_bytes n d)).trans ?_
  simp only [Work.slotClearChecks, firstFailing_cons, firstFailing_nil, decide_eq_true_eq]
  split_ifs <;> rfl

/-- The width of a stream after its slot is set: one higher unless the entry named it (R66). -/
theorem Work.width_setSlot {w : Work} {n : SlotNo} {d : SlotDirection} {i : StreamNo}
    (accepted : w.slotSetRefusal n d i = none) :
    (w.updFrame (·.setSlot d n (some i))).width i =
      if w.frame.slot d n = some i then w.width i else w.width i + 1 := by
  obtain ⟨-, ⟨c, settings, serves⟩, entry⟩ := Work.slotSetRefusal_none accepted
  rw [Work.width_of_settings (w := w.updFrame _) settings, Work.width_of_settings settings, serves,
    FramePort.slot_eq, Work.frame_updFrame, FramePort.map_setSlot, if_pos rfl]
  split
  next named => rw [set_slot_named named]
  next other => exact length_slotsOf_set_new other

/-- The frame port with an entry written, by the direction of its map. -/
theorem FramePort.setSlot_eq (f : FramePort) (d : SlotDirection) (n : SlotNo)
    (v : Option StreamNo) : f.setSlot d n v = match d with
      | .receive => { f with rxMap := f.rxMap.set n v }
      | .transmit => { f with txMap := f.txMap.set n v } := rfl

theorem SlotDirection.serves_eq (d : SlotDirection) :
    d.serves = match d with | .receive => .capture | .transmit => .replay := rfl

/-- Settles O21: the checks of Table 4.1 and of R67, and the maps and replies of what they let pass. -/
theorem slotRequestsMap : Obligations.SlotRequestsMap := by
  unfold Obligations.SlotRequestsMap
  refine ⟨?_, ?_⟩
  · intro s tag n d i takes payload st entry serves checks
    have refusal : (s.inService tag 0x11).work.slotSetRefusal n d i = firstFailing checks :=
      Work.slotSetRefusal_eq (s.inService tag 0x11).work n d i
    have served := serveSlotSet_bytes tag n d i (s.inService tag 0x11).work
    rw [exec_slotSet, execSlotSet]
    refine ⟨fun r fails => exec_refused takes ?_, ?_⟩
    · rw [refusal, fails] at served
      exact served
    · intro accepted width
      rw [refusal, accepted] at served
      have wide : ((s.inService tag 0x11).work.updFrame (·.setSlot d n (some i))).width i = width :=
        Work.width_setSlot (refusal.trans accepted)
      have reply : ((s.inService tag 0x11).work.updFrame (·.setSlot d n (some i))).slotReply n d
          (some i) = payload ++ [BitVec.ofNat 8 width] := by
        simp only [Work.slotReply, wide]
        rfl
      rw [reply] at served
      exact act_answered (t := { s with frame := s.frame.setSlot d n (some i) }) takes rfl served
  · intro s tag n d takes payload named checks
    have served := serveSlotClear_bytes tag n d (s.inService tag 0x12).work
    have clears : (s.inService tag 0x12).work.slotClearChecks n d = checks := rfl
    rw [exec_slotClear, execSlotClear]
    refine ⟨fun r fails => exec_refused takes ?_, ?_⟩
    · rw [clears, fails] at served
      exact served
    · intro accepted t last
      rw [clears, accepted] at served
      have reply : ((s.inService tag 0x12).work.updFrame (·.setSlot d n none)).slotReply n d named =
          payload ++ last := by
        simp only [Work.slotReply, last]
        cases named <;> rfl
      refine act_answered (t := t) takes rfl (served.trans ?_)
      rw [← reply]
      rfl

/-! ### STREAM_BIND and STREAM_UNBIND (R9, R10, R19) -/

/-- The stream table's checks, in their order (R9). -/
theorem Work.bindRefusal_eq (w : Work) (i : StreamNo) (c : Settings) :
    w.bindRefusal i c = firstFailing [
      ((w.stream i).state != .free, .state),
      (decide (480 < w.reserveSum + c.reserve), .quota),
      (decide (w.freeCount < w.reserveNeed + c.reserve), .quota)] := by
  simp only [Work.bindRefusal, firstFailing_cons, firstFailing_nil, decide_eq_true_eq, bne_iff_ne]

theorem serveStreamBind_bytes (tag : Byte) (i : StreamNo) {c : Settings} (inRange : c.InRange)
    (w : Work) : serveStreamBind tag (c.bytes i) w =
      match w.bindRefusal i c with
      | some r => w.answer tag r []
      | none => (w.updStream i fun _ => Stream.boundWith c).answer tag .ok [streamByte i] :=
  Work.checked_of_parse rfl (parseBind_bytes inRange i)

/-- Settles O27: the checks of R9, and the record of R10. -/
theorem streamBindBinds : Obligations.StreamBindBinds := by
  unfold Obligations.StreamBindBinds
  intro s tag i c takes inRange checks
  have served := serveStreamBind_bytes tag i inRange (s.inService tag 0x30).work
  have refusal : (s.inService tag 0x30).work.bindRefusal i c = firstFailing checks :=
    Work.bindRefusal_eq (s.inService tag 0x30).work i c
  rw [refusal] at served
  rw [exec_streamBind, execStreamBind]
  refine ⟨fun r fails => exec_refused takes ?_, fun accepted => ?_⟩
  · rw [fails] at served
    exact served
  · rw [accepted] at served
    exact act_answered (t := s.withStream i (Stream.boundWith c)) takes rfl served

theorem Stream.isIdle_iff (st : Stream) : st.isIdle = true ↔
    st.state = .bound ∨ st.state = .ended ∨ st.state = .faulted ∧ st.outstanding = 0 := by
  unfold Stream.isIdle
  cases st.state <;> simp

/-- With nobody on the wait list the pool signals nobody (R36). -/
theorem Work.signal_nobody {w : Work} (nobody : w.pool.waitList = []) : w.signal = w := by
  rw [Work.signal, nobody]
  rfl

theorem serveStreamUnbind_byte (tag : Byte) (i : StreamNo) (w : Work) :
    serveStreamUnbind tag [streamByte i] w =
      if (w.stream i).isIdle = true then
        (((w.updFrame fun f => { f with
            rxMap := clearStream f.rxMap i, txMap := clearStream f.txMap i }).updStream i
          fun _ => {}).signal).answer tag .ok [streamByte i]
      else w.answer tag .state [] :=
  Work.checked_of_parse rfl (parseStreamArg_streamByte i)

/-- Settles O28: a stream that is idle is freed, and its slots with it. -/
theorem streamUnbindFrees : Obligations.StreamUnbindFrees := by
  unfold Obligations.StreamUnbindFrees
  intro s tag i takes st idle
  have served := serveStreamUnbind_byte tag i (s.inService tag 0x31).work
  have isIdle : ((s.inService tag 0x31).work.stream i).isIdle = true ↔ idle := Stream.isIdle_iff st
  rw [exec_streamUnbind, execStreamUnbind]
  refine ⟨fun busy => exec_refused takes (served.trans (if_neg (mt isIdle.1 busy))), ?_⟩
  intro free nobody
  rw [if_pos (isIdle.2 free), Work.signal_nobody nobody] at served
  exact ⟨_, act_answered (t := { s.withStream i {} with frame := { s.frame with
    rxMap := clearStream s.frame.rxMap i, txMap := clearStream s.frame.txMap i } }) takes rfl served,
    rfl, getElem_clearStream _ i, getElem_clearStream _ i⟩

/-! ### Stream requests that are refused (R11, R13, R14) -/

theorem serveStreamStart_bytes (tag : Byte) (i : StreamNo) (take : Half) (seq : Seq) (w : Work) :
    serveStreamStart tag (startBytes i take seq) w =
      if w.startable i = true then w.startStream i take seq tag else w.answer tag .state [] :=
  Work.checked_of_parse rfl (parseStart_startBytes i take seq)

theorem serveStreamStop_byte (tag : Byte) (i : StreamNo) (w : Work) :
    serveStreamStop tag [streamByte i] w =
      if (w.stream i).stoppable = true then
        (w.updStream i fun st => { st with stopPart := some tag }).stopStream i
      else w.answer tag .state [] :=
  Work.checked_of_parse rfl (parseStreamArg_streamByte i)

theorem serveStreamAbort_byte (tag : Byte) (i : StreamNo) (w : Work) :
    serveStreamAbort tag [streamByte i] w =
      if ((w.stream i).isActive && (w.stream i).abortPart.isNone) = true then
        (w.updStream i fun st => { st with abortPart := some tag }).abortStream i
      else w.answer tag .state [] :=
  Work.checked_of_parse rfl (parseStreamArg_streamByte i)

theorem Work.startable_iff (w : Work) (i : StreamNo) : w.startable i = true ↔
    (w.stream i).isIdle = true ∧ 1 ≤ w.width i ∧
      ((w.stream i).cfg.direction = .capture ∨ (w.stream i).extents ≠ []) := by
  simp [Work.startable, and_assoc]

theorem Stream.stoppable_iff (st : Stream) : st.stoppable = true ↔
    st.stopPart = none ∧ st.abortPart = none ∧
      (st.cfg.direction = .capture ∧ (st.state = .running ∨ st.state = .hold) ∨
        st.cfg.direction = .replay ∧ (st.state = .priming ∨ st.state = .running)) := by
  unfold Stream.stoppable
  cases st.cfg.direction <;> simp [and_assoc]

/-- Settles O29: the negations of the three conditions of acceptance. -/
theorem streamRequestsRefused : Obligations.StreamRequestsRefused := by
  unfold Obligations.StreamRequestsRefused
  intro s tag i take seq takes st
  rw [exec_streamStart, exec_streamStop, exec_streamAbort]
  refine ⟨fun refused => ?_, fun refused => ?_, fun refused => ?_⟩
  · refine exec_refused takes ((serveStreamStart_bytes tag i take seq _).trans (if_neg ?_))
    rw [Work.startable_iff]
    rintro ⟨idle, wide, ready⟩
    have idle := (Stream.isIdle_iff st).1 idle
    rcases refused with ⟨notBound, notEnded, notFaulted⟩ | narrow | ⟨replay, empty⟩
    · exact idle.elim notBound (Or.rec notEnded notFaulted)
    · exact absurd (show 1 ≤ s.work.width i from wide) (by omega)
    · refine ready.elim (fun capture => ?_) fun some => some empty
      cases (show st.cfg.direction = .capture from capture).symm.trans replay
  · refine exec_refused takes ((serveStreamStop_byte tag i _).trans (if_neg ?_))
    rw [Stream.stoppable_iff]
    rintro ⟨noStop, noAbort, states⟩
    have states : st.cfg.direction = .capture ∧ (st.state = .running ∨ st.state = .hold) ∨
        st.cfg.direction = .replay ∧ (st.state = .priming ∨ st.state = .running) := states
    rcases refused with stop | aborts | ⟨capture, notRunning, notHold⟩ | ⟨replay, notPriming, notRunning⟩
    · exact stop noStop
    · exact aborts noAbort
    · simp [capture, notRunning, notHold] at states
    · simp [replay, notPriming, notRunning] at states
  · refine exec_refused takes ((serveStreamAbort_byte tag i _).trans (if_neg ?_))
    rw [Bool.and_eq_true, Option.isNone_iff_eq_none]
    rintro ⟨active, noAbort⟩
    rcases refused with still | aborts
    · exact absurd (show st.isActive = true from active) (by rw [still]; nofun)
    · exact aborts noAbort

/-! ### EXTENT_CLEAR and PORT_ATTACH (R53, R112) -/

theorem serveExtentClear_byte (tag : Byte) (i : StreamNo) (w : Work) :
    serveExtentClear tag [streamByte i] w =
      if (w.stream i).isIdle = true then
        (w.updStream i fun st => { st with extents := [], offset := 0 }).answer tag .ok
          (((w.updStream i fun st => { st with extents := [], offset := 0 }).stream i).extentReply i)
      else w.answer tag .state [] :=
  Work.checked_of_parse rfl (parseStreamArg_streamByte i)

/-- The reply for a list that is empty: 0 entries, and remaining 0. -/
theorem Stream.extentReply_empty {st : Stream} (empty : st.extents = []) (i : StreamNo) :
    st.extentReply i = [streamByte i, 0, 0, 0, 0, 0] := by
  simp [Stream.extentReply, Stream.remaining, empty, beBytes]

/-- Settles O37: the list of an idle stream is emptied. -/
theorem extentClearEmpties : Obligations.ExtentClearEmpties := by
  unfold Obligations.ExtentClearEmpties
  intro s tag i takes st idle
  have served := serveExtentClear_byte tag i (s.inService tag 0x41).work
  have isIdle : ((s.inService tag 0x41).work.stream i).isIdle = true ↔ idle := Stream.isIdle_iff st
  rw [exec_extentClear, execExtentClear]
  refine ⟨fun busy => exec_refused takes (served.trans (if_neg (mt isIdle.1 busy))), fun free => ?_⟩
  rw [if_pos (isIdle.2 free), Stream.extentReply_empty (by simp)] at served
  exact act_answered (t := s.withStream i { st with extents := [], offset := 0 }) takes rfl served

theorem servePortAttach_byte (tag : Byte) (p : PortNo) (w : Work) :
    servePortAttach tag [portByte p] w =
      if (w.port p).state = .absent ∧ (w.port p).detachPending = none then
        w.updPort p (·.attachRecord tag)
      else w.answer tag .state [] :=
  Work.checked_of_parse rfl (parsePortArg_portByte p)

/-- Settles O38: an ABSENT port with no detach pending sends IDENTIFY. -/
theorem portAttachIdentifies : Obligations.PortAttachIdentifies := by
  unfold Obligations.PortAttachIdentifies
  intro s tag p takes pt free
  have served := servePortAttach_byte tag p (s.inService tag 0x20).work
  rw [exec_portAttach, execPortAttach]
  refine ⟨fun absent => ?_, fun busy => exec_refused takes (served.trans (if_neg busy))⟩
  rw [act_takeRequest takes]
  exact act_next (served.trans (if_pos absent))

end Sys2Proof.Machine

/-! PROOFS. The frame port's sync and the frame end with no slot mapped (R59 to R61, R69, R72). -/

namespace Sys2Proof.Machine

/-! ### SEEKING (R59) -/

/-- SEEKING on a high on the first bit after the expected boundary: the run goes on. -/
theorem FrameState.sample_high_due {n : SlotCount} {run : Fin 4} {bits low : Nat} (counts : run ≠ 0)
    (due : bits + low = n.bits) : (FrameState.seeking run bits).sample n low true =
      if run = 3 then .locked false else .seeking (run + 1) 1 := by
  simp [FrameState.sample, FrameState.skipLow, FrameState.takeHigh, counts, due]

/-- A high on any other bit begins the first frame of a run. -/
theorem FrameState.sample_high_anew {n : SlotCount} {run : Fin 4} {bits low : Nat}
    (other : run = 0 ∨ bits + low ≠ n.bits) :
    (FrameState.seeking run bits).sample n low true = .seeking 1 1 := by
  by_cases zero : run = 0
  · simp [FrameState.sample, FrameState.skipLow, FrameState.takeHigh, zero]
  · have miss := other.resolve_left zero
    by_cases within : bits + low ≤ n.bits
    · simp [FrameState.sample, FrameState.skipLow, FrameState.takeHigh, zero, within, miss]
    · simp [FrameState.sample, FrameState.skipLow, FrameState.takeHigh, zero, within]

/-- A low within the frame is counted; beyond it, or with no run, there is none. -/
theorem FrameState.sample_low (n : SlotCount) (run : Fin 4) (bits low : Nat) :
    (FrameState.seeking run bits).sample n low false =
      if run ≠ 0 ∧ bits + low < n.bits then .seeking run (bits + low + 1) else .seeking 0 0 := by
  by_cases zero : run = 0
  · simp [FrameState.sample, FrameState.skipLow, zero]
  · have step : bits + (low + 1) ≤ n.bits ↔ bits + low < n.bits := by omega
    simp [FrameState.sample, FrameState.skipLow, zero, step, Nat.add_assoc]

/-- The step of FRAME_SYNC_SEEKING that does not lock. -/
theorem exec_frameSyncSeeking_goes {s : State} {run run' : Fin 4} {bits bits' low : Nat} {fsy : Bool}
    (high : s.resetLow = false) (state : s.frame.state = .seeking run bits)
    (next : (FrameState.seeking run bits).sample s.frame.slotCount low fsy = .seeking run' bits') :
    exec (.frameSyncSeeking low fsy) s =
      .next { s with frame := { s.frame with state := .seeking run' bits' } } := by
  rw [exec_frameSyncSeeking]
  refine actUnlessReset_next high ?_
  have seeking : s.work.frame.state = .seeking run bits := state
  have sampled : s.work.frame.state.sample s.work.frame.slotCount low fsy = .seeking run' bits' := by
    rw [seeking]
    exact next
  simp only [sampled, reduceCtorEq, if_false]
  rw [seeking]
  rfl

/-- The step of FRAME_SYNC_SEEKING that locks (R59, R61, R72). -/
theorem exec_frameSyncSeeking_locks {s : State} {run : Fin 4} {bits low : Nat}
    (high : s.resetLow = false) (state : s.frame.state = .seeking run bits)
    (next : (FrameState.seeking run bits).sample s.frame.slotCount low true = .locked false) :
    exec (.frameSyncSeeking low true) s =
      .next (State.notified { s with frame := { s.frame.emptyBuffers with state := .locked false } }
        (.frameChange true s.frame.slotCount .none)) := by
  rw [exec_frameSyncSeeking]
  refine actUnlessReset_next high ?_
  have seeking : s.work.frame.state = .seeking run bits := state
  have sampled : s.work.frame.state.sample s.work.frame.slotCount low true = .locked false := by
    rw [seeking]
    exact next
  simp only [sampled, if_true]
  rw [seeking]
  rfl

/-! ### LOCKED and frame boundaries (R58, R60, R69) -/

/-- Two commands whose own work comes to the same take the same step. -/
theorem act_congr {f g : Work → Work} {s t : State} (e : f s.work = g t.work) : act f s = act g t := by
  rw [act_eq, act_eq, e]

theorem State.with_frame_state_self {s : State} {st : FrameState} (state : s.frame.state = st) :
    ({ s with frame := { s.frame with state := st } } : State) = s := by
  rw [← state]

/-- The work of a frame boundary, by the port state (R58, R60). -/
theorem execFrameBoundary_ends {s : State} {sync : Bool} {next : FrameState}
    (received : Vector Byte 64) (high : s.resetLow = false)
    (ends : s.frame.state.atFrameEnd sync = some next) :
    exec (.frameBoundary sync received) s =
      act (·.frameEnd received) { s with frame := { s.frame with state := next } } := by
  rw [exec_frameBoundary, execFrameBoundary, actUnlessReset_high high]
  rcases state : s.frame.state with _ | _ | ⟨run, bits⟩ | missed
  all_goals
    have frame : s.work.frame.state = _ := state
    rw [state] at ends
    refine act_congr ?_
    rw [frame]
  · cases ends
  · cases ends
    rw [State.with_frame_state_self state]
  · cases ends
  · cases sync <;> cases missed <;> cases ends <;> rfl

/-- Only the buffer being sent may change once the buffers have changed places (R71). -/
theorem Work.frame_frameEnd_settle (w : Work) (received : Vector Byte 64) :
    FramePort.Same (w.frameEnd received).settle.frame ((w.frame.handOver received).sendNext) := by
  have posts (l : List Event) (v : Work) : (v.postAll l).frame = v.frame := by
    induction l generalizing v with
    | nil => rfl
    | cons e l ih =>
      refine (ih _).trans ?_
      unfold Work.postOnce
      split <;> rfl
  have same := (Work.settle_sameRest (w.frameEnd received)).2.2.1
  rwa [show (w.frameEnd received).frame = (w.frame.handOver received).sendNext from posts _ _] at same

/-- A frame port after the buffers have changed places, but for what the streams put into the buffer
being sent: the slots of the completed frame are in the hand-over buffer (R69, R72). -/
theorem FramePort.of_same_sendNext {f g : FramePort} {received : Vector Byte 64}
    (same : f.Same (g.handOver received).sendNext) :
    f = { g with
      rxHand := f.rxHand, rxRecv := g.rxHand, txSend := f.txSend
      txFill := Vector.replicate 64 0xFF } ∧
    ∀ n : SlotNo, n.val < g.slotCount.toNat → f.rxHand[n] = received[n] := by
  obtain ⟨role, count, state, rx, tx, recv, hand, send, fill⟩ := f
  simp only [FramePort.Same, FramePort.handOver, FramePort.sendNext, FramePort.mk.injEq] at same
  obtain ⟨rfl, rfl, rfl, rfl, rfl, rfl, rfl, -, rfl⟩ := same
  exact ⟨rfl, fun n used => by simp [used]⟩

/-- A frame end changes the frame port's buffers, and of the one being sent only what the streams put
into it. -/
theorem exec_frameBoundary_frame {s : State} {sync : Bool} {next : FrameState}
    (received : Vector Byte 64) (high : s.resetLow = false)
    (ends : s.frame.state.atFrameEnd sync = some next) :
    ∃ t, exec (.frameBoundary sync received) s = .next t ∧
      t.frame = { s.frame with
        state := next, rxHand := t.frame.rxHand, rxRecv := s.frame.rxHand, txSend := t.frame.txSend
        txFill := Vector.replicate 64 0xFF } ∧
      ∀ n : SlotNo, n.val < s.frame.slotCount.toNat → t.frame.rxHand[n] = received[n] := by
  have same := Work.frame_frameEnd_settle
    ({ s with frame := { s.frame with state := next } } : State).work received
  exact ⟨_, (execFrameBoundary_ends received high ends).trans (act_eq _ _),
    FramePort.of_same_sendNext same⟩

/-- Two missed syncs in a row, or a stopped bit clock, lose the lock (R60, R61). -/
theorem exec_loses {s : State} (high : s.resetLow = false) {missed : Bool}
    (state : s.frame.state = .locked missed) :
    (missed = true → ∀ received, exec (.frameBoundary false received) s =
      .next (({ s with frame := { s.frame with state := .seeking 0 0 } } : State).notified
        (.frameChange false s.frame.slotCount .sync))) ∧
    exec .bitClockStopped s =
      .next (({ s with frame := { s.frame with state := .seeking 0 0 } } : State).notified
        (.frameChange false s.frame.slotCount .clock)) := by
  have frame : s.work.frame.state = .locked missed := state
  refine ⟨fun twice received => ?_, ?_⟩
  · rw [exec_frameBoundary, execFrameBoundary]
    refine actUnlessReset_next high ?_
    rw [frame, twice]
    rfl
  · rw [exec_bitClockStopped, execBitClockStopped]
    refine actUnlessReset_next high ?_
    rw [frame]
    rfl

/-- Settles O22: the samples of SEEKING, the frame ends of LOCKED, and the two ways out of it. -/
theorem framePortFollowsSync : Obligations.FramePortFollowsSync := by
  unfold Obligations.FramePortFollowsSync
  intro s high frameBits seeks loses
  refine ⟨?_, ?_, ?_, ?_, ?_, ?_⟩
  · intro run bits low state
    refine ⟨?_, ?_, ?_⟩
    · intro anew
      refine ⟨exec_frameSyncSeeking_goes high state (FrameState.sample_high_anew
        (anew.imp_right fun beyond => Nat.ne_of_gt beyond)), exec_frameSyncSeeking_goes high state
          ((FrameState.sample_low ..).trans (if_neg ?_))⟩
      rintro ⟨counts, within⟩
      exact absurd (anew.resolve_left counts) (Nat.not_lt.2 (Nat.le_of_lt within))
    · intro counts within
      exact ⟨exec_frameSyncSeeking_goes high state
          (FrameState.sample_high_anew (.inr (Nat.ne_of_lt within))),
        exec_frameSyncSeeking_goes high state
          ((FrameState.sample_low ..).trans (if_pos ⟨counts, within⟩))⟩
    · intro counts due
      refine ⟨exec_frameSyncSeeking_goes high state ((FrameState.sample_low ..).trans (if_neg ?_)),
        fun more => exec_frameSyncSeeking_goes high state
          ((FrameState.sample_high_due counts due).trans (if_neg more)),
        fun last => ⟨_, exec_frameSyncSeeking_locks high state
          ((FrameState.sample_high_due counts due).trans (if_pos last)), rfl⟩⟩
      rintro ⟨-, within⟩
      exact absurd due (Nat.ne_of_lt within)
  · intro missed sync received state kept
    have ends : s.frame.state.atFrameEnd sync = some (.locked (!sync)) := by
      rw [state, FrameState.atFrameEnd, kept]
      rfl
    obtain ⟨t, run, frame, hand⟩ := exec_frameBoundary_frame received high ends
    exact ⟨t, run, congrArg FramePort.state frame, frame, hand⟩
  · exact fun received state => (exec_loses high state).1 rfl received
  · exact fun missed state => (exec_loses high state).2
  · intro other low fsy
    rw [exec_frameSyncSeeking, execFrameSyncSeeking]
    refine actUnlessReset_next high ?_
    dsimp only
    split
    · exact absurd ‹_› (other _ _)
    · rfl
  · intro other
    refine ⟨?_, fun notMaster sync received => ?_⟩
    · rw [exec_bitClockStopped, execBitClockStopped]
      refine actUnlessReset_next high ?_
      split
      · exact absurd ‹_› (other _)
      · rfl
    · rw [exec_frameBoundary, execFrameBoundary]
      refine actUnlessReset_next high ?_
      split
      · exact absurd ‹_› notMaster
      · exact absurd ‹_› (other _)
      · rfl

/-- A frame end: the buffers change places, and every stream with slots is asked (R69, R71). -/
theorem Work.frameEnd_eq (w : Work) (received : Vector Byte 64) : w.frameEnd received =
    (w.updFrame fun f => (f.handOver received).sendNext).postAll
      ((streamNos.filter fun i => w.width i ≠ 0).map .exchange) := rfl

/-- At a frame end with no stream mapped the buffers change places and nobody is asked (R69). -/
theorem Work.frameEnd_nobody {w : Work} (received : Vector Byte 64) (narrow : ∀ i, w.width i = 0) :
    w.frameEnd received = w.updFrame fun f => (f.handOver received).sendNext := by
  have nobody : (streamNos.filter fun i => w.width i ≠ 0) = [] :=
    List.filter_eq_nil_iff.2 fun i _ => by simp [narrow i]
  rw [Work.frameEnd_eq, nobody]
  rfl

/-- Settles O23: with no slot mapped the frame port asks nobody, and its buffers change places. -/
theorem frameEndWithoutSlots : Obligations.FrameEndWithoutSlots := by
  unfold Obligations.FrameEndWithoutSlots
  intro s sync received high narrow state ends
  have ends : s.frame.state.atFrameEnd sync = some state := by
    rcases ends with ⟨master, rfl⟩ | ⟨missed, locked, kept, rfl⟩
    · rw [master, FrameState.atFrameEnd]
    · rw [locked, FrameState.atFrameEnd, kept]
      rfl
  let frame : FramePort := { s.frame with state := state }
  have run := (execFrameBoundary_ends received high ends).trans (act_next
    (t := { s with frame := (frame.handOver received).sendNext })
    (Work.frameEnd_nobody received narrow))
  have same : FramePort.Same (frame.handOver received).sendNext
    (frame.handOver received).sendNext := rfl
  exact ⟨_, run, rfl, (FramePort.of_same_sendNext same).2⟩

end Sys2Proof.Machine

/-! PROOFS. EXTENT_ADD, and the transfer requests (R47 to R51, R139, R141, R143). -/

namespace Sys2Proof.Machine

/-! ### Requests answered before their work goes on -/

/-- A request that is answered and then worked on: the work begins with the reply queued. -/
theorem act_answered_then {s t : State} {tag code : Byte} (takes : s.Takes tag) {serve g : Work → Work}
    {r : Result} {payload : List Byte} (line : t.host = s.host)
    (e : serve (s.inService tag code).work = g ((t.inService tag code).work.answer tag r payload)) :
    act (·.takeRequest tag code serve) s = act g (t.replied tag code r payload) := by
  have fresh : t.work.host.inProgress tag = false := by
    rw [show t.work.host = s.host from line]
    exact takes.fresh
  rw [act_takeRequest takes]
  exact act_congr (e.trans (congrArg g (Work.take_answer fresh)))

theorem State.withStream_withStream (s : State) (i : StreamNo) (a b : Stream) :
    (s.withStream i a).withStream i b = s.withStream i b := by
  simp only [State.withStream, Vector.set_set]

theorem State.getElem_withStream (s : State) (i : StreamNo) (a : Stream) :
    (s.withStream i a).streams[i] = a := Vector.getElem_set_self _

/-- Changing a stream of a state is replacing its record. -/
theorem Work.updStream_work (s : State) (i : StreamNo) (f : Stream → Stream) :
    s.work.updStream i f = (s.withStream i (f s.streams[i])).work := rfl

theorem Work.updStream_congr {w : Work} {i : StreamNo} {f g : Stream → Stream}
    (h : f (w.stream i) = g (w.stream i)) : w.updStream i f = w.updStream i g := by
  have same : f w.streams[i] = g w.streams[i] := h
  unfold Work.updStream
  rw [same]

theorem Work.updStream_of_eq {w : Work} {i : StreamNo} {f : Stream → Stream}
    (h : f (w.stream i) = w.stream i) : w.updStream i f = w := by
  have same : f w.streams[i] = w.streams[i] := h
  have kept : w.streams.set i w.streams[i] i.isLt = w.streams := Vector.set_getElem_self i.isLt
  unfold Work.updStream
  rw [same, kept]

/-! ### Streams that do nothing on a test -/

/-- Every page of a stopped take is written (R88). -/
def Stream.AllWritten (st : Stream) : Prop :=
  st.state = .draining ∧ st.abortPart = none ∧ (st.endPage = .made ∨ st.endPage = .written) ∧
    st.ready = [] ∧ st.outstanding = 0

theorem Work.captureIssue_quiet {w : Work} {i : StreamNo} (quiet : (w.stream i).wantsSector = false)
    (n : Nat) : Work.captureIssue i n w = w := by
  cases n with
  | zero => rfl
  | succ n => rw [Work.captureIssue, quiet, if_neg nofun]

theorem Work.captureEndTest_quiet {w : Work} {i : StreamNo} (quiet : ¬ (w.stream i).AllWritten) :
    w.captureEndTest i = w := if_neg quiet

/-- A capture stream that wants no sector, its take not written whole, does nothing (R78, R88). -/
theorem Work.captureTest_quiet {w : Work} {i : StreamNo} (quiet : (w.stream i).wantsSector = false)
    (unwritten : ¬ (w.stream i).AllWritten) : w.captureTest i = w := by
  rw [Work.captureTest, Work.captureIssue_quiet quiet, Work.captureEndTest_quiet unwritten]

/-- Taking a stream off a wait list it is not on changes nothing. -/
theorem Work.leaveWait_absent {w : Work} {i : StreamNo} (absent : w.waits i = false) :
    w.leaveWait i = w := by
  have kept : w.pool.waitList.filter (·.1 != i) = w.pool.waitList :=
    List.filter_eq_self.2 fun c hc => by
      have other := List.any_eq_false.1 absent c hc
      simpa using other
  unfold Work.leaveWait Work.updPool
  dsimp only
  rw [kept]

/-- A replay stream that may not read, its cursor not exhausted, does nothing (R93). -/
theorem Work.replayTest_quiet {w : Work} {i : StreamNo} (quiet : (w.stream i).mayRead = false)
    (sectors : (w.stream i).exhausted = false) (absent : w.waits i = false) :
    w.replayTest i = w := by
  have issue : Work.replayIssue i ((w.stream i).cfg.depth + 1) w = w := by
    rw [Work.replayIssue, quiet, if_neg nofun, Work.leaveWait_absent absent]
  rw [Work.replayTest, issue, sectors]
  exact if_neg nofun

/-! ### EXTENT_ADD (R47 to R51) -/

theorem Work.any_allExtents_iff (w : Work) (p : Extent → Bool) : w.allExtents.any p = true ↔
    ∃ (j : StreamNo) (f : Extent), f ∈ (w.stream j).extents ∧ p f = true := by
  simp [Work.allExtents, mem_streamNos]

theorem Extent.overlaps_iff (f e : Extent) : f.overlaps e = true ↔
    f.port = e.port ∧ f.start ≤ e.start + e.count - 1 ∧ e.start ≤ f.start + f.count - 1 := by
  simp only [Extent.overlaps, Bool.and_eq_true, beq_iff_eq, decide_eq_true_eq, and_assoc]
  rfl

theorem serveExtentAdd_bytes (tag : Byte) (i : StreamNo) {e : Extent} (inRange : e.InRange)
    (w : Work) : serveExtentAdd tag (e.bytes i) w =
      match w.extentRefusal i e with
      | some r => w.answer tag r []
      | none =>
        ((w.updStream i (·.addExtent e)).answer tag .ok
          (((w.updStream i (·.addExtent e)).stream i).extentReply i)).extentGiven i :=
  Work.checked_of_parse rfl (parseExtentAdd_bytes inRange i)

/-- EXTENT_ADD that the extent unit accepts: the extent joins the list, the reply is queued, and the
stream goes on in its direction (R51, R52). -/
theorem exec_extentAdd_accepted {s : State} {tag : Byte} {i : StreamNo} {e : Extent}
    (takes : s.Takes tag) (inRange : e.InRange) (accepted : s.work.extentRefusal i e = none) :
    exec (.extentAdd tag (e.bytes i)) s = act (·.extentGiven i)
      ((s.withStream i (s.streams[i].addExtent e)).replied tag 0x40 .ok
        ((s.streams[i].addExtent e).extentReply i)) := by
  rw [exec_extentAdd, execExtentAdd]
  refine act_answered_then (t := s.withStream i (s.streams[i].addExtent e)) takes rfl ?_
  have served := serveExtentAdd_bytes tag i inRange (s.inService tag 0x40).work
  rw [show (s.inService tag 0x40).work.extentRefusal i e = none from accepted,
    Work.stream_updStream_self] at served
  exact served

theorem Stream.wantsSector_of_full {st : Stream} (full : st.cfg.depth ≤ st.outstanding) :
    st.wantsSector = false := by
  simp [Stream.wantsSector, Nat.not_lt.2 full]

theorem Stream.mayRead_of_full {st : Stream} (full : st.cfg.depth ≤ st.outstanding) :
    st.mayRead = false := by
  simp [Stream.mayRead, Nat.not_lt.2 full]

theorem Stream.isActive_iff (st : Stream) : st.isActive = true ↔
    st.state = .priming ∨ st.state = .running ∨ st.state = .hold ∨ st.state = .draining := by
  unfold Stream.isActive
  cases st.state <;> simp

/-- A stream that is not active wants no sector. -/
theorem Stream.wantsSector_of_inactive {st : Stream} (idle : st.isActive = false) :
    st.wantsSector = false := by
  have states := mt st.isActive_iff.2 (by rw [idle]; nofun)
  simp only [not_or] at states
  simp [Stream.wantsSector, states]

/-- A stream whose test after an addition finds nothing to do: it is not active, or as many entries are
in flight as its depth. -/
def Work.Engaged (w : Work) (i : StreamNo) : Prop :=
  (w.stream i).isActive = false ∨ (w.stream i).state ≠ .hold ∧ (w.stream i).outstanding ≠ 0 ∧
    (w.stream i).cfg.depth ≤ (w.stream i).outstanding ∧ w.waits i = false

theorem Work.Engaged.state_ne_hold {w : Work} {i : StreamNo} (h : w.Engaged i) :
    (w.stream i).state ≠ .hold := by
  rcases h with idle | ⟨other, -⟩
  · intro hold
    simp [Stream.isActive, hold] at idle
  · exact other

/-- What follows from an accepted addition at a capture stream with nothing to do (R82). -/
theorem Work.captureExtent_engaged {w : Work} {i : StreamNo} (h : w.Engaged i) :
    w.captureExtent i = w.updStream i fun st => { st with emptyReported := false } := by
  have record : (w.updStream i fun st => { st with
      emptyReported := false
      state := if st.state = .hold then (if st.stopPart.isNone then .running else .draining)
        else st.state }) = w.updStream i fun st => { st with emptyReported := false } :=
    Work.updStream_congr (by simp only [if_neg h.state_ne_hold])
  unfold Work.captureExtent
  rw [record]
  refine Work.captureTest_quiet ?_ ?_
  · rw [Work.stream_updStream_self]
    rcases h with idle | ⟨-, -, full, -⟩
    · exact Stream.wantsSector_of_inactive (st := { w.stream i with emptyReported := false }) idle
    · exact Stream.wantsSector_of_full (st := { w.stream i with emptyReported := false }) full
  · rw [Work.stream_updStream_self]
    rintro ⟨draining, -, -, -, none⟩
    rcases h with idle | ⟨-, flying, -⟩
    · simp [Stream.isActive, show (w.stream i).state = .draining from draining] at idle
    · exact flying none

/-- At a replay stream with nothing to do an addition changes no more (R103). -/
theorem Work.replayExtent_engaged {w : Work} {i : StreamNo} (h : w.Engaged i)
    (sectors : (w.stream i).exhausted = false) : w.replayExtent i = w := by
  unfold Work.replayExtent
  split
  next playing =>
    rcases h with idle | ⟨-, -, full, absent⟩
    · rcases (by simpa [Stream.isPlaying] using playing :
        (w.stream i).state = .priming ∨ (w.stream i).state = .running) with state | state <;>
      simp [Stream.isActive, state] at idle
    · exact Work.replayTest_quiet (Stream.mayRead_of_full full) sectors absent
  next => rfl

/-- The direction's part of an accepted addition at a stream with nothing to do. -/
theorem Work.extentGiven_engaged {w : Work} {i : StreamNo} (h : w.Engaged i)
    (sectors : (w.stream i).exhausted = false) :
    w.extentGiven i = w.updStream i fun st => { st with
      emptyReported := if st.cfg.direction = .capture then false else st.emptyReported } := by
  unfold Work.extentGiven
  rcases direction : (w.stream i).cfg.direction
  · exact (Work.captureExtent_engaged h).trans
      (Work.updStream_congr (by simp only [direction, if_true]))
  · exact (Work.replayExtent_engaged h sectors).trans
      (Work.updStream_of_eq (by simp only [direction, reduceCtorEq, if_false])).symm

/-- The record of a stream that gains an extent (R45, R51, R79). -/
theorem Stream.addExtent_eq (st : Stream) (e : Extent) :
    let grown : Stream := { st with
      extents := st.extents ++ [e], offset := if st.extents = [] then 0 else st.offset }
    st.addExtent e = { grown with
      lowGiven := if st.isActive = true ∧ st.cfg.lowMark < grown.remaining then false else st.lowGiven
      waitedPort := if st.extents = [] then none else st.waitedPort } := by
  intro grown
  unfold Stream.addExtent
  have rises : (st.isActive && decide (st.cfg.lowMark < grown.remaining)) = true ↔
      st.isActive = true ∧ st.cfg.lowMark < grown.remaining := by
    rw [Bool.and_eq_true, decide_eq_true_eq]
  by_cases above : st.isActive = true ∧ st.cfg.lowMark < grown.remaining
  · rw [if_pos above]
    refine (if_pos ?_).trans ?_
    · simpa [Stream.remaining, grown] using rises.2 above
    · simp [grown]
  · rw [if_neg above]
    refine (if_neg ?_).trans ?_
    · simpa [Stream.remaining, grown] using mt rises.1 above
    · simp [grown]

/-- Settles O35: Table 3.2 in its order, and the record and the reply of an addition accepted. -/
theorem extentAddAppends : Obligations.ExtentAddAppends := by
  unfold Obligations.ExtentAddAppends
  intro s tag i e takes inRange st pt capacity overlaps range clash refused
  have refuses {r : Result} (fails : (s.inService tag 0x40).work.extentRefusal i e = some r) :
      refused r := by
    have served := serveExtentAdd_bytes tag i inRange (s.inService tag 0x40).work
    rw [fails] at served
    exact exec_refused takes served
  have size : (pt.geometry.map Geometry.capacity).getD 0 = capacity := by
    simp only [capacity]
    cases pt.geometry <;> rfl
  have beyond : (pt.geometry.map Geometry.capacity).getD 0 ≤ e.last ↔ range := by rw [size]; rfl
  have covered : s.work.allExtents.any (·.overlaps e) = true ↔ clash := by
    rw [Work.any_allExtents_iff]
    simp only [Extent.overlaps_iff]
    rfl
  have chain : (s.inService tag 0x40).work.extentRefusal i e =
      if st.state = .free then some .state
      else if 8 ≤ st.extents.length then some .listFull
      else if pt.state = .absent ∨ pt.attachPending.isSome then some .portAbsent
      else if pt.state = .offline then some .offline
      else if (pt.geometry.map Geometry.capacity).getD 0 ≤ e.last then some .range
      else if s.work.allExtents.any (·.overlaps e) then some .overlap
      else none := rfl
  refine ⟨fun free => refuses ?_, fun bound full => refuses ?_, fun bound room =>
    ⟨fun absent => refuses ?_, fun attached => ⟨fun offline => refuses ?_, fun present online =>
      ⟨fun beyondEnd => refuses ?_, fun within taken => refuses ?_, fun within fresh engaged => ?_⟩⟩⟩⟩
  · rw [chain, if_pos free]
  · rw [chain, if_neg bound, if_pos full]
  · rw [chain, if_neg bound, if_neg (Nat.not_le.2 room),
      if_pos (absent.imp_right Option.isSome_iff_ne_none.2)]
  · rw [chain, if_neg bound, if_neg (Nat.not_le.2 room), if_neg (by simp [offline, attached]),
      if_pos offline]
  · rw [chain, if_neg bound, if_neg (Nat.not_le.2 room), if_neg (by simp [present, attached]),
      if_neg online, if_pos (beyond.2 beyondEnd)]
  · rw [chain, if_neg bound, if_neg (Nat.not_le.2 room), if_neg (by simp [present, attached]),
      if_neg online, if_neg (mt beyond.1 within), if_pos (covered.2 taken)]
  · intro grown after
    have accepted : s.work.extentRefusal i e = none := by
      refine Eq.trans (b := (s.inService tag 0x40).work.extentRefusal i e) rfl ?_
      rw [chain, if_neg bound, if_neg (Nat.not_le.2 room), if_neg (by simp [present, attached]),
        if_neg online, if_neg (mt beyond.1 within), if_neg (mt covered.1 fresh)]
    have added := st.addExtent_eq e
    let w := ((s.withStream i (st.addExtent e)).replied tag 0x40 .ok
      ((st.addExtent e).extentReply i)).work
    have record : w.stream i = st.addExtent e := State.getElem_withStream s i _
    have still : w.Engaged i := by
      unfold Work.Engaged
      rw [record, added]
      exact engaged
    have sectors : (w.stream i).exhausted = false := by
      rw [record, added]
      simp [Stream.exhausted]
    have reply : (st.addExtent e).extentReply i =
        [streamByte i] ++ beBytes 1 (st.extents.length + 1) ++ beBytes 4 after.remaining := by
      rw [added, Stream.extentReply, List.length_append]
      rfl
    have given : { st.addExtent e with emptyReported :=
        if (st.addExtent e).cfg.direction = .capture then false
          else (st.addExtent e).emptyReported } = after := by
      rw [added]
      rfl
    rw [exec_extentAdd_accepted takes inRange accepted]
    refine act_next ((Work.extentGiven_engaged still sectors).trans ?_)
    rw [← reply, ← given, Work.updStream_congr (w := w) (g := fun _ =>
      { st.addExtent e with emptyReported :=
        if (st.addExtent e).cfg.direction = .capture then false
          else (st.addExtent e).emptyReported }) (by rw [record])]
    exact congrArg State.work (congrArg (State.replied · tag 0x40 .ok _)
      (State.withStream_withStream s i _ _))

end Sys2Proof.Machine

/-! PROOFS. The transfer requests: TRACK_FORMAT, SECTOR_READ and SECTOR_WRITE (R139, R141, R143). -/

namespace Sys2Proof.Machine

/-- Placing an entry of a request in its slot, in the words of the claims. -/
theorem Work.placed_work (s : State) (p : PortNo) (pt : Port) :
    s.work.placed p pt = ({ s.withPort p pt with serial := s.serial + 1 } : State).work := rfl

theorem Port.hasRoom_iff (pt : Port) : pt.hasRoom = true ↔ pt.queue.length < 12 := decide_eq_true_iff

theorem Port.hasRoom_eq_false_iff (pt : Port) : pt.hasRoom = false ↔ 12 ≤ pt.queue.length := by
  rw [← Bool.not_eq_true, Port.hasRoom_iff, Nat.not_lt]

/-! ### TRACK_FORMAT (R139) -/

/-- The checks of Table 8.3, in their order. -/
theorem Work.formatRefusal_eq (w : Work) (a : FormatArgs) (permit : Bool) :
    w.formatRefusal a permit = firstFailing [
      ((w.port a.port).unattached, .portAbsent),
      ((w.port a.port).state == .offline, .offline),
      (decide ((w.port a.port).geo.cylinders ≤ a.cyl) || decide ((w.port a.port).geo.heads ≤ a.head),
        .range),
      (!permit, .permit),
      (w.trackCovered a.port (w.port a.port).geo a.cyl a.head, .overlap),
      (decide (12 ≤ (w.port a.port).queue.length), .full)] := by
  have full : (!(w.port a.port).hasRoom) = decide (12 ≤ (w.port a.port).queue.length) := by
    rw [Port.hasRoom, ← decide_not, decide_eq_decide]
    exact Nat.not_lt
  simp only [Work.formatRefusal, firstFailing_cons, firstFailing_nil, beq_iff_eq, Bool.or_eq_true,
    decide_eq_true_eq, Bool.not_eq_true', full]

theorem serveTrackFormat_bytes (tag : Byte) {a : FormatArgs} (cyl : a.cyl ≤ 4095) (head : a.head ≤ 15)
    (permit : Bool) (w : Work) : serveTrackFormat tag a.bytes permit w =
      match w.formatRefusal a permit with
      | some r => w.answer tag r []
      | none => w.placeEntry a.port
          { serial := w.serial, kind := .format tag a.lock, port := a.port, lba := none
            cyl := a.cyl, head := a.head, sector := 0 } :=
  Work.checked_of_parse rfl (parseFormat_bytes cyl head)

/-- What the first of a list of checks says when none fails. -/
theorem firstFailing_head {b : Bool} {r : Result} {l : List (Bool × Result)}
    (none : firstFailing ((b, r) :: l) = none) : b = false ∧ firstFailing l = .none := by
  rw [firstFailing_cons] at none
  cases b
  · exact ⟨rfl, none⟩
  · cases none

/-- Settles O41: Table 8.3 in its order, and the arrival of the entry placed. -/
theorem trackFormatIsQueued : Obligations.TrackFormatIsQueued := by
  unfold Obligations.TrackFormatIsQueued
  intro s tag a permit takes cyl head pt g first checks
  have served := serveTrackFormat_bytes tag cyl head permit (s.inService tag 0x28).work
  have refusal : (s.inService tag 0x28).work.formatRefusal a permit = firstFailing checks :=
    Work.formatRefusal_eq (s.inService tag 0x28).work a permit
  rw [refusal] at served
  rw [exec_trackFormat, execTrackFormat]
  refine ⟨fun r fails => exec_refused takes ?_, fun accepted nobody => ?_⟩
  · rw [fails] at served
    exact served
  · rw [accepted] at served
    rw [act_takeRequest takes]
    have attached : pt.state ≠ .offline := by
      obtain ⟨-, rest⟩ := firstFailing_head accepted
      simpa using (firstFailing_head rest).1
    exact act_next (served.trans (Work.placeEntry_attached _ attached (.inl nobody)))

theorem Work.place_attached {w : Work} {p : PortNo} (kind : EntryKind) (lba : Nat)
    (attached : (w.port p).state ≠ .offline)
    (room : w.pool.waitList = [] ∨ (w.port p).queue.length + 1 < 12) :
    w.place p kind lba =
      w.placed p ((w.port p).arrival ((w.port p).newEntry w.serial kind p lba)) :=
  Work.placeEntry_attached _ attached room

/-! ### The page of a host request (R31, R32) -/

theorem Work.claimHost_refused {w : Work} (short : w.freeCount ≤ w.reserveNeed) :
    w.claimHost = none := by
  unfold Work.claimHost
  split
  · rfl
  · exact if_neg (Nat.not_lt.2 short)

/-- The pool after a granted host claim. -/
def Pool.hostClaimed (pool : Pool) (page : PageNo) (free : List PageNo) : Pool :=
  { pool with free := free, mem := pool.mem.clearPage page, hostCount := pool.hostCount + 1 }

theorem Work.claimHost_granted {w : Work} {page : PageNo} {free : List PageNo}
    (head : w.pool.free = page :: free) (spare : w.reserveNeed < w.freeCount) :
    w.claimHost = some (page, w.updPool (·.hostClaimed page free)) := by
  unfold Work.claimHost
  rw [head]
  exact if_pos spare

theorem Work.releaseHost_nobody {w : Work} (page : PageNo) (nobody : w.pool.waitList = []) :
    w.releaseHost page = w.updPool fun pool =>
      { pool with free := pool.free ++ [page], hostCount := pool.hostCount - 1 } :=
  Work.signal_nobody nobody

/-- The checks (1) and (2) of a sector request, in their order. -/
theorem Work.sectorRefusal_eq (w : Work) (p : PortNo) (lba : Nat) :
    w.sectorRefusal p lba = firstFailing [
      ((w.port p).unattached, .portAbsent),
      ((w.port p).state == .offline, .offline),
      (decide ((w.port p).geo.capacity ≤ lba), .range)] := by
  simp only [Work.sectorRefusal, firstFailing_cons, firstFailing_nil, beq_iff_eq, decide_eq_true_eq]

/-- A list of checks in two parts: the second is asked when the first is passed. -/
theorem firstFailing_append (l m : List (Bool × Result)) :
    firstFailing (l ++ m) = (firstFailing l).or (firstFailing m) := by
  induction l with
  | nil => rfl
  | cons c l ih =>
    obtain ⟨b, r⟩ := c
    rw [List.cons_append, firstFailing_cons, firstFailing_cons, ih]
    cases b <;> rfl

/-- A host sector request whose page is claimed, by the room in its port's queue. -/
theorem Work.hostEntry_granted {w : Work} {tag : Byte} {p : PortNo} {lba : Nat}
    {kind : PageNo → EntryKind} {fill : PageNo → Work → Work} {page : PageNo} {free : List PageNo}
    (head : w.pool.free = page :: free) (spare : w.reserveNeed < w.freeCount) :
    w.hostEntry tag p lba kind fill =
      if ((fill page (w.updPool (·.hostClaimed page free))).port p).hasRoom then
        (fill page (w.updPool (·.hostClaimed page free))).place p (kind page) lba
      else
        ((fill page (w.updPool (·.hostClaimed page free))).answer tag .full []).releaseHost page := by
  unfold Work.hostEntry
  rw [Work.claimHost_granted head spare]

theorem Work.hostEntry_refused {w : Work} (tag : Byte) (p : PortNo) (lba : Nat)
    (kind : PageNo → EntryKind) (fill : PageNo → Work → Work) (short : w.freeCount ≤ w.reserveNeed) :
    w.hostEntry tag p lba kind fill = w.answer tag .noPage [] := by
  unfold Work.hostEntry
  rw [Work.claimHost_refused short]

/-- An entry for a sector of a drive whose geometry is recorded (R127 (3)). -/
theorem Port.newEntry_eq {pt : Port} {lba : Nat} (within : ¬ pt.geo.capacity ≤ lba) (serial : Nat)
    (kind : EntryKind) (p : PortNo) : pt.newEntry serial kind p lba = {
      serial := serial, kind := kind, port := p, lba := some lba
      cyl := lba / (pt.geo.heads * pt.geo.sectors), head := lba / pt.geo.sectors % pt.geo.heads
      sector := lba % pt.geo.sectors } := by
  unfold Port.newEntry Port.geo
  rcases geometry : pt.geometry with _ | g
  · exact absurd (by simp [Port.geo, geometry, Geometry.capacity]) within
  · rfl

theorem firstFailing_singleton {b : Bool} {r r' : Result} (fails : firstFailing [(b, r)] = some r') :
    b = true ∧ r = r' := by
  rw [firstFailing_cons] at fails
  cases b
  · cases fails
  · exact ⟨rfl, Option.some.inj fails⟩

/-- The request in its slot is answered FULL, and the page it had claimed is given back (R31). -/
theorem Work.full_releaseHost {s : State} {tag code : Byte} (takes : s.Takes tag) (page : PageNo)
    (nobody : s.pool.waitList = []) (pool : Pool) (same : pool.waitList = s.pool.waitList) :
    ((({ s with pool := pool } : State).inService tag code).work.answer tag .full []).releaseHost
      page = ({ s.replied tag code .full [] with
        pool := { pool with free := pool.free ++ [page], hostCount := pool.hostCount - 1 } } :
          State).work := by
  have answered : (({ s with pool := pool } : State).inService tag code).work.answer tag .full [] =
      (({ s with pool := pool } : State).replied tag code .full []).work :=
    Work.take_answer (w := ({ s with pool := pool } : State).work) takes.fresh
  rw [answered]
  exact Work.releaseHost_nobody page (same.trans nobody)

/-! ### SECTOR_READ (R141) -/

theorem serveSectorRead_bytes (tag : Byte) (p : PortNo) {lba : Nat} (fits : lba < 2 ^ 32) (w : Work) :
    serveSectorRead tag (placeBytes p lba) w =
      match w.sectorRefusal p lba with
      | some r => w.answer tag r []
      | none => w.hostEntry tag p lba (.hostRead tag) fun _ w => w :=
  Work.checked_of_parse rfl (parseSectorRead_placeBytes p fits)

/-- Settles O42: the checks, the claim, and the entry placed or the page given back. -/
theorem sectorReadIsQueued : Obligations.SectorReadIsQueued := by
  unfold Obligations.SectorReadIsQueued
  intro s tag p lba takes fits pt g checks
  have served := serveSectorRead_bytes tag p fits (s.inService tag 0x29).work
  have parts : firstFailing checks = ((s.inService tag 0x29).work.sectorRefusal p lba).or
      (firstFailing [(decide (s.work.freeCount ≤ s.work.reserveNeed), .noPage)]) := by
    rw [Work.sectorRefusal_eq, ← firstFailing_append]
    rfl
  rw [exec_sectorRead, execSectorRead]
  refine ⟨fun r fails => exec_refused takes ?_, fun page free accepted head nobody => ?_⟩
  · rw [parts] at fails
    rcases first : (s.inService tag 0x29).work.sectorRefusal p lba with _ | r'
    · rw [first] at served fails
      obtain ⟨short, rfl⟩ := firstFailing_singleton fails
      exact served.trans (Work.hostEntry_refused _ _ _ _ _ (of_decide_eq_true short))
    · rw [first] at served fails
      cases fails
      exact served
  · have passes : (s.inService tag 0x29).work.sectorRefusal p lba = none :=
      (Option.or_eq_none_iff.1 (parts.symm.trans accepted)).1
    obtain ⟨-, rest⟩ := firstFailing_head accepted
    obtain ⟨online, rest⟩ := firstFailing_head rest
    obtain ⟨within, rest⟩ := firstFailing_head rest
    obtain ⟨spare, -⟩ := firstFailing_head rest
    have spare : s.work.reserveNeed < s.work.freeCount :=
      Nat.not_le.1 (of_decide_eq_false spare)
    have attached : pt.state ≠ .offline := by simpa using online
    intro claimed
    rw [passes] at served
    have entry := served.trans (Work.hostEntry_granted head spare)
    refine ⟨fun full => ?_, fun room => ?_⟩
    · rw [act_takeRequest takes]
      exact act_next ((entry.trans (if_neg (mt (Port.hasRoom_iff pt).1 (Nat.not_lt.2 full)))).trans
        (Work.full_releaseHost takes page nobody claimed rfl))
    · rw [act_takeRequest takes]
      refine act_next ((entry.trans (if_pos ((Port.hasRoom_iff pt).2 room))).trans ?_)
      let w := (({ s with pool := claimed } : State).inService tag 0x29).work
      refine (Work.place_attached (w := w) (.hostRead tag page) lba attached (.inl nobody)).trans ?_
      exact congrArg (fun e => w.placed p (pt.arrival e)) (Port.newEntry_eq
        (of_decide_eq_false within) s.serial (.hostRead tag page) p)

/-! ### SECTOR_WRITE (R143) -/

theorem serveSectorWrite_bytes (tag : Byte) {a : WriteArgs} (inRange : a.InRange) (w : Work) :
    serveSectorWrite tag a.bytes w =
      match w.sectorRefusal a.port a.lba with
      | some r => w.answer tag r []
      | none =>
        if w.covered a.port a.lba then w.answer tag .overlap []
        else
          w.hostEntry tag a.port a.lba (fun page => .hostWrite tag page a.trailer a.override)
            fun page w => w.updMem (·.writePage page a.payload) := by
  refine Work.checked_of_parse ?_ (parseSectorWrite_bytes inRange)
  simp [WriteArgs.bytes, placeBytes, Trailer.bytes, beBytes, inRange.2.2.2]

theorem Work.covered_eq (w : Work) (p : PortNo) (lba : Nat) : w.covered p lba =
    w.allExtents.any fun f => f.port == p && decide (f.start ≤ lba) &&
      decide (lba ≤ f.start + f.count - 1) := rfl

/-- The pool after a granted host claim whose page the payload of a write has been placed in. -/
def Pool.hostFilled (pool : Pool) (page : PageNo) (free : List PageNo) (payload : List Byte) : Pool :=
  { pool.hostClaimed page free with mem := (pool.mem.clearPage page).writePage page payload }

/-- The payload stands in the page that was claimed, and every other byte stays. -/
theorem Pool.read_hostFilled {pool : Pool} (wf : pool.mem.Wf) (page : PageNo) (free : List PageNo)
    (payload : List Byte) :
    (∀ k < 512, (pool.hostFilled page free payload).mem.read (pageAddr page k) = payload.getD k 0) ∧
      ∀ address, (∀ k < 512, address ≠ pageAddr page k) →
        (pool.hostFilled page free payload).mem.read address = pool.mem.read address := by
  have read := Memory.read_writePage page payload (Memory.wf_clearPage page wf)
  refine ⟨fun k below => (read _).trans ?_, fun address outside => (read _).trans ?_⟩
  · rw [if_pos ⟨by simp only [pageAddr]; omega, by simp only [pageAddr]; omega⟩]
    congr 1
    simp only [pageAddr]
    omega
  · rw [if_neg, read_clearPage_outside _ _ outside]
    rintro ⟨low, high⟩
    simp only [pageAddr] at low high outside
    exact outside (address - 512 * page.val) (by omega) (by omega)

/-- Settles O43: the checks, the claim filled with the payload, and the entry placed or the page given
back. -/
theorem sectorWriteIsQueued : Obligations.SectorWriteIsQueued := by
  unfold Obligations.SectorWriteIsQueued
  intro s tag a takes inRange wf pt g checks
  have served := serveSectorWrite_bytes tag inRange (s.inService tag 0x2A).work
  have parts : firstFailing checks = ((s.inService tag 0x2A).work.sectorRefusal a.port a.lba).or
      (firstFailing [(s.work.covered a.port a.lba, .overlap),
        (decide (s.work.freeCount ≤ s.work.reserveNeed), .noPage)]) := by
    rw [Work.sectorRefusal_eq, ← firstFailing_append]
    rfl
  rw [exec_sectorWrite, execSectorWrite]
  refine ⟨fun r fails => exec_refused takes ?_, fun page free accepted head nobody => ?_⟩
  · rw [parts] at fails
    rcases first : (s.inService tag 0x2A).work.sectorRefusal a.port a.lba with _ | r'
    · rw [first] at served fails
      rw [Option.none_or, firstFailing_cons] at fails
      by_cases covered : s.work.covered a.port a.lba = true
      · rw [if_pos covered] at fails
        cases fails
        exact served.trans (if_pos covered)
      · rw [if_neg covered] at fails
        obtain ⟨short, rfl⟩ := firstFailing_singleton fails
        exact served.trans ((if_neg covered).trans
          (Work.hostEntry_refused _ _ _ _ _ (of_decide_eq_true short)))
    · rw [first] at served fails
      cases fails
      exact served
  · have passes : (s.inService tag 0x2A).work.sectorRefusal a.port a.lba = none :=
      (Option.or_eq_none_iff.1 (parts.symm.trans accepted)).1
    obtain ⟨-, rest⟩ := firstFailing_head accepted
    obtain ⟨online, rest⟩ := firstFailing_head rest
    obtain ⟨within, rest⟩ := firstFailing_head rest
    obtain ⟨uncovered, rest⟩ := firstFailing_head rest
    obtain ⟨spare, -⟩ := firstFailing_head rest
    have spare : s.work.reserveNeed < s.work.freeCount :=
      Nat.not_le.1 (of_decide_eq_false spare)
    have attached : pt.state ≠ .offline := by simpa using online
    have uncovered : ¬ s.work.covered a.port a.lba = true := Bool.eq_false_iff.1 uncovered
    obtain ⟨inside, outside⟩ := Pool.read_hostFilled wf page free a.payload
    rw [passes] at served
    have entry := served.trans ((if_neg uncovered).trans (Work.hostEntry_granted head spare))
    let filled := s.pool.hostFilled page free a.payload
    by_cases room : pt.queue.length < 12
    · let w := (({ s with pool := filled } : State).inService tag 0x2A).work
      let kind : EntryKind := .hostWrite tag page a.trailer a.override
      have placed : w.place a.port kind a.lba = w.placed a.port (pt.arrival _) :=
        (Work.place_attached (w := w) kind a.lba attached (.inl nobody)).trans
          (congrArg (fun e => w.placed a.port (pt.arrival e))
            (Port.newEntry_eq (of_decide_eq_false within) s.serial kind a.port))
      have run := (entry.trans (if_pos ((Port.hasRoom_iff pt).2 room))).trans placed
      exact ⟨_, (act_takeRequest takes).trans (act_of_eq run rfl),
        fun full => absurd room (Nat.not_lt.2 full), fun _ => rfl, inside, outside⟩
    · have run := (entry.trans (if_neg (mt (Port.hasRoom_iff pt).1 room))).trans
        (Work.full_releaseHost takes page nobody filled rfl)
      exact ⟨_, (act_takeRequest takes).trans (act_next run), fun _ => rfl,
        fun low => absurd low room, inside, outside⟩

end Sys2Proof.Machine

/-! PROOFS. The messages of a step: a message that every other follows is taken first, and results of
host entries are taken in their order (R34, R120, R124, R136). -/

namespace Sys2Proof.Machine

/-! ### The message that is taken next -/

/-- Messages that follow one passed over may not be taken yet. -/
theorem nextEvents_of_follows {before l : List Event}
    (later : ∀ f ∈ l, before.any f.follows = true) : nextEvents before l = [] := by
  induction l generalizing before with
  | nil => rfl
  | cons e l ih =>
    rw [nextEvents, if_pos (later e List.mem_cons_self)]
    refine ih fun f hf => ?_
    rw [List.any_append, later f (List.mem_cons_of_mem _ hf), Bool.true_or]

/-- A message that every other follows is the only one that may be taken. -/
theorem nextEvents_head {e : Event} {rest : List Event} (later : ∀ f ∈ rest, f.follows e = true) :
    nextEvents [] (e :: rest) = [(e, rest)] := by
  have none : nextEvents [e] rest = [] :=
    nextEvents_of_follows fun f hf => by simp [later f hf]
  rw [nextEvents, List.nil_append, none]
  rfl

/-- Such a message is taken without a free choice. -/
theorem Work.nextEvent_head {w : Work} {e : Event} {rest : List Event}
    (agenda : w.agenda = e :: rest) (later : ∀ f ∈ rest, f.follows e = true) :
    w.nextEvent = some (e, { w with agenda := rest }) := by
  unfold Work.nextEvent
  rw [agenda, nextEvents_head later]
  rfl

theorem Work.drain_head {w : Work} {e : Event} {rest : List Event}
    (agenda : w.agenda = e :: rest) (later : ∀ f ∈ rest, f.follows e = true) (n : Nat) :
    Work.drain (n + 1) w = Work.drain n (({ w with agenda := rest } : Work).handle e) := by
  rw [Work.drain, Work.nextEvent_head agenda later]

theorem Work.drain_idle {w : Work} (idle : w.agenda = []) (n : Nat) : Work.drain n w = w := by
  cases n with
  | zero => rfl
  | succ n => rw [Work.drain, Work.nextEvent, idle]; rfl

/-- The bound on a step's messages leaves room for those on the way. -/
theorem Work.length_le_bound (w : Work) : w.agenda.length ≤ w.bound := by
  unfold Work.bound
  omega

/-- One message on the way is taken, and nothing comes of it that is sent on. -/
theorem Work.settle_single {w : Work} {e : Event} (agenda : w.agenda = [e])
    (quiet : (({ w with agenda := [] } : Work).handle e).agenda = []) :
    w.settle = ({ w with agenda := [] } : Work).handle e := by
  have room := w.length_le_bound
  rw [agenda, List.length_singleton] at room
  obtain ⟨n, bound⟩ := Nat.exists_eq_add_of_le' room
  have alone : ∀ f ∈ ([] : List Event), f.follows e = true := fun f hf => absurd hf List.not_mem_nil
  rw [Work.settle, bound, Work.drain_head agenda alone, Work.drain_idle quiet]

/-- The step of a command that sends one message. -/
theorem act_single {f : Work → Work} {s u t : State} {e : Event}
    (sends : f s.work = { u.work with agenda := [e] }) (takes : u.work.handle e = t.work) :
    act f s = .next t := by
  have settled : (f s.work).settle = u.work.handle e := by
    rw [sends]
    exact Work.settle_single rfl (congrArg Work.agenda takes)
  rw [act_eq, settled, takes]
  rfl

theorem actUnlessReset_single {f : Work → Work} {s u t : State} {e : Event}
    (high : s.resetLow = false) (sends : f s.work = { u.work with agenda := [e] })
    (takes : u.work.handle e = t.work) : actUnlessReset f s = .next t :=
  (actUnlessReset_high high).trans (act_single sends takes)

/-- Of two messages that do not follow each other either may be taken. -/
theorem nextEvents_pair {a b : Event} (free : b.follows a = false) :
    nextEvents [] [a, b] = [(a, [b]), (b, [a])] := by
  simp [nextEvents, free]

/-- The work in hand of a state with a message still on its way. -/
def State.sending (s : State) (e : Event) : Work := { s with agenda := [e] }

/-- The step of a command that sends two messages which either may come first: `ta` and `tb` are the
states when the first of them has been taken, `tab` and `tba` those at the end. -/
theorem act_pair {f : Work → Work} {s u ta tb tab tba : State} {a b : Event}
    (sends : f s.work = { u.work with agenda := [a, b] }) (free : b.follows a = false)
    (first : (State.sending { u with pickCount := u.pickCount + 1 } b).handle a = ta.sending b)
    (then_b : ta.work.handle b = tab.work)
    (second : (State.sending { u with pickCount := u.pickCount + 1 } a).handle b = tb.sending a)
    (then_a : tb.work.handle a = tba.work) :
    act f s = .next tab ∨ act f s = .next tba := by
  have room := ({ u.work with agenda := [a, b] } : Work).length_le_bound
  obtain ⟨n, bound⟩ := Nat.exists_eq_add_of_le' room
  have bound : ({ u.work with agenda := [a, b] } : Work).bound = n + 1 + 1 := bound
  have last {t t' : State} {e : Event} (takes : t.work.handle e = t'.work) :
      Work.drain (n + 1) (t.sending e) = t'.work := by
    have alone : ∀ f ∈ ([] : List Event), f.follows e = true :=
      fun f hf => absurd hf List.not_mem_nil
    rw [Work.drain_head (w := t.sending e) rfl alone]
    exact (congrArg _ takes).trans (Work.drain_idle rfl n)
  have next : ({ u.work with agenda := [a, b] } : Work).nextEvent =
      some (a, State.sending { u with pickCount := u.pickCount + 1 } b) ∨
      ({ u.work with agenda := [a, b] } : Work).nextEvent =
        some (b, State.sending { u with pickCount := u.pickCount + 1 } a) := by
    unfold Work.nextEvent
    rw [show ({ u.work with agenda := [a, b] } : Work).agenda = [a, b] from rfl, nextEvents_pair free]
    rcases Nat.mod_two_eq_zero_or_one (Config.pick u.pickCount) with k | k
    · left
      simp [Work.anyBelow, k, State.work, State.sending]
    · right
      simp [Work.anyBelow, k, State.work, State.sending]
  rw [act_eq, sends, Work.settle, bound, Work.drain]
  rcases next with next | next <;> rw [next] <;> dsimp only
  · left
    rw [first, last then_b]
    rfl
  · right
    rw [second, last then_a]
    rfl

/-- The step of a command that sends two messages of which the second comes after the first. -/
theorem act_ordered {f : Work → Work} {s u v t : State} {a b : Event}
    (sends : f s.work = { u.work with agenda := [a, b] }) (after : b.follows a = true)
    (first : (u.sending b).handle a = v.sending b) (last : v.work.handle b = t.work) :
    act f s = .next t := by
  have room := ({ u.work with agenda := [a, b] } : Work).length_le_bound
  obtain ⟨n, bound⟩ := Nat.exists_eq_add_of_le' room
  have bound : ({ u.work with agenda := [a, b] } : Work).bound = n + 1 + 1 := bound
  have alone : ∀ f ∈ ([] : List Event), f.follows b = true := fun f hf => absurd hf List.not_mem_nil
  have whole : (f s.work).settle = t.work := by
    rw [sends, Work.settle, bound, Work.drain_head (w := { u.work with agenda := [a, b] }) rfl
      (fun f hf => List.mem_singleton.1 hf ▸ after)]
    refine (congrArg (Work.drain (n + 1)) first).trans ?_
    rw [Work.drain_head (w := v.sending b) rfl alone]
    exact (congrArg (Work.drain n) last).trans (Work.drain_idle rfl n)
  rw [act_eq, whole]
  rfl

/-! ### Results of host entries (R136 (3)) -/

/-- A result that carries no data back to its host request. -/
def Result.Dataless (r : Result) : Prop := r ≠ .ok ∧ r ≠ .dataCheck

theorem Pool.takeBack_takeBack (pool : Pool) (a b : List PageNo) :
    (pool.takeBack a).takeBack b = pool.takeBack (a ++ b) := by
  simp only [Pool.takeBack, List.append_assoc, List.length_append, Nat.sub_sub]

theorem Pool.takeBack_nil (pool : Pool) : pool.takeBack [] = pool := by
  simp only [Pool.takeBack, List.append_nil, List.length_nil, Nat.sub_zero]

/-- A host entry's result: its request is answered, and its page given back (R32, R136 (3)). -/
theorem Work.takeResult_host {w : Work} {e : Entry} {r : Result} (host : e.ofHost = true)
    (dataless : r.Dataless) (nobody : w.pool.waitList = []) :
    w.takeResult e { result := r } = { w with
      host := w.host.answerEntries r [e], pool := w.pool.takeBack e.kind.page.toList } := by
  obtain ⟨notOk, notCheck⟩ := dataless
  obtain ⟨serial, kind, port, lba, cyl, head, sector, addrTries, dataTries, passed, active⟩ := e
  cases kind with
  | streamWrite | streamRead => cases host
  | hostRead tag page =>
    have quiet : (r == .ok || r == .dataCheck) = false := by simp [notOk, notCheck]
    simp only [Work.takeResult, Work.hostResult, quiet, Bool.false_eq_true, if_false]
    rw [Work.releaseHost_nobody (w := w.answer tag r _) page nobody]
    rfl
  | hostWrite tag page =>
    simp only [Work.takeResult, Work.hostResult]
    rw [Work.releaseHost_nobody (w := w.answer tag r _) page nobody]
    rfl
  | format tag lock =>
    simp only [Work.takeResult, Work.hostResult, if_neg notOk]
    rw [EntryKind.page, Option.toList_none, Pool.takeBack_nil]
    rfl

theorem HostLine.answerEntries_cons (h : HostLine) (r : Result) (e : Entry) (l : List Entry) :
    h.answerEntries r (e :: l) = (h.answerEntries r [e]).answerEntries r l := by
  obtain ⟨serial, kind, port, lba, cyl, head, sector, addrTries, dataTries, passed, active⟩ := e
  cases kind <;> rfl

/-- The results of a port's host entries are taken in their order, and then what follows them. -/
theorem Work.drain_hostResults {p : PortNo} {r : Result} (dataless : r.Dataless) {l : List Entry}
    (host : ∀ e ∈ l, e.ofHost = true ∧ e.port = p) {tail : List Event}
    (later : ∀ f ∈ tail, ∀ e : Entry, e.port = p → f.follows (.result e { result := r }) = true)
    {w : Work} (nobody : w.pool.waitList = [])
    (agenda : w.agenda = (l.map fun e => .result e { result := r }) ++ tail) (n : Nat) :
    Work.drain (l.length + n) w = Work.drain n { w with
      host := w.host.answerEntries r l
      pool := w.pool.takeBack (l.filterMap fun e => e.kind.page)
      agenda := tail } := by
  induction l generalizing w with
  | nil =>
    rw [List.filterMap_nil, Pool.takeBack_nil, List.length_nil, Nat.zero_add]
    rw [List.map_nil, List.nil_append] at agenda
    rw [← agenda]
    rfl
  | cons e l ih =>
    obtain ⟨isHost, port⟩ := host e List.mem_cons_self
    have others (f : Entry) (hf : f ∈ l) : f.ofHost = true ∧ f.port = p :=
      host f (List.mem_cons_of_mem _ hf)
    have after (f : Event) (hf : f ∈ (l.map fun e => Event.result e { result := r }) ++ tail) :
        f.follows (.result e { result := r }) = true := by
      rcases List.mem_append.1 hf with hf | hf
      · obtain ⟨g, hg, rfl⟩ := List.mem_map.1 hf
        simp [Event.follows, (others g hg).2, port]
      · exact later f hf e port
    have pages : e.kind.page.toList ++ l.filterMap (fun e => e.kind.page) =
        (e :: l).filterMap fun e => e.kind.page := by
      rw [List.filterMap_cons]
      cases e.kind.page <;> rfl
    let taken : Work := { w with
      host := w.host.answerEntries r [e], pool := w.pool.takeBack e.kind.page.toList
      agenda := (l.map fun e => .result e { result := r }) ++ tail }
    have takes : ({ w with agenda := (l.map fun e => .result e { result := r }) ++ tail } :
        Work).handle (.result e { result := r }) = taken :=
      Work.takeResult_host (w := { w with agenda := _ }) isHost dataless nobody
    rw [List.map_cons, List.cons_append] at agenda
    rw [List.length_cons, Nat.add_right_comm, Work.drain_head agenda after, takes,
      HostLine.answerEntries_cons, ← pages, ← Pool.takeBack_takeBack]
    exact ih (w := taken) others nobody rfl

/-- What is left of a step that sends results of host entries and then `tail`. -/
theorem Work.settle_hostResults {p : PortNo} {r : Result} (dataless : r.Dataless) {l : List Entry}
    (host : ∀ e ∈ l, e.ofHost = true ∧ e.port = p) {tail : List Event}
    (later : ∀ f ∈ tail, ∀ e : Entry, e.port = p → f.follows (.result e { result := r }) = true)
    {w : Work} (nobody : w.pool.waitList = [])
    (agenda : w.agenda = (l.map fun e => .result e { result := r }) ++ tail) :
    ∃ n, w.settle = Work.drain (n + tail.length) { w with
      host := w.host.answerEntries r l
      pool := w.pool.takeBack (l.filterMap fun e => e.kind.page)
      agenda := tail } := by
  have room := w.length_le_bound
  rw [agenda, List.length_append, List.length_map] at room
  obtain ⟨n, bound⟩ := Nat.exists_eq_add_of_le room
  refine ⟨n, ?_⟩
  rw [Work.settle, bound, Nat.add_assoc, Nat.add_comm tail.length,
    Work.drain_hostResults dataless host later nobody agenda]

/-- The step of a command that sends results of host entries and nothing else. -/
theorem act_hostResults {f : Work → Work} {s u : State} {p : PortNo} {r : Result}
    (dataless : r.Dataless) {l : List Entry} (host : ∀ e ∈ l, e.ofHost = true ∧ e.port = p)
    (nobody : u.pool.waitList = [])
    (sends : f s.work = { u.work with agenda := l.map fun e => .result e { result := r } }) :
    act f s = .next { u with
      host := u.host.answerEntries r l
      pool := u.pool.takeBack (l.filterMap fun e => e.kind.page) } := by
  obtain ⟨n, settled⟩ := Work.settle_hostResults (tail := []) dataless host
    (fun f hf => absurd hf List.not_mem_nil)
    (w := { u.work with agenda := l.map fun e => .result e { result := r } }) nobody
    (List.append_nil _).symm
  rw [act_eq, sends, settled, Work.drain_idle rfl]
  rfl

/-- The step of a command that sends results of host entries and one message that comes after them. -/
theorem act_hostResults_then {f : Work → Work} {s u t : State} {p : PortNo} {r : Result} {d : Event}
    (dataless : r.Dataless) {l : List Entry} (host : ∀ e ∈ l, e.ofHost = true ∧ e.port = p)
    (later : ∀ e : Entry, e.port = p → d.follows (.result e { result := r }) = true)
    (nobody : u.pool.waitList = [])
    (sends : f s.work = { u.work with
      agenda := (l.map fun e => .result e { result := r }) ++ [d] })
    (takes : ({ u with
      host := u.host.answerEntries r l
      pool := u.pool.takeBack (l.filterMap fun e => e.kind.page) } : State).work.handle d = t.work) :
    act f s = .next t := by
  obtain ⟨n, settled⟩ := Work.settle_hostResults (tail := [d]) dataless host
    (fun f hf => List.mem_singleton.1 hf ▸ later)
    (w := { u.work with agenda := (l.map fun e => .result e { result := r }) ++ [d] }) nobody rfl
  have alone : ∀ f ∈ ([] : List Event), f.follows d = true := fun f hf => absurd hf List.not_mem_nil
  have last := Work.drain_head (w := { u.work with
    host := u.host.answerEntries r l
    pool := u.pool.takeBack (l.filterMap fun e => e.kind.page)
    agenda := [d] }) rfl alone n
  have whole : (f s.work).settle = t.work := by
    rw [sends, settled, List.length_singleton]
    refine last.trans ?_
    exact (congrArg (Work.drain n) takes).trans (Work.drain_idle rfl n)
  rw [act_eq, whole]
  rfl

end Sys2Proof.Machine

/-! PROOFS. The drive ports: attach and return, going offline, positioning and its failures, and
PORT_DETACH (R109, R112, R113, R117 to R124). -/

namespace Sys2Proof.Machine

/-! ### Attach (R112, R113) -/

theorem Geometry.inRange_iff (g : Geometry) : g.inRange = true ↔
    1 ≤ g.cylinders ∧ g.cylinders ≤ 4096 ∧ 1 ≤ g.heads ∧ g.heads ≤ 16 ∧ 8 ≤ g.sectors ∧
      g.sectors ≤ 64 := by
  simp [Geometry.inRange, and_assoc]

/-- The record of a port whose attach has failed (R112, R113). -/
def Port.attachFailed (pt : Port) : Port :=
  { pt with
    state := .absent, attachPending := none, attachGeometry := none, lastMark := none
    outstanding := none }

theorem Work.failAttach_answers {w : Work} {p : PortNo} {tag : Byte}
    (pending : (w.port p).attachPending = some tag) (r : Result) (payload : List Byte) :
    w.failAttach p r payload = (w.updPort p Port.attachFailed).answer tag r payload := by
  unfold Work.failAttach
  rw [pending]
  rfl

/-- The state in which an attach has failed and its request has been answered. -/
def State.attachFails (s : State) (p : PortNo) (tag : Byte) (r : Result) (payload : List Byte) :
    State :=
  { s.withPort p s.ports[p].attachFailed with host := s.host.answer tag r payload }

theorem State.failAttach_work {s : State} {p : PortNo} {tag : Byte}
    (pending : s.ports[p].attachPending = some tag) (r : Result) (payload : List Byte) :
    s.work.failAttach p r payload = (s.attachFails p tag r payload).work :=
  Work.failAttach_answers (w := s.work) pending r payload

/-- IDENT at a port that waits for it (R112, R122). -/
theorem exec_ident_awaited {s : State} {p : PortNo} (cylinders : Half) (heads sectors : Byte)
    (ready : Bool) (high : s.resetLow = false) (awaited : s.ports[p].outstanding = some .identify) :
    exec (.ident p cylinders heads sectors ready) s = act (fun w =>
      match (w.port p).state with
      | .attaching => w.identAttach p ⟨cylinders.toNat, heads.toNat, sectors.toNat⟩ ready
      | .offline => w.identReturn p ⟨cylinders.toNat, heads.toNat, sectors.toNat⟩ ready
      | _ => w) s := by
  rw [exec_ident, execIdent, actUnlessReset_high high]
  exact act_congr (if_pos awaited)

/-- Settles O46: IDENT, its timeout and NOT_READY at an attaching port, and the failures of its
restore. -/
theorem attachTakesItsAnswer : Obligations.AttachTakesItsAnswer := by
  unfold Obligations.AttachTakesItsAnswer
  refine ⟨?_, ?_⟩
  · intro s p cylinders heads sectors ready tag high attaching awaited pending pt g good fails
    have state : (s.work.port p).state = .attaching := attaching
    have ident : exec (.ident p cylinders heads sectors ready) s =
        act (·.identAttach p g ready) s := by
      rw [exec_ident_awaited cylinders heads sectors ready high awaited]
      exact act_congr (by rw [state])
    have inRange : g.inRange = true ↔ good := g.inRange_iff
    refine ⟨fun bad => ?_, fun fits away => ?_, fun fits here => ?_, ?_, ?_⟩
    · rw [ident]
      refine act_next ((if_pos ?_).trans (State.failAttach_work pending _ _))
      rw [Bool.not_eq_true', ← Bool.not_eq_true, inRange]
      exact bad
    · rw [ident]
      refine act_next ((if_neg ?_).trans ((if_pos (by rw [away]; rfl)).trans
        (State.failAttach_work pending _ _)))
      rw [inRange.2 fits]
      nofun
    · rw [ident]
      refine act_next ((if_neg ?_).trans (if_neg (by rw [here]; nofun)))
      rw [inRange.2 fits]
      nofun
    · rw [exec_identifyTimeout, execIdentifyTimeout]
      refine actUnlessReset_next high ((if_pos awaited).trans ?_)
      rw [state]
      exact State.failAttach_work pending _ _
    · have still : (s.work.port p).watches = false := by rw [Port.watches, state]
      rw [exec_notReady, execNotReady]
      refine actUnlessReset_next high ((if_neg (by rw [still]; nofun)).trans ?_)
      rw [state]
      exact State.failAttach_work pending _ _
  · intro s p c r tag high event restoring pending
    have state : (s.work.port p).state = .restoring := restoring
    have attach : (s.work.port p).attachPending = some tag := pending
    have restore : s.work.restoreFailed p = (s.attachFails p tag .positionFault []).work :=
      (if_pos (by rw [attach]; rfl)).trans (State.failAttach_work pending _ _)
    rcases event with ⟨rfl | rfl, rfl⟩ | ⟨rfl, rfl⟩
    · rw [exec_restoreTimeout, execRestoreTimeout]
      exact actUnlessReset_next high ((if_pos state).trans restore)
    · rw [exec_positionFault, execPositionFault]
      refine actUnlessReset_next high (Eq.trans ?_ restore)
      rw [state]
    · have still : (s.work.port p).watches = false := by rw [Port.watches, state, attach]; rfl
      rw [exec_notReady, execNotReady]
      refine actUnlessReset_next high ((if_neg (by rw [still]; nofun)).trans ?_)
      rw [state]
      exact State.failAttach_work pending _ _

/-! ### The return of a drive (R122) -/

/-- Settles O47: READY, and the answers to IDENTIFY, at an OFFLINE port. -/
theorem offlineDrivesReturn : Obligations.OfflineDrivesReturn := by
  unfold Obligations.OfflineDrivesReturn
  intro s p cylinders heads sectors kept high offline geometry pt g silent
  have state : (s.work.port p).state = .offline := offline
  refine ⟨fun cause free => ?_, fun busy => ?_, fun awaited => ?_⟩
  · rw [exec_ready, execReady]
    exact actUnlessReset_next high (if_pos ⟨offline, cause, free⟩)
  · rw [exec_ready, execReady]
    refine actUnlessReset_next high (if_neg ?_)
    rintro ⟨-, cause, free⟩
    exact busy.elim cause fun out => out free
  · have ident (ready : Bool) : exec (.ident p cylinders heads sectors ready) s =
        act (·.identReturn p g ready) s := by
      rw [exec_ident_awaited cylinders heads sectors ready high awaited]
      exact act_congr (by rw [state])
    refine ⟨?_, ?_, ?_, fun same => ?_, fun other => ?_⟩
    · rw [ident]
      exact act_next (if_pos rfl)
    · rw [exec_identifyTimeout, execIdentifyTimeout]
      refine actUnlessReset_next high ((if_pos awaited).trans ?_)
      rw [state]
      rfl
    · have still : (s.work.port p).watches = false := by rw [Port.watches, state]
      rw [exec_notReady, execNotReady]
      refine actUnlessReset_next high ((if_neg (by rw [still]; nofun)).trans ?_)
      rw [state]
      exact if_pos awaited
    · rw [ident]
      refine act_next ((if_neg nofun).trans (if_pos ?_))
      exact geometry.trans (congrArg some same.symm)
    · rw [ident]
      refine act_next ((if_neg nofun).trans ((if_neg ?_).trans ?_))
      · intro e
        exact other (Option.some.inj ((show pt.geometry = some g from e).symm.trans geometry))
      · have keeps : ((s.work.updPort p fun pt => { pt with
            offlineCause := some .geometry, outstanding := none }).port p).geometry = some kept := by
          rw [Work.port_updPort_self]
          exact geometry
        unfold Work.portChange Work.portNotice
        rw [keeps]
        rfl

/-! ### Going offline (R119, R120) -/

/-- The port watches its drive in the five states of R120. -/
theorem Port.watches_of_state {pt : Port} (noAttach : pt.attachPending = none)
    (state : pt.state = .restoring ∨ pt.state = .idle ∨ pt.state = .positioning ∨
      pt.state = .waitSector ∨ pt.state = .active) : pt.watches = true := by
  rcases state with h | h | h | h | h <;> simp [Port.watches, h, noAttach]

/-- NOT_READY, MARK_TIMEOUT and a failed restore take an attached port OFFLINE. -/
theorem exec_goesOffline {s : State} {p : PortNo} {c : Instr} {cause : OfflineCause}
    (high : s.resetLow = false) (noAttach : s.ports[p].attachPending = none)
    (event : c = .notReady p ∧ cause = .notReady ∨ c = .markTimeout p ∧ cause = .marks ∨
      c = .restoreTimeout p ∧ cause = .restore ∧ s.ports[p].state = .restoring ∨
      c = .positionFault p ∧ cause = .restore ∧ s.ports[p].state = .restoring)
    (watches : s.ports[p].watches = true) : exec c s = act (·.goOffline p cause) s := by
  have fails : s.work.restoreFailed p = s.work.goOffline p .restore :=
    if_neg (by rw [show (s.work.port p).attachPending = none from noAttach]; nofun)
  rcases event with ⟨rfl, rfl⟩ | ⟨rfl, rfl⟩ | ⟨rfl, rfl, restoring⟩ | ⟨rfl, rfl, restoring⟩
  · rw [exec_notReady, execNotReady, actUnlessReset_high high]
    exact act_congr (if_pos watches)
  · rw [exec_markTimeout, execMarkTimeout, actUnlessReset_high high]
    exact act_congr (if_pos watches)
  · rw [exec_restoreTimeout, execRestoreTimeout, actUnlessReset_high high]
    exact act_congr ((if_pos restoring).trans fails)
  · rw [exec_positionFault, execPositionFault, actUnlessReset_high high]
    refine act_congr (Eq.trans ?_ fails)
    rw [show (s.work.port p).state = .restoring from restoring]

/-- An entry without a page leaves no bytes when it is cut (R137). -/
theorem Work.cutRead_pageless (w : Work) (p : PortNo) {e : Entry} (none : e.kind.page = .none) :
    w.cutRead p e = w := by
  unfold Work.cutRead
  rw [none]

/-- The engine is released if the port holds it. -/
def State.engineFreed (s : State) (p : PortNo) : State :=
  { s with engine := if s.engine.holder = some p then {} else s.engine }

theorem State.engineFreed_work (s : State) (p : PortNo) :
    (if s.work.engine.holder = some p then s.work.releaseEngine else s.work) =
      (s.engineFreed p).work := by
  unfold State.engineFreed
  by_cases holds : s.engine.holder = some p
  · rw [if_pos holds]
    exact if_pos holds
  · rw [if_neg holds]
    exact if_neg holds

/-- The state in which a port has gone OFFLINE, with its results and its notice still to come. -/
def State.wentOffline (s : State) (p : PortNo) (cause : OfflineCause) : State :=
  (s.engineFreed p).withPort p (s.ports[p].offlineRecord cause)

/-- A port whose queue holds nothing that reads goes OFFLINE, offers PORT_CHANGE and sends the results
of its entries, the ACTIVE one first (R120). -/
theorem Work.goOffline_eq {s : State} {p : PortNo} (cause : OfflineCause)
    (unread : ∀ e ∈ s.ports[p].queue, e.kind.page = none)
    (quiet : ∀ i : StreamNo, s.streams[i].waitedPort ≠ some p) :
    let gone := s.ports[p].activeEntry.toList ++ s.ports[p].queued
    s.work.goOffline p cause = { (s.wentOffline p cause).work with
      agenda := .offer (.portChange p .offline (.offline cause) s.ports[p].geometry none gone.length) ::
        gone.map offlineResult } := by
  intro gone
  have cut : (s.work.port p).activeEntry.toList.foldl (·.cutRead p) s.work = s.work := by
    rcases active : (s.work.port p).activeEntry with _ | e
    · rfl
    · exact Work.cutRead_pageless _ p (unread e (List.mem_of_find?_eq_some active))
  unfold Work.goOffline
  dsimp only
  rw [cut, State.engineFreed_work]
  let v := (s.wentOffline p cause).work
  let offer : Event := .offer
    (.portChange p .offline (.offline cause) s.ports[p].geometry none gone.length)
  have record : v.port p = s.ports[p].offlineRecord cause := Vector.getElem_set_self _
  have geometry : (v.port p).geometry = s.ports[p].geometry := by rw [record]; rfl
  have notice : Event.offer (v.portNotice p .offline (.offline cause) none gone.length) = offer := by
    rw [Work.portNotice, geometry]
  have posts : v.post (.offer (v.portNotice p .offline (.offline cause) none gone.length)) =
      { v with agenda := [offer] } := congrArg v.post notice
  refine Eq.trans (b := if gone = [] then { v with agenda := [offer] }
    else ({ v with agenda := [offer] } : Work).deliver p (gone.map offlineResult)) ?_ ?_
  · rw [← posts]
    rfl
  · split
    next none =>
      have nothing : gone.map offlineResult = [] := List.map_eq_nil_iff.2 none
      rw [nothing]
    next => exact Work.Unawaited.deliver (w := { v with agenda := [offer] }) quiet _

/-- A format's result, which carries no data, answers its request (R136, R140). -/
theorem Work.takeResult_format {w : Work} {e : Entry} {tag : Byte} {lock : Bool}
    (format : e.kind = .format tag lock) {r : Result} (failed : r ≠ .ok) :
    w.takeResult e { result := r } = w.answer tag r [] := by
  unfold Work.takeResult
  rw [format]
  unfold Work.hostResult
  rw [format]
  exact congrArg (w.answer tag r) (if_neg failed)

/-- Settles O48: the record, and PORT_CHANGE with the one result before or after it. -/
theorem portsGoOffline : Obligations.PortsGoOffline := by
  unfold Obligations.PortsGoOffline
  intro s p c cause high noAttach event states quiet pt off freed told
  have run := exec_goesOffline high noAttach event (Port.watches_of_state noAttach states)
  refine ⟨fun none => ?_, fun e tag lock one format => ?_⟩
  · have unread : ∀ e ∈ pt.queue, e.kind.page = .none := by rw [none]; nofun
    have nobody : pt.activeEntry.toList ++ pt.queued = [] := by
      rw [Port.activeEntry, Port.queued, none]
      rfl
    have sends := Work.goOffline_eq cause unread quiet
    dsimp only at sends
    rw [nobody] at sends
    rw [run]
    exact act_single (t := told freed 0) sends rfl
  · have unread : ∀ f ∈ pt.queue, f.kind.page = .none := by
      rw [one]
      intro f hf
      rw [List.mem_singleton.1 hf, format]
      rfl
    have alone : pt.activeEntry.toList ++ pt.queued = [e] := by
      rw [Port.activeEntry, Port.queued, one]
      rcases active : e.active <;> simp [active]
    have sends := Work.goOffline_eq cause unread quiet
    dsimp only at sends
    rw [alone] at sends
    intro chosen answered
    rw [run]
    have takes (w : Work) : w.handle (offlineResult e) = w.answer tag .offline [] :=
      Work.takeResult_format format nofun
    exact act_pair sends rfl (ta := told chosen 1) (tb := answered chosen) rfl (takes _) (takes _) rfl

/-! ### POSITIONED (R113, R117, R119, R122) -/

/-- POSITIONED, by the state of the port (R109). -/
theorem exec_positioned_cases {s : State} (p : PortNo) (cylinder : Half) (high : s.resetLow = false) :
    (s.ports[p].state = .positioning → exec (.positioned p cylinder) s = act (fun w =>
      if (w.port p).target = some cylinder.toNat then w.updPort p (·.arrive cylinder.toNat) else w) s) ∧
    (s.ports[p].state = .restoring → exec (.positioned p cylinder) s = act (fun w =>
      if cylinder.toNat = 0 then w.restored p else w) s) := by
  rw [exec_positioned, execPositioned, actUnlessReset_high high]
  refine ⟨fun positioning => act_congr ?_, fun restoring => act_congr ?_⟩ <;> dsimp only
  · rw [show (s.work.port p).state = _ from positioning]
  · rw [show (s.work.port p).state = _ from restoring]

/-- The end of a restore for an attach (R113 (1)). -/
theorem Work.restored_attach {w : Work} {p : PortNo} {tag : Byte} {g : Geometry}
    (pending : (w.port p).attachPending = some tag) (figures : (w.port p).attachGeometry = some g) :
    w.restored p = (w.updPort p fun pt => { pt with
      state := .idle, geometry := some g, attachGeometry := none, attachPending := none
      curCyl := some 0, outstanding := none }).answer tag .ok
      (geometryBytes (some g) ++ beBytes 4 g.capacity) := by
  unfold Work.restored
  dsimp only
  rw [pending]
  dsimp only
  rw [figures]
  rfl

/-- The end of a restore of an attached port (R119 (1)). -/
theorem Work.restored_attached {w : Work} {p : PortNo} (noAttach : (w.port p).attachPending = none)
    (online : (w.port p).offlineCause = none) :
    (∀ c, (w.port p).target = some c → c ≠ 0 → w.restored p =
      w.updPort p fun pt => Port.send { pt with state := .positioning } (.position c)) ∧
    ((w.port p).target = none ∨ (w.port p).target = some 0 →
      w.restored p = w.updPort p (·.arrive 0)) := by
  unfold Work.restored
  dsimp only
  rw [noAttach]
  dsimp only
  rw [online]
  refine ⟨fun c target away => ?_, fun target => ?_⟩
  · rw [target]
    exact if_neg away
  · rcases target with target | target <;> rw [target] <;> rfl

/-- The end of the restore of a drive that has returned (R122 (1)): PORT_CHANGE, then the choice. -/
theorem Work.restored_returned {w : Work} {p : PortNo} (noAttach : (w.port p).attachPending = none)
    {cause : OfflineCause} (offline : (w.port p).offlineCause = some cause) :
    w.restored p = (w.updPort p fun pt => Port.choose { pt with
        state := .idle, curCyl := some 0, offlineCause := none, outstanding := none }).raise
      (.portChange p .idle .ready (w.port p).geometry none 0) := by
  have geometry : ((w.updPort p fun pt => { pt with
      state := .idle, curCyl := some 0, offlineCause := none, outstanding := none }).port p).geometry =
      (w.port p).geometry := by rw [Work.port_updPort_self]
  unfold Work.restored
  dsimp only
  rw [noAttach]
  dsimp only
  rw [offline]
  refine (if_pos rfl).trans ?_
  unfold Work.portChange Work.portNotice
  rw [geometry]
  unfold Work.raise Work.updHost Work.updPort
  simp

/-- Settles O49: POSITIONED in each state of the port, and the three ends of a restore. -/
theorem positionedArrives : Obligations.PositionedArrives := by
  unfold Obligations.PositionedArrives
  intro s p cylinder high pt reached
  obtain ⟨positioning, restoring⟩ := exec_positioned_cases p cylinder high
  have home {c : Half} (zero : c = 0) : c.toNat = 0 := by rw [zero]; rfl
  refine ⟨fun state target => ?_, fun state target => ?_, fun state away => ?_,
    fun tag g state zero pending figures => ?_, fun state zero noAttach online =>
      ⟨fun cyl target away => ?_, fun target => ?_⟩,
    fun cause state zero noAttach offline empty => ?_,
    fun cause state zero noAttach offline some => ?_⟩
  · rw [positioning state]
    exact act_next (if_pos target)
  · rw [positioning state]
    exact act_next (if_neg target)
  · rw [restoring state]
    exact act_next (if_neg fun zero => away (BitVec.eq_of_toNat_eq zero))
  all_goals
    rw [restoring state]
    refine act_next ((if_pos (home zero)).trans ?_)
  · exact Work.restored_attach (w := s.work) pending figures
  · exact (Work.restored_attached (w := s.work) noAttach online).1 cyl target away
  · exact (Work.restored_attached (w := s.work) noAttach online).2 target
  · have idle : Port.choose { pt with
        state := .idle, curCyl := some 0, offlineCause := none, outstanding := none } = { pt with
        state := .idle, curCyl := some 0, offlineCause := none, outstanding := none
        chosen := none } := Port.choose_idle empty
    rw [← idle]
    exact Work.restored_returned (w := s.work) noAttach offline
  · exact Work.restored_returned (w := s.work) noAttach offline

/-! ### Failed positionings (R118) -/

/-- A positioning that fails at a positioning port (R118). -/
theorem exec_failsPositioning {s : State} {p : PortNo} {c : Instr} (high : s.resetLow = false)
    (event : c = .positionFault p ∨ c = .positioningTimeout p)
    (state : s.ports[p].state = .positioning) : exec c s = act (·.failPositioning p) s := by
  rcases event with rfl | rfl
  · rw [exec_positionFault, execPositionFault, actUnlessReset_high high]
    exact act_congr (by rw [show (s.work.port p).state = _ from state])
  · rw [exec_positioningTimeout, execPositioningTimeout, actUnlessReset_high high]
    exact act_congr (if_pos state)

/-- A failed positioning in the words of R118: tried again after a restore, or the target given up. -/
def Port.failedOnce (pt : Port) : Port :=
  { pt with
    state := .restoring, curCyl := none, chosen := none, failedTarget := pt.target
    posFaults := satAdd top32 pt.posFaults 1, restores := satAdd top32 pt.restores 1
    outstanding := some .restore, line := some (.command .restore) }

/-- The QUEUED entries for the target of a positioning (R118 (3)). -/
def Port.onTarget (pt : Port) : List Entry :=
  pt.queue.filter fun e => !e.active && (pt.target == some e.cyl)

/-- The record of a port that gives its target up (R118 (3)). -/
def Port.gaveUp (pt : Port) : Port :=
  { pt.failedOnce with
    queue := pt.queue.filter fun e => !(!e.active && (pt.target == some e.cyl))
    target := none, posTries := 0
    recovery := if pt.onTarget.any (fun e => pt.recovery == some e.serial) then none else pt.recovery }

theorem Work.failPositioning_again {w : Work} {p : PortNo} (few : (w.port p).posTries < 2) :
    w.failPositioning p = w.updPort p fun pt => { pt.failedOnce with posTries := pt.posTries + 1 } := by
  unfold Work.failPositioning
  exact if_neg (by omega)

theorem Work.failPositioning_givesUp {w : Work} {p : PortNo} (many : 2 ≤ (w.port p).posTries) :
    w.failPositioning p =
      if (w.port p).onTarget = [] then w.updPort p Port.gaveUp
      else (w.updPort p Port.gaveUp).deliver p
        ((w.port p).onTarget.map fun e => .result e { result := .positionFault }) := by
  unfold Work.failPositioning
  exact if_pos (by omega)

/-- Settles O50: the first two failures, and the third with and without entries for the target. -/
theorem positioningFails : Obligations.PositioningFails := by
  unfold Obligations.PositioningFails
  intro s p c high event state pt restored onTarget
  rw [exec_failsPositioning high event state]
  refine ⟨fun few => ?_, fun many none => ?_, fun many some host quiet nobody => ?_⟩
  · exact act_next (Work.failPositioning_again (w := s.work) few)
  · have kept : pt.queue.filter (fun e => !(!e.active && (pt.target == .some e.cyl))) = pt.queue :=
      List.filter_eq_self.2 fun e he => by
        rw [Bool.eq_false_iff.2 (List.filter_eq_nil_iff.1 none e he)]
        rfl
    have record : pt.gaveUp = { restored with posTries := 0, target := .none } := by
      unfold Port.gaveUp
      rw [kept, show pt.onTarget = [] from none]
      rfl
    rw [← record]
    exact act_next ((Work.failPositioning_givesUp (w := s.work) many).trans (if_pos none))
  · have record : pt.gaveUp = { restored with
        posTries := 0, target := .none
        queue := pt.queue.filter fun e => e.active || pt.target != .some e.cyl
        recovery := if onTarget.any (fun e => pt.recovery == .some e.serial) then .none
          else pt.recovery } := by
      unfold Port.gaveUp
      simp only [Bool.not_and, Bool.not_not]
      rfl
    rw [← record]
    refine act_hostResults (u := s.withPort p pt.gaveUp) (r := .positionFault) ⟨nofun, nofun⟩ host nobody
      (((Work.failPositioning_givesUp (w := s.work) many).trans (if_neg some)).trans ?_)
    exact Work.Unawaited.deliver (w := (s.withPort p pt.gaveUp).work) quiet _

/-! ### PORT_DETACH (R124) -/

theorem Work.extentsOn_iff (w : Work) (p : PortNo) : w.extentsOn p = true ↔
    ∃ (i : StreamNo) (e : Extent), e ∈ (w.stream i).extents ∧ e.port = p := by
  simp only [Work.extentsOn, Work.any_allExtents_iff, beq_iff_eq]

theorem Work.detachRefused_iff (w : Work) (p : PortNo) : w.detachRefused p = true ↔
    (w.port p).state = .absent ∨ (w.port p).attachPending ≠ none ∨ (w.port p).detachPending ≠ none ∨
      (∃ (i : StreamNo) (e : Extent), e ∈ (w.stream i).extents ∧ e.port = p) ∨
      ∃ e ∈ (w.port p).queue, e.kind.stream ≠ none := by
  simp only [Work.detachRefused, Bool.or_eq_true, Work.extentsOn_iff, beq_iff_eq,
    Option.isSome_iff_ne_none, List.any_eq_true, or_assoc]

theorem servePortDetach_byte (tag : Byte) (p : PortNo) (w : Work) :
    servePortDetach tag [portByte p] w =
      if w.detachRefused p = true then w.answer tag .state [] else w.detachPort p tag :=
  Work.checked_of_parse rfl (parsePortArg_portByte p)

/-- The end of a detach (R124): the pending part is absent and the request answered. -/
theorem Work.finishDetach_answers {w : Work} {p : PortNo} {tag : Byte}
    (pending : (w.port p).detachPending = some tag) : w.finishDetach p =
      (w.updPort p fun pt => { pt with detachPending := none, attachGeometry := none }).answer tag .ok
        [] := by
  unfold Work.finishDetach
  rw [pending]
  rfl

/-- The work of a detach (R124), by what is QUEUED and what is ACTIVE. -/
theorem Work.detachPort_eq (w : Work) (p : PortNo) (tag : Byte) : w.detachPort p tag =
    (let v := w.updPort p (·.detachRecord tag)
    let v := if (w.port p).queued = [] then v
      else v.deliver p ((w.port p).queued.map fun e => .result e { result := .aborted })
    if (w.port p).activeEntry.isSome then v else v.post (.detached p)) := rfl

/-- Changing the port a state has just been given. -/
theorem Work.updPort_withPort (s : State) (p : PortNo) (a : Port) (f : Port → Port) :
    (s.withPort p a).work.updPort p f = (s.withPort p (f a)).work := by
  have record : (s.withPort p a).work.ports[p] = a := Vector.getElem_set_self _
  unfold Work.updPort
  rw [record]
  exact congrArg (fun ports => ({ s with ports := ports } : State).work) (Vector.set_set ..)

/-- The end of a detach whose request still stands in its slot (R124). -/
theorem State.finishDetach_replied {s : State} {tag : Byte} (takes : s.Takes tag) (p : PortNo)
    {record : Port} (pending : record.detachPending = some tag) :
    ((s.inService tag 0x21).withPort p record).work.finishDetach p =
      ((s.withPort p { record with detachPending := none, attachGeometry := none }).replied tag 0x21
        .ok []).work := by
  have stands : (((s.inService tag 0x21).withPort p record).work.port p).detachPending = some tag := by
    rw [show ((s.inService tag 0x21).withPort p record).work.port p = record from
      Vector.getElem_set_self _, pending]
  rw [Work.finishDetach_answers stands, Work.updPort_withPort]
  exact Work.take_answer (w := (s.withPort p
    { record with detachPending := none, attachGeometry := none }).work) takes.fresh

/-- Settles O39: the refusals, and the detach of an empty queue, of a QUEUED one, and of one entry in
the engine. -/
theorem portDetachFrees : Obligations.PortDetachFrees := by
  unfold Obligations.PortDetachFrees
  intro s tag p takes pt refused gone
  have served := servePortDetach_byte tag p (s.inService tag 0x21).work
  have refuses : (s.inService tag 0x21).work.detachRefused p = true ↔ refused :=
    Work.detachRefused_iff _ p
  rw [exec_portDetach, execPortDetach]
  refine ⟨fun h => exec_refused takes (served.trans (if_pos (refuses.2 h))), fun accepted empty => ?_,
    fun accepted some queued quiet nobody => ?_, fun e accepted one active => ?_⟩
  all_goals
    have served := served.trans (if_neg (mt refuses.1 accepted))
    have noDetach : pt.detachPending = none := by
      by_contra pending
      exact accepted (.inr (.inr (.inl pending)))
    rw [act_takeRequest takes]
  · have noQueued : pt.queued = [] := by rw [Port.queued, empty]; rfl
    have noActive : pt.activeEntry = none := by rw [Port.activeEntry, empty]; rfl
    have sends : (s.inService tag 0x21).work.detachPort p tag =
        { ((s.inService tag 0x21).withPort p (pt.detachRecord tag)).work with
          agenda := [.detached p] } := by
      rw [Work.detachPort_eq]
      dsimp only
      rw [show ((s.inService tag 0x21).work.port p).queued = [] from noQueued,
        show ((s.inService tag 0x21).work.port p).activeEntry = none from noActive]
      rfl
    have kept : pt.queue.filter (·.active) = pt.queue := by rw [empty]; rfl
    have record : { pt.detachRecord tag with detachPending := none, attachGeometry := none } =
        { gone with attachGeometry := none } := by
      simp only [Port.detachRecord, gone, noDetach, kept]
    rw [← record]
    exact act_single (served.trans sends) (State.finishDetach_replied takes p rfl)
  · have noActive : pt.activeEntry = none :=
      List.find?_eq_none.2 fun e he => by rw [(queued e he).1]; nofun
    have allQueued : pt.queued = pt.queue :=
      List.filter_eq_self.2 fun e he => by rw [(queued e he).1]; rfl
    have host (e : Entry) (he : e ∈ pt.queue) : e.ofHost = true ∧ e.port = p := by
      refine ⟨?_, (queued e he).2⟩
      rw [Entry.ofHost, Option.isNone_iff_eq_none]
      by_contra stream
      exact accepted (.inr (.inr (.inr (.inr ⟨e, he, stream⟩))))
    let u := (s.inService tag 0x21).withPort p (pt.detachRecord tag)
    have sends : (s.inService tag 0x21).work.detachPort p tag = { u.work with
        agenda := (pt.queue.map fun e => .result e { result := .aborted }) ++ [.detached p] } := by
      rw [Work.detachPort_eq]
      dsimp only
      rw [show ((s.inService tag 0x21).work.port p).queued = pt.queue from allQueued,
        show ((s.inService tag 0x21).work.port p).activeEntry = none from noActive, if_neg some]
      exact congrArg (·.post (.detached p)) (Work.Unawaited.deliver (w := u.work) quiet _)
    have none : pt.queue.filter (·.active) = [] :=
      List.filter_eq_nil_iff.2 fun e he => by rw [(queued e he).1]; nofun
    have record : { pt.detachRecord tag with detachPending := .none, attachGeometry := .none } =
        { gone with attachGeometry := .none, queue := [] } := by
      simp only [Port.detachRecord, gone, noDetach, none]
    rw [← record]
    refine act_hostResults_then (u := u) (r := .aborted) (d := .detached p) ⟨nofun, nofun⟩ host (fun e port => ?_) nobody
      (served.trans sends) ?_
    · simp [Event.follows, port]
    · let v : State := { s.inService tag 0x21 with
        host := u.host.answerEntries .aborted pt.queue
        pool := u.pool.takeBack (pt.queue.filterMap fun e => e.kind.page) }
      have stands : ((v.withPort p (pt.detachRecord tag)).work.port p).detachPending = .some tag := by
        rw [show (v.withPort p (pt.detachRecord tag)).work.port p = pt.detachRecord tag from
          Vector.getElem_set_self _]
        rfl
      refine (Work.finishDetach_answers stands).trans ?_
      rw [Work.updPort_withPort]
      rfl
  · have noQueued : pt.queued = [] := by rw [Port.queued, one]; simp [active]
    have isActive : pt.activeEntry = some e := by rw [Port.activeEntry, one]; simp [active]
    have kept : pt.queue.filter (·.active) = pt.queue := by rw [one]; simp [active]
    have record : pt.detachRecord tag = { gone with
        attachGeometry := pt.geometry, detachPending := some tag } := by
      simp only [Port.detachRecord, gone, kept, isActive, Option.isSome_some, if_true]
    rw [← record]
    refine act_next (served.trans ?_)
    rw [Work.detachPort_eq]
    dsimp only
    rw [show ((s.inService tag 0x21).work.port p).queued = [] from noQueued,
      show ((s.inService tag 0x21).work.port p).activeEntry = some e from isActive]
    rfl

end Sys2Proof.Machine

/-! PROOFS. The sector engine: marks, claims, and the completion of host entries (R116, R129 to R134,
R140). -/

namespace Sys2Proof.Machine

theorem Port.choose_detachPending (pt : Port) : pt.choose.detachPending = pt.detachPending := by
  rw [Port.choose_eq_follow]
  cases pt.choice <;> rfl

theorem State.withPort_withPort (s : State) (p : PortNo) (a b : Port) :
    (s.withPort p a).withPort p b = s.withPort p b := by
  simp only [State.withPort, Vector.set_set]

/-! ### The completion of an entry (R116, R129) -/

/-- The state in which the engine has completed an entry, with its result still on the way. -/
def State.completes (s : State) (p : PortNo) (e : Entry) : State :=
  { s.withPort p (s.ports[p].withCompleted e).choose with engine := {} }

theorem State.completes_withPort (s : State) (p : PortNo) (a : Port) (e : Entry) :
    (s.withPort p a).completes p e =
      { s.withPort p (a.withCompleted e).choose with engine := {} } := by
  unfold State.completes
  rw [State.withPort_withPort, show (s.withPort p a).ports[p] = a from Vector.getElem_set_self _]

theorem Port.chooseAgain_afterTransfer {pt : Port} (present : pt.state ≠ .absent) (e : Entry) :
    (pt.afterTransfer e).chooseAgain = (pt.withCompleted e).choose := if_neg present

/-- The engine completes an entry of an attached port: it is free, the port counts and chooses again,
and the result is on its way. -/
theorem State.engineComplete_attached {s : State} {p : PortNo} (present : s.ports[p].state ≠ .absent)
    (noDetach : s.ports[p].detachPending = none) (quiet : ∀ i : StreamNo, s.streams[i].waitedPort ≠ some p)
    (e : Entry) (done : Completion) :
    s.work.engineComplete p e done = (s.completes p e).sending (.result e done) := by
  have record : (s.work.releaseEngine.updPort p fun pt => (pt.afterTransfer e).chooseAgain) =
      (s.completes p e).work :=
    congrArg (fun pt => (({ s with engine := {} } : State).withPort p pt).work)
      (Port.chooseAgain_afterTransfer present e)
  have sent : (s.completes p e).work.deliver p [.result e done] =
      (s.completes p e).sending (.result e done) :=
    Work.Unawaited.deliver (w := (s.completes p e).work) quiet _
  have attached : (((s.completes p e).sending (.result e done)).port p).detachPending = none := by
    rw [show ((s.completes p e).sending (.result e done)).port p = (s.ports[p].withCompleted e).choose
      from Vector.getElem_set_self _, Port.choose_detachPending]
    exact noDetach
  unfold Work.engineComplete
  dsimp only
  rw [record, sent]
  exact if_neg (by rw [attached]; nofun)

/-! ### Marks (R116, R131, R140) -/

/-- One mark alone. -/
theorem exec_sectorMark_one {s : State} (p : PortNo) (m : Byte) (high : s.resetLow = false) :
    exec (.sectorMark [(p, m)]) s = act (·.takeMark p m.toNat) s := by
  rw [exec_sectorMark, execSectorMark, actUnlessReset_high high]
  refine act_congr ?_
  fin_cases p <;> rfl

/-- Two marks of one moment, the lower port's first (R131 (3)). -/
theorem exec_sectorMark_two {s : State} {p q : PortNo} (lower : p < q) (m n : Byte)
    (high : s.resetLow = false) :
    exec (.sectorMark [(p, m), (q, n)]) s =
      act (fun w => (w.takeMark p m.toNat).takeMark q n.toNat) s := by
  rw [exec_sectorMark, execSectorMark, actUnlessReset_high high]
  refine act_congr ?_
  obtain ⟨p, hp⟩ := p
  obtain ⟨q, hq⟩ := q
  have lower : p < q := lower
  interval_cases q <;> interval_cases p <;> rfl

theorem Port.sectorsPerTrack_of_geometry {pt : Port} {g : Geometry} (geometry : pt.geometry = some g) :
    pt.sectorsPerTrack = g.sectors := by
  simp only [Port.sectorsPerTrack, geometry]

/-- A mark within the track of a port that watches its drive, or restores for an attach, is its last
mark (R116). -/
theorem Work.takeMark_live {w : Work} {p : PortNo} {mark : Nat}
    (live : (w.port p).watches = true ∨ (w.port p).state = .restoring)
    (within : mark < (w.port p).sectorsPerTrack) :
    w.takeMark p mark =
      let marked := w.updPort p fun pt => { pt with lastMark := some mark }
      match (w.port p).state, (w.port p).chosenEntry with
      | .waitSector, some e => if e.sector = mark then marked.claimEngine p e else marked
      | .active, _ =>
        match marked.inPhase .format with
        | some (q, e) =>
          if q = p ∧ mark = 0 then marked.formatEnds p e (w.port p).sectorsPerTrack else marked
        | none => marked
      | _, _ => marked := by
  unfold Work.takeMark
  refine if_pos ?_
  rw [Bool.and_eq_true, Bool.or_eq_true, beq_iff_eq, decide_eq_true_eq]
  exact ⟨live, within⟩

theorem State.lastMark_work (s : State) (p : PortNo) (m : Nat) :
    (s.work.updPort p fun pt => { pt with lastMark := some m }) =
      (s.withPort p { s.ports[p] with lastMark := some m }).work := rfl

/-- A port's entry in the engine, in a phase. -/
theorem Work.inPhase_eq_some {w : Work} {ph : Phase} {p : PortNo} {e : Entry} :
    w.inPhase ph = some (p, e) ↔
      w.engine.holder = some p ∧ w.engine.phase = ph ∧ (w.port p).activeEntry = some e := by
  unfold Work.inPhase
  rcases w.engine.holder with _ | q
  · simp
  · by_cases phase : w.engine.phase = ph
    · dsimp only
      rw [if_pos phase, Option.map_eq_some_iff]
      constructor
      · rintro ⟨f, active, same⟩
        cases same
        exact ⟨rfl, phase, active⟩
      · rintro ⟨same, -, active⟩
        cases same
        exact ⟨e, active, rfl⟩
    · simp [phase]

/-- A mark of an attached port that neither waits for a sector nor ends a format is its last mark, and
no more. -/
theorem exec_sectorMark_passes {s : State} {p : PortNo} {m : Byte} (high : s.resetLow = false)
    (within : m.toNat < s.ports[p].sectorsPerTrack)
    (states : s.ports[p].state = .idle ∨ s.ports[p].state = .positioning ∨
      s.ports[p].state = .restoring ∨ s.ports[p].state = .active ∧
        (s.engine.holder ≠ some p ∨ s.engine.phase ≠ .format ∨ m ≠ 0)) :
    exec (.sectorMark [(p, m)]) s =
      .next (s.withPort p { s.ports[p] with lastMark := some m.toNat }) := by
  have live : (s.work.port p).watches = true ∨ (s.work.port p).state = .restoring := by
    rcases states with h | h | h | ⟨h, -⟩ <;>
      simp [Port.watches, show (s.work.port p).state = _ from h]
  rw [exec_sectorMark_one p m high]
  refine act_next ((Work.takeMark_live live within).trans ?_)
  dsimp only
  rcases states with h | h | h | ⟨h, other⟩ <;> rw [show (s.work.port p).state = _ from h]
  · rfl
  · rfl
  · rfl
  · dsimp only
    split
    next q e phase =>
      refine if_neg ?_
      rintro ⟨rfl, zero⟩
      obtain ⟨holder, format, -⟩ := Work.inPhase_eq_some.1 phase
      rcases other with notHolder | notFormat | notZero
      · exact notHolder holder
      · exact notFormat format
      · exact notZero (BitVec.eq_of_toNat_eq zero)
    next => rfl

/-- The record of a port whose entry has been granted the engine (R116, R131). -/
def Port.granted (pt : Port) (e : Entry) : Port :=
  { pt with
    state := .active
    queue := pt.queue.map fun f => if f.serial = e.serial then { f with active := true } else f
    line := some (.headSelect e.head) }

theorem Work.claimEngine_free {w : Work} {p : PortNo} {e : Entry} (free : w.engine.holder = none) :
    w.claimEngine p e = { w.updPort p (·.granted e) with
      engine := { holder := some p, phase := if e.kind.isFormat then .format else .header } } :=
  if_pos free

/-- The record of a port whose claim has been missed. -/
def Port.missedClaim (pt : Port) : Port :=
  Port.choose { pt with missed := satAdd top32 pt.missed 1, chosen := none }

theorem Work.claimEngine_taken {w : Work} {p : PortNo} {e : Entry} (taken : w.engine.holder ≠ none) :
    w.claimEngine p e = w.updPort p Port.missedClaim := if_neg taken

theorem EntryKind.phase_eq (k : EntryKind) : (if k.isFormat then Phase.format else .header) =
    match k with | .format .. => .format | _ => .header := by
  cases k <;> rfl

/-- A mark at a port in WAIT_SECTOR, in the work in hand. -/
theorem Work.takeMark_waits {w : Work} {p : PortNo} {mark : Nat} {e : Entry}
    (state : (w.port p).state = .waitSector) (within : mark < (w.port p).sectorsPerTrack)
    (chosen : (w.port p).chosenEntry = some e) :
    w.takeMark p mark =
      if e.sector = mark then
        (w.updPort p fun pt => { pt with lastMark := some mark }).claimEngine p e
      else w.updPort p fun pt => { pt with lastMark := some mark } := by
  rw [Work.takeMark_live (.inl (by rw [Port.watches, state])) within]
  dsimp only
  rw [state, chosen]

theorem Work.takeResult_format_ok {w : Work} {e : Entry} {tag : Byte} {lock : Bool}
    (format : e.kind = .format tag lock) : w.takeResult e { result := .ok } =
      w.answer tag .ok ([portByte e.port] ++ beBytes 2 e.cyl ++ beBytes 1 e.head ++ [boolByte lock]) := by
  unfold Work.takeResult
  rw [format]
  unfold Work.hostResult
  rw [format]
  rfl

/-- One mark at a port in WAIT_SECTOR. -/
theorem exec_sectorMark_waits {s : State} {p : PortNo} {m : Byte} {e : Entry}
    (high : s.resetLow = false) (state : s.ports[p].state = .waitSector)
    (within : m.toNat < s.ports[p].sectorsPerTrack) (chosen : s.ports[p].chosenEntry = some e) :
    exec (.sectorMark [(p, m)]) s = act (fun w =>
      if e.sector = m.toNat then
        (w.updPort p fun pt => { pt with lastMark := some m.toNat }).claimEngine p e
      else w.updPort p fun pt => { pt with lastMark := some m.toNat }) s := by
  rw [exec_sectorMark_one p m high]
  exact act_congr (Work.takeMark_waits (w := s.work) state within chosen)

theorem Work.formatEnds_eq {w : Work} {p : PortNo} {e : Entry} {tag : Byte} {lock : Bool}
    (format : e.kind = .format tag lock) (sectors : Nat) : w.formatEnds p e sectors =
      (w.updPort p fun pt => { pt with
        written := some (.track e.cyl e.head lock sectors) }).engineComplete p e { result := .ok } := by
  unfold Work.formatEnds
  rw [format]

/-- The engine completes the entry of a port that is being detached (R124 (4)): the detach comes after
the result. -/
theorem State.engineComplete_detaching {s : State} {p : PortNo} (absent : s.ports[p].state = .absent)
    {tag : Byte} (pending : s.ports[p].detachPending = some tag)
    (quiet : ∀ i : StreamNo, s.streams[i].waitedPort ≠ some p) (e : Entry) (done : Completion) :
    s.work.engineComplete p e done =
      { ({ s.withPort p (s.ports[p].withCompleted e) with engine := {} } : State).work with
        agenda := [.result e done, .detached p] } := by
  let u : State := { s.withPort p (s.ports[p].withCompleted e) with engine := {} }
  have record : (s.work.releaseEngine.updPort p fun pt => (pt.afterTransfer e).chooseAgain) = u.work :=
    congrArg (fun pt => (({ s with engine := {} } : State).withPort p pt).work) (if_pos absent)
  have sent : u.work.deliver p [.result e done] = u.sending (.result e done) :=
    Work.Unawaited.deliver (w := u.work) quiet _
  have detaching : ((u.sending (.result e done)).port p).detachPending = some tag := by
    rw [show (u.sending (.result e done)).port p = s.ports[p].withCompleted e
      from Vector.getElem_set_self _]
    exact pending
  unfold Work.engineComplete
  dsimp only
  rw [record, sent]
  exact if_pos (by rw [detaching]; rfl)

/-- The index mark at an attached port whose format the engine writes (R140). -/
theorem State.takeMark_formatEnds {s : State} {p : PortNo} {e : Entry} {tag : Byte} {lock : Bool}
    (state : s.ports[p].state = .active) (positive : 0 < s.ports[p].sectorsPerTrack)
    (holder : s.engine.holder = some p) (phase : s.engine.phase = .format)
    (active : s.ports[p].activeEntry = some e) (format : e.kind = .format tag lock) :
    s.work.takeMark p 0 = (s.withPort p { s.ports[p] with
      lastMark := some 0
      written := some (.track e.cyl e.head lock s.ports[p].sectorsPerTrack) }).work.engineComplete p e
        { result := .ok } := by
  have live : (s.work.port p).watches = true := by
    rw [Port.watches, show (s.work.port p).state = .active from state]
  have inPhase : (s.work.updPort p fun pt => { pt with lastMark := some 0 }).inPhase .format =
      some (p, e) := by
    refine Work.inPhase_eq_some.2 ⟨holder, phase, ?_⟩
    rw [Work.port_updPort_self]
    exact active
  rw [Work.takeMark_live (.inl live) positive]
  dsimp only
  rw [show (s.work.port p).state = .active from state, inPhase]
  dsimp only
  rw [if_pos ⟨rfl, rfl⟩, Work.formatEnds_eq format, State.lastMark_work, Work.updPort_withPort]
  rfl

/-- The index mark at a port that is being detached while the engine writes its format (R124 (4)). -/
theorem State.takeMark_detaching {s : State} {p : PortNo} (absent : s.ports[p].state = .absent)
    {detach : Byte} (pending : s.ports[p].detachPending = some detach) (mark : Nat) :
    (mark ≠ 0 → s.work.takeMark p mark = s.work) ∧
    ∀ (e : Entry) (tag : Byte) (lock : Bool), mark = 0 → s.engine.holder = some p →
      s.engine.phase = .format → s.ports[p].activeEntry = some e → e.kind = .format tag lock →
      s.work.takeMark p mark = (s.withPort p { s.ports[p] with
        written := some (.track e.cyl e.head lock s.ports[p].sectorsPerTrack) }).work.engineComplete p e
          { result := .ok } := by
  have dead : ((s.work.port p).watches || (s.work.port p).state == .restoring) = false := by
    rw [Port.watches, show (s.work.port p).state = .absent from absent]
    rfl
  have skips {a b : Work} : (if ((s.work.port p).watches || (s.work.port p).state == .restoring) &&
      decide (mark < (s.work.port p).sectorsPerTrack) then a else b) = b :=
    if_neg (by rw [dead]; nofun)
  unfold Work.takeMark
  refine ⟨fun other => skips.trans (if_neg fun index => other index.2.2),
    fun e tag lock index holder phase active format => skips.trans ((if_pos ?_).trans ?_)⟩
  · exact ⟨absent, by rw [show (s.work.port p).detachPending = some detach from pending]; rfl, index⟩
  · have inPhase : s.work.inPhase .format = some (p, e) :=
      Work.inPhase_eq_some.2 ⟨holder, phase, active⟩
    rw [inPhase]
    refine (if_pos rfl).trans ?_
    rw [Work.formatEnds_eq format]
    rfl

/-- Settles O51: the marks of an attached port, the end of a format there and on a port being detached,
and two claims of one moment. -/
theorem marksClaimTheEngine : Obligations.MarksClaimTheEngine := by
  unfold Obligations.MarksClaimTheEngine
  refine ⟨?_, ?_, ?_⟩
  · intro s p m g high geometry pt marked
    have sectors : pt.sectorsPerTrack = g.sectors := Port.sectorsPerTrack_of_geometry geometry
    have inside (within : m.toNat < g.sectors) : m.toNat < s.ports[p].sectorsPerTrack :=
      lt_of_lt_of_eq within sectors.symm
    refine ⟨fun beyond present => ?_, fun within states => ?_, fun e within state chosen =>
      ⟨fun other => ?_, fun same free => ?_, fun same taken => ?_⟩, ?_⟩
    · rw [exec_sectorMark_one p m high]
      refine act_next ((if_neg ?_).trans (if_neg fun absent => present absent.1))
      rw [Bool.and_eq_true, decide_eq_true_eq]
      exact fun live => absurd (lt_of_lt_of_eq live.2 sectors) (Nat.not_lt.2 beyond)
    · exact exec_sectorMark_passes high (inside within) states
    · rw [exec_sectorMark_waits high state (inside within) chosen]
      exact act_next (if_neg other)
    · rw [exec_sectorMark_waits high state (inside within) chosen]
      refine act_next ((if_pos same).trans ((Work.claimEngine_free free).trans ?_))
      rw [State.lastMark_work, Work.updPort_withPort, EntryKind.phase_eq]
      rfl
    · rw [exec_sectorMark_waits high state (inside within) chosen]
      refine act_next ((if_pos same).trans ((Work.claimEngine_taken taken).trans ?_))
      rw [State.lastMark_work, Work.updPort_withPort]
      rfl
    · intro e tag lock positive state holder phase active format port noDetach quiet
      have ends := State.takeMark_formatEnds (s := s) state (lt_of_lt_of_eq positive sectors.symm)
        holder phase active format
      rw [show s.ports[p].sectorsPerTrack = g.sectors from sectors] at ends
      let written : Port := { pt with
        lastMark := some 0, written := some (.track e.cyl e.head lock g.sectors) }
      have record : (s.withPort p written).ports[p] = written := Vector.getElem_set_self _
      have completes := State.engineComplete_attached (s := s.withPort p written)
        (by rw [record]; exact state ▸ nofun) (by rw [record]; exact noDetach) quiet e
        { result := .ok }
      rw [exec_sectorMark_one p 0 high]
      rw [State.completes_withPort] at completes
      refine act_single (ends.trans completes) ((Work.takeResult_format_ok format).trans ?_)
      rw [port]
      rfl
  · intro s p m g e tag detach lock high absent pending noGeometry figures active format port holder
      phase quiet pt
    obtain ⟨others, index⟩ := State.takeMark_detaching (s := s) absent pending m.toNat
    rw [exec_sectorMark_one p m high]
    refine ⟨fun other => act_next (others fun zero => other (BitVec.eq_of_toNat_eq zero)),
      fun zero => ?_⟩
    have sectors : s.ports[p].sectorsPerTrack = g.sectors := by
      simp only [Port.sectorsPerTrack, noGeometry, figures]
    let written : Port := { pt with written := some (.track e.cyl e.head lock g.sectors) }
    have record : (s.withPort p written).ports[p] = written := Vector.getElem_set_self _
    have ends := index e tag lock (by rw [zero]; rfl) holder phase active format
    rw [sectors] at ends
    have completes := State.engineComplete_detaching (s := s.withPort p written)
      (by rw [record]; exact absent) (by rw [record]; exact pending) quiet e { result := .ok }
    rw [record, State.withPort_withPort] at completes
    let freed : State := { s with
      engine := {}
      host := s.host.answer tag .ok ([portByte p] ++ beBytes 2 e.cyl ++ beBytes 1 e.head ++
        [boolByte lock]) }
    have after : Event.follows (.detached p) (.result e { result := .ok }) = true :=
      beq_iff_eq.2 port
    refine act_ordered (ends.trans completes) after 
      (v := freed.withPort p (written.withCompleted e)) ?_ ?_
    · refine (Work.takeResult_format_ok format).trans ?_
      rw [port]
      rfl
    · refine (Work.finishDetach_answers (tag := detach) ?_).trans ?_
      · exact (congrArg Port.detachPending (Vector.getElem_set_self _)).trans pending
      · rw [Work.updPort_withPort]
        rfl
  · intro s p q m n g h e f lower high free geometryP withinP stateP chosenP sectorP geometryQ withinQ
      stateQ chosenQ sectorQ
    have apart : (p : Nat) ≠ q := Nat.ne_of_lt lower
    let s₁ : State := { s.withPort p ({ s.ports[p] with lastMark := some m.toNat }.granted e) with
      engine := { holder := some p, phase := if e.kind.isFormat then .format else .header } }
    have other : s₁.ports[q] = s.ports[q] := Vector.getElem_set_ne p.isLt q.isLt apart
    have insideP : m.toNat < s.ports[p].sectorsPerTrack :=
      lt_of_lt_of_eq withinP (Port.sectorsPerTrack_of_geometry geometryP).symm
    have insideQ : n.toNat < s₁.ports[q].sectorsPerTrack := by
      rw [other]
      exact lt_of_lt_of_eq withinQ (Port.sectorsPerTrack_of_geometry geometryQ).symm
    have first : s.work.takeMark p m.toNat = s₁.work := by
      refine (Work.takeMark_waits (w := s.work) stateP insideP chosenP).trans
        ((if_pos sectorP).trans ((Work.claimEngine_free free).trans ?_))
      rw [State.lastMark_work, Work.updPort_withPort]
      rfl
    have second : s₁.work.takeMark q n.toNat = (s₁.withPort q
        ({ s.ports[q] with lastMark := some n.toNat }.missedClaim)).work := by
      refine (Work.takeMark_waits (w := s₁.work) ((congrArg Port.state other).trans stateQ) insideQ
        ((congrArg Port.chosenEntry other).trans chosenQ)).trans
        ((if_pos sectorQ).trans ((Work.claimEngine_taken (Option.some_ne_none p)).trans ?_))
      rw [State.lastMark_work, Work.updPort_withPort, other]
    rw [exec_sectorMark_two lower m n high]
    refine (act_next ((congrArg (·.takeMark q n.toNat) first).trans second)).trans ?_
    exact congrArg (fun phase => Host.Outcome.next { s₁.withPort q
      ({ s.ports[q] with lastMark := some n.toNat }.missedClaim) with
        engine := { holder := some p, phase } }) (EntryKind.phase_eq e.kind)

end Sys2Proof.Machine

/-! PROOFS. The headers and the data of the sector engine (R132 to R135, R141 to R143). -/

namespace Sys2Proof.Machine

/-! ### The header (R132, R133) -/

theorem Vector.toList_seven {α : Type} (v : Vector α 7) :
    v.toList = [v[0], v[1], v[2], v[3], v[4], v[5], v[6]] := by
  obtain ⟨⟨l⟩, size⟩ := v
  match l, size with
  | [_, _, _, _, _, _, _], _ => rfl

theorem beNat_pair (a b : Byte) : beNat [a, b] = 256 * a.toNat + b.toNat := by
  simp only [beNat, List.foldl_cons, List.foldl_nil]
  omega

/-- What a header that matches an entry says (R132). -/
theorem headerMatches_iff (header : Vector Byte 7) (e : Entry) :
    headerMatches header.toList e = true ↔ header[4].getLsbD 7 = true ∧
      [header[5], header[6]] = crcBytes [header[0], header[1], header[2], header[3], header[4]] ∧
      256 * header[0].toNat + header[1].toNat = e.cyl ∧ header[2].toNat = e.head ∧
      header[3].toNat = e.sector := by
  rw [Vector.toList_seven, ← beNat_pair]
  simp only [headerMatches, Bool.and_eq_true, beq_iff_eq, and_assoc]
  exact Iff.rfl

/-- HEADER_READ while the engine awaits the header of an entry (R132, R133). -/
theorem exec_headerRead_awaited {s : State} {p : PortNo} {e : Entry} (high : s.resetLow = false)
    (holder : s.engine.holder = some p) (phase : s.engine.phase = .header)
    (active : s.ports[p].activeEntry = some e) (header : Vector Byte 7) (permit : Bool) :
    exec (.headerRead header permit) s = act (fun w =>
      if !headerMatches header.toList e then w.headerMismatch p e
      else if e.kind.isWrite then
        if lockMark header[4] && !(permit && e.kind.override) then
          w.engineComplete p e { result := .locked }
        else { w with engine := { w.engine with phase := .writeData, flags := header[4] } }
      else { w with engine := { w.engine with phase := .readData, flags := header[4] } }) s := by
  have inPhase : s.work.inPhase .header = some (p, e) :=
    Work.inPhase_eq_some.2 ⟨holder, phase, active⟩
  rw [exec_headerRead, execHeaderRead, actUnlessReset_high high]
  refine act_congr ?_
  rw [inPhase]

/-- The result of a host write: the request is answered with its place, and its page given back
(R142, R143). -/
theorem Work.takeResult_hostWrite {w : Work} {e : Entry} {tag : Byte} {page : PageNo} {t : Trailer}
    {o : Bool} (kind : e.kind = .hostWrite tag page t o) (nobody : w.pool.waitList = [])
    (done : Completion) : w.takeResult e done = { w with
      host := w.host.answer tag done.result (Machine.placeBytes e.port (e.lba.getD 0))
      pool := w.pool.takeBack [page] } := by
  simp only [Work.takeResult, Work.hostResult, kind]
  rw [Work.releaseHost_nobody (w := w.answer tag done.result _) page nobody]
  rfl

theorem Work.takeResult_hostRead {w : Work} {e : Entry} {tag : Byte} {page : PageNo}
    (kind : e.kind = .hostRead tag page) (nobody : w.pool.waitList = []) (done : Completion) :
    w.takeResult e done = { w with
      host := w.host.answer tag done.result
        (if done.result == .ok || done.result == .dataCheck then
          Machine.placeBytes e.port (e.lba.getD 0) ++ [done.flags] ++ done.trailer.bytes ++
            w.pool.mem.page page
        else Machine.placeBytes e.port (e.lba.getD 0))
      pool := w.pool.takeBack [page] } := by
  simp only [Work.takeResult, Work.hostResult, kind]
  rw [Work.releaseHost_nobody (w := w.answer tag done.result _) page nobody]
  rfl

/-- Settles O52: the retry, the two failures that are answered, and the two matches. -/
theorem headersAreJudged : Obligations.HeadersAreJudged := by
  unfold Obligations.HeadersAreJudged
  intro s header permit p e high holder phase active pt flags good locked fails alone
  have matched : headerMatches header.toList e = true ↔ good := headerMatches_iff header e
  have differs (bad : ¬ good) : (!headerMatches header.toList e) = true := by
    rw [Bool.not_eq_true', ← Bool.not_eq_true]
    exact fun same => bad (matched.1 same)
  have agrees (same : good) : ¬ (!headerMatches header.toList e) = true := by
    rw [matched.2 same]
    nofun
  have refused : (lockMark flags && !(permit && e.kind.override)) = true ↔ locked := by
    rw [Bool.and_eq_true, Bool.not_eq_true', ← Bool.not_eq_true, Bool.and_eq_true]
    exact Iff.rfl
  rw [exec_headerRead_awaited high holder phase active]
  refine ⟨fun bad tries noDetach => ?_, fun tag page bad tries alone kind => ?_,
    fun tag page t same lock alone kind => ?_, fun same read => ?_, fun same write free => ?_⟩
  · exact act_next ((if_pos (differs bad)).trans (if_pos ⟨by omega, noDetach⟩))
  · obtain ⟨port, state, noDetach, quiet, nobody⟩ := alone
    have completes := State.engineComplete_attached (s := s) (p := p)
      (by rw [state]; nofun) noDetach quiet { e with addrTries := e.addrTries + 1 }
      { result := .addressFault }
    refine act_single ((if_pos (differs bad)).trans ((if_neg (by omega)).trans completes)) ?_
    rcases kind with kind | ⟨t, o, kind⟩
    · refine (Work.takeResult_hostRead kind nobody _).trans ?_
      rw [port]
      rfl
    · refine (Work.takeResult_hostWrite kind nobody _).trans ?_
      rw [port]
      rfl
  · obtain ⟨port, state, noDetach, quiet, nobody⟩ := alone
    have completes := State.engineComplete_attached (s := s) (p := p)
      (by rw [state]; nofun) noDetach quiet e { result := .locked }
    refine act_single ((if_neg (agrees same)).trans ((if_pos (by rw [kind]; rfl)).trans
      ((if_pos (refused.2 lock)).trans completes))) ?_
    refine (Work.takeResult_hostWrite kind nobody _).trans ?_
    rw [port]
    rfl
  · exact act_next ((if_neg (agrees same)).trans (if_neg (by rw [read]; nofun)))
  · exact act_next ((if_neg (agrees same)).trans ((if_pos write).trans
      (if_neg fun lock => free (refused.1 lock))))

/-! ### The data of a write (R134) -/

/-- WRITE_DATA while the engine writes the data of an entry with a page. -/
theorem exec_writeData_awaited {s : State} {p : PortNo} {e : Entry} {page : PageNo}
    (high : s.resetLow = false) (holder : s.engine.holder = some p)
    (phase : s.engine.phase = .writeData) (active : s.ports[p].activeEntry = some e)
    (kind : e.kind.page = some page) : exec .writeData s =
      act (·.engineComplete p e { result := .ok }) (s.withPort p { s.ports[p] with
        written := some (.sector (sectorBytes (s.pool.mem.page page) e.kind.trailer)) }) := by
  have inPhase : s.work.inPhase .writeData = some (p, e) :=
    Work.inPhase_eq_some.2 ⟨holder, phase, active⟩
  rw [exec_writeData, execWriteData, actUnlessReset_high high]
  refine act_congr ?_
  rw [inPhase]
  dsimp only
  rw [kind, Option.map_some, Option.getD_some]
  exact congrArg (Work.engineComplete · p e { result := .ok }) rfl

/-- Settles O53: the write is sent, completed, and answered. -/
theorem hostWriteCompletes : Obligations.HostWriteCompletes := by
  unfold Obligations.HostWriteCompletes
  intro s p e tag page trailer override lba high holder phase active kind place port state noDetach
    quiet nobody pt payload after
  let sent : Port := { pt with
    written := some (.sector (sectorBytes (s.pool.mem.page page) e.kind.trailer)) }
  have record : (s.withPort p sent).ports[p] = sent := Vector.getElem_set_self _
  have completes := State.engineComplete_attached (s := s.withPort p sent) (p := p)
    (by rw [record, show sent.state = .active from state]; nofun) (by rw [record]; exact noDetach)
    quiet e { result := .ok }
  rw [State.completes_withPort] at completes
  rw [exec_writeData_awaited high holder phase active (page := page) (by rw [kind]; rfl)]
  refine act_single completes ((Work.takeResult_hostWrite kind nobody _).trans ?_)
  have finished : sent.withCompleted e = after := by
    simp only [sent, kind]
    rfl
  rw [port, place, finished]
  rfl

end Sys2Proof.Machine

/-! PROOFS. Pages issued (R78, R79, R81), and EXTENT_ADD to a stream in HOLD (R82). -/

namespace Sys2Proof.Machine

theorem Work.updStream_updStream (w : Work) (i : StreamNo) (f g : Stream → Stream) :
    (w.updStream i f).updStream i g = w.updStream i fun st => g (f st) := by
  have record : (w.updStream i f).streams[i] = f w.streams[i] := Vector.getElem_set_self _
  have twice (a b : Stream) : (w.streams.set i a).set i b = w.streams.set i b := by
    simp only [Vector.set_set]
  unfold Work.updStream at record ⊢
  dsimp only at record ⊢
  rw [record, twice]

/-- A block goes on where no other message of the step is on its way (log 36). -/
theorem Work.pauses_alone {w : Work} (i : StreamNo) (alone : w.agenda = []) :
    w.pauses i = (false, w) := by
  unfold Work.pauses
  rw [alone]
  rfl

/-! ### A write placed on the cursor's sector (R41, R78) -/

/-- The cursor stands in an extent that keeps a sector, well above the low mark. -/
structure Stream.WellSupplied (st : Stream) (x : Extent) (others : List Extent) : Prop where
  extents : st.extents = x :: others
  within : st.offset + 1 < x.count
  above : st.cfg.lowMark + 1 < st.remaining

/-- A sector taken from a well supplied cursor moves the offset alone. -/
theorem Stream.WellSupplied.takeSector {w : Work} {i : StreamNo} {x : Extent} {others : List Extent}
    (h : (w.stream i).WellSupplied x others) :
    w.takeSector i = w.updStream i fun st => { st with offset := st.offset + 1 } := by
  have quiet : ¬ (w.stream i).CrossesLowMark := by
    rintro ⟨-, -, -, near⟩
    exact absurd h.above (Nat.not_lt.2 near)
  rw [Work.takeSector_quiet h.extents (Nat.lt_of_succ_lt h.within) quiet]
  refine Work.updStream_congr ?_
  rw [Stream.advanceCursor_cons h.extents]
  exact if_neg (Nat.not_le.2 h.within)

theorem Stream.WellSupplied.nextSector {st : Stream} {x : Extent} {others : List Extent}
    (h : st.WellSupplied x others) :
    st.nextSector = some (x.port, x.start + st.offset, x.override) := by
  simp only [Stream.nextSector, h.extents]

/-- A stream of the work in hand has moved its cursor and placed an entry on its sector. -/
def Work.placesNext (w : Work) (i : StreamNo) (x : Extent) (lba : Nat) (kind : EntryKind) : Work :=
  (w.updStream i fun st => { st with offset := st.offset + 1 }).placed x.port
    ((w.port x.port).arrival ((w.port x.port).newEntry w.serial kind x.port lba))

theorem Stream.WellSupplied.placeNext {w : Work} {i : StreamNo} {x : Extent} {others : List Extent}
    (h : (w.stream i).WellSupplied x others) (attached : (w.port x.port).state ≠ .offline)
    (room : w.pool.waitList = [] ∨ (w.port x.port).queue.length + 1 < 12) (kind : EntryKind)
    (lba : Nat) : (w.takeSector i).place x.port kind lba = w.placesNext i x lba kind := by
  rw [h.takeSector]
  exact Work.place_attached (w := w.updStream i fun st => { st with offset := st.offset + 1 }) kind lba
    attached room

/-! ### The issue of the head of the ready queue (R78) -/

/-- What a stream's record becomes when the head of its ready queue is issued (R78). -/
def Stream.headIssued (st : Stream) (rest : List ReadyPage) : Stream :=
  { st with ready := rest, outstanding := st.outstanding + 1, waitedPort := none }

theorem Work.issueHead_eq {w : Work} {i : StreamNo} {x : Extent} {others : List Extent}
    {pg : ReadyPage} {rest : List ReadyPage} (h : (w.stream i).WellSupplied x others)
    (ready : (w.stream i).ready = pg :: rest) (attached : (w.port x.port).state ≠ .offline)
    (room : w.pool.waitList = [] ∨ (w.port x.port).queue.length + 1 < 12) (lba : Nat) :
    w.issueHead i (x.port, lba, x.override) =
      (w.updStream i (·.headIssued rest)).placesNext i x lba
        (.streamWrite i pg.page ((w.stream i).trailerFor pg.seq pg.fill) x.override) := by
  have still : ((w.updStream i (·.headIssued rest)).stream i).WellSupplied x others := by
    rw [Work.stream_updStream_self]
    exact ⟨h.extents, h.within, h.above⟩
  have trailer : ((w.updStream i (·.headIssued rest)).stream i).trailerFor pg.seq pg.fill =
      (w.stream i).trailerFor pg.seq pg.fill := by
    rw [Work.stream_updStream_self]
    rfl
  unfold Work.issueHead
  rw [ready]
  refine (still.placeNext (w := w.updStream i (·.headIssued rest)) attached room _ lba).trans ?_
  exact congrArg (fun t => (w.updStream i (·.headIssued rest)).placesNext i x lba
    (.streamWrite i pg.page t x.override)) trailer

theorem Work.stream_placesNext (w : Work) (i : StreamNo) (x : Extent) (lba : Nat) (kind : EntryKind) :
    (w.placesNext i x lba kind).stream i = { w.stream i with offset := (w.stream i).offset + 1 } :=
  Work.stream_updStream_self w i fun st => { st with offset := st.offset + 1 }

/-- A capture stream that may issue one more entry, and no further one, issues the head of its ready
queue and is then quiet (R78, R88). -/
theorem Work.captureTest_issues {w : Work} {i : StreamNo} {x : Extent} {others : List Extent}
    {pg : ReadyPage} {rest : List ReadyPage} (alone : w.agenda = [])
    (h : (w.stream i).WellSupplied x others) (ready : (w.stream i).ready = pg :: rest)
    (goes : (w.stream i).state = .running ∨ (w.stream i).state = .draining)
    (noAbort : (w.stream i).abortPart = none) (below : (w.stream i).outstanding < (w.stream i).cfg.depth)
    (last : rest = [] ∨ (w.stream i).cfg.depth ≤ (w.stream i).outstanding + 1)
    (attached : (w.port x.port).state ≠ .offline) (fits : (w.port x.port).queue.length < 12)
    (nobody : w.pool.waitList = []) :
    w.captureTest i = (w.updStream i (·.headIssued rest)).placesNext i x
      (x.start + (w.stream i).offset)
      (.streamWrite i pg.page ((w.stream i).trailerFor pg.seq pg.fill) x.override) := by
  have wants : (w.stream i).wantsSector = true := by
    rcases goes with state | state <;> simp [Stream.wantsSector, state, noAbort, ready, below]
  have issued := Work.issueHead_eq h ready attached (.inl nobody) (x.start + (w.stream i).offset)
  rw [Work.captureTest, ready, List.length_cons, Work.captureIssue, if_pos wants, h.nextSector]
  dsimp only
  rw [if_pos (Port.hasRoom_iff _ |>.2 fits), issued]
  obtain ⟨v, placed⟩ : ∃ v, v = (w.updStream i (·.headIssued rest)).placesNext i x
    (x.start + (w.stream i).offset)
    (.streamWrite i pg.page ((w.stream i).trailerFor pg.seq pg.fill) x.override) := ⟨_, rfl⟩
  have record : v.stream i = { (w.stream i).headIssued rest with
      offset := (w.stream i).offset + 1 } := by
    rw [placed, Work.stream_placesNext, Work.stream_updStream_self]
    rfl
  have still : v.agenda = [] := placed ▸ alone
  have quiet : (v.stream i).wantsSector = false := by
    rw [record]
    rcases last with none | full
    · simp [Stream.wantsSector, Stream.headIssued, none]
    · exact Stream.wantsSector_of_full full
  have unwritten : ¬ (v.stream i).AllWritten := by
    rw [record]
    rintro ⟨-, -, -, -, none⟩
    exact absurd none (Nat.succ_ne_zero _)
  rw [← placed, Work.pauses_alone i still]
  dsimp only
  rw [if_neg nofun, Work.captureIssue_quiet quiet, Work.captureEndTest_quiet unwritten]

/-- The same in the words of the claims. -/
theorem State.placesNext_work (s : State) (i : StreamNo) (f : Stream → Stream) (x : Extent) (lba : Nat)
    (kind : EntryKind) : (s.work.updStream i f).placesNext i x lba kind =
      ({ (s.withStream i { f s.streams[i] with offset := (f s.streams[i]).offset + 1 }).withPort x.port
        (s.ports[x.port].arrival (s.ports[x.port].newEntry s.serial kind x.port lba)) with
        serial := s.serial + 1 } : State).work := by
  unfold Work.placesNext
  rw [Work.updStream_updStream]
  rfl

/-! ### EXTENT_ADD to a capture stream in HOLD (R82) -/

/-- What an accepted EXTENT_ADD found: the port of the extent is not OFFLINE. -/
theorem Work.attached_of_accepted {w : Work} {i : StreamNo} {e : Extent}
    (accepted : w.extentRefusal i e = none) : (w.port e.port).state ≠ .offline := by
  intro offline
  simp only [Work.extentRefusal, offline, reduceCtorEq, false_or, if_true] at accepted
  split at accepted
  · cases accepted
  · split at accepted
    · cases accepted
    · split at accepted <;> cases accepted

/-- An extent given to an active stream that has none (R45, R51, R79). -/
theorem Stream.addExtent_first {st : Stream} {e : Extent} (none : st.extents = [])
    (active : st.isActive = true) : st.addExtent e = { st with
      extents := [e], offset := 0, waitedPort := .none
      lowGiven := if st.cfg.lowMark < e.count then false else st.lowGiven } := by
  rw [st.addExtent_eq e]
  simp [none, active, Stream.remaining]

/-- Settles O36: the stream goes on with nothing ready, or issues the page at the head. -/
theorem extentAddEndsHold : Obligations.ExtentAddEndsHold := by
  unfold Obligations.ExtentAddEndsHold
  intro s tag i e c takes inRange accepted settings direction hold noExtents st given reply
  have active : st.isActive = true := st.isActive_iff.2 (.inr (.inr (.inl hold)))
  have cfg : st.cfg = c := by rw [Stream.cfg, settings]; rfl
  have added : st.addExtent e = { st with
      extents := [e], offset := 0, waitedPort := none
      lowGiven := if c.lowMark < e.count then false else st.lowGiven } := by
    rw [Stream.addExtent_first noExtents active, cfg]
  have figures : (st.addExtent e).extentReply i = reply := by
    rw [added]
    simp [Stream.extentReply, Stream.remaining, reply, beBytes]
  let v : State := (s.withStream i given).replied tag 0x40 .ok reply
  have record : v.streams[i] = given := State.getElem_withStream s i given
  have runs : exec (.extentAdd tag (e.bytes i)) s = act (·.captureTest i) v := by
    rw [exec_extentAdd_accepted takes inRange accepted, figures]
    refine act_congr ?_
    let w := ((s.withStream i (st.addExtent e)).replied tag 0x40 .ok reply).work
    have stands : w.stream i = st.addExtent e := State.getElem_withStream s i _
    have capture : (w.stream i).cfg.direction = .capture := by
      rw [stands, added]
      exact (congrArg Settings.direction cfg).trans direction
    have extended : w.extentGiven i = w.captureExtent i := by
      unfold Work.extentGiven
      rw [capture]
    have goesOn : (w.updStream i fun st => { st with
        emptyReported := false
        state := if st.state = .hold then (if st.stopPart.isNone then .running else .draining)
          else st.state }) = v.work := by
      refine (Work.updStream_congr (g := fun _ => given) ?_).trans ?_
      · rw [stands, added]
        simp only [show st.state = .hold from hold, if_true, Option.isNone_iff_eq_none, given]
      · exact congrArg State.work (congrArg (State.replied · tag 0x40 .ok reply)
          (State.withStream_withStream s i _ given))
    exact extended.trans (congrArg (Work.captureTest · i) goesOn)
  refine ⟨fun noneReady rest => ?_, fun pg rest ready noAbort depth low more fits nobody => ?_⟩
  · rw [runs]
    refine act_next (Work.captureTest_quiet (w := v.work) ?_ ?_)
    · rw [show v.work.stream i = given from record]
      simp [Stream.wantsSector, given, noneReady]
    · rw [show v.work.stream i = given from record]
      rintro ⟨draining, -, written, -, -⟩
      rcases rest with noStop | waits
      · exact absurd ((if_pos noStop).symm.trans draining) nofun
      · rcases written with made | done
        · exact absurd (waits.symm.trans made) nofun
        · exact absurd (waits.symm.trans done) nofun
  · rw [runs]
    have givenCfg : given.cfg = c := cfg
    have trailer : given.trailerFor pg.seq pg.fill = ⟨c.recTag, st.take.getD 0, pg.seq, pg.fill⟩ := by
      rw [Stream.trailerFor, givenCfg]
      rfl
    have supplied : given.WellSupplied e [] := ⟨rfl, more, by rw [givenCfg]; exact low⟩
    have again (a : Stream) : v.withStream i a = (s.withStream i a).replied tag 0x40 .ok reply :=
      congrArg (State.replied · tag 0x40 .ok reply) (State.withStream_withStream s i given a)
    have goes : given.state = .running ∨ given.state = .draining := by
      by_cases noStop : st.stopPart = none
      · exact .inl (if_pos noStop)
      · exact .inr (if_neg noStop)
    have depth : given.cfg.depth = given.outstanding + 1 := (congrArg Settings.depth cfg).trans depth
    have issues := Work.captureTest_issues (w := v.work) (i := i) (x := e) (others := []) (pg := pg)
      (rest := rest) rfl
    rw [show v.work.stream i = given from record] at issues
    refine act_next ((issues supplied ready goes noAbort (by omega) (.inr (by omega))
      (Work.attached_of_accepted (w := s.work) accepted) fits nobody).trans ?_)
    rw [State.placesNext_work v, record, again, trailer]
    rfl

end Sys2Proof.Machine

/-! PROOFS. The start and the stop of a take (R12, R74, R87, R91, R93, R104). -/

namespace Sys2Proof.Machine

/-! ### Claims (R26, R28) -/

/-- The pool after a granted claim of a stream. -/
def Pool.claimed (pool : Pool) (i : StreamNo) (page : PageNo) (free : List PageNo) : Pool :=
  { pool with
    free := free, mem := pool.mem.clearPage page, held := pool.held.set i (pool.held[i] + 1) }

theorem Work.claim_granted {w : Work} {i : StreamNo} {page : PageNo} {free : List PageNo}
    (head : w.pool.free = page :: free) (grants : w.grants i = true) :
    w.claim i = some (page, w.updPool (·.claimed i page free)) := by
  unfold Work.claim
  rw [head]
  exact if_pos grants

theorem Work.claim_refused {w : Work} {i : StreamNo}
    (refused : w.pool.free = [] ∨ w.grants i = false) : w.claim i = none := by
  unfold Work.claim
  rcases refused with empty | refused
  · rw [empty]
  · split
    · rfl
    · exact if_neg (by rw [refused]; nofun)

/-- What the pool grants does not hang on a record but for its settings and whether it is FREE. -/
theorem Work.grants_updStream {w : Work} {i : StreamNo} {f : Stream → Stream}
    (settings : (f (w.stream i)).settings = (w.stream i).settings)
    (free : (f (w.stream i)).state = .free ↔ (w.stream i).state = .free) (j : StreamNo) :
    (w.updStream i f).grants j = w.grants j := by
  have cfg (k : StreamNo) : ((w.updStream i f).stream k).cfg = (w.stream k).cfg := by
    rw [Work.stream_updStream]
    split
    next same =>
      rw [← same]
      exact congrArg (Option.getD · Settings.absent) settings
    next => rfl
  have part (k : StreamNo) : (w.updStream i f).shortfall k = w.shortfall k := by
    have isFree : ((w.updStream i f).stream k).state = .free ↔ (w.stream k).state = .free := by
      rw [Work.stream_updStream]
      split
      next same => rw [← same]; exact free
      next => rfl
    simp only [Work.shortfall, isFree, cfg]
    rfl
  have need : (w.updStream i f).reserveNeed = w.reserveNeed := by
    rw [Work.reserveNeed_eq, Work.reserveNeed_eq, funext part]
  rw [Bool.eq_iff_iff, Work.grants_iff, Work.grants_iff, cfg, need]
  exact Iff.rfl

theorem Work.enterWait_absent {w : Work} {i : StreamNo} (absent : w.waits i = false)
    (kind : ClaimKind) : w.enterWait i kind =
      w.updPool fun pool => { pool with waitList := pool.waitList ++ [(i, kind)] } :=
  if_neg (by rw [absent]; nofun)

/-! ### STREAM_STOP of a capture stream (R87) -/

/-- A STREAM_STOP that is taken: the stop in the stream's direction. -/
theorem exec_streamStop_taken {s : State} {tag : Byte} {i : StreamNo} (takes : s.Takes tag)
    (stoppable : s.streams[i].stoppable = true) :
    exec (.streamStop tag [streamByte i]) s = act (·.stopStream i)
      ((s.inService tag 0x33).withStream i { s.streams[i] with stopPart := some tag }) := by
  have served := serveStreamStop_byte tag i (s.inService tag 0x33).work
  rw [exec_streamStop, execStreamStop, act_takeRequest takes]
  exact act_congr (served.trans (if_pos stoppable))

/-- The record of a stream whose end page is made (R87 (3)). -/
def Stream.endPageMade (st : Stream) (page : PageNo) (fill : Nat) : Stream :=
  { st with
    cur := none, ready := st.ready ++ [⟨page, st.seqNow, fill⟩], nextSeq := some (st.seqNow + 1)
    endPage := .made }

theorem Work.claimEndPage_granted {w : Work} {i : StreamNo} {page : PageNo} {free : List PageNo}
    (head : w.pool.free = page :: free) (grants : w.grants i = true) (absent : w.waits i = false) :
    w.claimEndPage i = (w.updPool (·.claimed i page free)).updStream i fun st =>
      ({ st with overrun := false } : Stream).endPageMade page 0 := by
  unfold Work.claimEndPage
  rw [Work.claim_granted head grants]
  dsimp only
  rw [Work.leaveWait_absent (w := w.updPool (·.claimed i page free)) absent]
  exact Work.updStream_updStream _ i _ _

theorem Work.claimEndPage_refused {w : Work} {i : StreamNo}
    (refused : w.grants i = false) (absent : w.waits i = false) :
    w.claimEndPage i = (w.updStream i fun st => { st with endPage := .waiting }).updPool fun pool =>
      { pool with waitList := pool.waitList ++ [(i, .endPage)] } := by
  unfold Work.claimEndPage
  rw [Work.claim_refused (.inr refused)]
  exact Work.enterWait_absent (w := w.updStream i fun st => { st with endPage := .waiting }) absent _

/-- The state of a stream after its stop has been taken (R87). -/
def Stream.stopping (st : Stream) : Stream :=
  { st with state := if st.state = .running then .draining else st.state }

/-- A stopped stream in HOLD or with as many entries in flight as its depth issues nothing, its take
not written whole. -/
theorem Work.captureTest_stopped {w : Work} {i : StreamNo}
    (states : (w.stream i).state = .hold ∨
      (w.stream i).state = .running ∧ (w.stream i).cfg.depth ≤ (w.stream i).outstanding)
    (unwritten : (w.stream i).endPage = .waiting ∨ (w.stream i).ready ≠ []) :
    (w.updStream i Stream.stopping).captureTest i = w.updStream i Stream.stopping := by
  refine Work.captureTest_quiet ?_ ?_
  · rw [Work.stream_updStream_self]
    rcases states with hold | ⟨-, full⟩
    · simp [Stream.wantsSector, Stream.stopping, hold]
    · exact Stream.wantsSector_of_full (st := (w.stream i).stopping) full
  · rw [Work.stream_updStream_self]
    rintro ⟨-, -, written, ready, -⟩
    rcases unwritten with waiting | some
    · rcases written with made | done
      · exact absurd (waiting.symm.trans made) nofun
      · exact absurd (waiting.symm.trans done) nofun
    · exact some ready

/-- The stop of a capture stream with a fill page makes it the end page (R87 (1)). -/
theorem Work.captureStop_fillPage {w : Work} {i : StreamNo} {p : CurrentPage}
    (cur : (w.stream i).cur = some p) : w.captureStop i =
      ((w.updStream i (·.endPageMade p.page p.pos)).updStream i Stream.stopping).captureTest i := by
  unfold Work.captureStop
  rw [cur]
  rfl

theorem Work.captureStop_claims {w : Work} {i : StreamNo} (cur : (w.stream i).cur = none) :
    w.captureStop i = ((w.claimEndPage i).updStream i Stream.stopping).captureTest i := by
  unfold Work.captureStop
  rw [cur]
  rfl

/-- Settles O32: the end page made of the fill page, of a page claimed, and awaited. -/
theorem streamStopCaptures : Obligations.StreamStopCaptures := by
  unfold Obligations.StreamStopCaptures
  intro s tag i c takes settings direction noStop noAbort states absent st seq stopped made busy
  have capture : st.cfg.direction = .capture := by
    rw [Stream.cfg, show st.settings = some c from settings]
    exact direction
  have depth : st.cfg.depth = c.depth := by rw [Stream.cfg, show st.settings = some c from settings]; rfl
  have stoppable : st.stoppable = true :=
    st.stoppable_iff.2 ⟨noStop, noAbort, .inl ⟨capture, states.symm.imp_left And.left⟩⟩
  let u : State := busy.withStream i { st with stopPart := some tag }
  have record : u.streams[i] = { st with stopPart := some tag } := State.getElem_withStream busy i _
  have stops : u.work.stopStream i = u.work.captureStop i := by
    unfold Work.stopStream
    rw [show u.work.stream i = _ from record, show ({ st with stopPart := some tag } :
      Stream).cfg.direction = .capture from capture]
  have grants : u.work.grants i = s.work.grants i :=
    Work.grants_updStream (w := busy.work) (f := fun st => { st with stopPart := some tag }) rfl
      Iff.rfl i
  have finish {v : State} {x : Stream} (x_eq : v.streams[i] = x)
      (made : u.work.captureStop i = (v.work.updStream i Stream.stopping).captureTest i)
      (same : x.state = st.state ∧ x.cfg = st.cfg ∧ x.outstanding = st.outstanding)
      (unwritten : x.endPage = .waiting ∨ x.ready ≠ []) :
      exec (.streamStop tag [streamByte i]) s = .next (v.withStream i x.stopping) := by
    obtain ⟨state, cfg, outstanding⟩ := same
    subst x_eq
    rw [exec_streamStop_taken takes stoppable]
    refine act_next (stops.trans (made.trans ?_))
    refine (Work.captureTest_stopped (w := v.work) ?_ unwritten).trans rfl
    rwa [show v.work.stream i = v.streams[i] from rfl, state, cfg, outstanding, depth]
  have twice (x y : Stream) : (u.withStream i x).withStream i y = busy.withStream i y := by
    rw [State.withStream_withStream]
    exact State.withStream_withStream busy i _ y
  refine ⟨fun p cur => ?_, fun page free cur head granted => ?_, fun cur refused => ?_⟩
  · have stops := Work.captureStop_fillPage (w := u.work) (i := i) (p := p)
      ((congrArg Stream.cur record).trans cur)
    rw [Work.updStream_work, record] at stops
    rw [finish (State.getElem_withStream u i _) stops ⟨rfl, rfl, rfl⟩ (.inr (by simp [Stream.endPageMade])),
      twice]
    rfl
  · have stops := Work.captureStop_claims (w := u.work) (i := i) ((congrArg Stream.cur record).trans cur)
    rw [Work.claimEndPage_granted head (grants.trans granted) absent] at stops
    let x : Stream := ({ st with stopPart := some tag, overrun := false } : Stream).endPageMade page 0
    let v : State := { u.withStream i x with pool := s.pool.claimed i page free }
    have claims : ((u.work.updPool (·.claimed i page free)).updStream i fun st =>
        ({ st with overrun := false } : Stream).endPageMade page 0) = v.work := by
      refine (Work.updStream_congr (g := fun _ => x) ?_).trans rfl
      rw [show (u.work.updPool (·.claimed i page free)).stream i = _ from record]
    rw [claims] at stops
    have done := finish (v := v) (x := x) (State.getElem_withStream u i x) stops ⟨rfl, rfl, rfl⟩
      (.inr (by simp [x, Stream.endPageMade]))
    refine done.trans ?_
    rw [← twice x]
    rfl
  · have stops := Work.captureStop_claims (w := u.work) (i := i) ((congrArg Stream.cur record).trans cur)
    rw [Work.claimEndPage_refused (grants.trans refused) absent] at stops
    let x : Stream := { st with stopPart := some tag, endPage := .waiting }
    let v : State := { u.withStream i x with
      pool := { s.pool with waitList := s.pool.waitList ++ [(i, .endPage)] } }
    have waits : ((u.work.updStream i fun st => { st with endPage := .waiting }).updPool fun pool =>
        { pool with waitList := pool.waitList ++ [(i, .endPage)] }) = v.work := by
      rw [Work.updStream_work, record]
      rfl
    rw [waits] at stops
    have done := finish (v := v) (x := x) (State.getElem_withStream u i x) stops ⟨rfl, rfl, rfl⟩
      (.inl rfl)
    refine done.trans ?_
    rw [← twice x]
    rfl

end Sys2Proof.Machine

/-! PROOFS. What a stream gives up at its end, and the entry into ENDED (R15 to R18, R104, R128). -/

namespace Sys2Proof.Machine

/-! ### Withdrawal (R128) -/

/-- A stream's QUEUED entries: at most one, on one port. -/
def Work.Owns (w : Work) (i : StreamNo) (own : Option (PortNo × Entry)) : Prop :=
  ∀ q : PortNo, (w.port q).queue.filter (Entry.withdrawable i) =
    match own with
    | some (p, e) => if q = p then [e] else []
    | none => []

/-- A work in hand with a stream's QUEUED entry gone from its port. -/
def Work.withdrawn (w : Work) (i : StreamNo) : Option (PortNo × Entry) → Work
  | some (p, _) => w.updPort p (·.withdraw i)
  | none => w

theorem Work.Owns.withdrawable {w : Work} {i : StreamNo} {own : Option (PortNo × Entry)}
    (h : w.Owns i own) : w.withdrawable i = own.toList.map Prod.snd := by
  unfold Work.withdrawable
  rw [List.flatMap_congr fun q _ => h q]
  rcases own with _ | ⟨p, e⟩
  · rfl
  · have one : (portNos.flatMap fun q => if q = p then [e] else []) = [e] := by
      fin_cases p <;> rfl
    rw [one]
    rfl

/-- One port's part of a withdrawal. -/
def Work.withdrawAt (i : StreamNo) (w : Work) (p : PortNo) : Work :=
  if ((w.port p).queue.any (Entry.withdrawable i)) then (w.updPort p (·.withdraw i)).report p else w

theorem Work.withdrawAt_nothing {w : Work} {i : StreamNo} {p : PortNo}
    (nothing : (w.port p).queue.filter (Entry.withdrawable i) = []) : w.withdrawAt i p = w := by
  refine if_neg ?_
  rw [Bool.not_eq_true, List.any_eq_false]
  exact List.filter_eq_nil_iff.1 nothing

theorem Work.foldl_withdrawAt_nothing {i : StreamNo} (l : List PortNo) {w : Work}
    (nothing : ∀ q ∈ l, (w.port q).queue.filter (Entry.withdrawable i) = []) :
    l.foldl (Work.withdrawAt i) w = w := by
  induction l with
  | nil => rfl
  | cons q l ih =>
    rw [List.foldl_cons, Work.withdrawAt_nothing (nothing q List.mem_cons_self)]
    exact ih fun q' hq' => nothing q' (List.mem_cons_of_mem q hq')

theorem nodup_portNos : portNos.Nodup := List.nodup_finRange 4

theorem Work.withdraw_eq_foldl (w : Work) (i : StreamNo) : w.withdraw i =
    (portNos.foldl (Work.withdrawAt i) w).updStream i fun st =>
      { st with outstanding := st.outstanding - (w.withdrawable i).length } := rfl

/-- The withdrawal of a stream that owns at most one QUEUED entry, on a port nobody waits for. -/
theorem Work.Owns.withdraw {w : Work} {i : StreamNo} {own : Option (PortNo × Entry)}
    (h : w.Owns i own) (quiet : ∀ p e, own = some (p, e) → w.Unawaited p) :
    w.withdraw i = (w.withdrawn i own).updStream i fun st =>
      { st with outstanding := st.outstanding - own.toList.length } := by
  have walk : portNos.foldl (Work.withdrawAt i) w = w.withdrawn i own := by
    rcases own with _ | ⟨p, e⟩
    · exact Work.foldl_withdrawAt_nothing portNos fun q _ => h q
    · have member : p ∈ portNos := List.mem_finRange p
      obtain ⟨l, r, split⟩ : ∃ l r, portNos = l ++ p :: r := List.append_of_mem member
      have nodup := nodup_portNos
      rw [split, List.nodup_append] at nodup
      obtain ⟨-, after, apart⟩ := nodup
      have before (q : PortNo) (hq : q ∈ l) : q ≠ p := fun same =>
        absurd rfl (apart q hq q (same ▸ List.mem_cons_self))
      have later (q : PortNo) (hq : q ∈ r) : q ≠ p := fun same =>
        (List.nodup_cons.1 after).1 (same ▸ hq)
      have here : w.withdrawAt i p = w.updPort p (·.withdraw i) := by
        refine (if_pos ?_).trans (Work.Unawaited.report (w := w.updPort p (·.withdraw i))
          (quiet p e rfl))
        have own : (w.port p).queue.filter (Entry.withdrawable i) = [e] := (h p).trans (if_pos rfl)
        have member := List.mem_filter.1 (own ▸ List.mem_singleton_self e :
          e ∈ (w.port p).queue.filter (Entry.withdrawable i))
        exact List.any_eq_true.2 ⟨e, member⟩
      rw [split, List.foldl_append, Work.foldl_withdrawAt_nothing l
        (fun q hq => (h q).trans (if_neg (before q hq))), List.foldl_cons, here]
      refine Work.foldl_withdrawAt_nothing r fun q hq => ?_
      have other := later q hq
      rw [Work.port_updPort, if_neg (Ne.symm other)]
      exact (h q).trans (if_neg other)
  rw [Work.withdraw_eq_foldl, walk, h.withdrawable, List.length_map]

/-! ### Giving up (R15, R33, R35) -/

/-- The pool when a stream has given pages back and nobody waits. -/
def Pool.regained (pool : Pool) (i : StreamNo) (pages : List PageNo) : Pool :=
  { pool with
    free := pool.free ++ pages, held := pool.held.set i (pool.held[i] - pages.length), waitList := [] }

theorem Work.release_nobody {w : Work} (i : StreamNo) (pages : List PageNo)
    (nobody : w.pool.waitList = []) : w.release i pages = w.updPool (·.regained i pages) := by
  have pool : w.pool.regained i pages = { w.pool with
      free := w.pool.free ++ pages
      held := w.pool.held.set i (w.pool.held[i] - pages.length) } := by
    rw [Pool.regained, ← nobody]
  unfold Work.release
  split
  next none =>
    have kept : w.pool.held.set i w.pool.held[i] i.isLt = w.pool.held := Vector.set_getElem_self i.isLt
    unfold Work.updPool
    dsimp only
    rw [pool, none, List.append_nil, List.length_nil, Nat.sub_zero, kept]
  next =>
    refine (Work.signal_nobody (w := w.updPool fun pool => { pool with
      free := pool.free ++ pages, held := pool.held.set i (pool.held[i] - pages.length) })
      nobody).trans ?_
    unfold Work.updPool
    dsimp only
    rw [pool]

/-- A stream that is alone on the wait list leaves it empty. -/
theorem Work.leaveWait_only {w : Work} {i : StreamNo} (only : ∀ x ∈ w.pool.waitList, x.1 = i) :
    w.leaveWait i = w.updPool fun pool => { pool with waitList := [] } := by
  have gone : w.pool.waitList.filter (·.1 != i) = [] :=
    List.filter_eq_nil_iff.2 fun x hx => by simp [only x hx]
  unfold Work.leaveWait Work.updPool
  dsimp only
  rw [gone]

/-- What remains of a giving up once the record has been cleared: the withdrawal, and the pages. -/
theorem Work.Owns.giveUp {w : Work} {i : StreamNo} {own : Option (PortNo × Entry)} (h : w.Owns i own)
    (quiet : ∀ p e, own = some (p, e) → ∀ j : StreamNo, j ≠ i → (w.stream j).waitedPort ≠ some p)
    (only : ∀ x ∈ w.pool.waitList, x.1 = i) {f : Stream → Stream}
    (absent : (f (w.stream i)).waitedPort = none) (pages : List PageNo) :
    (((w.updStream i f).withdraw i).leaveWait i).release i pages =
      ((w.withdrawn i own).updStream i fun st =>
        { f st with outstanding := (f st).outstanding - own.toList.length }).updPool
          (·.regained i pages) := by
  have owns : (w.updStream i f).Owns i own := h
  have alone : ∀ p e, own = some (p, e) → (w.updStream i f).Unawaited p := by
    intro p e one j
    rw [Work.stream_updStream]
    split
    next same => rw [← same, absent]; nofun
    next other => exact quiet p e one j (Ne.symm other)
  have record : (w.updStream i f).withdraw i = (w.withdrawn i own).updStream i fun st =>
      { f st with outstanding := (f st).outstanding - own.toList.length } := by
    have commute : (w.updStream i f).withdrawn i own = (w.withdrawn i own).updStream i f := by
      cases own <;> rfl
    rw [owns.withdraw alone, commute, Work.updStream_updStream]
  have waitList : (w.withdrawn i own).pool.waitList = w.pool.waitList := by cases own <;> rfl
  rw [record, Work.leaveWait_only (by exact waitList ▸ only), Work.release_nobody i pages rfl]
  rfl

/-- What a capture stream's record becomes when it gives up. -/
def Stream.captureGaveUp (st : Stream) (withdrawn : Nat) : Stream :=
  { st with
    cur := none, ready := [], waitedPort := none
    endPage := if st.endPage = .waiting then .none else st.endPage
    outstanding := st.outstanding - withdrawn }

theorem Work.Owns.captureGiveUp {w : Work} {i : StreamNo} {own : Option (PortNo × Entry)}
    (h : w.Owns i own)
    (quiet : ∀ p e, own = some (p, e) → ∀ j : StreamNo, j ≠ i → (w.stream j).waitedPort ≠ some p)
    (only : ∀ x ∈ w.pool.waitList, x.1 = i) (more : List PageNo) :
    w.captureGiveUp i more =
      ((w.withdrawn i own).updStream i (·.captureGaveUp own.toList.length)).updPool (·.regained i
        ((w.stream i).capturePages ++ (own.toList.filterMap fun x => x.2.kind.page) ++ more)) := by
  unfold Work.captureGiveUp
  dsimp only
  rw [h.withdrawable, List.filterMap_map]
  exact h.giveUp quiet only rfl _

/-- What a replay stream's record becomes when it gives up. -/
def Stream.replayGaveUp (st : Stream) (withdrawn : List PageNo) (count : Nat) : Stream :=
  { st with
    cur := none, waitedPort := none
    play := st.play.filter fun e => !givenUp withdrawn e
    outstanding := st.outstanding - count }

theorem Work.Owns.replayGiveUp {w : Work} {i : StreamNo} {own : Option (PortNo × Entry)}
    (h : w.Owns i own)
    (quiet : ∀ p e, own = some (p, e) → ∀ j : StreamNo, j ≠ i → (w.stream j).waitedPort ≠ some p)
    (only : ∀ x ∈ w.pool.waitList, x.1 = i) :
    w.replayGiveUp i =
      ((w.withdrawn i own).updStream i (·.replayGaveUp (own.toList.filterMap fun x => x.2.kind.page)
        own.toList.length)).updPool (·.regained i
          (((w.stream i).cur.map (·.page)).toList ++ ((w.stream i).play.filter
            (givenUp (own.toList.filterMap fun x => x.2.kind.page))).map (·.page))) := by
  unfold Work.replayGiveUp
  dsimp only
  rw [h.withdrawable, List.filterMap_map]
  exact h.giveUp quiet only rfl _

/-! ### The entry into ENDED (R16 to R18) -/

/-- The host line with the reply of a request whose tag may be absent. -/
def HostLine.answerOpt (h : HostLine) (tag : Option Byte) (r : Result) (payload : List Byte) :
    HostLine :=
  match tag with
  | some tag => h.answer tag r payload
  | none => h

theorem Work.answerOpt_eq (w : Work) (tag : Option Byte) (r : Result) (payload : List Byte) :
    w.answerOpt tag r payload = w.updHost (·.answerOpt tag r payload) := by
  cases tag <;> rfl

/-- The host line of a stream's entry into ENDED: a STOP and an ABORT that wait are answered, and
STREAM_ENDED is raised (R16, R17). -/
def HostLine.ended (h : HostLine) (st : Stream) (figures : FinalFigures) : HostLine :=
  ((h.answerOpt st.stopPart (if st.abortPart.isSome then .aborted else .ok) figures.bytes).answerOpt
    st.abortPart .ok figures.bytes).raise (.streamEnded figures)

theorem Work.endStream_eq {w : Work} {i : StreamNo} (absent : w.waits i = false) (o : TakeEnd) :
    w.endStream i o = (w.updStream i (·.endRecord o)).updHost
      (·.ended (w.stream i) ((w.stream i).finalFigures i o)) := by
  unfold Work.endStream
  dsimp only
  rw [Work.leaveWait_absent (w := w.updStream i (·.endRecord o)) absent, Work.answerOpt_eq,
    Work.answerOpt_eq]
  rfl

/-- The final figures of a stream that is bound (R18). -/
theorem Stream.finalFigures_eq {st : Stream} {c : Settings} (settings : st.settings = some c)
    (i : StreamNo) (o : TakeEnd) : st.finalFigures i o = {
      stream := i, direction := some c.direction, recTag := c.recTag, take := st.take.getD 0, outcome := o
      nextSeq := st.nextSeq.getD 0, commitMark := st.commitMark.getD 0, counters := st.counters
      skipCount := st.skips.length } := by
  simp only [Stream.finalFigures, Stream.cfg, settings, Option.map_some, Option.getD_some]
  rfl

/-- A stream owns no QUEUED entry where no queue holds an entry of it. -/
theorem Work.owns_none {w : Work} {i : StreamNo}
    (nothing : ∀ (p : PortNo) (e : Entry), e ∈ (w.port p).queue → e.kind.stream ≠ some i) :
    w.Owns i none := fun q =>
  List.filter_eq_nil_iff.2 fun e he => by simp [Entry.withdrawable, nothing q e he]

/-- The reply of the request that came last, whose tag no other request bears. -/
theorem HostLine.answer_last {h : HostLine} {tag code : Byte} {owner : Owner}
    (fresh : h.inProgress tag = false) (r : Result) (payload : List Byte) :
    HostLine.answer { h with slots := h.slots ++ [⟨tag, code, owner⟩] } tag r payload =
      h.withReply ⟨tag, code, r, payload⟩ := by
  rw [HostLine.answer_of_slot (h := { h with slots := h.slots ++ [⟨tag, code, owner⟩] }) r payload rfl
    fresh, List.append_nil]

/-! ### STREAM_STOP of a replay stream (R104) -/

/-- Settles O33: the pages are given up, and the take ends with the stop's reply. -/
theorem streamStopReplays : Obligations.StreamStopReplays := by
  unfold Obligations.StreamStopReplays
  intro s tag i c takes settings direction noStop noAbort states idle judged unqueued nobody st pages
    figures
  have cfg : st.cfg = c := by rw [Stream.cfg, show st.settings = some c from settings]; rfl
  have replay : st.cfg.direction = .replay := cfg ▸ direction
  have stoppable : st.stoppable = true :=
    st.stoppable_iff.2 ⟨noStop, noAbort, .inr ⟨replay, states⟩⟩
  let x : Stream := { st with stopPart := some tag }
  let u : State := (s.inService tag 0x33).withStream i x
  have record : u.streams[i] = x := State.getElem_withStream _ i x
  have stops : u.work.stopStream i = (u.work.replayGiveUp i).drainOrEnd i .stop .stopped := by
    unfold Work.stopStream
    rw [show u.work.stream i = x from record, show x.cfg.direction = .replay from replay]
    rfl
  have owns : u.work.Owns i none := Work.owns_none unqueued
  have all : x.play.filter (givenUp []) = x.play :=
    List.filter_eq_self.2 fun e he => by simpa [givenUp, PlayEntry.isPending] using judged e he
  have left : x.play.filter (fun e => !givenUp [] e) = [] :=
    List.filter_eq_nil_iff.2 fun e he => by simpa [givenUp, PlayEntry.isPending] using judged e he
  let y : Stream := { x with cur := none, waitedPort := none, play := [] }
  have gaveUp : x.replayGaveUp [] 0 = y := by
    rw [Stream.replayGaveUp, left]
    rfl
  let v : State := { (s.inService tag 0x33).withStream i y with pool := s.pool.regained i pages }
  have gives : u.work.replayGiveUp i = v.work := by
    have gives := owns.replayGiveUp (by nofun)
      (by rw [show u.work.pool.waitList = [] from nobody]; nofun)
    rw [show u.work.stream i = x from record] at gives
    simp only [Option.toList_none, List.filterMap_nil, List.length_nil, all] at gives
    refine gives.trans ?_
    refine (congrArg (Work.updPool · _) (Work.updStream_work u i _)).trans ?_
    rw [record, gaveUp, State.withStream_withStream]
    rfl
  have ends : v.work.drainOrEnd i .stop .stopped = v.work.endStream i .stopped :=
    if_pos ((congrArg Stream.outstanding (State.getElem_withStream _ i y)).trans idle)
  have shut := Work.endStream_eq (w := v.work) (i := i) rfl .stopped
  rw [show v.work.stream i = y from State.getElem_withStream _ i y] at shut
  rw [exec_streamStop_taken takes stoppable]
  refine act_next (stops.trans ((congrArg (Work.drainOrEnd · i .stop .stopped) gives).trans
    (ends.trans (shut.trans ?_))))
  have told : y.finalFigures i .stopped = figures := by
    rw [Stream.finalFigures_eq (st := y) settings, direction]
  have line : (s.inService tag 0x33).host.ended y figures =
      (s.host.withReply ⟨tag, 0x33, .ok, figures.bytes⟩).raise (.streamEnded figures) := by
    rw [HostLine.ended, show y.stopPart = some tag from rfl, show y.abortPart = none from noAbort]
    exact congrArg (HostLine.raise · _) (HostLine.answer_last takes.fresh .ok _)
  let z : Stream := { st with
    state := .ended, outcome := some .stopped, cur := none, play := []
    waitedPort := none, drainReason := none }
  have closed : y.endRecord .stopped = z := by
    simp only [Stream.endRecord, x, y, z, show st.stopPart = none from noStop,
      show st.abortPart = none from noAbort]
  have again : v.withStream i z = { (s.inService tag 0x33).withStream i z with
      pool := s.pool.regained i pages } :=
    congrArg (fun t : State => { t with pool := s.pool.regained i pages })
      (State.withStream_withStream (s.inService tag 0x33) i y z)
  rw [told, Work.updStream_work, show v.streams[i] = y from State.getElem_withStream _ i y, closed,
    again]
  refine (congrArg (fun h => State.work { s.withStream i z with
    host := h, pool := s.pool.regained i pages }) line).trans ?_
  rw [Pool.regained, ← nobody]
  rfl

end Sys2Proof.Machine

/-! PROOFS. STREAM_ABORT (R15 to R18). -/

namespace Sys2Proof.Machine

/-- A STREAM_ABORT that is taken. -/
theorem exec_streamAbort_taken {s : State} {tag : Byte} {i : StreamNo} (takes : s.Takes tag)
    (active : s.streams[i].isActive = true) (noAbort : s.streams[i].abortPart = none) :
    exec (.streamAbort tag [streamByte i]) s = act (·.abortStream i)
      ((s.inService tag 0x34).withStream i { s.streams[i] with abortPart := some tag }) := by
  have served := serveStreamAbort_byte tag i (s.inService tag 0x34).work
  rw [exec_streamAbort, execStreamAbort, act_takeRequest takes]
  refine act_congr (served.trans (if_pos ?_))
  rw [Bool.and_eq_true, Option.isNone_iff_eq_none]
  exact ⟨active, noAbort⟩

/-- The record of a port that loses its one entry of a stream (R116, R128). -/
theorem Port.withdraw_one {pt : Port} {i : StreamNo} {e : Entry}
    (one : pt.queue.filter (Entry.withdrawable i) = [e]) :
    let gone : Port := { pt with
      queue := pt.queue.filter fun f => !(!f.active && f.kind.stream == some i)
      recovery := if pt.recovery = some e.serial then none else pt.recovery
      chosen := if pt.chosen = some e.serial then none else pt.chosen }
    pt.withdraw i = if pt.chosen = some e.serial ∧ pt.state = .waitSector then gone.choose else gone := by
  unfold Port.withdraw
  dsimp only
  rw [one]
  simp only [List.any_cons, List.any_nil, Bool.or_false, beq_iff_eq, Bool.and_eq_true]
  rfl

/-- A state in which a stream's QUEUED entry has left its port and its pages are back in the pool. -/
def State.withdraws (t : State) (i : StreamNo) (own : Option (PortNo × Entry)) (pool : Pool) : State :=
  match own with
  | none => { t with pool := pool }
  | some (p, _) => { t.withPort p (t.ports[p].withdraw i) with pool := pool }

theorem State.withdraws_work (t : State) (i : StreamNo) (own : Option (PortNo × Entry))
    (f : Pool → Pool) :
    (t.work.withdrawn i own).updPool f = (t.withdraws i own (f t.pool)).work := by
  rcases own with _ | ⟨p, e⟩ <;> rfl

theorem State.withdraws_withStream (t : State) (i : StreamNo) (own : Option (PortNo × Entry))
    (pool : Pool) (st : Stream) :
    (t.withdraws i own pool).withStream i st = (t.withStream i st).withdraws i own pool := by
  rcases own with _ | ⟨p, e⟩ <;> rfl

theorem State.withdraws_host (t : State) (i : StreamNo) (own : Option (PortNo × Entry))
    (pool : Pool) (h : HostLine) :
    ({ t.withdraws i own pool with host := h } : State) =
      ({ t with host := h } : State).withdraws i own pool := by
  rcases own with _ | ⟨p, e⟩ <;> rfl

theorem State.streams_withdraws (t : State) (i : StreamNo) (own : Option (PortNo × Entry))
    (pool : Pool) : (t.withdraws i own pool).streams = t.streams := by
  rcases own with _ | ⟨p, e⟩ <;> rfl

theorem State.host_withdraws (t : State) (i : StreamNo) (own : Option (PortNo × Entry))
    (pool : Pool) : (t.withdraws i own pool).host = t.host := by
  rcases own with _ | ⟨p, e⟩ <;> rfl

theorem State.pool_withdraws (t : State) (i : StreamNo) (own : Option (PortNo × Entry))
    (pool : Pool) : (t.withdraws i own pool).pool = pool := by
  rcases own with _ | ⟨p, e⟩ <;> rfl

/-- What an aborted stream gives up in its direction (R15). -/
def Work.abortGiveUp (w : Work) (i : StreamNo) : Work :=
  match (w.stream i).cfg.direction with
  | .capture => w.captureGiveUp i []
  | .replay => w.replayGiveUp i

/-- The reason of an aborted stream's drain (R105). -/
def Direction.abortReason : Direction → Option DrainReason
  | .capture => none
  | .replay => some .abort

theorem Work.abortStream_eq (w : Work) (i : StreamNo) : w.abortStream i =
    if ((w.abortGiveUp i).stream i).outstanding = 0 then (w.abortGiveUp i).abortEndTest i
    else (w.abortGiveUp i).updStream i fun st => { st with
      state := .draining, drainReason := ((w.abortGiveUp i).stream i).cfg.direction.abortReason } :=
  rfl

/-- The record of an aborted stream that has given up. -/
def Stream.abortGaveUp (st : Stream) (withdrawn : List PageNo) (count : Nat) : Stream :=
  match st.cfg.direction with
  | .capture => st.captureGaveUp count
  | .replay => st.replayGaveUp withdrawn count

/-- The pages an aborted stream gives up, in the order of R35. -/
def Stream.abortPages (st : Stream) (withdrawn : List PageNo) : List PageNo :=
  match st.cfg.direction with
  | .capture => st.capturePages ++ withdrawn ++ []
  | .replay => (st.cur.map (·.page)).toList ++ (st.play.filter (givenUp withdrawn)).map (·.page)

theorem Work.Owns.abortGiveUp {w : Work} {i : StreamNo} {own : Option (PortNo × Entry)}
    (h : w.Owns i own)
    (quiet : ∀ p e, own = some (p, e) → ∀ j : StreamNo, j ≠ i → (w.stream j).waitedPort ≠ some p)
    (only : ∀ x ∈ w.pool.waitList, x.1 = i) :
    let withdrawn := own.toList.filterMap fun x => x.2.kind.page
    w.abortGiveUp i =
      ((w.withdrawn i own).updStream i fun _ =>
        (w.stream i).abortGaveUp withdrawn own.toList.length).updPool
          (·.regained i ((w.stream i).abortPages withdrawn)) := by
  intro withdrawn
  have record : (w.withdrawn i own).stream i = w.stream i := by
    rcases own with _ | ⟨p, e⟩ <;> rfl
  unfold Work.abortGiveUp
  rcases direction : (w.stream i).cfg.direction
  · refine (h.captureGiveUp quiet only []).trans ?_
    rw [Work.updStream_congr (w := w.withdrawn i own) (g := fun _ =>
      (w.stream i).abortGaveUp withdrawn own.toList.length)
      (by rw [record, Stream.abortGaveUp, direction])]
    rw [Stream.abortPages, direction]
  · refine (h.replayGiveUp quiet only).trans ?_
    rw [Work.updStream_congr (w := w.withdrawn i own) (g := fun _ =>
      (w.stream i).abortGaveUp withdrawn own.toList.length)
      (by rw [record, Stream.abortGaveUp, direction])]
    rw [Stream.abortPages, direction]

/-- Settles O34: the stream gives up, and ends at once or drains. -/
theorem streamAbortGivesUp : Obligations.StreamAbortGivesUp := by
  unfold Obligations.StreamAbortGivesUp
  intro s tag i c own takes settings active noAbort queued quiet replayEnd only st withdrawn taken pages
    pool outstanding left outcome figures ended withdraws
  have cfg : st.cfg = c := by rw [Stream.cfg, show st.settings = some c from settings]; rfl
  let x : Stream := { st with abortPart := some tag }
  let busy := s.inService tag 0x34
  let u : State := busy.withStream i x
  have record : u.streams[i] = x := State.getElem_withStream _ i x
  let y : Stream := { left with abortPart := some tag }
  have direction : x.cfg.direction = c.direction := congrArg Settings.direction cfg
  have gaveUp : x.abortGaveUp withdrawn own.toList.length = y := by
    unfold Stream.abortGaveUp
    rw [direction]
    simp only [y, left]
    rcases way : c.direction
    · rfl
    · have none : st.endPage = .none := replayEnd way
      have kept : (st.play.filter fun e => !givenUp withdrawn e) =
          st.play.filter fun e => e.status == .pending && !withdrawn.contains e.page :=
        List.filter_congr fun e _ => by simp [givenUp, PlayEntry.isPending]
      simp only [Stream.replayGaveUp, x, kept, none, reduceCtorEq, if_false]
      rfl
  have given : x.abortPages withdrawn = pages := by
    unfold Stream.abortPages
    rw [direction]
    simp only [pages, taken]
    rcases way : c.direction
    · exact (List.append_nil _).trans (List.append_assoc ..)
    · rfl
  let v : State := (busy.withStream i y).withdraws i own pool
  have gives : u.work.abortGiveUp i = v.work := by
    have gives := Work.Owns.abortGiveUp (w := u.work) (i := i) (own := own) queued
      (fun p e one j other => by
        rw [show u.work.stream j = s.streams[j] from Vector.getElem_set_ne i.isLt j.isLt fun h =>
          other (Fin.ext h.symm)]
        exact quiet p e one j other) only
    rw [show u.work.stream i = x from record] at gives
    have replaced : (u.work.withdrawn i own).updStream i (fun _ => y) =
        (busy.withStream i y).work.withdrawn i own := by
      rw [← State.withStream_withStream busy i x y]
      rcases own with _ | ⟨p, e⟩ <;> rfl
    refine gives.trans ?_
    change ((u.work.withdrawn i own).updStream i fun _ =>
      x.abortGaveUp withdrawn own.toList.length).updPool (·.regained i (x.abortPages withdrawn)) = _
    rw [gaveUp, given, replaced]
    exact State.withdraws_work ..
  have yours : v.streams[i] = y := by
    have streams : v.streams = (busy.withStream i y).streams := State.streams_withdraws ..
    rw [show v.streams[i] = (busy.withStream i y).streams[i] from congrArg (·[i]) streams]
    exact State.getElem_withStream busy i y
  have same (t : State) (ports : t.ports = s.ports) : withdraws t = t.withdraws i own pool := by
    simp only [withdraws]
    unfold State.withdraws
    rcases which : own with _ | ⟨p, e⟩
    · rfl
    · have one := queued p
      rw [which] at one
      have gone := Port.withdraw_one (one.trans (if_pos rfl))
      have here : t.ports[p].withdraw i = s.ports[p].withdraw i := by rw [ports]
      exact congrArg (fun pt => ({ t.withPort p pt with pool := pool } : State)) (here.trans gone).symm
  have made : y.endPage = .made ↔ st.endPage = .made := by
    simp only [y, left]
    split
    next waiting => rw [waiting]; simp
    next => exact Iff.rfl
  rw [exec_streamAbort_taken takes active noAbort]
  have aborts := u.work.abortStream_eq i
  rw [gives, show v.work.stream i = y from yours] at aborts
  have changed (z : Stream) : v.withStream i z = (busy.withStream i z).withdraws i own pool :=
    (State.withdraws_withStream ..).trans
      (congrArg (State.withdraws · i own pool) (State.withStream_withStream busy i y z))
  have finish (h : HostLine) (line : busy.host.ended y figures = h) (idle : outstanding = 0) :
      act (·.abortStream i) u = .next (withdraws { s.withStream i ended with host := h }) := by
    have ends : v.work.abortEndTest i = v.work.endStream i outcome := by
      unfold Work.abortEndTest
      rw [show v.work.stream i = y from yours]
      refine (if_pos ⟨rfl, idle⟩).trans ?_
      simp only [made, outcome]
    have told : y.finalFigures i outcome = figures := Stream.finalFigures_eq (st := y) settings i _
    have closed : y.endRecord outcome = ended := by
      simp only [Stream.endRecord, y, ended, left, show st.abortPart = none from noAbort]
    have absent : v.work.waits i = false := by
      unfold Work.waits
      rw [show v.work.pool = pool from State.pool_withdraws ..]
      rfl
    refine act_next (aborts.trans ((if_pos idle).trans (ends.trans ?_)))
    rw [Work.endStream_eq absent, show v.work.stream i = y from yours, told, Work.updStream_work, yours,
      closed, changed]
    refine Eq.trans ?_ (congrArg State.work (same _ (by rfl))).symm
    have host : ((busy.withStream i ended).withdraws i own pool).host.ended y figures = h := by
      rw [State.host_withdraws]
      exact line
    exact congrArg State.work ((congrArg (fun h => ({ (busy.withStream i ended).withdraws i own pool with
      host := h } : State)) host).trans (State.withdraws_host ..))
  refine ⟨fun idle noStop => ?_, fun stop code owner before after idle stops slots first => ?_,
    fun flying => ?_⟩
  · refine finish _ ?_ idle
    rw [HostLine.ended, show y.stopPart = none from noStop]
    exact congrArg (HostLine.raise · _) (HostLine.answer_last takes.fresh .ok _)
  · refine finish _ ?_ idle
    rw [HostLine.ended, show y.stopPart = some stop from stops]
    refine congrArg (HostLine.raise · _) ?_
    have answered := HostLine.answer_of_slot (h := busy.host) (tag := stop) .aborted figures.bytes
      (after := after ++ [⟨tag, 0x34, ownerOf 0x34⟩]) (by
        rw [show busy.host.slots = s.host.slots ++ [⟨tag, 0x34, ownerOf 0x34⟩] from rfl, slots]
        rw [List.append_assoc, List.cons_append]) first
    have others : (before ++ after).any (·.tag == tag) = false := by
      have fresh : s.host.slots.any (·.tag == tag) = false := takes.fresh
      rw [slots, List.any_append, List.any_cons, Bool.or_eq_false_iff, Bool.or_eq_false_iff] at fresh
      rw [List.any_append, fresh.1, fresh.2.2]
      rfl
    refine (congrArg (HostLine.answer · tag .ok figures.bytes) answered).trans ?_
    rw [HostLine.answer_of_slot (tag := tag) (code := 0x34) (owner := ownerOf 0x34)
      (before := before ++ after) (after := []) .ok _ (List.append_assoc ..).symm others,
      List.append_nil]
    rfl
  · refine act_next (aborts.trans ((if_neg flying).trans ?_))
    refine Eq.trans ?_ (congrArg State.work (same _ (by rfl))).symm
    rw [Work.updStream_work, yours, changed, show y.cfg.direction = c.direction from direction]
    rfl

end Sys2Proof.Machine

/-! PROOFS. STREAM_START (R12, R74, R91, R93, R94). -/

namespace Sys2Proof.Machine

/-- A STREAM_START that is taken. -/
theorem exec_streamStart_taken {s : State} {tag : Byte} {i : StreamNo} (take : Half) (seq : Seq)
    (takes : s.Takes tag) (startable : s.work.startable i = true) :
    exec (.streamStart tag (startBytes i take seq)) s =
      act (·.startStream i take seq tag) (s.inService tag 0x32) := by
  have served := serveStreamStart_bytes tag i take seq (s.inService tag 0x32).work
  rw [exec_streamStart, execStreamStart, act_takeRequest takes]
  exact act_congr (served.trans (if_pos startable))

/-! ### Notices and the reply of a request in its slot -/

/-- Raising a notice has nothing to do with the request slots. -/
theorem HostLine.raise_slots (h : HostLine) (l : List Slot) (n : Notice) :
    HostLine.raise { h with slots := l } n = { h.raise n with slots := l } := by
  unfold HostLine.raise HostLine.choose
  dsimp only
  repeat' split
  all_goals rfl

theorem HostLine.slots_raise (h : HostLine) (n : Notice) : (h.raise n).slots = h.slots := by
  have same : h.raise n = { h.raise n with slots := h.slots } := h.raise_slots h.slots n
  rw [same]

theorem HostLine.inProgress_raise (h : HostLine) (n : Notice) (tag : Byte) :
    (h.raise n).inProgress tag = h.inProgress tag := by
  rw [HostLine.inProgress, HostLine.slots_raise]
  rfl

/-- The host line with one more request in a slot. -/
def HostLine.entered (h : HostLine) (tag code : Byte) : HostLine :=
  { h with slots := h.slots ++ [⟨tag, code, ownerOf code⟩] }

theorem HostLine.raise_entered (h : HostLine) (tag code : Byte) (n : Notice) :
    (h.entered tag code).raise n = (h.raise n).entered tag code := by
  rw [HostLine.entered, HostLine.raise_slots, HostLine.entered, HostLine.slots_raise]

/-- What the start of a take does at the host line: EXTENT_EMPTY where it starts into HOLD, and the
reply (R12, R74). -/
def HostLine.started (h : HostLine) (empty : Option Notice) (tag : Byte) (payload : List Byte) :
    HostLine :=
  match empty with
  | some n => (h.raise n).answer tag .ok payload
  | none => h.answer tag .ok payload

theorem HostLine.started_entered {h : HostLine} {tag code : Byte} (fresh : h.inProgress tag = false)
    (empty : Option Notice) (payload : List Byte) :
    (h.entered tag code).started empty tag payload =
      (match empty with
      | some n => h.raise n
      | none => h).withReply ⟨tag, code, .ok, payload⟩ := by
  rcases empty with _ | n
  · exact HostLine.answer_last fresh .ok payload
  · refine (congrArg (HostLine.answer · tag .ok payload) (h.raise_entered tag code n)).trans ?_
    exact HostLine.answer_last ((h.inProgress_raise n tag).trans fresh) .ok payload

/-! ### STREAM_START of a capture stream (R12, R74) -/

/-- The notice of a start into HOLD (R74 (2)). -/
def Work.startNotice (w : Work) (i : StreamNo) (take : Half) (seq : Seq) : Option Notice :=
  if (w.stream i).state = .hold then
    some (.extentEmpty i take .hold seq (w.stream i).ready.length (w.held i) (w.stream i).outstanding)
  else none

theorem Work.startStream_eq (w : Work) (i : StreamNo) (take : Half) (seq : Seq) (tag : Byte) :
    w.startStream i take seq tag =
      let v := w.updStream i (·.startRecord take seq)
      let offered := if (v.stream i).lowGiven then
        v.offer (.extentLow i (v.stream i).remaining (v.stream i).cfg.lowMark
          (v.stream i).extents.length) else v
      let answered := offered.updHost (·.started (v.startNotice i take seq) tag [streamByte i])
      if (v.stream i).state = .priming then answered.replayTest i else answered := by
  unfold Work.startStream Work.startNotice
  dsimp only
  generalize w.updStream i (fun st => st.startRecord take seq) = v
  have held : (if (v.stream i).lowGiven = true then v.offer (.extentLow i (v.stream i).remaining
      (v.stream i).cfg.lowMark (v.stream i).extents.length) else v).held i = v.held i := by
    split
    · exact congrArg (fun pool : Pool => pool.held[i]) (v.pool_offer _)
    · rfl
  rw [held]
  by_cases hold : (v.stream i).state = .hold
  · rw [if_pos hold, if_pos hold]
    rfl
  · rw [if_neg hold, if_neg hold]
    rfl

/-- The record a capture stream starts with, bound with settings (R12, R74). -/
theorem Stream.startRecord_capture {st : Stream} {c : Settings} (settings : st.settings = some c)
    (capture : c.direction = .capture) (take : Half) (seq : Seq) :
    st.startRecord take seq = { st with
      state := if st.extents.isEmpty then .hold else .running
      take := some take, nextSeq := some seq, commitMark := some 0, commitPoint := seq
      counters := {}, skips := [], outcome := none, stopPart := none, abortPart := none
      overrun := false, underrun := false, lowGiven := decide (st.remaining ≤ c.lowMark)
      emptyReported := st.extents.isEmpty
      waitedPort := none, endPage := .none, drainReason := none } := by
  have cfg : st.cfg = c := by rw [Stream.cfg, settings]; rfl
  simp only [Stream.startRecord, cfg, capture, beq_self_eq_true, Bool.true_and]

/-- Settles O30: the take begins, EXTENT_LOW taken at once or after the reply. -/
theorem streamStartCaptures : Obligations.StreamStartCaptures := by
  unfold Obligations.StreamStartCaptures
  intro s tag i take seq c takes settings capture wide states st low empty started warned accepted result
  have cfg : st.cfg = c := by rw [Stream.cfg, show st.settings = some c from settings]; rfl
  have startable : s.work.startable i = true :=
    (s.work.startable_iff i).2 ⟨st.isIdle_iff.2 states, wide, .inl (cfg ▸ capture)⟩
  let y : Stream := st.startRecord take seq
  have record : y = _ := Stream.startRecord_capture settings capture take seq
  let busy := s.inService tag 0x32
  let v : State := busy.withStream i y
  have yours : v.work.stream i = y := State.getElem_withStream busy i y
  have state : y.state = if empty = true then .hold else .running := by rw [record]
  have notPriming : y.state ≠ .priming := by
    rw [state]
    split <;> nofun
  let notice : Option Notice := if empty then
    some (.extentEmpty i take .hold seq st.ready.length s.pool.held[i] st.outstanding) else none
  have noticed : v.work.startNotice i take seq = notice := by
    have holds : y.state = .hold ↔ empty = true := by
      rw [state]
      by_cases e : empty = true <;> simp [e]
    unfold Work.startNotice
    rw [yours]
    simp only [holds, notice]
    rw [record]
    rfl
  let line (h : HostLine) : HostLine :=
    (match notice with
    | some n => h.raise n
    | none => h).withReply ⟨tag, 0x32, .ok, [streamByte i]⟩
  have accepts (u : State) : accepted u = { u with host := line u.host } := by
    simp only [accepted, line, notice]
    split <;> rfl
  have answers (h : HostLine) (fresh : h.inProgress tag = false) :
      (h.entered tag 0x32).started notice tag [streamByte i] = line h :=
    HostLine.started_entered fresh notice _
  have starts (picks : Nat) : started picks =
      { s.withStream i y with pickCount := s.pickCount + picks } := by
    rw [record]
  have told : Notice.extentLow i y.remaining y.cfg.lowMark y.extents.length =
      .extentLow i st.remaining c.lowMark st.extents.length := by
    rw [← cfg]
    rfl
  have goes := busy.work.startStream_eq i take seq tag
  dsimp only at goes
  rw [show busy.work.updStream i (·.startRecord take seq) = v.work from rfl, yours, noticed,
    if_neg notPriming, told] at goes
  have run : result = act (·.startStream i take seq tag) busy :=
    exec_streamStart_taken take seq takes startable
  have lowGiven : y.lowGiven = low := by rw [record]
  rw [run]
  refine ⟨fun above => ?_, fun below => ?_⟩
  · rw [lowGiven, above, if_neg nofun] at goes
    refine act_next (goes.trans ?_)
    rw [accepts, starts]
    exact congrArg (fun h => State.work { s.withStream i y with host := h }) (answers s.host takes.fresh)
  · rw [lowGiven, below, if_pos rfl] at goes
    let n : Notice := .extentLow i st.remaining c.lowMark st.extents.length
    rcases v.work.offer_eq n with ⟨waiting, -⟩ | ⟨-, now | later⟩
    · cases waiting
    · refine .inl (act_next (goes.trans ?_))
      rw [now, accepts, starts]
      have entered : (s.host.entered tag 0x32).raise n = (s.host.raise n).entered tag 0x32 :=
        s.host.raise_entered tag 0x32 n
      have host := (congrArg (HostLine.started · notice tag [streamByte i]) entered).trans
        (answers (s.host.raise n) ((s.host.inProgress_raise n tag).trans takes.fresh))
      exact congrArg (fun h => State.work { s.withStream i y with
        pickCount := s.pickCount + 1, host := h }) host
    · rw [later] at goes
      refine .inr (act_single (u := { busy.withStream i y with
        pickCount := s.pickCount + 1
        host := busy.host.started notice tag [streamByte i] }) goes ?_)
      rw [accepts, starts]
      exact congrArg (fun h => State.work { s.withStream i y with
        pickCount := s.pickCount + 1, host := HostLine.raise h n }) (answers s.host takes.fresh)

/-! ### STREAM_START of a replay stream (R93, R94) -/

/-- What a stream's record becomes when a read is issued (R94). -/
def Stream.readIssued (st : Stream) (page : PageNo) (port : PortNo) (lba : Nat) : Stream :=
  { st with
    play := st.play ++ [⟨page, port, lba, .pending⟩], outstanding := st.outstanding + 1
    waitedPort := none }

/-- A replay stream that may issue one read, and no further one, issues it and is then quiet (R93,
R94). -/
theorem Work.replayTest_issues {w : Work} {i : StreamNo} {x : Extent} {others : List Extent}
    {page : PageNo} {free : List PageNo} (alone : w.agenda = [])
    (h : (w.stream i).WellSupplied x others) (mayRead : (w.stream i).mayRead = true)
    (last : (w.stream i).cfg.depth = (w.stream i).outstanding + 1)
    (quota : w.held i < (w.stream i).cfg.quota) (head : w.pool.free = page :: free)
    (grants : w.grants i = true) (attached : (w.port x.port).state ≠ .offline)
    (fits : (w.port x.port).queue.length < 12) (nobody : w.pool.waitList = []) :
    let lba := x.start + (w.stream i).offset
    w.replayTest i = ((w.updPool (·.claimed i page free)).updStream i
      (·.readIssued page x.port lba)).placesNext i x lba (.streamRead i page) := by
  intro lba
  let claimed := w.updPool (·.claimed i page free)
  let read := claimed.updStream i (·.readIssued page x.port lba)
  have absent : read.waits i = false := by
    unfold Work.waits
    rw [show read.pool.waitList = [] from nobody]
    rfl
  have supplied : (read.stream i).WellSupplied x others := by
    rw [Work.stream_updStream_self]
    exact ⟨h.extents, h.within, h.above⟩
  have issued : claimed.issueRead i (x.port, lba, x.override) page =
      read.placesNext i x lba (.streamRead i page) := by
    refine Eq.trans ?_ (supplied.placeNext (w := read) attached (.inl nobody) (.streamRead i page) lba)
    exact congrArg (fun v : Work => (v.takeSector i).place x.port (.streamRead i page) lba)
      (Work.leaveWait_absent absent)
  obtain ⟨v, placed⟩ : ∃ v, v = read.placesNext i x lba (.streamRead i page) := ⟨_, rfl⟩
  have record : v.stream i = { (w.stream i).readIssued page x.port lba with
      offset := (w.stream i).offset + 1 } := by
    rw [placed, Work.stream_placesNext, Work.stream_updStream_self]
    rfl
  have still : v.agenda = [] := placed ▸ alone
  have full : (v.stream i).mayRead = false := by
    rw [record]
    exact Stream.mayRead_of_full (Nat.le_of_eq last)
  have sectors : (v.stream i).exhausted = false := by
    rw [record]
    simp [Stream.exhausted, Stream.readIssued, h.extents]
  have gone : v.waits i = false := placed ▸ absent
  have first : Work.replayIssue i ((w.stream i).cfg.depth + 1) w = v := by
    rw [Work.replayIssue, if_pos mayRead, h.nextSector]
    dsimp only
    rw [if_pos quota, if_pos (Port.hasRoom_iff _ |>.2 fits), Work.claim_granted head grants]
    dsimp only
    rw [issued, ← placed, Work.pauses_alone i still]
    dsimp only
    rw [if_neg nofun, last, Work.replayIssue, full, if_neg nofun, Work.leaveWait_absent gone]
  unfold Work.replayTest
  dsimp only
  rw [first, sectors]
  exact (if_neg nofun).trans placed

/-- The record a replay stream starts with above its low mark, bound with settings (R12, R91). -/
theorem Stream.startRecord_replay {st : Stream} {c : Settings} (settings : st.settings = some c)
    (replay : c.direction = .replay) (above : c.lowMark < st.remaining) (take : Half) (seq : Seq) :
    st.startRecord take seq = { st with
      state := .priming
      take := some take, nextSeq := some seq, commitMark := some 0, commitPoint := seq
      counters := {}, skips := [], outcome := none, stopPart := none, abortPart := none
      overrun := false, underrun := false, lowGiven := false, emptyReported := false
      waitedPort := none, endPage := .none, drainReason := none } := by
  have cfg : st.cfg = c := by rw [Stream.cfg, settings]; rfl
  have low : decide (st.remaining ≤ c.lowMark) = false := decide_eq_false (Nat.not_le.2 above)
  simp only [Stream.startRecord, cfg, replay, low]
  rfl

/-- Settles O31: the take begins, and the first read is placed on the port of the next sector. -/
theorem streamStartReplays : Obligations.StreamStartReplays := by
  unfold Obligations.StreamStartReplays
  intro s tag i take seq c x others page free takes settings replay wide depth prime states idle noPlay
    noPage extents within above attached fits nobody head below reserve st lba entry
  have cfg : st.cfg = c := by rw [Stream.cfg, show st.settings = some c from settings]; rfl
  have startable : s.work.startable i = true :=
    (s.work.startable_iff i).2 ⟨st.isIdle_iff.2 (states.imp_right .inl), wide,
      .inr (by rw [show (s.work.stream i).extents = _ from extents]; nofun)⟩
  let y : Stream := st.startRecord take seq
  let z : Stream := { st with
    state := .priming
    take := some take, nextSeq := some seq, commitMark := some 0, commitPoint := seq
    counters := {}, skips := [], outcome := none, stopPart := none, abortPart := none
    overrun := false, underrun := false, lowGiven := false, emptyReported := false
    waitedPort := none, endPage := .none, drainReason := none }
  have record : y = z := Stream.startRecord_replay settings replay (Nat.lt_of_succ_lt above) take seq
  let busy := s.inService tag 0x32
  let v : State := (s.withStream i z).replied tag 0x32 .ok [streamByte i]
  have goes : busy.work.startStream i take seq tag = v.work.replayTest i := by
    have started : busy.work.updStream i (·.startRecord take seq) = (busy.withStream i z).work := by
      rw [← record]
      rfl
    have yours : (busy.withStream i z).work.stream i = z := State.getElem_withStream busy i z
    have silent : (busy.withStream i z).work.startNotice i take seq = none := by
      unfold Work.startNotice
      rw [yours]
      exact if_neg nofun
    rw [busy.work.startStream_eq]
    dsimp only
    rw [started, yours, silent, if_pos rfl, if_neg nofun]
    exact congrArg (Work.replayTest · i) (Work.take_answer (w := (s.withStream i z).work) takes.fresh)
  rw [exec_streamStart_taken take seq takes startable]
  refine act_next (goes.trans ?_)
  have issues := Work.replayTest_issues (w := v.work) (i := i) (x := x) (others := others) (page := page)
    (free := free) rfl
  rw [show v.work.stream i = z from State.getElem_withStream s i z] at issues
  have given : z.cfg = c := cfg
  have none : z.outstanding = 0 := idle
  have grants : v.work.grants i = true := by
    refine (v.work.grants_iff i).2 (.inl ?_)
    rw [show v.work.stream i = z from State.getElem_withStream s i z, given]
    exact below
  have supplied : z.WellSupplied x others := ⟨extents, within, by rw [given]; exact above⟩
  have sectors : z.exhausted = false := by
    rw [Stream.exhausted, show z.extents = x :: others from extents]
    rfl
  have mayRead : z.mayRead = true := by
    have below : z.outstanding < z.cfg.depth := by
      rw [given, none, depth]
      exact Nat.one_pos
    unfold Stream.mayRead
    rw [sectors, decide_eq_true below]
    rfl
  refine (issues supplied mayRead (by rw [given, none, depth]) (by rw [given]; exact lt_of_lt_of_le below reserve)
    head grants attached (by exact lt_trans fits (by decide)) nobody).trans ?_
  let pool := s.pool.claimed i page free
  let w : State := { v with pool := pool }
  let read : Stream := { z with
    play := [⟨page, x.port, lba, .pending⟩], outstanding := 1, offset := st.offset + 1 }
  have reads : { z.readIssued page x.port lba with offset := (z.readIssued page x.port lba).offset + 1 } =
      read := by
    simp only [Stream.readIssued, show z.play = [] from noPlay, none, read]
    rfl
  have again : w.withStream i read = { (s.withStream i read).replied tag 0x32 .ok [streamByte i] with
      pool := pool } :=
    congrArg (fun u : State => { u.replied tag 0x32 .ok [streamByte i] with pool := pool })
      (State.withStream_withStream s i z read)
  refine (State.placesNext_work w i _ x lba _).trans ?_
  rw [show w.streams[i] = z from State.getElem_withStream s i z, reads, again]
  rfl

end Sys2Proof.Machine

/-! PROOFS. Frame ends with one replay stream mapped (R69, R71, R72, R99 to R102). -/

namespace Sys2Proof.Machine

/-! ### A frame end with one stream mapped -/

/-- The state in which the buffers have changed places at a frame end (R69, R72). -/
def State.afterFrame (s : State) (next : FrameState) (received : Vector Byte 64) : State :=
  { s with frame := (({ s.frame with state := next } : FramePort).handOver received).sendNext }

theorem streamNos_filter_one {i : StreamNo} {p : StreamNo → Bool} (here : p i = true)
    (elsewhere : ∀ j, j ≠ i → p j = false) : streamNos.filter p = [i] := by
  have one : p = (· == i) := funext fun j => by
    by_cases same : j = i
    · rw [same, here, beq_self_eq_true]
    · rw [elsewhere j same, beq_eq_false_iff_ne.2 same]
  have count : streamNos.count i = 1 := List.count_eq_one_of_mem nodup_streamNos (mem_streamNos i)
  rw [one, List.filter_beq, count]
  rfl

/-- A frame end at which one stream takes its part. -/
theorem exec_frameBoundary_one {s t : State} {sync : Bool} {received : Vector Byte 64}
    {next : FrameState} {i : StreamNo} (high : s.resetLow = false)
    (ends : s.frame.state.atFrameEnd sync = some next) (wide : 0 < s.work.width i)
    (narrow : ∀ j : StreamNo, j ≠ i → s.work.width j = 0)
    (takes : (s.afterFrame next received).work.exchange i = t.work) :
    exec (.frameBoundary sync received) s = .next t := by
  rw [execFrameBoundary_ends received high ends]
  refine act_single (u := s.afterFrame next received) (e := .exchange i) ?_ takes
  have one : (streamNos.filter fun j => s.work.width j ≠ 0) = [i] :=
    streamNos_filter_one (decide_eq_true (Nat.ne_of_gt wide)) fun j other =>
      decide_eq_false (not_not.2 (narrow j other))
  rw [Work.frameEnd_eq]
  exact congrArg (fun l => ((s.afterFrame next received).work.postAll (l.map .exchange))) one

/-! ### The answer of a replay stream (R71) -/

theorem fillSlots_outside {n : SlotNo} (ns : List SlotNo) (bs : List Byte) (v : Vector Byte 64)
    (outside : n ∉ ns) : (fillSlots ns bs v)[n] = v[n] := by
  induction ns generalizing bs v with
  | nil => rfl
  | cons m ns ih =>
    rcases bs with _ | ⟨b, bs⟩
    · rfl
    · have other : (m : Nat) ≠ n := fun same => outside (Fin.ext same ▸ List.mem_cons_self)
      exact (ih bs _ fun h => outside (List.mem_cons_of_mem m h)).trans
        (Vector.getElem_set_ne m.isLt n.isLt other)

theorem fillSlots_nil (ns : List SlotNo) (v : Vector Byte 64) : fillSlots ns [] v = v := by
  cases ns <;> rfl

theorem fillSlots_inside {n : SlotNo} {b : Byte} {ns : List SlotNo} (nodup : ns.Nodup) {bs : List Byte}
    (v : Vector Byte 64) {k : Nat} (slot : ns[k]? = some n) (byte : bs[k]? = some b) :
    (fillSlots ns bs v)[n] = b := by
  induction ns generalizing bs v k with
  | nil => cases slot
  | cons m ns ih =>
    rcases bs with _ | ⟨c, bs⟩
    · cases byte
    · obtain ⟨fresh, nodup⟩ := List.nodup_cons.1 nodup
      cases k with
      | zero =>
        cases slot
        cases byte
        exact (fillSlots_outside ns bs _ fresh).trans (Vector.getElem_set_self _)
      | succ k => exact ih nodup _ slot byte

theorem Work.exchange_replay {w : Work} {i : StreamNo} {bytes : List Byte} {v : Work}
    (replay : (w.stream i).cfg.direction = .replay) (supplies : w.supply i (w.width i) = (bytes, v)) :
    w.exchange i = v.updFrame fun f => { f with txSend := fillSlots (w.slots i) bytes f.txSend } := by
  unfold Work.exchange
  rw [replay]
  dsimp only
  rw [show w.supply i (w.slots i).length = (bytes, v) from supplies]

/-- A frame end with one replay stream mapped: what its answer leaves, and its slots of the frame that
begins. -/
theorem exec_frameBoundary_replay {s u : State} {sync : Bool} {received : Vector Byte 64}
    {next : FrameState} {i : StreamNo} {bytes : List Byte} (high : s.resetLow = false)
    (ends : s.frame.state.atFrameEnd sync = some next) (wide : 0 < s.work.width i)
    (narrow : ∀ j : StreamNo, j ≠ i → s.work.width j = 0)
    (replay : s.streams[i].cfg.direction = .replay)
    (supplies : (s.afterFrame next received).work.supply i (s.work.width i) = (bytes, u.work))
    (frame : u.frame = (s.afterFrame next received).frame) :
    ∃ t, exec (.frameBoundary sync received) s = .next t ∧
      t = { u with frame := s.frame.ended next t.frame.rxHand t.frame.txSend } ∧
      (∀ n : SlotNo, n.val < s.frame.slotCount.toNat → t.frame.rxHand[n] = received[n]) ∧
      t.frame.txSend = fillSlots (s.work.slots i) bytes s.frame.txFill := by
  let f : FramePort := { (s.afterFrame next received).frame with
    txSend := fillSlots (s.work.slots i) bytes s.frame.txFill }
  have takes : (s.afterFrame next received).work.exchange i = ({ u with frame := f } : State).work := by
    refine (Work.exchange_replay (w := (s.afterFrame next received).work) replay supplies).trans ?_
    unfold Work.updFrame
    rw [show u.work.frame = _ from frame]
    rfl
  have same : f.Same ((({ s.frame with state := next } : FramePort).handOver received).sendNext) := rfl
  obtain ⟨changed, hand⟩ := FramePort.of_same_sendNext same
  exact ⟨_, exec_frameBoundary_one high ends wide narrow takes,
    congrArg (fun f => ({ u with frame := f } : State)) changed, hand, rfl⟩

theorem Work.nodup_slots (w : Work) (i : StreamNo) : (w.slots i).Nodup := by
  unfold Work.slots
  split
  · exact nodup_slotsOf _ i
  · exact List.nodup_nil

/-! ### Underrun (R99 (4), R100) -/

/-- What a stream's record becomes when `n` bytes of an answer are underrun bytes. -/
def Stream.starved (st : Stream) (n : Nat) : Stream :=
  { st with
    underrun := true
    counters := { st.counters with idleSent := min (2 ^ 48 - 1) (st.counters.idleSent + n) } }

theorem Stream.starved_starved (st : Stream) (m n : Nat) :
    (st.starved m).starved n = st.starved (m + n) := by
  have sum : min (2 ^ 48 - 1) (min (2 ^ 48 - 1) (st.counters.idleSent + m) + n) =
      min (2 ^ 48 - 1) (st.counters.idleSent + (m + n)) := by omega
  simp only [Stream.starved, sum]

/-- A stream in RUNNING with no drain page and no ACCEPTED page to take. -/
structure Stream.Dry (st : Stream) : Prop where
  running : st.state = .running
  noPage : st.cur = none
  nextNone : st.acceptedCount = 0

theorem Stream.Dry.front {st : Stream} (h : st.Dry) {e : PlayEntry} {rest : List PlayEntry}
    (play : st.play = e :: rest) : e.isAccepted = false := by
  have none := h.nextNone
  rw [Stream.acceptedCount, play] at none
  by_contra accepted
  rw [List.takeWhile_cons_of_pos (by simpa using accepted)] at none
  cases none

theorem Stream.Dry.nextDrainPage {st : Stream} (h : st.Dry) : st.nextDrainPage = st := by
  unfold Stream.nextDrainPage
  rw [h.noPage]
  rcases play : st.play with _ | ⟨e, rest⟩
  · rfl
  · have front := h.front play
    rcases status : e.status with _ | _ | _ | trailer
    case accepted => simp [PlayEntry.isAccepted, status] at front
    all_goals simp only [status]

/-- An underrun finds the play queue empty, or waiting for its head (R100). -/
theorem Stream.Dry.waits {st : Stream} (h : st.Dry) :
    (if st.play.any (fun e => !e.isAccepted) then QueueState.waitingRead else .empty) =
      if st.play = [] then .empty else .waitingRead := by
  rcases play : st.play with _ | ⟨e, rest⟩
  · rfl
  · rw [List.any_cons, h.front play]
    rfl

/-- The notice of the first underrun byte of an episode (R100). -/
def Work.underrunNotice (w : Work) (i : StreamNo) : Notice :=
  .underrun i (w.stream i).takeNow (w.stream i).seqNow (w.stream i).play.length
    (w.stream i).outstanding (w.held i)
    (if (w.stream i).play.any (fun e => !e.isAccepted) then .waitingRead else .empty)

/-- The work in hand when `n` bytes of an answer have been underrun bytes. -/
def Work.starved (w : Work) (i : StreamNo) (n : Nat) : Work :=
  (if (w.stream i).underrun then w else w.raise (w.underrunNotice i)).updStream i (·.starved n)

theorem Work.stream_starved (w : Work) (i : StreamNo) (n : Nat) :
    (w.starved i n).stream i = (w.stream i).starved n := by
  unfold Work.starved
  split <;> exact Work.stream_updStream_self _ i (·.starved n)

theorem Work.starved_starved (w : Work) (i : StreamNo) (m n : Nat) :
    (w.starved i m).starved i n = w.starved i (m + n) := by
  have again : (w.starved i m).starved i n = (w.starved i m).updStream i (·.starved n) := by
    rw [Work.starved, Work.stream_starved]
    rfl
  rw [again, Work.starved, Work.updStream_updStream]
  exact Work.updStream_congr (Stream.starved_starved _ m n)

theorem Work.supplyByte_dry {w : Work} {i : StreamNo} (dry : (w.stream i).Dry) (left : Nat) :
    w.supplyByte i left = ((w.stream i).cfg.idleByte, w.starved i 1) := by
  have same : w.updStream i Stream.nextDrainPage = w := Work.updStream_of_eq dry.nextDrainPage
  have first : w.underrunByte i = w.starved i 1 := by
    unfold Work.underrunByte Work.starved
    dsimp only
    split <;> rfl
  unfold Work.supplyByte
  dsimp only
  rw [if_pos dry.running, same, dry.noPage, first]

/-- An answer of underrun bytes. -/
theorem Work.supplyBytes_dry {i : StreamNo} (n : Nat) {w : Work} (dry : (w.stream i).Dry) :
    Work.supplyBytes i (n + 1) w =
      (List.replicate (n + 1) (w.stream i).cfg.idleByte, w.starved i (n + 1)) := by
  induction n generalizing w with
  | zero => rw [Work.supplyBytes, Work.supplyByte_dry dry]; rfl
  | succ n ih =>
    have record := w.stream_starved i 1
    have still : ((w.starved i 1).stream i).Dry := by
      rw [record]
      exact ⟨dry.running, dry.noPage, dry.nextNone⟩
    rw [Work.supplyBytes, Work.supplyByte_dry dry]
    dsimp only
    rw [ih still, record, Work.starved_starved, Nat.add_comm 1]
    rfl

/-- Settles O26: the idle bytes of an underrun, and the streams that give no answer. -/
theorem replayUnderruns : Obligations.ReplayUnderruns := by
  unfold Obligations.ReplayUnderruns
  intro s sync received next i c high ends mapped settings direction wide narrow st
  have cfg : st.cfg = c := by rw [Stream.cfg, show st.settings = some c from settings]; rfl
  have replay : st.cfg.direction = .replay := cfg ▸ direction
  let w := (s.afterFrame next received).work
  obtain ⟨n, width⟩ := Nat.exists_eq_add_of_lt wide
  rw [Nat.zero_add] at width
  refine ⟨fun running noPage nextNone => ?_, fun other => ?_⟩
  · have dry : st.Dry := ⟨running, noPage, nextNone⟩
    let u : State := ((if st.underrun then s.afterFrame next received else
      (s.afterFrame next received).notified (w.underrunNotice i)).withStream i
        (st.starved (s.work.width i)))
    have starves : w.starved i (s.work.width i) = u.work := by
      unfold Work.starved
      simp only [u]
      rw [show (w.stream i).underrun = st.underrun from rfl]
      split <;> rfl
    have supplies : w.supply i (s.work.width i) =
        (List.replicate (s.work.width i) st.cfg.idleByte, u.work) := by
      rw [← starves, width]
      exact (if_pos running).trans (Work.supplyBytes_dry (w := w) n dry)
    have notice : w.underrunNotice i = .underrun i (st.take.getD 0) (st.nextSeq.getD 0) st.play.length
        st.outstanding s.pool.held[i] (if st.play = [] then .empty else .waitingRead) :=
      congrArg (Notice.underrun i (st.take.getD 0) (st.nextSeq.getD 0) st.play.length st.outstanding
        s.pool.held[i]) dry.waits
    obtain ⟨t, run, same, -, sends⟩ := exec_frameBoundary_replay (u := u) (received := received) high
      ends wide narrow replay supplies (by simp only [u]; split <;> rfl)
    refine ⟨t, run, same.trans ?_, fun n slot => ?_, fun n outside => ?_⟩
    · rw [← notice]
      simp only [u]
      split <;> rfl
    · obtain ⟨k, inside, rfl⟩ := List.mem_iff_getElem.1 slot
      rw [sends, ← cfg]
      exact fillSlots_inside (s.work.nodup_slots i) _ (List.getElem?_eq_getElem inside)
        (List.getElem?_replicate_of_lt inside)
    · rw [sends]
      exact fillSlots_outside _ _ _ outside
  · have supplies : w.supply i (s.work.width i) = ([], (s.afterFrame next received).work) :=
      if_neg other
    obtain ⟨t, run, same, -, sends⟩ := exec_frameBoundary_replay (received := received) high ends wide
      narrow replay supplies rfl
    have nothing : t.frame.txSend = s.frame.txFill := by
      rw [sends, fillSlots_nil]
    exact ⟨t, run, by rw [← nothing]; exact same⟩

end Sys2Proof.Machine

/-! PROOFS. The supply of a replay stream, and its close (R71, R99, R101, R102). -/

namespace Sys2Proof.Machine

/-! ### Bytes of a page -/

/-- Bytes of a page, from a position on. -/
def readBytes (m : Memory) (page : PageNo) (start n : Nat) : List Byte :=
  (List.range n).map fun k => m.read (pageAddr page (start + k))

theorem readBytes_succ (m : Memory) (page : PageNo) (start n : Nat) :
    readBytes m page start (n + 1) =
      m.read (pageAddr page start) :: readBytes m page (start + 1) n := by
  unfold readBytes
  rw [List.range_succ_eq_map, List.map_cons, List.map_map, Nat.add_zero]
  refine congrArg _ (List.map_congr_left fun k _ => ?_)
  rw [Function.comp_apply, Nat.succ_eq_add_one, Nat.add_right_comm, Nat.add_assoc]

theorem getElem?_readBytes (m : Memory) (page : PageNo) (start : Nat) {n k : Nat} (below : k < n) :
    (readBytes m page start n)[k]? = some (m.read (pageAddr page (start + k))) := by
  simp [readBytes, List.getElem?_range below]

theorem length_readBytes (m : Memory) (page : PageNo) (start n : Nat) :
    (readBytes m page start n).length = n := by
  simp [readBytes]

/-! ### Bytes given from the drain page (R99) -/

/-- What a stream's record becomes when its drain page has given `n` bytes. -/
def Stream.gave (st : Stream) (c : CurrentPage) (n : Nat) : Stream :=
  { st with cur := some { c with pos := c.pos + n }, underrun := false }

theorem Stream.nextDrainPage_of_cur {st : Stream} {c : CurrentPage} (cur : st.cur = some c) :
    st.nextDrainPage = st := by
  unfold Stream.nextDrainPage
  rw [cur]

/-- One byte of an answer while the drain page has one to give. -/
theorem Work.supplyByte_gives {w : Work} {i : StreamNo} {c : CurrentPage}
    (running : (w.stream i).state = .running) (cur : (w.stream i).cur = some c) (more : c.pos < c.fill)
    (left : Nat) : w.supplyByte i left = (w.pool.mem.read (pageAddr c.page c.pos),
      if c.pos + 1 = c.fill then (w.updStream i (·.gave c 1)).usedUp i c left
      else w.updStream i (·.gave c 1)) := by
  have same : w.updStream i Stream.nextDrainPage = w :=
    Work.updStream_of_eq (Stream.nextDrainPage_of_cur cur)
  unfold Work.supplyByte
  dsimp only
  rw [if_pos running, same, cur]
  exact if_pos more

theorem Work.gave_gave {w : Work} {i : StreamNo} (c : CurrentPage) (m n : Nat) :
    (w.updStream i (·.gave c m)).updStream i (·.gave { c with pos := c.pos + m } n) =
      w.updStream i (·.gave c (m + n)) := by
  rw [Work.updStream_updStream]
  refine Work.updStream_congr ?_
  simp only [Stream.gave, Nat.add_assoc]

/-- An answer that leaves bytes in the drain page. -/
theorem Work.supplyBytes_within {i : StreamNo} (n : Nat) {w : Work} {c : CurrentPage}
    (running : (w.stream i).state = .running) (cur : (w.stream i).cur = some c)
    (more : c.pos + (n + 1) < c.fill) : Work.supplyBytes i (n + 1) w =
      (readBytes w.pool.mem c.page c.pos (n + 1), w.updStream i (·.gave c (n + 1))) := by
  induction n generalizing w c with
  | zero =>
    rw [Work.supplyBytes, Work.supplyByte_gives running cur (by omega), if_neg (by omega), readBytes_succ]
    rfl
  | succ n ih =>
    have step := Work.stream_updStream_self w i (·.gave c 1)
    rw [Work.supplyBytes, Work.supplyByte_gives running cur (by omega), if_neg (by omega)]
    dsimp only
    rw [ih (w := w.updStream i (·.gave c 1)) (c := { c with pos := c.pos + 1 })
      (by rw [step]; exact running) (by rw [step]; rfl) (by dsimp only; omega), Work.gave_gave,
      readBytes_succ _ _ _ (n + 1), Nat.add_comm 1 (n + 1)]
    rfl

/-- An answer that uses the drain page up, and what follows it. -/
theorem Work.supplyBytes_usesUp {i : StreamNo} (n m : Nat) {w : Work} {c : CurrentPage}
    (running : (w.stream i).state = .running) (cur : (w.stream i).cur = some c)
    (last : c.pos + (n + 1) = c.fill) : Work.supplyBytes i (n + 1 + m) w =
      let rest := Work.supplyBytes i m ((w.updStream i (·.gave c (n + 1))).usedUp i c m)
      (readBytes w.pool.mem c.page c.pos (n + 1) ++ rest.1, rest.2) := by
  induction n generalizing w c with
  | zero =>
    rw [Nat.add_comm (0 + 1) m, Nat.zero_add, Work.supplyBytes,
      Work.supplyByte_gives running cur (by omega), if_pos (by omega), readBytes_succ]
    rfl
  | succ n ih =>
    have step := Work.stream_updStream_self w i (·.gave c 1)
    rw [Nat.add_right_comm, Work.supplyBytes, Work.supplyByte_gives running cur (by omega),
      if_neg (by omega)]
    dsimp only
    rw [ih (w := w.updStream i (·.gave c 1)) (c := { c with pos := c.pos + 1 })
      (by rw [step]; exact running) (by rw [step]; rfl) (by dsimp only; omega), Work.gave_gave,
      readBytes_succ _ _ _ (n + 1), Nat.add_comm 1 (n + 1)]
    rfl

/-- The record of a stream that has taken the ACCEPTED entry at the front of its play queue. -/
def Stream.tookPage (st : Stream) (page : PageNo) (t : Trailer) (rest : List PlayEntry) : Stream :=
  { st with cur := some ⟨page, 0, t.fill, t.seq⟩, play := rest }

theorem Stream.nextDrainPage_accepted {st : Stream} {e : PlayEntry} {rest : List PlayEntry}
    {t : Trailer} (noPage : st.cur = none) (play : st.play = e :: rest)
    (accepted : e.status = .accepted t) : st.nextDrainPage = st.tookPage e.page t rest := by
  unfold Stream.nextDrainPage
  rw [noPage, play]
  dsimp only
  rw [accepted]
  rfl

/-- An answer that begins with the taking of a drain page (R99 (1)). -/
theorem Work.supplyBytes_takes {w : Work} {i : StreamNo} {e : PlayEntry} {rest : List PlayEntry}
    {t : Trailer} (running : (w.stream i).state = .running) (noPage : (w.stream i).cur = none) (play : (w.stream i).play = e :: rest)
    (accepted : e.status = .accepted t) (n : Nat) : Work.supplyBytes i (n + 1) w =
      Work.supplyBytes i (n + 1) (w.updStream i (·.tookPage e.page t rest)) := by
  let v := w.updStream i (·.tookPage e.page t rest)
  have takes : w.updStream i Stream.nextDrainPage = v :=
    Work.updStream_congr (Stream.nextDrainPage_accepted noPage play accepted)
  have record : v.stream i = (w.stream i).tookPage e.page t rest :=
    Work.stream_updStream_self w i (·.tookPage e.page t rest)
  have same : v.updStream i Stream.nextDrainPage = v := by
    refine Work.updStream_of_eq (Stream.nextDrainPage_of_cur (c := ⟨e.page, 0, t.fill, t.seq⟩) ?_)
    rw [record]
    rfl
  have byte : w.supplyByte i n = v.supplyByte i n := by
    unfold Work.supplyByte
    dsimp only
    rw [takes, same, record, if_pos running, if_pos (show ((w.stream i).tookPage e.page t rest).state =
      .running from running)]
    rfl
  rw [Work.supplyBytes, byte]
  rfl

/-- A stream that has left RUNNING answers with idle bytes. -/
theorem Work.supplyBytes_ended {w : Work} {i : StreamNo} (ended : (w.stream i).state ≠ .running)
    (n : Nat) : Work.supplyBytes i n w = (List.replicate n (w.stream i).cfg.idleByte, w) := by
  induction n with
  | zero => rfl
  | succ n ih =>
    have byte : w.supplyByte i n = ((w.stream i).cfg.idleByte, w) := if_neg ended
    rw [Work.supplyBytes, byte]
    dsimp only
    rw [ih]
    rfl

/-! ### A drain page used up (R99 (3)) -/

/-- What a stream's record becomes when its drain page is used up. -/
def Stream.drained (st : Stream) : Stream :=
  { st with cur := none, commitMark := some (min (2 ^ 32 - 1) (st.commitMark.getD 0 + 1)) }

/-- What a stream's record becomes when `n` idle bytes fill its answer. -/
def Stream.idled (st : Stream) (n : Nat) : Stream :=
  { st with counters := { st.counters with
      idleSent := min (2 ^ 48 - 1) (st.counters.idleSent + n) } }

/-- The page is back in the pool. -/
def Work.drained (w : Work) (i : StreamNo) (c : CurrentPage) : Work :=
  (w.updStream i Stream.drained).updPool (·.regained i [c.page])

theorem Work.stream_drained (w : Work) (i : StreamNo) (c : CurrentPage) :
    (w.drained i c).stream i = (w.stream i).drained :=
  Work.stream_updStream_self w i Stream.drained

theorem Work.usedUp_eq {w : Work} (i : StreamNo) (c : CurrentPage) (left : Nat)
    (nobody : w.pool.waitList = []) : w.usedUp i c left =
      if c.fill < 512 then ((w.drained i c).updStream i (·.idled left)).closeReplay i c
      else if ((w.drained i c).stream i).atExtentEnd then
        ((w.drained i c).updStream i (·.idled left)).endStream i .extentEnd
      else (w.drained i c).replayNext i := by
  have released := Work.release_nobody (w := w.updStream i Stream.drained) i [c.page] nobody
  unfold Work.usedUp
  dsimp only
  rw [show (w.updStream i fun st => { st with
    cur := none, commitMark := some (satAdd top32 st.markNow 1) }) = w.updStream i Stream.drained
    from rfl, released]
  rfl

/-- A replay stream in RUNNING that may not read does nothing on its test (R93, R98). -/
theorem Work.replayTest_running {w : Work} {i : StreamNo} (quiet : (w.stream i).mayRead = false)
    (running : (w.stream i).state = .running) (absent : w.waits i = false) : w.replayTest i = w := by
  have issue : Work.replayIssue i ((w.stream i).cfg.depth + 1) w = w := by
    rw [Work.replayIssue, quiet, if_neg nofun, Work.leaveWait_absent absent]
  have primed : (w.stream i).primed = none := if_neg (by rw [running]; nofun)
  unfold Work.replayTest
  dsimp only
  rw [issue, Work.primingTest, primed]
  exact ite_self _

/-- A full page used up by a stream with as many reads in flight as its depth. -/
theorem Work.usedUp_goesOn {w : Work} {i : StreamNo} {c : CurrentPage} (left : Nat)
    (alone : w.agenda = []) (nobody : w.pool.waitList = []) (full : c.fill = 512)
    (running : (w.stream i).state = .running) (flying : (w.stream i).outstanding ≠ 0)
    (depth : (w.stream i).cfg.depth ≤ (w.stream i).outstanding) :
    w.usedUp i c left = w.drained i c := by
  have record := w.stream_drained i c
  have goesOn : ((w.drained i c).stream i).atExtentEnd = false := by
    rw [record]
    have flies : ((w.stream i).drained.outstanding == 0) = false := beq_eq_false_iff_ne.2 flying
    rw [Stream.atExtentEnd, flies, Bool.and_false]
  rw [Work.usedUp_eq i c left nobody, if_neg (by omega), goesOn, if_neg nofun, Work.replayNext,
    Work.pauses_alone (w := w.drained i c) i alone]
  refine (if_neg nofun).trans (Work.replayTest_running ?_ ?_ rfl)
  · rw [record]
    exact Stream.mayRead_of_full (st := (w.stream i).drained) depth
  · rw [record]
    exact running

/-- Where nothing is left to play a full page used up ends the take (R102). -/
theorem Work.usedUp_ends {w : Work} {i : StreamNo} {c : CurrentPage} (left : Nat)
    (nobody : w.pool.waitList = []) (full : 512 ≤ c.fill)
    (running : (w.stream i).state = .running) (idle : (w.stream i).outstanding = 0)
    (noPlay : (w.stream i).play = []) (noSectors : (w.stream i).extents = []) :
    w.usedUp i c left = ((w.drained i c).updStream i (·.idled left)).endStream i .extentEnd := by
  rw [Work.usedUp_eq i c left nobody, if_neg (Nat.not_lt.2 full), w.stream_drained i c, if_pos]
  simp [Stream.atExtentEnd, Stream.drained, Stream.exhausted, running, idle, noPlay, noSectors]

theorem Pool.regained_nil {pool : Pool} (nobody : pool.waitList = []) (i : StreamNo) :
    pool.regained i [] = pool := by
  have kept : pool.held.set i pool.held[i] i.isLt = pool.held := Vector.set_getElem_self i.isLt
  rw [Pool.regained, List.append_nil, List.length_nil, Nat.sub_zero, kept, ← nobody]

/-- An end page used up closes the take of a stream that holds no other page and has nothing in flight
(R101). -/
theorem Work.usedUp_closes {w : Work} {i : StreamNo} {c : CurrentPage} (left : Nat)
    (nobody : w.pool.waitList = []) (short : c.fill < 512)
    (idle : (w.stream i).outstanding = 0) (noPlay : (w.stream i).play = []) (owns : w.Owns i none) :
    w.usedUp i c left = ((w.drained i c).updStream i fun st =>
      { st.idled left with nextSeq := some (c.seq + 1), waitedPort := none }).endStream i .endPage := by
  let close (st : Stream) : Stream := { st.idled left with nextSeq := some (c.seq + 1) }
  let v := (w.drained i c).updStream i close
  have record : v.stream i = close (w.stream i).drained := by
    rw [Work.stream_updStream_self, w.stream_drained i c]
  have gives : v.replayGiveUp i = v.updStream i fun st => { st with waitedPort := none } := by
    have gives := Work.Owns.replayGiveUp (w := v) (i := i) (own := none) owns (by nofun) (by nofun)
    have noPages : ((v.stream i).cur.map (·.page)).toList ++
        ((v.stream i).play.filter (givenUp [])).map (·.page) = [] := by
      rw [record, show (close (w.stream i).drained).play = [] from noPlay]
      rfl
    have kept : v.updStream i (·.replayGaveUp [] 0) = v.updStream i fun st => { st with
        waitedPort := none } := by
      refine Work.updStream_congr ?_
      rw [record]
      simp only [Stream.replayGaveUp, show (close (w.stream i).drained).play = [] from noPlay]
      rfl
    refine gives.trans ?_
    change (v.updStream i (·.replayGaveUp [] 0)).updPool (·.regained i (((v.stream i).cur.map
      (·.page)).toList ++ ((v.stream i).play.filter (givenUp [])).map (·.page))) = _
    rw [noPages, kept]
    exact congrArg (fun pool => ({ (v.updStream i fun st => { st with waitedPort := none }) with
      pool := pool } : Work)) (Pool.regained_nil rfl i)
  have closes : ((w.drained i c).updStream i (·.idled left)).closeReplay i c =
      (v.replayGiveUp i).drainOrEnd i .endPage .endPage := by
    unfold Work.closeReplay
    rw [Work.updStream_updStream]
  rw [Work.usedUp_eq i c left nobody, if_pos short, closes, gives]
  refine (if_pos ?_).trans ?_
  · rw [Work.stream_updStream_self, record]
    exact idle
  · rw [Work.updStream_updStream]

/-! ### The frame end -/

/-- A stream without a pending end request enters ENDED with nobody on the wait list. -/
theorem State.endStream_unasked {s : State} {i : StreamNo} (noStop : s.streams[i].stopPart = none)
    (noAbort : s.streams[i].abortPart = none) (nobody : s.pool.waitList = []) (o : TakeEnd) :
    s.work.endStream i o = ((s.withStream i (s.streams[i].endRecord o)).notified
      (.streamEnded (s.streams[i].finalFigures i o))).work := by
  have absent : s.work.waits i = false := by
    unfold Work.waits
    rw [show s.work.pool.waitList = [] from nobody]
    rfl
  refine (Work.endStream_eq absent o).trans ?_
  unfold HostLine.ended
  rw [show (s.work.stream i).stopPart = none from noStop,
    show (s.work.stream i).abortPart = none from noAbort]
  rfl

/-- Settles O25: the bytes within a page, across the taking of one, and up to its end in each of its
three outcomes. -/
theorem replaySuppliesAndCloses : Obligations.ReplaySuppliesAndCloses := by
  unfold Obligations.ReplaySuppliesAndCloses
  intro s sync received next i g high ends mapped settings direction running wide narrow st width framed
    sent mark released closes
  have cfg : st.cfg = g := by rw [Stream.cfg, show st.settings = some g from settings]; rfl
  have replay : st.cfg.direction = .replay := cfg ▸ direction
  let f := s.afterFrame next received
  have answer (n : Nat) : f.work.supply i n = Work.supplyBytes i n f.work := if_pos running
  -- the shape common to all five: what the supply leaves, and the bytes it gives
  have finish {page : PageNo} {start given idle : Nat} {u : State} (whole : width = given + idle)
      (supplies : Work.supplyBytes i width f.work =
        (readBytes s.pool.mem page start given ++ List.replicate idle g.idleByte, u.work))
      (frame : u.frame = f.frame) :
      ∃ t, exec (.frameBoundary sync received) s = .next t ∧ sent t page start given ∧
        t = framed t u := by
    obtain ⟨t, run, same, hand, sends⟩ := exec_frameBoundary_replay (u := u) (received := received) high
      ends wide narrow replay ((answer _).trans supplies) frame
    refine ⟨t, run, ⟨hand, fun k n slot => ?_, fun n outside => ?_⟩, same⟩
    · have byte : (readBytes s.pool.mem page start given ++ List.replicate idle g.idleByte)[k]? =
          some (if k < given then s.pool.mem.read (pageAddr page (start + k)) else g.idleByte) := by
        have below : k < width := (List.getElem?_eq_some_iff.1 slot).1
        by_cases inside : k < given
        · rw [List.getElem?_append_left (by rw [length_readBytes]; exact inside),
            getElem?_readBytes _ _ _ inside, if_pos inside]
        · rw [List.getElem?_append_right (by rw [length_readBytes]; omega), length_readBytes,
            if_neg inside, List.getElem?_replicate_of_lt (by omega)]
      rw [sends]
      exact fillSlots_inside (s.work.nodup_slots i) _ slot byte
    · rw [sends]
      exact fillSlots_outside _ _ _ outside
  obtain ⟨n, width_eq⟩ : ∃ n, width = n + 1 := ⟨width - 1, by omega⟩
  let usedUp : Stream := { st with cur := none, underrun := false, commitMark := some mark }
  have drains (c : CurrentPage) (m : Nat) (nobody : s.pool.waitList = []) :
      (f.work.updStream i (·.gave c m)).drained i c =
        ({ f.withStream i usedUp with pool := released c.page } : State).work := by
    have back : s.pool.regained i [c.page] = released c.page := by
      rw [Pool.regained, ← nobody]
      rfl
    unfold Work.drained
    rw [Work.updStream_updStream]
    exact congrArg (fun pool => State.work { f.withStream i usedUp with pool := pool }) back
  have gave (c : CurrentPage) (m : Nat) : (f.work.updStream i (·.gave c m)).stream i = st.gave c m :=
    Work.stream_updStream_self f.work i (·.gave c m)
  -- the end of the take within the answer: idle bytes fill it, and the stream is ENDED
  have shuts {c : CurrentPage} {o : TakeEnd} {seq : Option Seq} {waited : Option PortNo}
      (cur : st.cur = some c) (unused : c.pos < c.fill) (short : c.fill ≤ c.pos + width)
      (noStop : st.stopPart = none) (noAbort : st.abortPart = none) (nobody : s.pool.waitList = [])
      (uses : ∀ m left, (f.work.updStream i (·.gave c m)).usedUp i c left =
        ({ f.withStream i { usedUp.idled left with nextSeq := seq, waitedPort := waited } with
          pool := released c.page } : State).work.endStream i o) : closes c o seq := by
    obtain ⟨m, given⟩ : ∃ m, c.fill - c.pos = m + 1 := ⟨c.fill - c.pos - 1, by omega⟩
    obtain ⟨left, rest⟩ : ∃ left, width = m + 1 + left := ⟨width - (m + 1), by omega⟩
    have left_eq : width - (c.fill - c.pos) = left := by omega
    let r : Stream := { usedUp.idled left with nextSeq := seq, waitedPort := waited }
    let d : State := { f.withStream i r with pool := released c.page }
    have record : d.streams[i] = r := State.getElem_withStream f i r
    have ends := State.endStream_unasked (s := d) (i := i) (by rw [record]; exact noStop)
      (by rw [record]; exact noAbort) nobody o
    rw [record] at ends
    let u : State := (d.withStream i (r.endRecord o)).notified (.streamEnded (r.finalFigures i o))
    have after : u.work.stream i = r.endRecord o := State.getElem_withStream d i _
    have idles := Work.supplyBytes_ended (w := u.work) (i := i) (by rw [after]; nofun) left
    rw [after, show (r.endRecord o).cfg = g from cfg] at idles
    have usesUp := Work.supplyBytes_usesUp (w := f.work) (i := i) (c := c) m left running cur (by omega)
    dsimp only at usesUp
    rw [uses, ends, idles] at usesUp
    obtain ⟨t, run, sends, same⟩ := finish (u := u) (idle := left) (page := c.page) (start := c.pos)
      (given := m + 1) rest (by rw [rest]; exact usesUp) rfl
    have told := Stream.finalFigures_eq (st := r) settings i o
    rw [direction] at told
    let e : Stream := { st with
      state := .ended, outcome := some o, cur := none, underrun := false, nextSeq := seq
      commitMark := some mark, waitedPort := none, drainReason := none
      counters := { st.counters with
        idleSent := min (2 ^ 48 - 1) (st.counters.idleSent + left) } }
    have closed : r.endRecord o = e := by
      simp only [Stream.endRecord, r, e, usedUp, Stream.idled, noStop, noAbort]
    have again : d.withStream i e = { f.withStream i e with pool := released c.page } :=
      congrArg (fun t : State => { t with pool := released c.page })
        (State.withStream_withStream f i r e)
    have whole : u = ({ f.withStream i e with pool := released c.page } : State).notified
        (.streamEnded (r.finalFigures i o)) := by
      simp only [u]
      rw [closed, again]
    refine ⟨t, run, by rw [given]; exact sends, same.trans ?_⟩
    rw [whole, told, left_eq]
    rfl
  have replaces (p : Pool) (h : Stream → Stream) :
      ({ f.withStream i usedUp with pool := p } : State).work.updStream i h =
        ({ f.withStream i (h usedUp) with pool := p } : State).work :=
    congrArg (fun w : Work => { w with pool := p })
      (Work.updStream_updStream f.work i (fun _ => usedUp) h)
  refine ⟨fun c cur more => ?_, fun e rest t noPage play accepted more => ?_,
    fun c cur full last depth flying nobody => ?_,
    fun c cur unused short noPlay idle noStop noAbort nobody => ⟨fun endPage unqueued => ?_,
      fun whole noSectors => ?_⟩⟩
  · refine finish (u := f.withStream i (st.gave c width)) (idle := 0) (Nat.add_zero _).symm ?_ rfl
    rw [width_eq, List.replicate_zero, List.append_nil]
    exact Work.supplyBytes_within (w := f.work) n running cur (width_eq ▸ more)
  · let x : Stream := st.tookPage e.page t rest
    let d : CurrentPage := ⟨e.page, 0, t.fill, t.seq⟩
    let y : Stream := { st with
      cur := some ⟨e.page, width, t.fill, t.seq⟩, play := rest, underrun := false }
    have record : (f.withStream i x).work.stream i = x := State.getElem_withStream f i x
    have gives : x.gave d (n + 1) = y := by
      simp only [Stream.gave, d, Nat.zero_add, ← width_eq]
      rfl
    have within := Work.supplyBytes_within (w := (f.withStream i x).work) (i := i) (c := d) n
      (by rw [record]; exact running) (by rw [record]; rfl) (by simpa only [d, Nat.zero_add, ← width_eq])
    have after : (f.withStream i x).work.updStream i (·.gave d (n + 1)) = (f.withStream i y).work := by
      rw [Work.updStream_work, show (f.withStream i x).streams[i] = x from record, gives,
        State.withStream_withStream]
    refine finish (u := f.withStream i y) (idle := 0) (Nat.add_zero _).symm ?_ rfl
    rw [width_eq, List.replicate_zero, List.append_nil, ← after]
    exact (Work.supplyBytes_takes (w := f.work) running noPage play accepted n).trans within
  · have goesOn := Work.usedUp_goesOn (w := f.work.updStream i (·.gave c (n + 1))) (i := i) (c := c) 0 rfl
      nobody full (by rw [gave]; exact running) (by rw [gave]; exact flying)
      (by rw [gave, show (st.gave c (n + 1)).cfg = g from cfg]; exact depth)
    have usesUp := Work.supplyBytes_usesUp (w := f.work) (i := i) (c := c) n 0 running cur (by omega)
    dsimp only at usesUp
    rw [goesOn, drains c _ nobody] at usesUp
    refine finish (u := { f.withStream i usedUp with pool := released c.page }) (idle := 0)
      (Nat.add_zero _).symm ?_ rfl
    rw [width_eq]
    exact usesUp
  · refine shuts (waited := none) cur unused short noStop noAbort nobody fun m left => ?_
    have closes := Work.usedUp_closes (w := f.work.updStream i (·.gave c m)) (i := i) (c := c) left nobody
      endPage (by rw [gave]; exact idle) (by rw [gave]; exact noPlay) (Work.owns_none unqueued)
    rw [drains c m nobody] at closes
    refine closes.trans (congrArg (Work.endStream · i .endPage) (replaces _ _))
  · refine shuts (waited := st.waitedPort) cur unused short noStop noAbort nobody fun m left => ?_
    have ends := Work.usedUp_ends (w := f.work.updStream i (·.gave c m)) (i := i) (c := c) left nobody
      whole (by rw [gave]; exact running) (by rw [gave]; exact idle) (by rw [gave]; exact noPlay)
      (by rw [gave]; exact noSectors)
    rw [drains c m nobody] at ends
    refine ends.trans (congrArg (Work.endStream · i .extentEnd) (replaces _ _))

end Sys2Proof.Machine

/-! PROOFS. Frame-end arrivals at a capture stream (R69, R70, R75 to R78). -/

namespace Sys2Proof.Machine

/-! ### Bytes into a page (R75) -/

/-- The work in hand with bytes written into a page. -/
def Work.wrote (w : Work) (page : PageNo) (start : Nat) (bytes : List Byte) : Work :=
  w.updMem (·.writeFrom page start bytes)

/-- What a stream's record becomes when `n` bytes have gone into its fill page. -/
def Stream.filledBy (st : Stream) (c : CurrentPage) (n : Nat) : Stream :=
  { st with cur := some { c with pos := c.pos + n } }

/-- What a stream's record becomes when its fill page is full: the page is ready with the next
sequence. -/
def Stream.pageFull (st : Stream) (page : PageNo) : Stream :=
  { st with
    cur := none, ready := st.ready ++ [⟨page, st.seqNow, 512⟩], nextSeq := some (st.seqNow + 1) }

theorem Work.placeByte_within {w : Work} {i : StreamNo} {c : CurrentPage} (b : Byte)
    (room : c.pos + 1 < 512) :
    w.placeByte i c b = (w.wrote c.page c.pos [b]).updStream i (·.filledBy c 1) := if_pos room

theorem Work.placeByte_full {w : Work} {i : StreamNo} {c : CurrentPage} (b : Byte)
    (last : c.pos + 1 = 512) : w.placeByte i c b =
      ((w.wrote c.page c.pos [b]).updStream i (·.pageFull c.page)).captureTest i :=
  if_neg (by omega)

/-- Bytes that leave room in the fill page. -/
theorem Work.placeBytes_within {i : StreamNo} {w : Work} {c : CurrentPage} (bytes : List Byte)
    (cur : (w.stream i).cur = some c) (room : c.pos + bytes.length < 512) :
    Work.placeBytes i bytes w =
      (w.wrote c.page c.pos bytes).updStream i (·.filledBy c bytes.length) := by
  induction bytes generalizing w c with
  | nil =>
    refine (Work.updStream_of_eq (w := w) ?_).symm
    simp only [Stream.filledBy, List.length_nil, Nat.add_zero, ← cur]
  | cons b bytes ih =>
    rw [List.length_cons] at room ⊢
    let v := (w.wrote c.page c.pos [b]).updStream i (·.filledBy c 1)
    have record : v.stream i = (w.stream i).filledBy c 1 :=
      Work.stream_updStream_self (w.wrote c.page c.pos [b]) i (·.filledBy c 1)
    rw [Work.placeBytes, cur]
    dsimp only
    rw [Work.placeByte_within b (by omega), ih (w := v) (c := { c with pos := c.pos + 1 })
      (by rw [record]; rfl) (by dsimp only; omega)]
    refine (Work.updStream_updStream (w.wrote c.page c.pos (b :: bytes)) i (·.filledBy c 1) _).trans
      (Work.updStream_congr ?_)
    simp only [Stream.filledBy, Nat.add_assoc, Nat.add_comm 1]

/-- Bytes that fill the page. -/
theorem Work.placeBytes_fill {i : StreamNo} {w : Work} {c : CurrentPage} (b : Byte) (bytes : List Byte)
    (cur : (w.stream i).cur = some c) (last : c.pos + (bytes.length + 1) = 512) :
    Work.placeBytes i (b :: bytes) w =
      ((w.wrote c.page c.pos (b :: bytes)).updStream i (·.pageFull c.page)).captureTest i := by
  induction bytes generalizing w c b with
  | nil =>
    rw [Work.placeBytes, cur]
    dsimp only
    rw [Work.placeByte_full b (by simpa using last)]
    rfl
  | cons b' bytes ih =>
    rw [List.length_cons] at last
    let v := (w.wrote c.page c.pos [b]).updStream i (·.filledBy c 1)
    have record : v.stream i = (w.stream i).filledBy c 1 :=
      Work.stream_updStream_self (w.wrote c.page c.pos [b]) i (·.filledBy c 1)
    rw [Work.placeBytes, cur]
    dsimp only
    rw [Work.placeByte_within b (by omega), ih (w := v) (c := { c with pos := c.pos + 1 }) b'
      (by rw [record]; rfl) (by dsimp only; omega)]
    refine congrArg (Work.captureTest · i) ?_
    exact Work.updStream_updStream (w.wrote c.page c.pos (b :: b' :: bytes)) i (·.filledBy c 1) _

/-- Bytes that begin a page just claimed (R76). -/
theorem Work.placeBytes_claims {i : StreamNo} {w v : Work} {page : PageNo} (b : Byte)
    (bytes : List Byte) (noPage : (w.stream i).cur = none) (claims : w.claim i = some (page, v))
    (room : bytes.length + 1 < 512) : Work.placeBytes i (b :: bytes) w =
      (v.wrote page 0 (b :: bytes)).updStream i fun st =>
        { st with overrun := false, cur := some ⟨page, bytes.length + 1, 512, 0⟩ } := by
  let c : CurrentPage := { page := page, pos := 0, fill := 512 }
  let u := v.updStream i fun st => { st with overrun := false }
  let x := (u.wrote page 0 [b]).updStream i (·.filledBy c 1)
  have record : x.stream i = (u.stream i).filledBy c 1 :=
    Work.stream_updStream_self (u.wrote page 0 [b]) i (·.filledBy c 1)
  rw [Work.placeBytes, noPage]
  dsimp only
  rw [claims]
  dsimp only
  rw [Work.placeByte_within (w := u) (c := c) b (by dsimp only [c]; omega),
    Work.placeBytes_within (w := x) (c := { c with pos := c.pos + 1 }) bytes (by rw [record]; rfl)
      (by dsimp only [c]; omega)]
  refine (Work.updStream_updStream (u.wrote page 0 (b :: bytes)) i (·.filledBy c 1) _).trans ?_
  refine (Work.updStream_updStream (v.wrote page 0 (b :: bytes)) i
    (fun st => { st with overrun := false }) _).trans
    (Work.updStream_congr ?_)
  simp only [Stream.filledBy, c, Nat.zero_add, Nat.add_comm 1]

/-- Bytes for which no page is granted. -/
theorem Work.placeBytes_loses {i : StreamNo} {w : Work} (b : Byte) (bytes : List Byte)
    (noPage : (w.stream i).cur = none) (refused : w.claim i = none) :
    Work.placeBytes i (b :: bytes) w = w.loseBytes i (bytes.length + 1) := by
  rw [Work.placeBytes, noPage]
  dsimp only
  rw [refused]

/-! ### The arrival -/

/-- What a stream's record becomes when `n` bytes have arrived (R70). -/
def Stream.received (st : Stream) (n : Nat) : Stream :=
  { st with counters := { st.counters with
      received := min (2 ^ 48 - 1) (st.counters.received + n) } }

/-- The bytes of a stream's slots, in ascending slot order. -/
def Work.slotBytes (w : Work) (i : StreamNo) (frame : Vector Byte 64) : List Byte :=
  (w.slots i).map fun n => frame[n]

theorem Work.length_slotBytes (w : Work) (i : StreamNo) (frame : Vector Byte 64) :
    (w.slotBytes i frame).length = w.width i := List.length_map _

theorem Work.exchange_capture {w : Work} {i : StreamNo}
    (capture : (w.stream i).cfg.direction = .capture) (takes : (w.stream i).takesBytes = true) :
    w.exchange i = Work.placeBytes i (w.slotBytes i w.frame.rxHand)
      (w.updStream i (·.received (w.width i))) := by
  unfold Work.exchange
  rw [capture]
  dsimp only
  refine (if_pos takes).trans ?_
  rw [← w.length_slotBytes i w.frame.rxHand]
  rfl

theorem Stream.takesBytes_iff (st : Stream) : st.takesBytes = true ↔
    st.state = .running ∨ st.state = .hold ∧ st.stopPart = none := by
  simp [Stream.takesBytes]

/-- A frame end with one capture stream mapped. -/
theorem exec_frameBoundary_capture {s t : State} {sync : Bool} {received : Vector Byte 64}
    {next : FrameState} {i : StreamNo} (high : s.resetLow = false)
    (ends : s.frame.state.atFrameEnd sync = some next) (wide : 0 < s.work.width i)
    (narrow : ∀ j : StreamNo, j ≠ i → s.work.width j = 0)
    (capture : s.streams[i].cfg.direction = .capture) (takes : s.streams[i].takesBytes = true)
    (places : Work.placeBytes i (s.work.slotBytes i (s.afterFrame next received).frame.rxHand)
      ((s.afterFrame next received).withStream i (s.streams[i].received (s.work.width i))).work =
        t.work) :
    exec (.frameBoundary sync received) s = .next t :=
  exec_frameBoundary_one high ends wide narrow
    ((Work.exchange_capture (w := (s.afterFrame next received).work) capture takes).trans places)

/-- The frame port at a frame end, its transmit buffers turned over. -/
theorem State.afterFrame_frame (s : State) (next : FrameState) (received : Vector Byte 64) :
    (s.afterFrame next received).frame = s.frame.ended next
      (s.afterFrame next received).frame.rxHand s.frame.txFill := rfl

/-- A slot's byte of the completed frame is in the hand-over buffer (R69). -/
theorem State.rxHand_afterFrame {s : State} (next : FrameState) (received : Vector Byte 64)
    {n : SlotNo} (used : n.val < s.frame.slotCount.toNat) :
    (s.afterFrame next received).frame.rxHand[n] = received[n] := by
  simp [State.afterFrame, FramePort.handOver, FramePort.sendNext, used]

/-- A slot of a stream lies below the slot count (R65). -/
theorem State.Mapped.slot_used {s : State} (mapped : s.Mapped) {i : StreamNo} {n : SlotNo}
    (slot : n ∈ s.work.slots i) : n.val < s.frame.slotCount.toNat := by
  have maps := ((s.work.mapped_iff).1 mapped).maps
  unfold Work.slots at slot
  split at slot
  next c _ => exact (maps c.direction).below n i (mem_slotsOf.1 slot)
  next => cases slot

/-- What a run of bytes written into a page leaves in the memory: each at its place, and every other
byte as it was. -/
theorem Memory.read_run {m : Memory} (wf : m.Wf) (page : PageNo) {start : Nat} {bytes : List Byte}
    (fits : start + bytes.length ≤ 512) :
    let after := m.writeFrom page start bytes
    (∀ k b, bytes[k]? = some b → after.read (pageAddr page (start + k)) = b) ∧
    ∀ a, (∀ k < bytes.length, a ≠ pageAddr page (start + k)) → after.read a = m.read a := by
  intro after
  have reads := Memory.read_writeFrom page start bytes wf
  refine ⟨fun k b byte => ?_, fun a outside => ?_⟩
  · obtain ⟨below, -⟩ := List.getElem?_eq_some_iff.1 byte
    have place : pageAddr page (start + k) - pageAddr page start = k := by
      simp only [pageAddr]
      omega
    rw [reads, if_pos (by simp only [pageAddr]; omega), place, List.getD_eq_getElem?_getD, byte]
    rfl
  · rw [reads]
    refine if_neg fun inside => outside (a - pageAddr page start) ?_ ?_
    · simp only [pageAddr] at inside ⊢
      omega
    · simp only [pageAddr] at inside ⊢
      omega

theorem Work.getElem?_slotBytes {w : Work} {i : StreamNo} {k : Nat} {n : SlotNo}
    (slot : (w.slots i)[k]? = some n) (frame : Vector Byte 64) :
    (w.slotBytes i frame)[k]? = some frame[n] := by
  rw [Work.slotBytes, List.getElem?_map, slot]
  rfl

/-- The bytes of an arrival in the memory. -/
theorem State.Mapped.read_arrival {s : State} (mapped : s.Mapped) {m : Memory} (wf : m.Wf)
    (next : FrameState) (received : Vector Byte 64) (i : StreamNo) (page : PageNo) {start : Nat}
    (fits : start + s.work.width i ≤ 512) :
    let after := m.writeFrom page start
      (s.work.slotBytes i (s.afterFrame next received).frame.rxHand)
    (∀ (k : Nat) (n : SlotNo), (s.work.slots i)[k]? = some n →
      after.read (pageAddr page (start + k)) = received[n]) ∧
    ∀ a, (∀ k < s.work.width i, a ≠ pageAddr page (start + k)) → after.read a = m.read a := by
  have length := s.work.length_slotBytes i (s.afterFrame next received).frame.rxHand
  obtain ⟨inside, outside⟩ := Memory.read_run wf page (length.symm ▸ fits)
  refine ⟨fun k n slot => ?_, fun a apart => outside a (by rw [length]; exact apart)⟩
  rw [inside k _ (Work.getElem?_slotBytes slot _)]
  exact State.rxHand_afterFrame next received (mapped.slot_used (List.mem_of_getElem? slot))

end Sys2Proof.Machine

/-! PROOFS. One capture stream at a frame end: a page filled, a page claimed, and bytes lost (R75 to
R78). -/

namespace Sys2Proof.Machine

/-- Where the bytes of an arrival stand, in the words of the claims. -/
def State.Arrived (s : State) (received : Vector Byte 64) (i : StreamNo) (m : Memory) (page : PageNo)
    (start : Nat) : Prop :=
  (∀ (k : Nat) (n : SlotNo), (s.work.slots i)[k]? = some n →
    m.read (pageAddr page (start + k)) = received[n]) ∧
  ∀ a, (∀ k < 512, a ≠ pageAddr page k) ∨
      (∃ c, s.streams[i].cur = some c ∧ ∀ k < s.work.width i, a ≠ pageAddr page (start + k)) →
    m.read a = s.pool.mem.read a

/-- A stream's share of a frame end in which it is the only one, and captures. -/
structure State.CapturesAlone (s : State) (sync : Bool) (next : FrameState) (i : StreamNo)
    (g : Settings) : Prop where
  high : s.resetLow = false
  ends : s.frame.state.atFrameEnd sync = some next
  wf : s.pool.mem.Wf
  mapped : s.Mapped
  settings : s.streams[i].settings = some g
  capture : g.direction = .capture
  takes : s.streams[i].takesBytes = true
  wide : 0 < s.work.width i
  narrow : ∀ j : StreamNo, j ≠ i → s.work.width j = 0

theorem State.CapturesAlone.cfg {s : State} {sync : Bool} {next : FrameState} {i : StreamNo}
    {g : Settings} (h : s.CapturesAlone sync next i g) : s.streams[i].cfg = g := by
  rw [Stream.cfg, h.settings]
  rfl

/-- The state in which a lone capture stream's bytes are about to be placed. -/
def State.arriving (s : State) (next : FrameState) (received : Vector Byte 64) (i : StreamNo) : State :=
  (s.afterFrame next received).withStream i (s.streams[i].received (s.work.width i))

theorem State.CapturesAlone.runs {s t : State} {sync : Bool} {next : FrameState} {i : StreamNo}
    {g : Settings} (h : s.CapturesAlone sync next i g) {received : Vector Byte 64}
    (places : Work.placeBytes i (s.work.slotBytes i (s.afterFrame next received).frame.rxHand)
      (s.arriving next received i).work = t.work) :
    exec (.frameBoundary sync received) s = .next t :=
  exec_frameBoundary_capture h.high h.ends h.wide h.narrow (h.cfg ▸ h.capture) h.takes places

/-- The bytes of an arrival, at least one. -/
theorem State.CapturesAlone.bytes {s : State} {sync : Bool} {next : FrameState} {i : StreamNo}
    {g : Settings} (h : s.CapturesAlone sync next i g) (received : Vector Byte 64) :
    ∃ b bytes, s.work.slotBytes i (s.afterFrame next received).frame.rxHand = b :: bytes ∧
      s.work.width i = bytes.length + 1 := by
  have length := s.work.length_slotBytes i (s.afterFrame next received).frame.rxHand
  obtain ⟨b, bytes, split⟩ := List.exists_cons_of_length_pos (length.symm ▸ h.wide)
  exact ⟨b, bytes, split, by rw [← length, split, List.length_cons]⟩

/-- The bytes written from the stream's place on in its own page stand where they belong. -/
theorem State.CapturesAlone.arrived {s : State} {sync : Bool} {next : FrameState} {i : StreamNo}
    {g : Settings} (h : s.CapturesAlone sync next i g) (received : Vector Byte 64) (page : PageNo)
    {start : Nat} (fits : start + s.work.width i ≤ 512) :
    s.Arrived received i (s.pool.mem.writeFrom page start
      (s.work.slotBytes i (s.afterFrame next received).frame.rxHand)) page start := by
  obtain ⟨inside, outside⟩ := h.mapped.read_arrival h.wf next received i page fits
  refine ⟨inside, fun a apart => outside a fun k below => ?_⟩
  rcases apart with whole | ⟨-, -, apart⟩
  · exact whole (start + k) (by omega)
  · exact apart k below

/-- The state in which an arrival has filled the stream's page. -/
def State.pageFilled (s : State) (next : FrameState) (received : Vector Byte 64) (i : StreamNo)
    (c : CurrentPage) : State :=
  let bytes := s.work.slotBytes i (s.afterFrame next received).frame.rxHand
  { (s.afterFrame next received).withStream i
      ((s.streams[i].received (s.work.width i)).pageFull c.page) with
    pool := { s.pool with mem := s.pool.mem.writeFrom c.page c.pos bytes } }

theorem State.CapturesAlone.fills {s : State} {sync : Bool} {next : FrameState} {i : StreamNo}
    {g : Settings} (h : s.CapturesAlone sync next i g) (received : Vector Byte 64) {c : CurrentPage}
    (cur : s.streams[i].cur = some c) (last : c.pos + s.work.width i = 512) :
    Work.placeBytes i (s.work.slotBytes i (s.afterFrame next received).frame.rxHand)
        (s.arriving next received i).work =
      (s.pageFilled next received i c).work.captureTest i := by
  obtain ⟨b, bytes, split, width⟩ := h.bytes received
  have record : (s.arriving next received i).work.stream i = _ :=
    State.getElem_withStream (s.afterFrame next received) i _
  have fill := Work.placeBytes_fill (w := (s.arriving next received i).work) (i := i) (c := c) b bytes
    (by rw [record]; exact cur) (by omega)
  unfold State.pageFilled
  rw [split, fill]
  refine congrArg (Work.captureTest · i) ?_
  exact Work.updStream_updStream ((s.afterFrame next received).work.wrote c.page c.pos (b :: bytes)) i
    (fun _ => s.streams[i].received (s.work.width i)) (·.pageFull c.page)

theorem State.pageFilled_stream (s : State) (next : FrameState) (received : Vector Byte 64)
    (i : StreamNo) (c : CurrentPage) : (s.pageFilled next received i c).work.stream i =
      (s.streams[i].received (s.work.width i)).pageFull c.page :=
  State.getElem_withStream (s.afterFrame next received) i _

theorem Stream.wantsSector_of_hold {st : Stream} (hold : st.state = .hold) :
    st.wantsSector = false := by
  simp [Stream.wantsSector, hold]

/-- The page that is full waits (R79). -/
theorem State.CapturesAlone.waits {s : State} {sync : Bool} {next : FrameState} {i : StreamNo}
    {g : Settings} (h : s.CapturesAlone sync next i g) (received : Vector Byte 64) {c : CurrentPage}
    (cur : s.streams[i].cur = some c) (last : c.pos + s.work.width i = 512)
    (quiet : s.streams[i].state = .hold ∨ g.depth ≤ s.streams[i].outstanding) :
    exec (.frameBoundary sync received) s = .next (s.pageFilled next received i c) := by
  refine h.runs ((h.fills received cur last).trans (Work.captureTest_quiet ?_ ?_))
  · rw [s.pageFilled_stream]
    rcases quiet with hold | full
    · exact Stream.wantsSector_of_hold hold
    · refine Stream.wantsSector_of_full ?_
      rw [show ((s.streams[i].received (s.work.width i)).pageFull c.page).cfg = g from h.cfg]
      exact full
  · rw [s.pageFilled_stream]
    rintro ⟨-, -, -, ready, -⟩
    simp [Stream.pageFull] at ready

/-- The page that is full is issued (R78). -/
theorem State.CapturesAlone.issues {s : State} {sync : Bool} {next : FrameState} {i : StreamNo}
    {g : Settings} (h : s.CapturesAlone sync next i g) (received : Vector Byte 64) {c : CurrentPage}
    {x : Extent} {others : List Extent} (cur : s.streams[i].cur = some c)
    (last : c.pos + s.work.width i = 512) (running : s.streams[i].state = .running)
    (noAbort : s.streams[i].abortPart = none) (noneReady : s.streams[i].ready = [])
    (below : s.streams[i].outstanding < g.depth) (supplied : s.streams[i].WellSupplied x others)
    (attached : s.ports[x.port].state ≠ .offline) (fits : s.ports[x.port].queue.length < 12)
    (nobody : s.pool.waitList = []) :
    let st := s.streams[i]
    let full := s.pageFilled next received i c
    exec (.frameBoundary sync received) s = .next { (full.withStream i { st.received (s.work.width i) with
        cur := none, nextSeq := some (st.seqNow + 1), outstanding := st.outstanding + 1
        offset := st.offset + 1, waitedPort := none }).withPort x.port (s.ports[x.port].arrival
          (s.ports[x.port].newEntry s.serial (.streamWrite i c.page
            ⟨g.recTag, st.takeNow, st.seqNow, 512⟩ x.override) x.port (x.start + st.offset))) with
      serial := s.serial + 1 } := by
  intro st full
  let y : Stream := (st.received (s.work.width i)).pageFull c.page
  have record : full.work.stream i = y := s.pageFilled_stream next received i c
  have cfg : y.cfg = g := h.cfg
  have ready : y.ready = [⟨c.page, st.seqNow, 512⟩] := by
    simp only [y, Stream.pageFull, Stream.received, show st.ready = [] from noneReady, List.nil_append]
    rfl
  have issues := Work.captureTest_issues (w := full.work) (i := i) (x := x) (others := others)
    (pg := ⟨c.page, st.seqNow, 512⟩) (rest := []) rfl
  rw [record] at issues
  have goes := issues ⟨supplied.extents, supplied.within, supplied.above⟩ ready (.inl running) noAbort
    (by rw [cfg]; exact below) (.inl rfl) attached fits nobody
  have trailer : y.trailerFor st.seqNow 512 = ⟨g.recTag, st.takeNow, st.seqNow, 512⟩ := by
    rw [Stream.trailerFor, cfg]
    rfl
  have after : ({ y.headIssued [] with offset := (y.headIssued []).offset + 1 } : Stream) =
      { st.received (s.work.width i) with
        cur := none, nextSeq := some (st.seqNow + 1), outstanding := st.outstanding + 1
        offset := st.offset + 1, waitedPort := none } := by
    simp only [y, Stream.headIssued, Stream.pageFull, Stream.received,
      show st.ready = [] from noneReady]
    rfl
  refine h.runs ((h.fills received cur last).trans (goes.trans ?_))
  dsimp only
  rw [State.placesNext_work full, show full.streams[i] = y from record, after, trailer]
  rfl

/-! ### With no fill page (R76, R77) -/

/-- The state in which an arrival has begun a page just claimed. -/
def State.pageBegun (s : State) (next : FrameState) (received : Vector Byte 64) (i : StreamNo)
    (page : PageNo) (free : List PageNo) : State :=
  let bytes := s.work.slotBytes i (s.afterFrame next received).frame.rxHand
  { (s.afterFrame next received).withStream i { s.streams[i].received (s.work.width i) with
      overrun := false, cur := some ⟨page, s.work.width i, 512, 0⟩ } with
    pool := { s.pool.claimed i page free with
      mem := (s.pool.mem.clearPage page).writeFrom page 0 bytes } }

theorem State.CapturesAlone.begins {s : State} {sync : Bool} {next : FrameState} {i : StreamNo}
    {g : Settings} (h : s.CapturesAlone sync next i g) (received : Vector Byte 64) {page : PageNo}
    {free : List PageNo} (noPage : s.streams[i].cur = none) (head : s.pool.free = page :: free)
    (grants : s.work.grants i = true) :
    exec (.frameBoundary sync received) s = .next (s.pageBegun next received i page free) := by
  obtain ⟨b, bytes, split, width⟩ := h.bytes received
  have narrow := h.mapped.width i
  let f := s.afterFrame next received
  let x := (s.arriving next received i).work
  have record : x.stream i = _ := State.getElem_withStream f i _
  have granted : x.grants i = true := Eq.trans (Work.grants_updStream (w := f.work)
    (f := fun _ => s.streams[i].received (s.work.width i)) rfl Iff.rfl i) grants
  have begins := Work.placeBytes_claims (w := x) (i := i) b bytes (by rw [record]; exact noPage)
    (Work.claim_granted head granted) (by omega)
  refine h.runs ?_
  unfold State.pageBegun
  rw [split, begins, ← width]
  exact Work.updStream_updStream ((f.work.updPool (·.claimed i page free)).wrote page 0 (b :: bytes)) i
    (fun _ => s.streams[i].received (s.work.width i)) _

/-- The notice of the first byte lost in an episode (R77). -/
def State.overrunNotice (s : State) (i : StreamNo) (g : Settings) : Notice :=
  .overrun i s.streams[i].takeNow (s.work.width i) s.pool.held[i] g.quota
    (if s.pool.held[i] = g.quota then .quotaReached else .poolShort)

/-- The state in which every byte of an arrival is lost. -/
def State.bytesLost (s : State) (next : FrameState) (received : Vector Byte 64) (i : StreamNo)
    (g : Settings) : State :=
  (if s.streams[i].overrun then s.afterFrame next received
    else (s.afterFrame next received).notified (s.overrunNotice i g)).withStream i
      { s.streams[i].received (s.work.width i) with
        overrun := true
        counters := { (s.streams[i].received (s.work.width i)).counters with
          lost := min (2 ^ 48 - 1) (s.streams[i].counters.lost + s.work.width i) } }

theorem State.CapturesAlone.loses {s : State} {sync : Bool} {next : FrameState} {i : StreamNo}
    {g : Settings} (h : s.CapturesAlone sync next i g) (received : Vector Byte 64)
    (noPage : s.streams[i].cur = none) (refused : s.pool.free = [] ∨ s.work.grants i = false) :
    exec (.frameBoundary sync received) s = .next (s.bytesLost next received i g) := by
  obtain ⟨b, bytes, split, width⟩ := h.bytes received
  let f := s.afterFrame next received
  let r := s.streams[i].received (s.work.width i)
  let x := (s.arriving next received i).work
  have record : x.stream i = r := State.getElem_withStream f i _
  have grants : x.grants i = s.work.grants i :=
    Work.grants_updStream (w := f.work) (f := fun _ => r) rfl Iff.rfl i
  have lost := Work.placeBytes_loses (w := x) (i := i) b bytes (by rw [record]; exact noPage)
    (Work.claim_refused (refused.imp_right grants.trans))
  refine h.runs ?_
  unfold State.bytesLost
  rw [split, lost, ← width]
  have gone : x.updStream i (fun st => { st.count (fun c => { c with
      lost := satAdd top48 c.lost (s.work.width i) }) with overrun := true }) =
      (f.withStream i { r with
        overrun := true
        counters := { r.counters with
          lost := min (2 ^ 48 - 1) (s.streams[i].counters.lost + s.work.width i) } }).work :=
    Work.updStream_updStream f.work i (fun _ => r) _
  have quota : r.cfg.quota = g.quota := congrArg Settings.quota h.cfg
  unfold Work.loseBytes
  dsimp only
  rw [record, gone, quota, show r.overrun = s.streams[i].overrun from rfl]
  split <;> rfl

end Sys2Proof.Machine

/-! PROOFS. A frame end at which any number of streams take their part, in whatever order (R69 to R72,
R75, R99). -/

namespace Sys2Proof.Machine

/-! ### Exchanges are taken in any order -/

theorem mem_nextEvents_exchange {b l : List StreamNo} {x : Event × List Event}
    (h : x ∈ nextEvents (b.map .exchange) (l.map .exchange)) :
    ∃ l₁ j l₂, b ++ l = l₁ ++ j :: l₂ ∧ x = (.exchange j, (l₁ ++ l₂).map .exchange) := by
  induction l generalizing b with
  | nil => cases h
  | cons j l ih =>
    have free : (b.map Event.exchange).any (Event.exchange j).follows = false := by
      simp [List.any_map, Event.follows]
    have more : b.map Event.exchange ++ [.exchange j] = (b ++ [j]).map .exchange := by
      rw [List.map_append]
      rfl
    rw [List.map_cons, nextEvents, free, if_neg nofun, more] at h
    rcases List.mem_cons.1 h with rfl | later
    · exact ⟨b, j, l, rfl, by rw [List.map_append]⟩
    · obtain ⟨l₁, k, l₂, split, same⟩ := ih later
      exact ⟨l₁, k, l₂, by rw [← split, List.append_assoc]; rfl, same⟩

/-- Messages that differ are all sent. -/
theorem Work.postAll_fresh {l : List Event} (nodup : l.Nodup) {w : Work}
    (fresh : ∀ e ∈ l, e ∉ w.agenda) : w.postAll l = { w with agenda := w.agenda ++ l } := by
  induction l generalizing w with
  | nil => rw [List.append_nil]; rfl
  | cons e l ih =>
    obtain ⟨single, nodup⟩ := List.nodup_cons.1 nodup
    have first : w.postOnce e = w.post e := if_neg (fresh e List.mem_cons_self)
    refine (congrArg (Work.postAll · l) first).trans ((ih nodup fun x hx => ?_).trans ?_)
    · rw [Work.post, List.mem_append, List.mem_singleton, not_or]
      exact ⟨fresh x (List.mem_cons_of_mem e hx), fun same => single (same ▸ hx)⟩
    · rw [Work.post, List.append_assoc]
      rfl

/-- The state of a frame end at which some streams have taken their part. -/
def State.midway (f : State) (streams : Vector Stream 16) (mem : Memory) (tx : Vector Byte 64)
    (picks : Nat) (agenda : List Event) : Work :=
  { f.work with
    streams := streams, pool := { f.pool with mem := mem }, frame := { f.frame with txSend := tx }
    pickCount := picks, agenda := agenda }

/-- One of the exchanges on the way is taken, whichever. -/
theorem State.nextEvent_midway {f : State} {streams : Vector Stream 16} {mem : Memory}
    {tx : Vector Byte 64} {l : List StreamNo} (more : l ≠ []) (picks : Nat) :
    ∃ l₁ j l₂ picks', l = l₁ ++ j :: l₂ ∧
      (f.midway streams mem tx picks (l.map .exchange)).nextEvent =
        some (.exchange j, f.midway streams mem tx picks' ((l₁ ++ l₂).map .exchange)) := by
  obtain ⟨i, rest, rfl⟩ := List.exists_cons_of_ne_nil more
  have members (x) := mem_nextEvents_exchange (b := []) (l := i :: rest) (x := x)
  rcases events : nextEvents [] ((i :: rest).map .exchange) with _ | ⟨m, ms⟩
  · rw [List.map_cons, nextEvents, List.any_nil, if_neg nofun] at events
    cases events
  · rw [List.map_nil, events] at members
    let w := f.midway streams mem tx picks ((i :: rest).map .exchange)
    have choice (k : Nat) : (m :: ms).getD k m ∈ m :: ms := by
      rw [List.getD_eq_getElem?_getD]
      rcases at_k : (m :: ms)[k]? with _ | x
      · exact List.mem_cons_self
      · exact List.mem_of_getElem? at_k
    obtain ⟨picks', moved⟩ : ∃ picks', (w.anyBelow ms.length).2 =
        f.midway streams mem tx picks' ((i :: rest).map .exchange) := by
      unfold Work.anyBelow
      split
      · exact ⟨picks, rfl⟩
      · exact ⟨picks + 1, rfl⟩
    obtain ⟨l₁, j, l₂, split, same⟩ := members _ (choice (w.anyBelow ms.length).1)
    refine ⟨l₁, j, l₂, picks', split, ?_⟩
    unfold Work.nextEvent
    rw [show (f.midway streams mem tx picks ((i :: rest).map .exchange)).agenda =
      (i :: rest).map .exchange from rfl, events]
    dsimp only
    rw [moved, same]
    rfl

/-! ### What each stream's part does -/

/-- A stream has room for its part of a frame end: a capture stream in its fill page, a replay stream in
its drain page. -/
def State.Roomy (f : State) (i : StreamNo) (c : CurrentPage) : Prop :=
  f.streams[i].cur = some c ∧
    match f.streams[i].cfg.direction with
    | .capture => f.streams[i].takesBytes = true ∧ c.pos + f.work.width i < 512
    | .replay => f.streams[i].state = .running ∧ c.pos + f.work.width i < c.fill ∧ c.fill ≤ 512

/-- The record of a stream that has taken its part of a frame end. -/
def Stream.exchanged (st : Stream) (c : CurrentPage) (n : Nat) : Stream :=
  match st.cfg.direction with
  | .capture => (st.received n).filledBy c n
  | .replay => st.gave c n

/-- A frame end midway: `l` are the streams still to take their part. -/
structure State.Midway (f : State) (l : List StreamNo) (streams : Vector Stream 16) (mem : Memory)
    (tx : Vector Byte 64) : Prop where
  waiting : ∀ j : StreamNo, j ∈ l ∨ f.work.width j = 0 → streams[j] = f.streams[j]
  done : ∀ (j : StreamNo) (c : CurrentPage), j ∉ l → 0 < f.work.width j → f.streams[j].cur = some c →
    streams[j] = f.streams[j].exchanged c (f.work.width j)
  wf : mem.Wf
  written : ∀ (j : StreamNo) (c : CurrentPage) (k : Nat) (n : SlotNo), j ∉ l →
    f.streams[j].cfg.direction = .capture → f.streams[j].cur = some c →
    (f.work.slots j)[k]? = some n → mem.read (pageAddr c.page (c.pos + k)) = f.frame.rxHand[n]
  kept : ∀ a, (∀ (j : StreamNo) (c : CurrentPage), f.streams[j].cfg.direction = .capture →
      f.streams[j].cur = some c → ∀ k < f.work.width j, a ≠ pageAddr c.page (c.pos + k)) →
    mem.read a = f.pool.mem.read a
  sent : ∀ (j : StreamNo) (c : CurrentPage) (k : Nat) (n : SlotNo), j ∉ l →
    f.streams[j].cfg.direction = .replay → f.streams[j].cur = some c →
    (f.work.slots j)[k]? = some n → tx[n] = f.pool.mem.read (pageAddr c.page (c.pos + k))
  unsent : ∀ n : SlotNo, (∀ j : StreamNo, f.streams[j].cfg.direction = .replay →
    n ∉ f.work.slots j) → tx[n] = f.frame.txSend[n]

/-- A frame end at which every stream mapped has room for its part, in a page of its own. -/
structure State.Spacious (f : State) : Prop where
  wf : f.pool.mem.Wf
  roomy : ∀ i : StreamNo, 0 < f.work.width i → ∃ c, f.Roomy i c
  apart : ∀ (i j : StreamNo) (c d : CurrentPage), i ≠ j → 0 < f.work.width i → 0 < f.work.width j →
    f.streams[i].cur = some c → f.streams[j].cur = some d → c.page ≠ d.page
  slots : ∀ (i j : StreamNo) (n : SlotNo), f.streams[i].cfg.direction = .replay →
    f.streams[j].cfg.direction = .replay → n ∈ f.work.slots i → n ∈ f.work.slots j → i = j

theorem State.slots_midway {f : State} {streams : Vector Stream 16} {j : StreamNo}
    (same : streams[j] = f.streams[j]) (mem : Memory) (tx : Vector Byte 64) (picks : Nat)
    (agenda : List Event) :
    (f.midway streams mem tx picks agenda).slots j = f.work.slots j := by
  unfold Work.slots
  rw [show (f.midway streams mem tx picks agenda).stream j = f.work.stream j from same]
  rfl

/-- A capture stream's part. -/
theorem State.midway_capture {f : State} {streams : Vector Stream 16} {mem : Memory}
    {tx : Vector Byte 64} {j : StreamNo} {c : CurrentPage} (same : streams[j] = f.streams[j])
    (room : f.Roomy j c) (capture : f.streams[j].cfg.direction = .capture) (picks : Nat)
    (agenda : List Event) :
    (f.midway streams mem tx picks agenda).exchange j =
      f.midway (streams.set j (f.streams[j].exchanged c (f.work.width j)))
        (mem.writeFrom c.page c.pos (f.work.slotBytes j f.frame.rxHand)) tx picks agenda := by
  obtain ⟨cur, room⟩ := room
  rw [capture] at room
  obtain ⟨takes, fits⟩ := room
  let w := f.midway streams mem tx picks agenda
  have here : w.stream j = f.streams[j] := same
  have slots : w.slots j = f.work.slots j := State.slots_midway same mem tx picks agenda
  have width : w.width j = f.work.width j := congrArg List.length slots
  have bytes : w.slotBytes j w.frame.rxHand = f.work.slotBytes j f.frame.rxHand := by
    rw [Work.slotBytes, slots]
    rfl
  have length := f.work.length_slotBytes j f.frame.rxHand
  let x := w.updStream j (·.received (f.work.width j))
  have record : x.stream j = f.streams[j].received (f.work.width j) := by
    rw [Work.stream_updStream_self, here]
  have within := Work.placeBytes_within (w := x) (i := j) (c := c)
    (f.work.slotBytes j f.frame.rxHand) (by rw [record]; exact cur) (by rw [length]; exact fits)
  rw [length] at within
  have part := Work.exchange_capture (w := w) (i := j) (by rw [here]; exact capture)
    (by rw [here]; exact takes)
  rw [bytes, width] at part
  have exchanged : f.streams[j].exchanged c (f.work.width j) =
      (f.streams[j].received (f.work.width j)).filledBy c (f.work.width j) := by
    unfold Stream.exchanged
    rw [capture]
  refine part.trans (within.trans ((Work.updStream_updStream (w.wrote c.page c.pos _) j
    (·.received (f.work.width j)) _).trans ((Work.updStream_congr (g := fun _ =>
      f.streams[j].exchanged c (f.work.width j)) ?_).trans rfl)))
  rw [exchanged]
  exact congrArg (fun st : Stream => (st.received (f.work.width j)).filledBy c (f.work.width j)) here

/-- A replay stream's part. -/
theorem State.midway_replay {f : State} {streams : Vector Stream 16} {mem : Memory}
    {tx : Vector Byte 64} {j : StreamNo} {c : CurrentPage} (same : streams[j] = f.streams[j])
    (wide : 0 < f.work.width j)
    (room : f.Roomy j c) (replay : f.streams[j].cfg.direction = .replay) (picks : Nat)
    (agenda : List Event) :
    (f.midway streams mem tx picks agenda).exchange j =
      f.midway (streams.set j (f.streams[j].exchanged c (f.work.width j))) mem
        (fillSlots (f.work.slots j) (readBytes mem c.page c.pos (f.work.width j)) tx) picks agenda := by
  obtain ⟨cur, room⟩ := room
  rw [replay] at room
  obtain ⟨running, more, -⟩ := room
  let w := f.midway streams mem tx picks agenda
  have here : w.stream j = f.streams[j] := same
  have slots : w.slots j = f.work.slots j := State.slots_midway same mem tx picks agenda
  have width : w.width j = f.work.width j := congrArg List.length slots
  obtain ⟨n, split⟩ := Nat.exists_eq_add_of_lt wide
  rw [Nat.zero_add] at split
  have within := Work.supplyBytes_within (w := w) (i := j) (c := c) n (by rw [here]; exact running)
    (by rw [here]; exact cur) (by omega)
  rw [← split] at within
  have supplies : w.supply j (w.width j) =
      (readBytes mem c.page c.pos (f.work.width j), w.updStream j (·.gave c (f.work.width j))) := by
    rw [width]
    exact (if_pos (by rw [here]; exact running)).trans within
  have part := Work.exchange_replay (w := w) (i := j) (by rw [here]; exact replay) supplies
  rw [slots] at part
  have exchanged : f.streams[j].exchanged c (f.work.width j) =
      f.streams[j].gave c (f.work.width j) := by
    unfold Stream.exchanged
    rw [replay]
  have gives : w.updStream j (·.gave c (f.work.width j)) =
      w.updStream j fun _ => f.streams[j].exchanged c (f.work.width j) := by
    refine Work.updStream_congr ?_
    rw [exchanged, here]
  rw [gives] at part
  exact part

/-! ### One part after another -/

theorem pageAddr_ne {p q : PageNo} (other : p ≠ q) {a b : Nat} (ha : a < 512) (hb : b < 512) :
    pageAddr p a ≠ pageAddr q b := by
  have apart : p.val ≠ q.val := fun same => other (Fin.ext same)
  simp only [pageAddr]
  omega

/-- A place of a stream's part lies in its page. -/
theorem State.Roomy.place_lt {f : State} {i : StreamNo} {c : CurrentPage} (h : f.Roomy i c) {k : Nat}
    (below : k < f.work.width i) : c.pos + k < 512 := by
  obtain ⟨-, room⟩ := h
  rcases direction : f.streams[i].cfg.direction <;> rw [direction] at room
  · obtain ⟨-, fits⟩ := room
    omega
  · obtain ⟨-, more, fill⟩ := room
    omega

/-- The part of one more stream, whichever is taken next. -/
theorem State.Midway.exchange {f : State} (spacious : f.Spacious) {l₁ l₂ : List StreamNo}
    {j : StreamNo} {streams : Vector Stream 16} {mem : Memory} {tx : Vector Byte 64}
    (nodup : (l₁ ++ j :: l₂).Nodup) (wide : 0 < f.work.width j)
    (h : f.Midway (l₁ ++ j :: l₂) streams mem tx) (picks : Nat) (agenda : List Event) :
    ∃ streams' mem' tx', f.Midway (l₁ ++ l₂) streams' mem' tx' ∧
      (f.midway streams mem tx picks agenda).exchange j = f.midway streams' mem' tx' picks agenda := by
  obtain ⟨c, room⟩ := spacious.roomy j wide
  have cur := room.1
  have same := h.waiting j (.inl (by simp))
  have fresh : j ∉ l₁ ++ l₂ := by
    rw [List.nodup_middle] at nodup
    exact (List.nodup_cons.1 nodup).1
  have before {x : StreamNo} (out : x ∉ l₁ ++ l₂) (other : x ≠ j) : x ∉ l₁ ++ j :: l₂ := by
    simp only [List.mem_append, List.mem_cons, not_or] at out ⊢
    exact ⟨out.1, other, out.2⟩
  have still {x : StreamNo} (member : x ∈ l₁ ++ l₂ ∨ f.work.width x = 0) : x ≠ j ∧
      (x ∈ l₁ ++ j :: l₂ ∨ f.work.width x = 0) := by
    refine ⟨?_, member.imp_left fun inside => ?_⟩
    · rintro rfl
      exact member.elim fresh (Nat.ne_of_gt wide)
    · simp only [List.mem_append, List.mem_cons] at inside ⊢
      tauto
  let moved := streams.set j (f.streams[j].exchanged c (f.work.width j))
  have at_j : moved[j] = f.streams[j].exchanged c (f.work.width j) := Vector.getElem_set_self _
  have at_other {x : StreamNo} (other : x ≠ j) : moved[x] = streams[x] :=
    Vector.getElem_set_ne j.isLt x.isLt fun e => other (Fin.ext e.symm)
  have waiting (x : StreamNo) (member : x ∈ l₁ ++ l₂ ∨ f.work.width x = 0) :
      moved[x] = f.streams[x] := by
    obtain ⟨other, member⟩ := still member
    exact (at_other other).trans (h.waiting x member)
  have done (x : StreamNo) (d : CurrentPage) (out : x ∉ l₁ ++ l₂) (wider : 0 < f.work.width x)
      (page : f.streams[x].cur = some d) : moved[x] = f.streams[x].exchanged d (f.work.width x) := by
    by_cases is_j : x = j
    · subst is_j
      rw [at_j, Option.some.inj (cur.symm.trans page)]
    · exact (at_other is_j).trans (h.done x d (before out is_j) wider page)
  rcases direction : f.streams[j].cfg.direction
  · have length := f.work.length_slotBytes j f.frame.rxHand
    have fits : c.pos + (f.work.slotBytes j f.frame.rxHand).length ≤ 512 := by
      have room := room.2
      rw [direction] at room
      rw [length]
      exact Nat.le_of_lt room.2
    obtain ⟨inside, outside⟩ := Memory.read_run h.wf c.page fits
    rw [length] at outside
    refine ⟨moved, _, tx, ⟨waiting, done, Memory.wf_writeFrom _ _ _ h.wf, ?_, ?_, ?_, h.unsent⟩,
      State.midway_capture same room direction picks agenda⟩
    · intro x d k n out capture page slot
      by_cases is_j : x = j
      · subst is_j
        cases cur.symm.trans page
        exact inside k _ (Work.getElem?_slotBytes slot _)
      · have below : k < f.work.width x := (List.getElem?_eq_some_iff.1 slot).1
        have wider : 0 < f.work.width x := Nat.zero_lt_of_lt below
        obtain ⟨d', roomy⟩ := spacious.roomy x wider
        cases roomy.1.symm.trans page
        have apart := spacious.apart x j d c is_j wider wide page cur
        rw [outside _ fun m inside => pageAddr_ne apart (roomy.place_lt below) (room.place_lt inside)]
        exact h.written x d k n (before out is_j) capture page slot
    · intro a clear
      rw [outside a (clear j c direction cur)]
      exact h.kept a clear
    · intro x d k n out replay page slot
      have is_not : x ≠ j := fun e => by
        rw [e, direction] at replay
        cases replay
      exact h.sent x d k n (before out is_not) replay page slot
  · have length := length_readBytes mem c.page c.pos (f.work.width j)
    refine ⟨moved, mem, _, ⟨waiting, done, h.wf, ?_, h.kept, ?_, ?_⟩,
      State.midway_replay same wide room direction picks agenda⟩
    · intro x d k n out capture page slot
      have is_not : x ≠ j := fun e => by
        rw [e, direction] at capture
        cases capture
      exact h.written x d k n (before out is_not) capture page slot
    · intro x d k n out replay page slot
      by_cases is_j : x = j
      · subst is_j
        cases cur.symm.trans page
        have below : k < f.work.width x := (List.getElem?_eq_some_iff.1 slot).1
        rw [fillSlots_inside (f.work.nodup_slots x) tx slot (getElem?_readBytes mem c.page c.pos below)]
        refine h.kept _ fun y d' capture page' m inside => ?_
        have other : x ≠ y := fun e => by
          rw [← e, direction] at capture
          cases capture
        have wider : 0 < f.work.width y := Nat.zero_lt_of_lt inside
        obtain ⟨d'', roomy⟩ := spacious.roomy y wider
        cases roomy.1.symm.trans page'
        exact pageAddr_ne (spacious.apart x y c d' other wide wider cur page') (room.place_lt below)
          (roomy.place_lt inside)
      · have outside : n ∉ f.work.slots j := fun inside =>
          is_j (spacious.slots x j n replay direction (List.mem_of_getElem? slot) inside)
        rw [fillSlots_outside _ _ _ outside]
        exact h.sent x d k n (before out is_j) replay page slot
    · intro n clear
      rw [fillSlots_outside _ _ _ (clear j direction)]
      exact h.unsent n clear

/-- Every stream takes its part. -/
theorem State.Midway.drain {f : State} (spacious : f.Spacious) (n : Nat) {l : List StreamNo}
    {streams : Vector Stream 16} {mem : Memory} {tx : Vector Byte 64} (fuel : l.length ≤ n)
    (nodup : l.Nodup) (wide : ∀ j ∈ l, 0 < f.work.width j) (h : f.Midway l streams mem tx)
    (picks : Nat) : ∃ streams' mem' tx' picks', f.Midway [] streams' mem' tx' ∧
      Work.drain n (f.midway streams mem tx picks (l.map .exchange)) =
        f.midway streams' mem' tx' picks' [] := by
  induction n generalizing l streams mem tx picks with
  | zero =>
    obtain rfl := List.eq_nil_of_length_eq_zero (Nat.le_zero.1 fuel)
    exact ⟨streams, mem, tx, picks, h, rfl⟩
  | succ n ih =>
    by_cases empty : l = []
    · subst empty
      exact ⟨streams, mem, tx, picks, h, Work.drain_idle rfl _⟩
    · obtain ⟨l₁, j, l₂, picks₁, rfl, event⟩ :=
        State.nextEvent_midway (f := f) (streams := streams) (mem := mem) (tx := tx) empty picks
      obtain ⟨streams', mem', tx', midway, part⟩ := h.exchange spacious nodup (wide j (by simp)) picks₁
        ((l₁ ++ l₂).map .exchange)
      have fewer : (l₁ ++ l₂).length ≤ n := by
        simp only [List.length_append, List.length_cons] at fuel ⊢
        omega
      obtain ⟨streams'', mem'', tx'', picks'', complete, drained⟩ := ih fewer
        (List.nodup_cons.1 (List.nodup_middle.1 nodup)).2
        (fun x hx => wide x (by simp only [List.mem_append, List.mem_cons] at hx ⊢; tauto)) midway picks₁
      refine ⟨streams'', mem'', tx'', picks'', complete, ?_⟩
      rw [Work.drain, event]
      exact (congrArg (Work.drain n) part).trans drained

/-- A frame end at which every stream mapped has room. -/
theorem exec_frameBoundary_spacious {s : State} {sync : Bool} {next : FrameState}
    (received : Vector Byte 64) (high : s.resetLow = false)
    (ends : s.frame.state.atFrameEnd sync = some next)
    (spacious : (s.afterFrame next received).Spacious) :
    ∃ streams mem tx picks, (s.afterFrame next received).Midway [] streams mem tx ∧
      exec (.frameBoundary sync received) s =
        .next ((s.afterFrame next received).midway streams mem tx picks []).toState := by
  let f := s.afterFrame next received
  let l := streamNos.filter fun i => s.work.width i ≠ 0
  have start : f.Midway l f.streams f.pool.mem f.frame.txSend := by
    have wide {j : StreamNo} (out : j ∉ l) : f.work.width j = 0 := by
      by_contra some
      exact out (List.mem_filter.2 ⟨mem_streamNos j, decide_eq_true some⟩)
    have none {j : StreamNo} {k : Nat} {n : SlotNo} (out : j ∉ l)
        (slot : (f.work.slots j)[k]? = some n) : False := by
      have below : k < f.work.width j := (List.getElem?_eq_some_iff.1 slot).1
      rw [wide out] at below
      exact absurd below (Nat.not_lt_zero k)
    exact ⟨fun _ _ => rfl, fun j _ out wider => absurd (wide out) (Nat.ne_of_gt wider), spacious.wf,
      fun _ _ _ _ out _ _ slot => (none out slot).elim, fun _ _ => rfl,
      fun _ _ _ _ out _ _ slot => (none out slot).elim, fun _ _ => rfl⟩
  have posts : f.work.postAll (l.map .exchange) = f.midway f.streams f.pool.mem f.frame.txSend f.pickCount
      (l.map .exchange) :=
    Work.postAll_fresh ((nodup_streamNos.filter _).map fun _ _ => Event.exchange.inj)
      fun _ _ => List.not_mem_nil
  have room : l.length ≤ (f.midway f.streams f.pool.mem f.frame.txSend f.pickCount
      (l.map .exchange)).bound :=
    le_trans (Nat.le_of_eq (List.length_map (f := Event.exchange)).symm) (Work.length_le_bound
      (f.midway f.streams f.pool.mem f.frame.txSend f.pickCount (l.map .exchange)))
  obtain ⟨streams, mem, tx, picks, complete, drained⟩ := start.drain spacious
    (f.midway f.streams f.pool.mem f.frame.txSend f.pickCount (l.map .exchange)).bound room (nodup_streamNos.filter _)
    (fun j hj => Nat.pos_of_ne_zero (of_decide_eq_true (List.mem_filter.1 hj).2)) f.pickCount
  refine ⟨streams, mem, tx, picks, complete, ?_⟩
  rw [execFrameBoundary_ends received high ends, act_eq, Work.frameEnd_eq]
  exact congrArg (fun w : Work => Host.Outcome.next w.toState)
    ((congrArg Work.settle posts).trans drained)

/-- The map of a stream's direction names it at each of its slots. -/
theorem Work.slot_names {w : Work} {i : StreamNo} {n : SlotNo} (slot : n ∈ w.slots i) :
    (w.frame.map (w.stream i).cfg.direction)[n] = some i := by
  unfold Work.slots at slot
  unfold Stream.cfg
  split at slot
  next g settings =>
    rw [settings]
    exact mem_slotsOf.1 slot
  next => cases slot

/-- Settles O24: any number of streams with room, and one capture stream whose page is filled, or that
has none. -/
theorem captureTakesItsSlots : Obligations.CaptureTakesItsSlots := by
  unfold Obligations.CaptureTakesItsSlots
  intro s sync received next high ends wf mapped width takes counted
  let f := s.afterFrame next received
  constructor
  · intro room apart
    have spacious : f.Spacious := by
      refine ⟨wf, fun i wide => ?_, apart, fun i j n replay replay' slot slot' => ?_⟩
      · obtain ⟨c, cur, room⟩ := room i wide
        refine ⟨c, cur, ?_⟩
        rcases direction : s.streams[i].cfg.direction <;> rw [direction] at room <;>
          rw [show f.streams[i].cfg.direction = _ from direction]
        · exact ⟨(Stream.takesBytes_iff _).2 room.1, room.2⟩
        · exact room
      · have names := Work.slot_names slot
        have names' := Work.slot_names slot'
        rw [show (f.work.stream i).cfg.direction = .replay from replay] at names
        rw [show (f.work.stream j).cfg.direction = .replay from replay'] at names'
        exact Option.some.inj (names.symm.trans names')
    obtain ⟨streams, mem, tx, picks, complete, run⟩ :=
      exec_frameBoundary_spacious received high ends spacious
    refine ⟨_, run, rfl, fun i none => complete.waiting i (.inr none), fun i c wide cur => ⟨?_, ?_⟩,
      fun a clear => complete.kept a fun j d capture page => clear j d capture page,
      fun n clear => complete.unsent n clear⟩
    · refine (complete.done i c List.not_mem_nil wide cur).trans ?_
      unfold Stream.exchanged
      rcases direction : s.streams[i].cfg.direction <;>
        rw [show f.streams[i].cfg.direction = _ from direction]
      · rfl
      · rfl
    · intro k n slot
      rcases direction : s.streams[i].cfg.direction
      · exact (complete.written i c k n List.not_mem_nil direction cur slot).trans
          (State.rxHand_afterFrame next received (mapped.slot_used (List.mem_of_getElem? slot)))
      · exact complete.sent i c k n List.not_mem_nil direction cur slot
  · intro i g settings capture taking wide narrow st seq framed placed
    have alone : s.CapturesAlone sync next i g :=
      ⟨high, ends, wf, mapped, settings, capture, (Stream.takesBytes_iff _).2 taking, wide, narrow⟩
    have cfg : st.cfg = g := alone.cfg
    refine ⟨?_, ?_, ?_, ?_⟩
    · intro c x others cur last running noAbort noneReady below extents within above attached fits nobody
        entry
      have run := alone.issues received cur last running noAbort noneReady below
        ⟨extents, within, by rw [alone.cfg]; exact above⟩ attached fits nobody
      let full := s.pageFilled next received i c
      have again (y : Stream) : full.withStream i y =
          { (s.afterFrame next received).withStream i y with pool := full.pool } :=
        congrArg (fun t : State => { t with pool := full.pool })
          (State.withStream_withStream (s.afterFrame next received) i _ y)
      dsimp only at run
      rw [again] at run
      exact ⟨_, run, alone.arrived received c.page (Nat.le_of_eq last), rfl⟩
    · intro c cur last quiet
      exact ⟨_, alone.waits received cur last quiet, alone.arrived received c.page (Nat.le_of_eq last), rfl⟩
    · intro page free noPage head grants
      have narrow := mapped.width i
      obtain ⟨inside, outside⟩ := mapped.read_arrival (Memory.wf_clearPage page wf) next received i page
        (start := 0) (by omega)
      refine ⟨_, alone.begins received noPage head grants, ⟨inside, fun a apart => ?_⟩,
        fun k below beyond => ?_, rfl⟩
      · rcases apart with whole | ⟨c, cur, -⟩
        · exact (outside a fun k below => whole (0 + k) (by omega)).trans
            (read_clearPage_outside _ _ whole)
        · cases noPage.symm.trans cur
      · have beyond : s.work.width i ≤ k := beyond
        refine (outside _ fun m inside => ?_).trans (Memory.read_clearPage_inside _ page below)
        simp only [pageAddr]
        omega
    · intro noPage refused
      refine ⟨_, alone.loses received noPage refused, ?_, ?_⟩
      · unfold State.bytesLost
        split <;> rfl
      · simp only [State.bytesLost]
        split <;> rfl

end Sys2Proof.Machine

/-! PROOFS. The end of a capture stream's write (R83 to R90). -/

namespace Sys2Proof.Machine

/-! ### The earliest sequence still unwritten (R83) -/

theorem seqDistance_inj {origin a b : Seq} (h : seqDistance origin a = seqDistance origin b) : a = b := by
  unfold seqDistance at h
  bv_omega

theorem earliest_mem (origin : Seq) (l : List Seq) (s : Seq) : earliest origin l s ∈ s :: l := by
  induction l with
  | nil => exact List.mem_cons_self
  | cons t l ih =>
    unfold earliest
    dsimp only
    split
    · rcases List.mem_cons.1 ih with same | later
      · exact List.mem_cons.2 (.inl same)
      · exact List.mem_cons_of_mem _ (List.mem_cons_of_mem _ later)
    · exact List.mem_cons_of_mem _ List.mem_cons_self

theorem earliest_le (origin : Seq) (l : List Seq) (s : Seq) :
    ∀ y ∈ s :: l, seqDistance origin (earliest origin l s) ≤ seqDistance origin y := by
  induction l with
  | nil => exact fun y hy => List.mem_singleton.1 hy ▸ le_refl _
  | cons t l ih =>
    intro y hy
    unfold earliest
    dsimp only
    have cases_y : y = t ∨ y ∈ s :: l := by
      simp only [List.mem_cons] at hy ⊢
      tauto
    split <;> rcases cases_y with rfl | later
    · exact Nat.le_of_lt ‹_›
    · exact ih y later
    · exact le_refl _
    · exact (Nat.le_of_not_lt ‹_›).trans (ih y later)

/-- The earliest sequence is the one that no other comes before. -/
theorem earliest_eq {origin : Seq} {l : List Seq} {s first : Seq} (mem : first ∈ s :: l)
    (least : ∀ y ∈ s :: l, seqDistance origin first ≤ seqDistance origin y) :
    earliest origin l s = first :=
  seqDistance_inj (le_antisymm (earliest_le origin l s first mem)
    (least _ (earliest_mem origin l s)))

/-- The queue of a port that has completed an entry (R116, R129). -/
theorem Port.queue_completed (pt : Port) (e : Entry) : (pt.withCompleted e).choose.queue =
    (pt.queue.filter fun f => f.serial != e.serial).map fun f =>
      { f with passed := min 65535 (f.passed + 1) } := by
  rw [Port.choose_queue]
  rfl

/-- The entries left on the ports' queues when the engine has completed one. -/
theorem State.mem_queue_completes {s : State} {p q : PortNo} {e f : Entry} :
    f ∈ ((s.completes p e).work.port q).queue ↔ ∃ g ∈ s.ports[q].queue,
      (q = p → g.serial ≠ e.serial) ∧ f = if q = p then { g with passed := min 65535 (g.passed + 1) }
        else g := by
  by_cases here : q = p
  · subst here
    rw [show (s.completes q e).work.port q = (s.ports[q].withCompleted e).choose from
      Vector.getElem_set_self _, Port.queue_completed, List.mem_map]
    simp only [List.mem_filter, bne_iff_ne, true_implies, if_true, eq_comm (a := f), and_assoc, ne_eq]
  · rw [show (s.completes p e).work.port q = s.ports[q] from
      Vector.getElem_set_ne p.isLt q.isLt fun same => here (Fin.ext same.symm)]
    simp only [here, false_implies, true_and, if_false, exists_eq_right']

/-- The sequences of a stream's writes on the ports' queues, with no result on its way. -/
theorem Work.mem_writesInFlight {w : Work} (alone : w.agenda = []) {i : StreamNo} {x : Seq} :
    x ∈ w.writesInFlight i ↔ ∃ (q : PortNo) (f : Entry) (pg : PageNo) (u : Trailer) (o : Bool),
      f ∈ (w.port q).queue ∧ f.kind = .streamWrite i pg u o ∧ u.seq = x := by
  unfold Work.writesInFlight
  dsimp only
  rw [alone, List.filterMap_nil, List.append_nil, List.mem_flatMap]
  constructor
  · rintro ⟨q, -, member⟩
    obtain ⟨f, inside, seq⟩ := List.mem_filterMap.1 member
    split at seq
    next j pg u o kind =>
      split at seq
      next same => exact ⟨q, f, pg, u, o, inside, same ▸ kind, Option.some.inj seq⟩
      next => cases seq
    next => cases seq
  · rintro ⟨q, f, pg, u, o, inside, kind, seq⟩
    refine ⟨q, List.mem_finRange q, List.mem_filterMap.2 ⟨f, inside, ?_⟩⟩
    rw [kind]
    dsimp only
    rw [if_pos rfl, seq]

/-- A sequence still unwritten once an entry has completed: on the ports. -/
theorem State.mem_writesInFlight_completes {s : State} {p : PortNo} {e : Entry} {i : StreamNo} {x : Seq} :
    x ∈ (s.completes p e).work.writesInFlight i ↔
      ∃ (q : PortNo) (f : Entry) (pg : PageNo) (u : Trailer) (o : Bool), f ∈ s.ports[q].queue ∧
        (q = p → f.serial ≠ e.serial) ∧ f.kind = .streamWrite i pg u o ∧ u.seq = x := by
  rw [Work.mem_writesInFlight rfl]
  constructor
  · rintro ⟨q, f, pg, u, o, inside, kind, seq⟩
    obtain ⟨g, member, apart, rfl⟩ := State.mem_queue_completes.1 inside
    refine ⟨q, g, pg, u, o, member, apart, ?_, seq⟩
    split at kind <;> exact kind
  · rintro ⟨q, g, pg, u, o, member, apart, kind, seq⟩
    refine ⟨q, _, pg, u, o, State.mem_queue_completes.2 ⟨g, member, apart, rfl⟩, ?_, seq⟩
    split <;> exact kind

/-- A stream that owned no other entry owns none once its entry has completed. -/
theorem State.owns_none_completes {s : State} {p : PortNo} {e : Entry} {i : StreamNo}
    (last : ∀ (q : PortNo) (f : Entry), f ∈ s.ports[q].queue → f.kind.stream = some i →
      q = p ∧ f.serial = e.serial) : (s.completes p e).work.Owns i none := by
  refine Work.owns_none fun q f inside stream => ?_
  obtain ⟨g, member, apart, rfl⟩ := State.mem_queue_completes.1 inside
  have same : g.kind.stream = some i := by
    split at stream <;> exact stream
  obtain ⟨here, own⟩ := last q g member same
  exact apart here own

/-! ### The pages and the counts of a completed write (R83) -/

theorem Work.finishWrite_eq {w : Work} (i : StreamNo) (page : PageNo)
    (nobody : w.pool.waitList = []) : w.finishWrite i page =
      (w.updStream i fun st => { st with outstanding := st.outstanding - 1 }).updPool
        (·.regained i [page]) := by
  unfold Work.finishWrite
  rw [Work.release_nobody i [page] nobody]
  rfl

/-- The record of a stream whose commit mark has moved on. -/
def Stream.committed (st : Stream) (first : Seq) : Stream :=
  { st with
    commitMark := some (min (2 ^ 32 - 1) (st.commitMark.getD 0 + (first - st.commitPoint).toNat))
    commitPoint := first }

theorem Work.advanceCommit_eq {w : Work} {i : StreamNo} {first : Seq}
    (member : first = (w.stream i).seqNow ∨ first ∈ (w.stream i).ready.map ReadyPage.seq ∨
      first ∈ w.writesInFlight i)
    (least : ∀ y, y = (w.stream i).seqNow ∨ y ∈ (w.stream i).ready.map ReadyPage.seq ∨
      y ∈ w.writesInFlight i →
      (first - (w.stream i).commitPoint).toNat ≤ (y - (w.stream i).commitPoint).toNat) :
    w.advanceCommit i = w.updStream i (·.committed first) := by
  have split (y : Seq) : y ∈ (w.stream i).seqNow ::
      ((w.stream i).ready.map ReadyPage.seq ++ w.writesInFlight i) ↔
        y = (w.stream i).seqNow ∨ y ∈ (w.stream i).ready.map ReadyPage.seq ∨
          y ∈ w.writesInFlight i := by
    rw [List.mem_cons, List.mem_append]
  have found := earliest_eq (origin := (w.stream i).commitPoint) ((split first).2 member)
    fun y hy => least y ((split y).1 hy)
  unfold Work.advanceCommit
  dsimp only
  rw [found]
  rfl

/-! ### A capture stream takes the result of its write (R136 (1)) -/

/-- The engine holds the write of a capture stream on an attached port that nobody waits for. -/
structure State.Writing (s : State) (p : PortNo) (e : Entry) (i : StreamNo) (page : PageNo) (t : Trailer)
    (override : Bool) : Prop where
  high : s.resetLow = false
  holder : s.engine.holder = some p
  active : s.ports[p].activeEntry = some e
  kind : e.kind = .streamWrite i page t override
  port : e.port = p
  state : s.ports[p].state = .active
  noDetach : s.ports[p].detachPending = none
  quiet : ∀ j : StreamNo, s.streams[j].waitedPort ≠ some p

theorem Work.takeResult_streamWrite {w : Work} {e : Entry} {i : StreamNo} {page : PageNo} {t : Trailer}
    {override : Bool} (kind : e.kind = .streamWrite i page t override) (done : Completion) :
    w.takeResult e done = w.captureResult i page t e.port (e.lba.getD 0) done.result := by
  simp only [Work.takeResult, kind]

/-- The record of a port whose data has gone out on the drive line (R134). -/
def Port.sends (pt : Port) (payload : List Byte) (t : Trailer) : Port :=
  { pt with written := some (.sector (sectorBytes payload t)) }

/-- WRITE_DATA completes the write, and its stream takes the result. -/
theorem State.Writing.writeData {s u : State} {p : PortNo} {e : Entry} {i : StreamNo} {page : PageNo}
    {t : Trailer} {override : Bool} (h : s.Writing p e i page t override)
    (phase : s.engine.phase = .writeData)
    (takes : ((s.withPort p (s.ports[p].sends (s.pool.mem.page page) t)).completes p e).work.captureResult
      i page t p (e.lba.getD 0) .ok = u.work) : exec .writeData s = .next u := by
  let sent : Port := s.ports[p].sends (s.pool.mem.page page) t
  have record : (s.withPort p sent).ports[p] = sent := Vector.getElem_set_self _
  have completes := State.engineComplete_attached (s := s.withPort p sent) (p := p)
    (by rw [record, show sent.state = .active from h.state]; nofun)
    (by rw [record]; exact h.noDetach) h.quiet e { result := .ok }
  rw [exec_writeData_awaited h.high h.holder phase h.active (page := page) (by rw [h.kind]; rfl)]
  have trailer : e.kind.trailer = t := by rw [h.kind]; rfl
  rw [trailer]
  refine act_single completes ((Work.takeResult_streamWrite h.kind _).trans ?_)
  rw [h.port]
  exact takes

/-- HEADER_READ of a locked sector without permit and override fails the write (R84, R133). -/
theorem State.Writing.locked {s u : State} {p : PortNo} {e : Entry} {i : StreamNo} {page : PageNo}
    {t : Trailer} {override : Bool} (h : s.Writing p e i page t override)
    (phase : s.engine.phase = .header) {header : Vector Byte 7} {permit : Bool}
    (good : headerMatches header.toList e = true) (lock : header[4].getLsbD 6 = true)
    (free : ¬ (permit = true ∧ override = true))
    (takes : (s.completes p e).work.captureResult i page t p (e.lba.getD 0) .locked = u.work) :
    exec (.headerRead header permit) s = .next u := by
  have completes := State.engineComplete_attached (s := s) (p := p)
    (by rw [h.state]; nofun) h.noDetach h.quiet e { result := .locked }
  have fails : (lockMark header[4] && !(permit && e.kind.override)) = true := by
    rw [Bool.and_eq_true, Bool.not_eq_true', ← Bool.not_eq_true, Bool.and_eq_true, h.kind]
    exact ⟨lock, free⟩
  rw [exec_headerRead_awaited h.high h.holder phase h.active]
  refine act_single ((if_neg (by rw [good]; nofun)).trans ((if_pos (by rw [h.kind]; rfl)).trans
    ((if_pos fails).trans completes))) ((Work.takeResult_streamWrite h.kind _).trans ?_)
  rw [h.port]
  exact takes

/-- The state in which a stream has a record, and has given pages back with nobody waiting. -/
def State.givesBack (s : State) (i : StreamNo) (st : Stream) (pages : List PageNo) : State :=
  { s.withStream i st with pool := s.pool.regained i pages }

/-- The state with another host line. -/
def State.withHost (s : State) (h : HostLine) : State := { s with host := h }

theorem State.stream_withStream (s : State) (i : StreamNo) (st : Stream) :
    (s.withStream i st).work.stream i = st := State.getElem_withStream s i st

theorem State.stream_givesBack (s : State) (i : StreamNo) (st : Stream) (pages : List PageNo) :
    (s.givesBack i st pages).work.stream i = st := State.getElem_withStream s i st

theorem State.givesBack_withStream (s : State) (i : StreamNo) (a b : Stream) (pages : List PageNo) :
    (s.givesBack i a pages).withStream i b = s.givesBack i b pages :=
  congrArg (fun t : State => { t with pool := s.pool.regained i pages })
    (State.withStream_withStream s i a b)

section
variable {s : State} {i : StreamNo} {st : Stream}

/-- Changing a stream whose record is known. -/
theorem State.updStream_of_record (record : s.work.stream i = st) (f : Stream → Stream) :
    s.work.updStream i f = (s.withStream i (f st)).work := record ▸ Work.updStream_work s i f

theorem State.finishWrite (record : s.work.stream i = st) (page : PageNo)
    (nobody : s.pool.waitList = []) : s.work.finishWrite i page =
      (s.givesBack i { st with outstanding := st.outstanding - 1 } [page]).work := by
  rw [Work.finishWrite_eq i page nobody, State.updStream_of_record record]
  rfl

/-- In FAULTED the page is released and no more (R90). -/
theorem State.captureResult_faulted (record : s.work.stream i = st) (faulted : st.state = .faulted)
    (nobody : s.pool.waitList = []) (page : PageNo) (t : Trailer) (p : PortNo) (lba : Nat) (r : Result) :
    s.work.captureResult i page t p lba r =
      (s.givesBack i { st with outstanding := st.outstanding - 1 } [page]).work :=
  (if_pos (record ▸ faulted)).trans (State.finishWrite record page nobody)

/-- The end-page state after a page has been written (R83, R88). -/
def Stream.endPageWritten (st : Stream) (t : Trailer) : EndPageState :=
  if t.fill < 512 then .written else st.endPage

/-- The record of a stream one of whose pages has been written (R83). -/
def Stream.pageWritten (st : Stream) (t : Trailer) : Stream :=
  { st with outstanding := st.outstanding - 1, endPage := st.endPageWritten t }

/-- A page is written: it is released, and the commit mark moves on (R83). -/
theorem State.captureResult_written {first : Seq} (record : s.work.stream i = st)
    (state : st.state ≠ .faulted) (noAbort : st.abortPart = none) (nobody : s.pool.waitList = [])
    (member : first = st.seqNow ∨ first ∈ st.ready.map ReadyPage.seq ∨ first ∈ s.work.writesInFlight i)
    (least : ∀ y, y = st.seqNow ∨ y ∈ st.ready.map ReadyPage.seq ∨ y ∈ s.work.writesInFlight i →
      (first - st.commitPoint).toNat ≤ (y - st.commitPoint).toNat)
    (page : PageNo) (t : Trailer) (p : PortNo) (lba : Nat) :
    s.work.captureResult i page t p lba .ok =
      (s.givesBack i ((st.committed first).pageWritten t) [page]).work.captureTest i := by
  obtain ⟨x, finished⟩ : ∃ x : Stream, x = { st with outstanding := st.outstanding - 1 } := ⟨_, rfl⟩
  have stands : (s.givesBack i x [page]).work.stream i = x := State.stream_givesBack s i x [page]
  have commits := Work.advanceCommit_eq (w := (s.givesBack i x [page]).work) (i := i) (first := first)
    (by rw [stands, finished]; exact member) (by rw [stands, finished]; exact least)
  have asked : ¬ (s.work.stream i).abortPart.isSome = true := by rw [record, noAbort]; nofun
  refine (if_neg (record ▸ state)).trans ((if_neg asked).trans ((if_pos rfl).trans ?_))
  rw [State.finishWrite record page nobody, ← finished, commits, Work.updStream_updStream,
    State.updStream_of_record stands, State.givesBack_withStream, finished]
  simp only [Stream.pageWritten, Stream.endPageWritten, Stream.committed, true_and]

/-- After an abort the last write ends the stream (R15, R16). -/
theorem State.captureResult_aborted (record : s.work.stream i = st) (state : st.state ≠ .faulted)
    (abort : st.abortPart ≠ none) (last : st.outstanding = 1) (nobody : s.pool.waitList = [])
    (page : PageNo) (t : Trailer) (p : PortNo) (lba : Nat) :
    s.work.captureResult i page t p lba .ok = (s.givesBack i (st.pageWritten t) [page]).work.endStream i
      (if st.endPageWritten t = .made then .unterminated else .aborted) := by
  have stands := State.stream_givesBack s i { st with outstanding := st.outstanding - 1 } [page]
  have asked : st.abortPart.isSome = true := Option.isSome_iff_ne_none.2 abort
  have finished : (s.work.finishWrite i page).updStream i (fun st => { st with
      endPage := if Result.ok = .ok ∧ t.fill < 512 then .written else st.endPage }) =
      (s.givesBack i (st.pageWritten t) [page]).work := by
    rw [State.finishWrite record page nobody, State.updStream_of_record stands,
      State.givesBack_withStream]
    simp only [Stream.pageWritten, Stream.endPageWritten, true_and]
  refine (if_neg (record ▸ state)).trans ((if_pos (record ▸ asked)).trans ?_)
  rw [finished]
  unfold Work.abortEndTest
  dsimp only
  rw [State.stream_givesBack]
  exact if_pos ⟨asked, by rw [Stream.pageWritten, last]⟩

/-! ### Slips (R85) -/

theorem State.raise_work (s : State) (n : Notice) : s.work.raise n = (s.notified n).work := rfl

/-- What a slip adds to the record (R85 (1), (2)). -/
def Stream.slipped (st : Stream) (entry : Skip) : Stream :=
  { st.count (fun c => { c with slips := satAdd top32 c.slips 1 }) with skips := st.skips ++ [entry] }

/-- The notice of a slip (R85 (4)). -/
def Stream.slipNotice (st : Stream) (i : StreamNo) (t : Trailer) (entry : Skip)
    (place : Option (PortNo × Nat)) : Notice :=
  .slip i st.takeNow t.seq entry.port entry.lba entry.cause (st.skips.length + 1) place

theorem Stream.slip_notice (st : Stream) (i : StreamNo) (t : Trailer) (entry : Skip)
    (place : Option (PortNo × Nat)) :
    Notice.slip i (st.slipped entry).takeNow t.seq entry.port entry.lba entry.cause
      (st.slipped entry).skips.length place = st.slipNotice i t entry place := by
  have length : (st.slipped entry).skips.length = st.skips.length + 1 := List.length_append
  rw [length]
  rfl

theorem Stream.nextSector_slipped (st : Stream) (entry : Skip) :
    (st.slipped entry).nextSector = st.nextSector := rfl

theorem Stream.WellSupplied.slipped {x : Extent} {others : List Extent} (h : st.WellSupplied x others)
    (entry : Skip) : (st.slipped entry).WellSupplied x others := ⟨h.extents, h.within, h.above⟩

/-- Under CONTINUE with fewer than 8 skip-list entries a failed write slips (R84). -/
theorem State.captureResult_slips (record : s.work.stream i = st) (state : st.state ≠ .faulted)
    (noAbort : st.abortPart = none) (policy : st.cfg.policy = .goOn) (few : st.skips.length < 8)
    (page : PageNo) (t : Trailer) (p : PortNo) (lba : Nat) {r : Result} (failed : r ≠ .ok) :
    s.work.captureResult i page t p lba r = s.work.slip i page t p lba r := by
  have asked : ¬ (s.work.stream i).abortPart.isSome = true := by rw [record, noAbort]; nofun
  refine (if_neg (record ▸ state)).trans ((if_neg asked).trans ((if_neg failed).trans (if_neg ?_)))
  rw [record]
  rintro (halt | many)
  · exact absurd (policy.symm.trans halt) nofun
  · exact Nat.not_lt.2 many few

/-- The work in hand once a slip stands in the record, and what is then done with the page. -/
theorem State.slip_recorded (record : s.work.stream i = st) (page : PageNo) (t : Trailer) (entry : Skip) :
    (st.nextSector = none → s.work.slip i page t entry.port entry.lba entry.cause =
      (((s.withStream i (st.slipped entry)).work.returnPage i ⟨page, t.seq, t.fill⟩ none).wantSector
        i).raise (st.slipNotice i t entry none)) ∧
    ∀ sec, st.nextSector = some sec → s.work.slip i page t entry.port entry.lba entry.cause =
      if (s.work.port sec.1).hasRoom then
        ((s.withStream i (st.slipped entry)).work.placeWrite i sec page t).raise
          (st.slipNotice i t entry (some (sec.1, sec.2.1)))
      else ((s.withStream i (st.slipped entry)).work.returnPage i ⟨page, t.seq, t.fill⟩
        (some sec.1)).raise (st.slipNotice i t entry none) := by
  have slips := State.updStream_of_record record (·.slipped entry)
  have stands := State.stream_withStream s i (st.slipped entry)
  have next := st.nextSector_slipped entry
  have unfolds : s.work.slip i page t entry.port entry.lba entry.cause =
      (fun w : Work => match (w.stream i).nextSector with
        | none => ((w.returnPage i ⟨page, t.seq, t.fill⟩ none).wantSector i).raise (.slip i
            (w.stream i).takeNow t.seq entry.port entry.lba entry.cause (w.stream i).skips.length none)
        | some sec =>
          if (w.port sec.1).hasRoom then
            (w.placeWrite i sec page t).raise (.slip i (w.stream i).takeNow t.seq entry.port entry.lba
              entry.cause (w.stream i).skips.length (some (sec.1, sec.2.1)))
          else (w.returnPage i ⟨page, t.seq, t.fill⟩ (some sec.1)).raise (.slip i
            (w.stream i).takeNow t.seq entry.port entry.lba entry.cause (w.stream i).skips.length none))
        (s.work.updStream i (·.slipped entry)) := rfl
  rw [unfolds, slips]
  dsimp only
  rw [stands]
  simp only [Stream.slip_notice]
  rw [next]
  refine ⟨fun none => ?_, fun sec found => ?_⟩
  · rw [none]
  · rw [found]
    rfl

/-- The page of a slip goes to the cursor's next sector (R85 (3)). -/
theorem State.slip_placed (record : s.work.stream i = st) {x : Extent} {others : List Extent}
    (supplied : st.WellSupplied x others) (attached : (s.work.port x.port).state ≠ .offline)
    (fits : (s.work.port x.port).queue.length < 12) (nobody : s.pool.waitList = [])
    (page : PageNo) (t : Trailer) (entry : Skip) :
    s.work.slip i page t entry.port entry.lba entry.cause = ((s.work.updStream i
      (·.slipped entry)).placesNext i x (x.start + st.offset)
        (.streamWrite i page t x.override)).raise
          (st.slipNotice i t entry (some (x.port, x.start + st.offset))) := by
  have stands := State.stream_withStream s i (st.slipped entry)
  have places := Stream.WellSupplied.placeNext (w := (s.withStream i (st.slipped entry)).work) (i := i)
    (by rw [stands]; exact supplied.slipped entry) attached (.inl nobody)
    (.streamWrite i page t x.override) (x.start + st.offset)
  rw [(State.slip_recorded record page t entry).2 _ supplied.nextSector,
    if_pos ((Port.hasRoom_iff _).2 fits), State.updStream_of_record record, ← places]
  rfl

/-- The page of a failed write comes before those that are ready (R85 (3)). -/
theorem insertBySeq_first {origin : Seq} {pg : ReadyPage} {l : List ReadyPage}
    (first : ∀ q ∈ l, (pg.seq - origin).toNat < (q.seq - origin).toNat) :
    insertBySeq origin pg l = pg :: l := by
  cases l with
  | nil => rfl
  | cons q l => exact if_pos (first q List.mem_cons_self)

/-- What a page's return makes of the record, its sequence the earliest (R85 (3)). -/
def Stream.returned (st : Stream) (pg : ReadyPage) (waited : Option PortNo) : Stream :=
  { st with
    ready := pg :: st.ready, outstanding := st.outstanding - 1, waitedPort := waited }

theorem State.returnPage (record : s.work.stream i = st) {pg : ReadyPage}
    (first : ∀ q ∈ st.ready, (pg.seq - st.commitPoint).toNat < (q.seq - st.commitPoint).toNat)
    (waited : Option PortNo) :
    s.work.returnPage i pg waited = (s.withStream i (st.returned pg waited)).work := by
  unfold Work.returnPage
  rw [State.updStream_of_record record, insertBySeq_first first]
  rfl

/-- The return of the page of a slip. -/
theorem State.returnPage_slipped {page : PageNo} {t : Trailer}
    (first : ∀ q ∈ st.ready, (t.seq - st.commitPoint).toNat < (q.seq - st.commitPoint).toNat)
    (entry : Skip) (waited : Option PortNo) :
    (s.withStream i (st.slipped entry)).work.returnPage i ⟨page, t.seq, t.fill⟩ waited =
      (s.withStream i ((st.slipped entry).returned ⟨page, t.seq, t.fill⟩ waited)).work := by
  rw [State.returnPage (State.stream_withStream s i _) first, State.withStream_withStream]

/-- The page of a slip goes back where the queue of the next sector's port is full (R79, R85). -/
theorem State.slip_full (record : s.work.stream i = st) {x : Extent} {others : List Extent}
    (extents : st.extents = x :: others) (full : 12 ≤ (s.work.port x.port).queue.length)
    {page : PageNo} {t : Trailer}
    (first : ∀ q ∈ st.ready, (t.seq - st.commitPoint).toNat < (q.seq - st.commitPoint).toNat)
    (entry : Skip) : s.work.slip i page t entry.port entry.lba entry.cause =
      ((s.withStream i ((st.slipped entry).returned ⟨page, t.seq, t.fill⟩ (some x.port))).notified
        (st.slipNotice i t entry none)).work := by
  have next : st.nextSector = some (x.port, x.start + st.offset, x.override) := by
    simp only [Stream.nextSector, extents]
  have room : ¬ (s.work.port x.port).hasRoom = true := fun has =>
    absurd ((Port.hasRoom_iff _).1 has) (Nat.not_lt.2 full)
  rw [(State.slip_recorded record page t entry).2 _ next, if_neg room,
    State.returnPage_slipped first, State.raise_work]

/-- What a stream's record becomes when it wants a sector and its cursor is exhausted (R81). -/
def Stream.wanting (st : Stream) : Stream :=
  { st with
    state := if st.state = .running then .hold else st.state
    emptyReported := if st.state = .hold then st.emptyReported else true }

theorem State.withStream_self (record : s.work.stream i = st) : s.withStream i st = s := by
  unfold State.withStream
  rw [← record]
  exact congrArg (fun streams => { s with streams := streams }) (Vector.set_getElem_self i.isLt)

/-- A stream that is not in HOLD takes note of the want (R81). -/
theorem State.wantSector_record (record : s.work.stream i = st)
    (states : st.state = .running ∨ st.state = .hold ∨ st.state = .draining)
    (absent : st.waitedPort = none) (hold : st.state ≠ .hold) :
    s.work.wantSector i = if st.emptyReported then (s.withStream i st.wanting).work
      else ((s.withStream i st.wanting).notified (.extentEmpty i st.takeNow st.wanting.state st.seqNow
        st.ready.length (s.work.held i) st.outstanding)).work := by
  have goes : st.state = .running ∨ st.state = .draining := by
    rcases states with state | state | state
    · exact .inl state
    · exact absurd state hold
    · exact .inr state
  unfold Work.wantSector
  dsimp only
  rw [record, if_pos goes, State.updStream_of_record record]
  simp only [absent, ite_self, Stream.wanting, hold, if_false]
  rfl

/-- A stream in HOLD, or that has reported it, only waits for sectors (R81). -/
theorem State.wantSector_silent (record : s.work.stream i = st)
    (states : st.state = .running ∨ st.state = .hold ∨ st.state = .draining)
    (absent : st.waitedPort = none) (silent : st.state = .hold ∨ st.emptyReported = true) :
    s.work.wantSector i = (s.withStream i st.wanting).work := by
  by_cases hold : st.state = .hold
  · have kept : st.wanting = st := by
      simp only [Stream.wanting, hold, if_true, if_false, reduceCtorEq]
      simp only [← hold]
    rw [kept, State.withStream_self record]
    exact if_neg (by rw [record, hold]; rintro (h | h) <;> cases h)
  · rw [State.wantSector_record record states absent hold]
    exact if_pos (silent.resolve_left hold)

/-- EXTENT_EMPTY is raised, once (R81). -/
theorem State.wantSector_told (record : s.work.stream i = st)
    (states : st.state = .running ∨ st.state = .hold ∨ st.state = .draining)
    (absent : st.waitedPort = none) (told : ¬ (st.state = .hold ∨ st.emptyReported = true)) :
    s.work.wantSector i = ((s.withStream i st.wanting).notified (.extentEmpty i st.takeNow
      st.wanting.state st.seqNow st.ready.length (s.work.held i) st.outstanding)).work := by
  obtain ⟨hold, unreported⟩ := not_or.1 told
  rw [State.wantSector_record record states absent hold]
  exact if_neg unreported

/-- The page of a slip goes back where the cursor is exhausted, and the stream wants a sector
(R81, R85). -/
theorem State.slip_exhausted (record : s.work.stream i = st) (extents : st.extents = [])
    {page : PageNo} {t : Trailer}
    (first : ∀ q ∈ st.ready, (t.seq - st.commitPoint).toNat < (q.seq - st.commitPoint).toNat)
    (entry : Skip) : s.work.slip i page t entry.port entry.lba entry.cause =
      ((s.withStream i ((st.slipped entry).returned ⟨page, t.seq, t.fill⟩ none)).work.wantSector
        i).raise (st.slipNotice i t entry none) := by
  have next : st.nextSector = none := by simp only [Stream.nextSector, extents]
  rw [(State.slip_recorded record page t entry).1 next, State.returnPage_slipped first]

/-! ### The fault of a capture stream (R89) -/

/-- Under HALT, or with 8 skip-list entries, a failed write is a fault (R84). -/
theorem State.captureResult_faults (record : s.work.stream i = st) (state : st.state ≠ .faulted)
    (noAbort : st.abortPart = none) (halts : st.cfg.policy = .halt ∨ 8 ≤ st.skips.length)
    (page : PageNo) (t : Trailer) (p : PortNo) (lba : Nat) {r : Result} (failed : r ≠ .ok) :
    s.work.captureResult i page t p lba r = s.work.captureFault i page t.seq p lba r := by
  have asked : ¬ (s.work.stream i).abortPart.isSome = true := by rw [record, noAbort]; nofun
  exact (if_neg (record ▸ state)).trans ((if_neg asked).trans ((if_neg failed).trans
    (if_pos (record ▸ halts))))

/-- What a capture stream's record becomes at a fault, with no entry left (R89). -/
def Stream.captureFaulted (st : Stream) : Stream :=
  { st with
    state := .faulted, outstanding := st.outstanding - 1, cur := none, ready := [], waitedPort := none }

/-- What a capture stream with no entry left gives up at a fault. -/
theorem State.captureGiveUp_faulted (record : s.work.stream i = st) (owns : s.work.Owns i none)
    (only : ∀ x ∈ s.pool.waitList, x.1 = i) (page : PageNo) :
    ((s.work.updStream i fun st => { st with
        state := .faulted, outstanding := st.outstanding - 1 }).captureGiveUp i [page]).updStream i
      (fun x => { x with endPage := st.endPage }) =
      (s.givesBack i st.captureFaulted (st.capturePages ++ [page])).work := by
  rw [State.updStream_of_record record]
  obtain ⟨x, faulted⟩ : ∃ x : Stream, x = { st with
    state := .faulted, outstanding := st.outstanding - 1 } := ⟨_, rfl⟩
  rw [← faulted]
  have stands := State.stream_withStream s i x
  have owns : (s.withStream i x).work.Owns i none := owns
  have gives := owns.captureGiveUp (by nofun) only [page]
  have gave : (s.withStream i x).work.captureGiveUp i [page] =
      (s.givesBack i (x.captureGaveUp 0) (st.capturePages ++ [page])).work := by
    simp only [Option.toList_none, List.filterMap_nil, List.length_nil, List.append_nil] at gives
    rw [gives]
    refine (congrArg (Work.updPool · _) (State.updStream_of_record stands (·.captureGaveUp 0))).trans ?_
    rw [State.withStream_withStream, stands, faulted]
    rfl
  rw [gave, State.updStream_of_record (State.stream_givesBack s i _ _), State.givesBack_withStream, faulted]
  rfl

theorem State.captureFault_eq (record : s.work.stream i = st) (owns : s.work.Owns i none)
    (only : ∀ x ∈ s.pool.waitList, x.1 = i) (page : PageNo) (seq : Seq) (p : PortNo) (lba : Nat)
    (cause : Result) : s.work.captureFault i page seq p lba cause =
      ((s.givesBack i { st.captureFaulted with stopPart := none } (st.capturePages ++ [page])).withHost
        ((s.host.raise (.streamFault (st.faultFigures i cause p lba seq))).answerOpt st.stopPart .faulted
          (st.faultFigures i cause p lba seq).bytes)).work := by
  have stands := State.stream_givesBack s i st.captureFaulted (st.capturePages ++ [page])
  have told : st.captureFaulted.faultFigures i cause p lba seq = st.faultFigures i cause p lba seq := rfl
  have later (n : Notice) : ((s.givesBack i st.captureFaulted
      (st.capturePages ++ [page])).notified n).work.stream i = st.captureFaulted := stands
  have cleared := State.givesBack_withStream s i st.captureFaulted
    { st.captureFaulted with stopPart := none } (st.capturePages ++ [page])
  unfold Work.captureFault
  dsimp only
  rw [record, State.captureGiveUp_faulted record owns only, stands, told, State.raise_work,
    State.updStream_of_record (later _), Work.answerOpt_eq]
  refine Eq.trans ?_ (congrArg (fun t : State => State.work (t.withHost _)) cleared)
  rfl

end

/-- The entry into ENDED of a stream that has given pages back (R17, R16). -/
theorem State.givesBack_endStream (s : State) (i : StreamNo) (st : Stream) (pages : List PageNo)
    (o : TakeEnd) : (s.givesBack i st pages).work.endStream i o =
      ((s.givesBack i (st.endRecord o) pages).withHost (s.host.ended st (st.finalFigures i o))).work := by
  have record := State.stream_givesBack s i st pages
  have ends := Work.endStream_eq (w := (s.givesBack i st pages).work) (i := i) rfl o
  rw [record, State.updStream_of_record record, State.givesBack_withStream] at ends
  exact ends

/-- The end of a take whose last page is written (R88). -/
theorem Work.captureTest_ends {w : Work} {i : StreamNo} (written : (w.stream i).AllWritten) :
    w.captureTest i = w.endStream i .stopped := by
  obtain ⟨-, -, -, ready, -⟩ := id written
  rw [Work.captureTest, ready]
  exact if_pos written

/-- What goes out on a drive line leaves the queues. -/
theorem State.queue_withPort_sends (s : State) (p q : PortNo) (payload : List Byte) (t : Trailer) :
    (s.withPort p (s.ports[p].sends payload t)).ports[q].queue = s.ports[q].queue := by
  by_cases here : q = p
  · subst here
    have record : (s.withPort q (s.ports[q].sends payload t)).ports[q] = s.ports[q].sends payload t :=
      Vector.getElem_set_self _
    rw [record]
    rfl
  · exact congrArg Port.queue
      (Vector.getElem_set_ne p.isLt q.isLt fun same => here (Fin.ext same.symm))

/-! ### The end of a capture stream's write -/

/-- Settles O54: the five ends of a write that goes out, and the slips and the fault of a locked
sector. -/
theorem streamWriteCompletes : Obligations.StreamWriteCompletes := by
  unfold Obligations.StreamWriteCompletes
  intro s p e i page t override c high holder active kind port state noDetach quiet settings direction
    pt st take next lba outstanding gives done answered ended figures
  have h : s.Writing p e i page t override :=
    ⟨high, holder, active, kind, port, state, noDetach, quiet⟩
  have cfg : st.cfg = c := by rw [Stream.cfg, show st.settings = some c from settings]; rfl
  constructor
  · intro phase nobody payload sent endPage unwritten
    let v := (s.withPort p (s.ports[p].sends payload t)).completes p e
    have whole : v = { s.withPort p (sent.withCompleted e).choose with engine := {} } :=
      State.completes_withPort s p sent e
    have writes {u : State} (takes : v.work.captureResult i page t p lba .ok = u.work) :
        exec .writeData s = .next u := h.writeData phase takes
    have stands : v.work.stream i = st := rfl
    have written : st.endPageWritten t = endPage := rfl
    have back (st : Stream) (pages : List PageNo) :
        v.givesBack i st pages = { done sent st with pool := gives pages } := by
      rw [State.givesBack, whole]
      rfl
    have told (after : Stream) (same : after.settings = some c) (o : TakeEnd) :
        after.finalFigures i o = { figures o (after.commitMark.getD 0) with
          take := after.take.getD 0, nextSeq := after.nextSeq.getD 0, counters := after.counters
          skipCount := after.skips.length } :=
      (Stream.finalFigures_eq same i o).trans (by rw [direction])
    have left (x : Seq) : x = st.seqNow ∨ x ∈ st.ready.map ReadyPage.seq ∨
        x ∈ v.work.writesInFlight i ↔ unwritten x := by
      rw [State.mem_writesInFlight_completes]
      simp only [State.queue_withPort_sends]
      rfl
    refine ⟨?_, fun faulted => ?_, ?_⟩
    · intro first state noAbort member least mark after
      have takes := State.captureResult_written stands state noAbort nobody
        ((left first).2 member) (fun y hy => least y ((left y).1 hy)) page t p lba
      have stood : (v.givesBack i after [page]).work.stream i = after :=
        State.stream_givesBack v i after [page]
      have takes : v.work.captureResult i page t p lba .ok =
        (v.givesBack i after [page]).work.captureTest i := takes
      constructor
      · intro waits
        have quiet : after.wantsSector = false := by
          rcases waits with hold | ⟨none, -⟩
          · exact Stream.wantsSector_of_hold hold
          · simp [Stream.wantsSector, show after.ready = [] from none]
        have unfinished : ¬ after.AllWritten := by
          rintro ⟨draining, -, -, -, none⟩
          have last : st.outstanding - 1 = 0 := none
          rcases waits with hold | ⟨-, running | ⟨-, more⟩⟩
          · exact absurd (hold.symm.trans draining) nofun
          · exact absurd (running.symm.trans draining) nofun
          · omega
        rw [← stood] at quiet unfinished
        rw [Work.captureTest_quiet quiet unfinished, back] at takes
        exact writes takes
      · intro draining none last made
        have all : after.AllWritten :=
          ⟨draining, noAbort, made, none, show st.outstanding - 1 = 0 by omega⟩
        rw [← stood] at all
        have line : v.host.ended after (figures .stopped mark) = (answered s.host st.stopPart .ok
            (figures .stopped mark).bytes).raise (.streamEnded (figures .stopped mark)) := by
          rw [HostLine.ended, show after.abortPart = .none from noAbort]
          rfl
        have told : after.finalFigures i .stopped = figures .stopped mark := told after settings .stopped
        rw [Work.captureTest_ends all, State.givesBack_endStream, told, line, back] at takes
        exact writes takes
    · have takes := State.captureResult_faulted stands faulted nobody page t p lba .ok
      rw [back] at takes
      exact writes takes
    · intro state abort last o bytes
      let after : Stream := { st with outstanding := 0, endPage := endPage }
      have waiting : st.pageWritten t = after := by simp only [Stream.pageWritten, last, after, written]
      have told : after.finalFigures i o = figures o (st.commitMark.getD 0) := told after settings o
      have line : v.host.ended after (figures o (st.commitMark.getD 0)) =
          (answered (answered s.host st.stopPart .aborted bytes) st.abortPart .ok bytes).raise
            (.streamEnded (figures o (st.commitMark.getD 0))) := by
        rw [HostLine.ended, show after.abortPart.isSome = true from Option.isSome_iff_ne_none.2 abort]
        rfl
      have takes := State.captureResult_aborted stands state abort last nobody page t p lba
      rw [waiting, written, State.givesBack_endStream, told, line, back] at takes
      exact writes takes
  · intro header permit phase good lock free check cyl head sector states noAbort slipped notice returned
    have same : headerMatches header.toList e = true :=
      (headerMatches_iff header e).2 ⟨good, check, cyl, head, sector⟩
    have unfaulted : st.state ≠ .faulted := by
      rcases states with state | state | state <;> rw [state] <;> nofun
    have fails {u : State} (takes : (s.completes p e).work.captureResult i page t p lba .locked =
        u.work) : exec (.headerRead header permit) s = .next u :=
      h.locked phase same lock free takes
    let v := s.completes p e
    let entry : Skip := ⟨p, lba, .locked⟩
    have stands : v.work.stream i = st := rfl
    have stood (a : Stream) : v.withStream i a = done pt a := rfl
    constructor
    · intro policy few nobody
      have slips := State.captureResult_slips stands unfaulted noAbort
        ((congrArg Settings.policy cfg).trans policy) few page t p lba (r := .locked) nofun
      have slipping : st.slipped entry = slipped := rfl
      have told (place : Option (PortNo × Nat)) : st.slipNotice i t entry place = notice place := rfl
      constructor
      · intro x others extents within above before q placed
        have supplied : st.WellSupplied x others := ⟨extents, within,
            (congrArg (Settings.lowMark · + 1) cfg).trans_lt above⟩
        refine ⟨fun fits attached => ?_, fun full first => ?_⟩
        · have places := State.slip_placed stands supplied attached fits nobody page t entry
          have moved := State.placesNext_work v i (·.slipped entry) x (x.start + st.offset)
            (.streamWrite i page t x.override)
          have again : before.withStream i { slipped with offset := st.offset + 1 } =
              v.withStream i { slipped with offset := st.offset + 1 } :=
            State.withStream_withStream v i slipped _
          rw [moved, State.raise_work, told] at places
          rw [again]
          exact fails (slips.trans places)
        · have slip := State.slip_full (page := page) stands extents full first entry
          rw [slipping, told, stood] at slip
          exact fails (slips.trans slip)
      · intro exhausted first now one two
        obtain ⟨r, back⟩ : ∃ r : Stream, r = { returned with waitedPort := none } := ⟨_, rfl⟩
        have slip := State.slip_exhausted (page := page) stands exhausted first entry
        have returns : (st.slipped entry).returned ⟨page, t.seq, t.fill⟩ .none = r := back ▸ rfl
        have state : r.state = st.state := by rw [back]
        have reported : r.emptyReported = st.emptyReported := by rw [back]
        have absent : r.waitedPort = .none := by rw [back]
        rw [returns, told] at slip
        have recorded := State.stream_withStream v i r
        have last : v.withStream i r.wanting = one := by
          rw [stood, Stream.wanting, state, reported, back]
        by_cases silent : st.state = .hold ∨ st.emptyReported = true
        · rw [State.wantSector_silent recorded (state ▸ states) absent (by rw [state, reported]; exact silent),
            State.withStream_withStream, last] at slip
          rw [show two = one from if_pos silent]
          exact fails (slips.trans slip)
        · rw [State.wantSector_told recorded (state ▸ states) absent (by rw [state, reported]; exact silent),
            State.withStream_withStream, last] at slip
          have shown : Notice.extentEmpty i r.takeNow r.wanting.state r.seqNow r.ready.length
              ((v.withStream i r).work.held i) r.outstanding =
              .extentEmpty i take now next (st.ready.length + 1) s.pool.held[i] outstanding := by
            rw [Stream.wanting, state, back]
            rfl
          rw [shown, State.raise_work] at slip
          rw [show two = one.notified _ from if_neg silent]
          exact fails (slips.trans slip)
    · intro halts only last fault
      have faults := State.captureResult_faults stands unfaulted noAbort
        (halts.imp_left fun halt => (congrArg Settings.policy cfg).trans halt) page t p lba
        (r := .locked) nofun
      have stands := State.captureFault_eq stands (State.owns_none_completes last) only page t.seq p
        lba .locked
      exact fails (faults.trans stands)

end Sys2Proof.Machine

/-! PROOFS. READ_DATA of a replay stream's read (R135, R95, R96), and why O55 fails: it lets the gaps
counter stand past its width (R4), where an acceptance without a gap does not leave it as it was. -/

namespace Sys2Proof.Machine

/-! ### READ_DATA (R135) -/

/-- A trailer read is the one whose bytes came. -/
theorem trailerOf_eq {l : List Byte} {t : Trailer} (bytes : t.bytes = l.take 10) (fill : t.fill < 65536) :
    trailerOf l = t := by
  have same : trailerOf l = trailerOf (l.take 10) := by
    simp [trailerOf, List.drop_take, List.take_take]
  have recTag : t.bytes.take 2 = beBytes 2 t.recTag.toNat := rfl
  have take : (t.bytes.drop 2).take 2 = beBytes 2 t.take.toNat := rfl
  have seq : (t.bytes.drop 4).take 4 = beBytes 4 t.seq.toNat := rfl
  have last : (t.bytes.drop 8).take 2 = beBytes 2 t.fill := rfl
  rw [same, ← bytes, trailerOf, recTag, take, seq, last, ofNat_beNat_half, ofNat_beNat_half,
    ofNat_beNat_seq, beNat_beBytes fill]

/-- The state in which a payload stands in a page. -/
def State.filled (s : State) (page : PageNo) (payload : List Byte) : State :=
  { s with pool := { s.pool with mem := s.pool.mem.writePage page payload } }

/-- The engine awaits the data of an entry with a page, on an attached port that nobody waits for. -/
structure State.Reading (s : State) (p : PortNo) (e : Entry) (page : PageNo) : Prop where
  high : s.resetLow = false
  holder : s.engine.holder = some p
  phase : s.engine.phase = .readData
  active : s.ports[p].activeEntry = some e
  page : e.kind.page = some page
  state : s.ports[p].state = .active
  noDetach : s.ports[p].detachPending = none
  quiet : ∀ i : StreamNo, s.streams[i].waitedPort ≠ some p

section
variable {s : State} {p : PortNo} {e : Entry} {page : PageNo} {payload : Vector Byte 512}
  {trailer : Vector Byte 12}

theorem dataCheckAgrees_iff {payload trailer : List Byte} : dataCheckAgrees payload trailer = true ↔
    trailer.drop 10 = crcBytes (payload ++ trailer.take 10) := beq_iff_eq

/-- The payload is placed, and the data check decides. -/
theorem State.Reading.exec_readData (h : s.Reading p e page) : exec (.readData payload trailer) s =
    act (fun w =>
      if dataCheckAgrees payload.toList trailer.toList then w.engineComplete p e
        { result := .ok, trailer := trailerOf trailer.toList, flags := w.engine.flags }
      else w.dataMismatch p e (trailerOf trailer.toList)) (s.filled page payload.toList) := by
  have inPhase : s.work.inPhase .readData = some (p, e) :=
    Work.inPhase_eq_some.2 ⟨h.holder, h.phase, h.active⟩
  rw [Machine.exec_readData, execReadData, actUnlessReset_high h.high]
  refine act_congr ?_
  rw [inPhase]
  dsimp only
  rw [h.page]
  rfl

/-- A read that agrees, or fails for the third time, is completed. -/
theorem State.Reading.complete {u : State} (h : s.Reading p e page)
    (ends : trailer.toList.drop 10 = crcBytes (payload.toList ++ trailer.toList.take 10) ∨
      2 ≤ e.dataTries)
    (takes : ((s.filled page payload.toList).completes p e).work.takeResult e {
      result := if trailer.toList.drop 10 = crcBytes (payload.toList ++ trailer.toList.take 10) then .ok
        else .dataCheck
      trailer := trailerOf trailer.toList, flags := s.engine.flags } = u.work) :
    exec (.readData payload trailer) s = .next u := by
  have completes := State.engineComplete_attached (s := s.filled page payload.toList) (p := p)
    (show s.ports[p].state ≠ .absent by rw [h.state]; nofun) h.noDetach h.quiet
  rw [h.exec_readData]
  by_cases agrees : trailer.toList.drop 10 = crcBytes (payload.toList ++ trailer.toList.take 10)
  · rw [if_pos agrees] at takes
    exact act_single ((if_pos (dataCheckAgrees_iff.2 agrees)).trans (completes e _)) takes
  · rw [if_neg agrees] at takes
    have tries : ¬ (e.dataTries + 1 < 3 ∧ s.ports[p].detachPending = none) := fun few =>
      absurd (ends.resolve_left agrees) (by omega)
    exact act_single ((if_neg (mt dataCheckAgrees_iff.1 agrees)).trans ((if_neg tries).trans
      (completes { e with dataTries := e.dataTries + 1 } _))) takes

end

/-! ### A replay stream takes the result of its read (R136 (2)) -/

theorem Work.takeResult_streamRead {w : Work} {e : Entry} {i : StreamNo} {page : PageNo}
    (kind : e.kind = .streamRead i page) (done : Completion) :
    w.takeResult e done = w.replayResult i page done := by
  simp only [Work.takeResult, kind]

/-! ### The judgement head (R96) -/

/-- The entry at the judgement head, if there is one, still waits for its read. -/
def Stream.Unjudged (st : Stream) : Prop :=
  ∀ e rest, st.play.dropWhile (·.isAccepted) = e :: rest → e.status = .pending

theorem PlayEntry.isAccepted_pending {e : PlayEntry} (pending : e.status = .pending) :
    e.isAccepted = false := by
  unfold PlayEntry.isAccepted
  rw [pending]

theorem Stream.verdict_pending (st : Stream) {e : PlayEntry} (pending : e.status = .pending) :
    st.verdict e = none := by
  unfold Stream.verdict
  rw [pending]

/-- Judgement stops at an entry that waits for its read, and in a stream that is not playing. -/
theorem Work.judge_stops {w : Work} {i : StreamNo}
    (stops : (w.stream i).isPlaying = true → (w.stream i).Unjudged) (n : Nat) :
    Work.judge i n w = w := by
  cases n with
  | zero => rfl
  | succ n =>
    unfold Work.judge
    split
    next playing =>
      dsimp only
      split
      next => rfl
      next e rest head =>
        rw [Stream.verdict_pending _ (stops playing e rest head)]
    next => rfl

theorem dropWhile_accepted {front rest : List PlayEntry} (accepted : ∀ y ∈ front, y.isAccepted = true)
    (head : ∀ y ∈ rest.head?, y.isAccepted = false) :
    (front ++ rest).dropWhile (·.isAccepted) = rest := by
  rw [List.dropWhile_append_of_pos accepted]
  cases rest with
  | nil => rfl
  | cons y rest => exact List.dropWhile_cons_of_neg (by rw [head y rfl]; nofun)

theorem takeWhile_accepted {front rest : List PlayEntry} (accepted : ∀ y ∈ front, y.isAccepted = true)
    (head : ∀ y ∈ rest.head?, y.isAccepted = false) :
    (front ++ rest).takeWhile (·.isAccepted) = front := by
  rw [List.takeWhile_append_of_pos accepted]
  cases rest with
  | nil => rw [List.takeWhile_nil, List.append_nil]
  | cons y rest => rw [List.takeWhile_cons_of_neg (by rw [head y rfl]; nofun), List.append_nil]

/-- Behind an accepted run only entries that wait for their reads. -/
theorem Stream.unjudged_of_pending {st : Stream} {front rest : List PlayEntry}
    (play : st.play = front ++ rest) (accepted : ∀ y ∈ front, y.isAccepted = true)
    (pending : ∀ y ∈ rest.head?, y.status = .pending) : st.Unjudged := by
  intro e rest' found
  rw [play, dropWhile_accepted accepted fun y hy => PlayEntry.isAccepted_pending (pending y hy)] at found
  exact pending e (by rw [found]; rfl)

/-! ### The tests after a judgement (R98, R102) -/

section
variable {s : State} {i : StreamNo} {st : Stream}

theorem Stream.primed_of_state (state : st.state ≠ .priming) : st.primed = none := if_neg state

theorem State.primingTest_none (record : s.work.stream i = st) (unprimed : st.primed = none) :
    s.work.primingTest i = s.work := by
  unfold Work.primingTest
  rw [record, unprimed]

/-- A stream with an exhausted cursor issues no read (R93). -/
theorem State.replayNext_quiet (record : s.work.stream i = st) (extents : st.extents = [])
    (unprimed : st.primed = none) (nobody : s.pool.waitList = []) : s.work.replayNext i = s.work := by
  have exhausted : st.exhausted = true := by rw [Stream.exhausted, extents]; rfl
  have quiet : st.mayRead = false := by simp [Stream.mayRead, exhausted]
  have absent : s.work.waits i = false := by
    unfold Work.waits
    rw [show s.work.pool.waitList = [] from nobody]
    rfl
  have issue (n : Nat) : Work.replayIssue i (n + 1) s.work = s.work := by
    rw [Work.replayIssue, record, quiet, if_neg nofun, Work.leaveWait_absent absent]
  unfold Work.replayNext
  rw [Work.pauses_alone i rfl]
  dsimp only
  rw [if_neg nofun, Work.replayTest, issue, record, if_pos exhausted,
    State.primingTest_none record unprimed]

/-- What a completed read makes after its first judgement: the judgements that remain, and the tests
(R95, R98, R102). -/
def Work.readTests (w : Work) (i : StreamNo) (n : Nat) : Work :=
  (((Work.judge i n w).primingTest i).extentEndTest i).replayNext i

/-- A stream that nothing is left to do for. -/
theorem State.readTests_quiet (record : s.work.stream i = st) (extents : st.extents = [])
    (unprimed : st.primed = none) (goesOn : st.atExtentEnd = false) (nobody : s.pool.waitList = [])
    (stops : st.isPlaying = true → st.Unjudged) (n : Nat) : s.work.readTests i n = s.work := by
  unfold Work.readTests
  rw [Work.judge_stops (by rw [record]; exact stops), State.primingTest_none record unprimed,
    Work.extentEndTest, record, goesOn, if_neg nofun,
    State.replayNext_quiet record extents unprimed nobody]

/-! ### The judgement of the entry at the head (R96, R97) -/

/-- The record once a completed read has been marked in the play queue (R95 (1)). -/
def Stream.marked (st : Stream) (before rest : List PlayEntry) (x : PlayEntry) : Stream :=
  { st with outstanding := st.outstanding - 1, play := before ++ x :: rest }

/-- A read that completes in PRIMING or RUNNING is marked, and judged (R95). -/
theorem State.replayResult_playing (record : s.work.stream i = st) (playing : st.isPlaying = true)
    {before rest : List PlayEntry} {x : PlayEntry} {page : PageNo} (play : st.play = before ++ x :: rest)
    (own : x.page = page) (others : ∀ y ∈ before ++ rest, y.page ≠ page) (done : Completion) :
    s.work.replayResult i page done =
      (s.withStream i (st.marked before rest (x.mark done))).work.readTests i
        ((before ++ rest).length + 1) := by
  have kept (l : List PlayEntry) (apart : ∀ y ∈ l, y.page ≠ page) :
      l.map (fun e => if e.page = page then e.mark done else e) = l :=
    (List.map_congr_left fun y hy => if_neg (apart y hy)).trans l.map_id
  have marks : st.play.map (fun e => if e.page = page then e.mark done else e) =
      before ++ x.mark done :: rest := by
    rw [play, List.map_append, List.map_cons, if_pos own,
      kept before fun y hy => others y (List.mem_append_left _ hy),
      kept rest fun y hy => others y (List.mem_append_right _ hy)]
  have length : (before ++ x.mark done :: rest).length = (before ++ rest).length + 1 := by
    simp only [List.length_append, List.length_cons]
    omega
  refine (if_pos (record ▸ playing)).trans ?_
  unfold Work.readDone
  dsimp only
  rw [State.updStream_of_record record, State.stream_withStream, marks, length]
  rfl

/-- The judgement of the entry at the head, and what follows it. -/
theorem State.readTests_head (record : s.work.stream i = st) (playing : st.isPlaying = true)
    {before rest : List PlayEntry} {x : PlayEntry} (play : st.play = before ++ x :: rest)
    (accepted : ∀ y ∈ before, y.isAccepted = true) (head : x.isAccepted = false) {v : Verdict}
    (verdict : st.verdict x = some v) (n : Nat) :
    s.work.readTests i (n + 1) = ((s.work.judgeEntry i before rest x v).primingTest i).readTests i n := by
  have first : ∀ y ∈ (x :: rest).head?, y.isAccepted = false := fun y hy => Option.some.inj hy ▸ head
  have judges : Work.judge i (n + 1) s.work =
      Work.judge i n ((s.work.judgeEntry i before rest x v).primingTest i) := by
    rw [Work.judge, record, if_pos playing, play]
    dsimp only
    rw [dropWhile_accepted accepted first, takeWhile_accepted accepted first]
    dsimp only
    rw [verdict]
  rw [Work.readTests, judges]
  rfl

/-- The record of a stream that has accepted the entry at its head (R97 (1), (2)). -/
def Stream.accepts (st : Stream) (before rest : List PlayEntry) (x : PlayEntry) (gap : Bool)
    (t : Trailer) : Stream :=
  { st.count (fun c => { c with gaps := satAdd top32 c.gaps (if gap then 1 else 0) }) with
    play := before ++ { x with status := .accepted t } :: rest
    nextSeq := some (t.seq + 1) }

theorem State.judgeEntry_accepted (record : s.work.stream i = st) (before rest : List PlayEntry)
    (x : PlayEntry) (gap : Bool) (t : Trailer) :
    s.work.judgeEntry i before rest x (.accepted gap t) =
      (s.withStream i (st.accepts before rest x gap t)).work :=
  State.updStream_of_record record (·.accepts before rest x gap t)

/-- A read that is accepted at the end of the play queue, in a stream that has a drain page and no
sector left, does no more (R97 (1), (2)). -/
theorem State.replayResult_accepted (record : s.work.stream i = st) (running : st.state = .running)
    (extents : st.extents = []) (drains : st.cur.isNone = false) (nobody : s.pool.waitList = [])
    {x : PlayEntry} {page : PageNo} (play : st.play = [x]) (own : x.page = page) {done : Completion}
    (head : (x.mark done).isAccepted = false) {gap : Bool} {t : Trailer}
    (verdict : st.verdict (x.mark done) = some (.accepted gap t)) :
    s.work.replayResult i page done =
      (s.withStream i ((st.marked [] [] (x.mark done)).accepts [] [] (x.mark done) gap t)).work := by
  obtain ⟨y, after⟩ : ∃ y, y = (st.marked [] [] (x.mark done)).accepts [] [] (x.mark done) gap t :=
    ⟨_, rfl⟩
  have playing : st.isPlaying = true := by simp [Stream.isPlaying, running]
  have still : y.state = .running ∧ y.extents = [] ∧ y.cur.isNone = false ∧
      y.play = [{ x.mark done with status := .accepted t }] := by
    rw [after]
    exact ⟨running, extents, drains, rfl⟩
  obtain ⟨running, extents, drains, accepted⟩ := still
  have idle : y.primed = none := Stream.primed_of_state (by rw [running]; nofun)
  have goesOn : y.atExtentEnd = false := by simp [Stream.atExtentEnd, drains]
  have stops : y.Unjudged := Stream.unjudged_of_pending (rest := [])
    (accepted.trans (List.append_nil _).symm)
    (fun z hz => List.mem_singleton.1 hz ▸ rfl) nofun
  have nothing (P : PlayEntry → Prop) : ∀ z ∈ ([] : List PlayEntry), P z :=
    fun z hz => absurd hz List.not_mem_nil
  have stands := State.stream_withStream s i (st.marked [] [] (x.mark done))
  have final := State.stream_withStream s i y
  rw [State.replayResult_playing (before := []) (rest := []) record playing play own (nothing _) done,
    State.readTests_head stands playing rfl (nothing _) head verdict, State.judgeEntry_accepted stands,
    State.withStream_withStream, ← after, State.primingTest_none final idle,
    State.readTests_quiet final extents idle goesOn nobody fun _ => stops]

end

/-! ### A gaps counter past its width -/

/-- The stream's read of page 1, the sector's data awaited. -/
def wornRead : Entry where
  serial := 0
  kind := .streamRead 0 1
  port := 0
  lba := some 0
  cyl := 0
  head := 0
  sector := 0
  active := true

def wornSettings : Settings where
  direction := .replay
  recTag := 0
  quota := 2
  reserve := 2
  depth := 1
  policy := .goOn
  idleByte := 0
  lowMark := 0
  primeLevel := 1

/-- A replay stream in RUNNING with its drain page, one read in flight, and a gaps counter of 2^32. -/
def wornStream : Stream :=
  { state := .running, settings := some wornSettings, cur := some ⟨0, 0, 512, 0⟩, outstanding := 1
    play := [⟨1, 0, 0, .pending⟩], counters := { gaps := 2 ^ 32 } }

/-- The part while the engine awaits the data of that read. -/
def worn : State :=
  { (State.reset.withPort 0 { state := .active, queue := [wornRead] }).withStream 0 wornStream with
    engine := { holder := some 0, phase := .readData } }

def wornPayload : Vector Byte 512 := Vector.replicate 512 0

/-- The trailer of the stream's first page, all zeros, with its data check. -/
def wornTrailer : Vector Byte 12 :=
  Vector.ofFn fun k => (({} : Trailer).bytes ++
    crcBytes (wornPayload.toList ++ ({} : Trailer).bytes)).getD k 0

theorem wornTrailer_bytes : wornTrailer.toList.take 10 = ({} : Trailer).bytes := rfl

theorem wornTrailer_agrees :
    wornTrailer.toList.drop 10 = crcBytes (wornPayload.toList ++ wornTrailer.toList.take 10) := by
  rw [wornTrailer_bytes]
  rfl

theorem worn_reading : worn.Reading 0 wornRead 1 where
  high := rfl
  holder := rfl
  phase := rfl
  active := rfl
  page := rfl
  state := rfl
  noDetach := rfl
  quiet := by decide

/-- The page is accepted without a gap, and the model brings the counter back to its width. -/
theorem worn_accepts : ∃ u, exec (.readData wornPayload wornTrailer) worn = .next u ∧
    (u.work.stream 0).counters.gaps = 2 ^ 32 - 1 := by
  let v := (worn.filled 1 wornPayload.toList).completes 0 wornRead
  let done : Completion := { result := .ok, trailer := {}, flags := 0 }
  let x : PlayEntry := ⟨1, 0, 0, .pending⟩
  let y := (wornStream.marked [] [] (x.mark done)).accepts [] [] (x.mark done) false {}
  have takes : v.work.takeResult wornRead done = (v.withStream 0 y).work :=
    (Work.takeResult_streamRead rfl done).trans
      (State.replayResult_accepted (s := v) (i := 0) (st := wornStream) rfl rfl rfl rfl rfl rfl rfl rfl
        (by decide))
  have trailer : trailerOf wornTrailer.toList = {} := trailerOf_eq wornTrailer_bytes.symm (by decide)
  refine ⟨v.withStream 0 y, worn_reading.complete (.inl wornTrailer_agrees) ?_, ?_⟩
  · rw [if_pos wornTrailer_agrees, trailer]
    exact takes
  · rw [State.stream_withStream]
    rfl

/-- Refutes O55: a page accepted with its sequence the next leaves the gaps counter, which the
statement says also of one past the width of R4 (2^32), and which the model brings to 2^32 - 1. -/
theorem not_hostReadCompletes : ¬ Obligations.HostReadCompletes := by
  unfold Obligations.HostReadCompletes
  intro h
  obtain ⟨-, streams⟩ := h worn wornPayload wornTrailer 0 wornRead 1 rfl Memory.wf_nil rfl rfl rfl rfl
    rfl rfl worn_reading.quiet rfl
  obtain ⟨-, reads⟩ := streams (.inl wornTrailer_agrees)
  obtain ⟨playing, -⟩ := reads 0 wornSettings [] [] ⟨1, 0, 0, .pending⟩ {} rfl rfl rfl rfl rfl rfl
    nofun wornTrailer_bytes.symm (by decide)
  obtain ⟨judged, -⟩ := playing (.inr rfl) rfl rfl rfl
  obtain ⟨accepted, -⟩ := judged nofun nofun
  obtain ⟨t, run, -, -, whole⟩ := accepted wornTrailer_agrees (by decide) rfl
  obtain ⟨u, model, gaps⟩ := worn_accepts
  have same : t = u := Host.Outcome.next.inj (run.symm.trans model)
  have kept : (t.work.stream 0).counters.gaps = 2 ^ 32 := by
    rw [whole]
    exact congrArg (fun st => st.counters.gaps) (State.stream_withStream _ 0 _)
  rw [same, gaps] at kept
  exact absurd kept (by decide)

end Sys2Proof.Machine
